-- ==== Sys2Proof/Word.lean ====
section
/-! DEFINITION. The words of the T416: byte, node tick count, lane slice number, plan number, lane record, and the
numbers of lanes and peers. -/

namespace Sys2Proof

/-- A byte of an order frame, a reply frame or the boot image (11.4, 11.5). -/
abbrev Byte := BitVec 8
/-- A node tick count, wrapping at 2^32 (R1). -/
abbrev Tick := BitVec 32
/-- A lane slice number, wrapping at 2^24 (R2). -/
abbrev Slice := BitVec 24
/-- A plan number, wrapping at 2^16 (R4). -/
abbrev PlanNo := BitVec 16
/-- A record at a lane record port, bit 127 first (11.1). -/
abbrev LaneRecord := BitVec 128
/-- A local lane number, 0 to 3. -/
abbrev LaneNo := Fin 4
/-- A peer identity, 0 to 7. -/
abbrev PeerNo := Fin 8
/-- A node lane number, 0 to 31: four times the peer identity plus the local lane. -/
abbrev NodeLane := Fin 32

/-- The four local lanes in rising order. -/
def allLanes : List LaneNo := [0, 1, 2, 3]

end Sys2Proof
end

