-- ==== Sys2Proof/Machine/Bits.lean ====
section
/-! DEFINITION. Bit and byte helpers: fields most significant bit first, the 16-bit check of R193, and small list helpers. -/

namespace Sys2Proof.Machine

/-- The `width` low bits of `n`, most significant first (11: multi-bit fields are sent most significant bit first). -/
def bitsOf (width n : Nat) : List Bool := (List.range width).map fun i => n.testBit (width - 1 - i)

/-- The number a run of bits spells, most significant first. -/
def natOfBits (bits : List Bool) : Nat := bits.foldl (fun a b => 2 * a + b.toNat) 0

/-- The field of `width` bits from position `at_` of a run of bits; positions past its end read recessive, as an undriven bus
does (8.1). -/
def bitField (bits : List Bool) (at_ width : Nat) : Nat :=
  natOfBits ((List.range width).map fun i => (bits[at_ + i]?).getD true)

/-- The bits of a byte, most significant first. -/
def byteBits (b : Byte) : List Bool := bitsOf 8 b.toNat

/-- `n` as `count` bytes, most significant first (11.4). -/
def bytesOf (count n : Nat) : List Byte :=
  (List.range count).map fun i => BitVec.ofNat 8 (n >>> (8 * (count - 1 - i)))

/-- A signed number as `count` bytes of two's complement (11). -/
def bytesOfInt (count : Nat) (z : Int) : List Byte := bytesOf count (BitVec.ofInt (8 * count) z).toNat

/-- The unsigned number that bytes spell, most significant byte first. -/
def natOfBytes (bytes : List Byte) : Nat := bytes.foldl (fun a b => 256 * a + b.toNat) 0

/-- One covered bit of the check (R193): exclusive-or with the top bit, shift left, and the ones at places 12, 5 and 0. -/
def crcStep (reg : BitVec 16) (b : Bool) : BitVec 16 :=
  if b ^^ reg.msb then (reg <<< 1) ^^^ 0x1021#16 else reg <<< 1

/-- The check over a run of bits, from a register of all ones (R193, R197). -/
def crc16 (bits : List Bool) : BitVec 16 := bits.foldl crcStep 0xFFFF#16

/-- The least `k` at or above `start`, within `fuel` numbers, for which `p` holds. -/
def firstUnder (p : Nat → Bool) : (fuel start : Nat) → Option Nat
  | 0, _ => none
  | fuel + 1, k => if p k then some k else firstUnder p fuel (k + 1)

/-- Insert by a numeric key into a list that rises in it. -/
def insertBy {α : Type} (key : α → Nat) (a : α) : List α → List α
  | [] => [a]
  | b :: bs => if key a < key b then a :: b :: bs else b :: insertBy key a bs

/-- The element of least integer key, the earliest in the list among equals. -/
def leastBy {α : Type} (key : α → Int) : List α → Option α
  | [] => none
  | a :: as =>
    match leastBy key as with
    | none => some a
    | some b => if key a ≤ key b then some a else some b

/-- `⌈x / y⌉` (00, "Integer arithmetic"). -/
def ceilDiv (x y : Nat) : Nat := (x + y - 1) / y

/-- `n` clamped into `lo` to `hi`; the upper end wins. -/
def clamp (lo hi n : Nat) : Nat := min (max n lo) hi

/-- `z` clamped into `lo` to `hi`. -/
def clampInt (lo hi z : Int) : Int := min (max z lo) hi

/-- `n + k`, saturating at `top`. -/
def satAdd (top n k : Nat) : Nat := min (n + k) top

end Sys2Proof.Machine
end

