-- ==== Sys2Proof/Config.lean ====
section
/-! DEFINITION. The sizes and limits fixed in the chip, and the records of the boot parameters with their defaults. The
manual leaves no result value undefined, so there is no free value here. -/

namespace Sys2Proof.Config

/-- Entries of the Stream Table (2). -/
def entries : Nat := 4096
/-- Cadence channels (R97). -/
def channels : Nat := 512
/-- Spread views (R144). -/
def views : Nat := 512
/-- Places of the status queue (R186). -/
def statusDepth : Nat := 32
/-- Places of the notice queue (R137). -/
def noticeDepth : Nat := 64
/-- Places of a lane's intake FIFO (R39). -/
def fifoDepth : Nat := 64
/-- The largest outstanding demand, and the largest bytes field of a CLAIM (R20, R138). -/
def maxDemand : Nat := 1048575
/-- Turn list entries of a stream (R27). -/
def turnListDepth : Nat := 8
/-- DATA and POLL entries of a turn list (R27). -/
def dataDepth : Nat := 4
/-- Turns of a plan (R75). -/
def planTurns : Nat := 240
/-- Corrections of a plan (R9). -/
def planCorrections : Nat := 16
/-- Carried dues of a channel (R104). -/
def carriedDepth : Nat := 32
/-- Claims of a view (R148). -/
def claimDepth : Nat := 16
/-- Node ticks a build may take (1.3). -/
def buildTicks : Nat := 1200
/-- Node ticks of one millisecond (8.4). -/
def ticksPerMs : Nat := 20000
/-- Voided attempts that mute the chip (R131). -/
def voidLimit : Nat := 8
/-- Probe attempts of an alignment (7.1). -/
def probeAttempts : Nat := 16
/-- Consecutive EMPTY probes that fail an alignment (7.1). -/
def provisionalEmptyLimit : Nat := 4
/-- Consecutive EMPTY maintenance probes that lose a station (7.1). -/
def maintenanceEmptyLimit : Nat := 8
/-- Bytes of a poll (10.1). -/
def pollPayload : Nat := 8
/-- The tag of a join region. -/
def newcomer : Nat := 16382
/-- The tag of an open region. -/
def anyTag : Nat := 16383
/-- The greatest service tag. -/
def lastServiceTag : Nat := 8191
/-- Bytes of the boot image (R197). -/
def imageBytes : Nat := 340
/-- The format mark of the boot image (R197). -/
def formatMark : Nat := 29718

/-- The first station tag of peer `p`'s block. -/
def stationBase (p : PeerNo) : Nat := 8192 + 1024 * p.val

/-- The station tags of peer `p`'s block, lowest first: 1024 tags, 1022 on peer 7 (R114). -/
def stationTags (p : PeerNo) : List Nat :=
  List.range' (stationBase p) (if p = 7 then 1022 else 1024)

end Sys2Proof.Config

namespace Sys2Proof

/-- A burst profile (4.1): data bytes K, correctable bytes T, bytes per slice S, overhead slices H. -/
structure Profile where
  k : Nat
  t : Nat
  s : Nat
  h : Nat
  deriving DecidableEq, Repr

/-- The lane health limits common to the lanes of the chip (9.1). -/
structure HealthLimits where
  backlogHigh : Nat
  backlogLow : Nat
  openHigh : Nat
  openLow : Nat
  joinHigh : Nat
  joinLow : Nat
  openMin : Nat
  joinMin : Nat
  damageLimit : Nat
  emptyLimit : Nat
  rampLimit : Nat
  rampTimeout : Nat
  deriving DecidableEq, Repr

/-- The chip-wide boot parameters (R173). -/
structure Params where
  fitted : Vector Bool 4
  planLength : Nat
  lead : Nat
  cut : Nat
  margin : Nat
  quantum : Nat
  minFragment : Nat
  quietPoll : Nat
  probeLength : Nat
  joinLength : Nat
  joinInterval : Nat
  omin : Nat
  longTurn : Nat
  holdGap : Nat
  retryLimit : Nat
  noShowLimit : Nat
  outcomeWait : Nat
  unusedLimit : Nat
  releaseWait : Nat
  silenceMs : Nat
  admitWait : Nat
  maintenancePeriod : Nat
  timingTolerance : Nat
  powerTolerance : Nat
  health : HealthLimits
  deriving DecidableEq, Repr

/-- The boot parameters of one lane (R173). -/
structure LaneParams where
  sliceLength : Nat
  lmax : Nat
  weight : Nat
  profiles : Vector Profile 4
  deriving DecidableEq, Repr

/-- The default profile of R173. -/
def Profile.default : Profile := { k := 200, t := 8, s := 24, h := 4 }

/-- The default limits of 9.1. -/
def HealthLimits.default : HealthLimits :=
  { backlogHigh := 48, backlogLow := 16, openHigh := 16, openLow := 2, joinHigh := 8, joinLow := 1,
    openMin := 2, joinMin := 2, damageLimit := 32, emptyLimit := 64, rampLimit := 8, rampTimeout := 64 }

/-- The default chip-wide parameters of R173. -/
def Params.default : Params :=
  { fitted := Vector.replicate 4 true, planLength := 2048, lead := 1024, cut := 128, margin := 32,
    quantum := 1024, minFragment := 64, quietPoll := 8, probeLength := 8, joinLength := 32,
    joinInterval := 4, omin := 16, longTurn := 128, holdGap := 0, retryLimit := 1, noShowLimit := 4,
    outcomeWait := 256, unusedLimit := 0, releaseWait := 3, silenceMs := 20, admitWait := 4096,
    maintenancePeriod := 256, timingTolerance := 64, powerTolerance := 4,
    health := HealthLimits.default }

/-- The default lane parameters of R173. -/
def LaneParams.default : LaneParams :=
  { sliceLength := 64, lmax := 255, weight := 64, profiles := Vector.replicate 4 Profile.default }

end Sys2Proof
end

