-- ==== Sys2Proof/Syntax.lean ====
section
/-! DEFINITION. The commands of the T416: one constructor for each row of spec/opcode_table.json, with the operands
that the records, frames and orders of the spec carry. -/

namespace Sys2Proof

/-- The fields of an ADMIT frame after code and sequence number (11.4): bytes as framed, decoded by the order. -/
structure AdmitFields where
  tag : BitVec 16
  parent : BitVec 16
  classMode : Byte
  quantum : BitVec 16
  pollInterval : Byte
  laneCount : Byte
  lanes : Vector Byte 8
  profiles : Vector Byte 4
  deriving DecidableEq, Repr

/-- The fields of an AMEND frame after code and sequence number (11.4). -/
structure AmendFields where
  tag : BitVec 16
  keep : Byte
  classMode : Byte
  quantum : BitVec 16
  pollInterval : Byte
  profiles : Vector Byte 4
  deriving DecidableEq, Repr

/-- The fields of a CADENCE OPEN frame after code and sequence number (11.4). -/
structure CadenceOpenFields where
  channel : BitVec 16
  tag : BitVec 16
  lane : Byte
  firstDue : BitVec 24
  period : BitVec 24
  payload : BitVec 16
  jitter : BitVec 16
  initialCount : BitVec 16
  endAction : Byte
  deriving DecidableEq, Repr

/-- Another station that drives the bus while a chip sends its arbitration field (R129), with what it drives from that field's first bit
on: a chip that begins at the same bit time and drives nothing once it has lost, or a station that is already in the middle of a frame,
because it counted the bits differently, and drives whatever it reads. -/
inductive Rival where
  | begins (bits : List Bool)
  | midFrame (bits : List Bool)
  deriving DecidableEq, Repr

/-- The commands. A lane record is the 128 bits at the port (11.1). A peer frame is the run of bits read on the bus
from the first arbitration bit on, `true` for recessive (8.1, 11.3). An order carries its sequence number `seq` and its
fields as framed (11.4). The other operands name the lane, entry, view or peer the step concerns. -/
inductive Instr where
  /-- Full reset, with the value of the three strap pins (R173, R190). -/
  | fullReset (straps : PeerNo)
  /-- The boot read ends: the bytes read, or none when the boot memory does not answer (R174, R175, R197). -/
  | bootReadComplete (image : Option (List Byte))
  /-- LISTENING ends (R177). -/
  | ready
  /-- The node time input takes a new value (R1). -/
  | nodeTimeChange (value : Tick)
  | buildPoint (lane : LaneNo)
  | cutDeadline (lane : LaneNo)
  | buildStart
  | cadenceRequest
  | probePlacement
  | joinRegion
  | minimumOpenRegion
  | poll
  | drrVisit
  | leftoverOpenRegion
  | buildCompletion
  | admitCountdownExpiry (entry : Nat)
  | rampTimeout (lane : LaneNo)
  | releaseWait (view : Nat) (lane : LaneNo)
  | take
  | marginPoint (lane : LaneNo)
  /-- A record of any type but carrier at a lane port (R39, R191). -/
  | recordArrival (lane : LaneNo) (record : LaneRecord)
  /-- A carrier record at a lane port (R41, R191). -/
  | carrierRecord (lane : LaneNo) (record : LaneRecord)
  /-- The intake delivers the demand record at the head of the lane's FIFO (R43). -/
  | demandReport (lane : LaneNo)
  /-- The intake delivers the outcome record at the head of the lane's FIFO (R50). -/
  | burstOutcome (lane : LaneNo)
  /-- The intake takes the record of unknown type at the head of the lane's FIFO (R42). -/
  | unknownRecordType (lane : LaneNo)
  /-- The intake delivers the join record at the head of the lane's FIFO (R115). -/
  | joinArrival (lane : LaneNo)
  /-- The turn list entry of the stream in `entry`, named by lane and start slice, expires (R59). -/
  | outcomeWaitExpiry (entry : Nat) (lane : LaneNo) (start : Slice)
  /-- The probe out of the station in `entry` reaches its deadline (R119). -/
  | probeDeadline (entry : Nat)
  /-- A bit time at which this chip may begin its frame: the bits read on the bus before it, since the last bit a bus command
  accounted for, the latest last (log 24), and the other stations that drive at the bits after its start bit (R128, R129). -/
  | frameTransmitStart (before : List Bool) (rivals : List Rival)
  /-- T5 of a well-formed frame (R130). -/
  | frameDelivery (bits : List Bool)
  /-- T5 of a voided frame (R131). -/
  | frameVoided (bits : List Bool)
  | peerSilence (peer : PeerNo)
  | muteRecovery
  | refresh
  | admitOrder (seq : Byte) (fields : AdmitFields)
  | amend (seq : Byte) (fields : AmendFields)
  | retire (seq : Byte) (tag : BitVec 16)
  | cadenceOpen (seq : Byte) (fields : CadenceOpenFields)
  | cadenceClose (seq : Byte) (channel : BitVec 16)
  | laneUp (seq : Byte) (lane : Byte) (weight : Byte)
  | laneDown (seq : Byte) (lane : Byte)
  | readStream (seq : Byte) (selector : Byte) (value : BitVec 16)
  | readNext (seq : Byte)
  | readCadence (seq : Byte) (channel : BitVec 16)
  | readLane (seq : Byte) (lane : Byte) (clearSet : BitVec 16)
  | readPeers (seq : Byte)
  | fetchStatus (seq : Byte)
  | status (seq : Byte) (mark : Byte)
  /-- An order frame, as its bytes, that fails the BAD_FORMAT check (R179, R195). -/
  | orderBadFormat (frame : List Byte)
  /-- A reply transaction in which `bits` bits are clocked out (R178, R196). -/
  | replyTransaction (bits : Nat)
  deriving DecidableEq, Repr

end Sys2Proof
end

