-- ==== Sys2Proof/Machine/State.lean ====
section
/-! DEFINITION. The state of the T416, as plain data: every register, table, queue, counter and mark the spec gives it,
and the queue of commands that wait. -/

namespace Sys2Proof.Machine

/-- No command of the T416 stops it with a fault: the spec answers every error by a refusal reply, a sticky flag, a status
message, a mute or HALTED, and each of these is a next state. So this type has no constructor and nothing raises it (safe). -/
inductive Fault where
  deriving DecidableEq, Repr

/-- Reasons for a step to be refused. -/
inductive Refusal where
  /-- Raised by an arm of `exec` whose command has no meaning yet; no arm of the present `exec` raises it (safe: it stops). -/
  | notModelled (mnemonic : String)
  deriving DecidableEq, Repr

/-! ### Named values -/

/-- Start-up states (10.2), in the order of that table's next states. -/
inductive Startup where
  | loading | listening | halted | ready
  deriving DecidableEq, Repr

/-- Lane states (9.2). -/
inductive LaneState where
  | dark | ramp | live
  deriving DecidableEq, Repr

/-- Carrier states (R41). -/
inductive Carrier where
  | absent | present
  deriving DecidableEq, Repr

/-- Build states of a lane (1.4). -/
inductive BuildState where
  | idle | pending | building
  deriving DecidableEq, Repr

/-- Stream states of an entry in use (2.3); a FREE entry is not listed in the table. -/
inductive StreamState where
  | provisional | basic | admitted | closing
  deriving DecidableEq, Repr

/-- Report modes. -/
inductive ReportMode where
  | edge | level
  deriving DecidableEq, Repr

/-- Turn kinds (R19), coded by position in a turn word (11.2). -/
inductive TurnKind where
  | data | poll | cadence | probe | openRegion | joinRegion
  deriving DecidableEq, Repr

/-- Results of a burst outcome (3.3). -/
inductive BurstResult where
  | good | empty | damaged | collided
  deriving DecidableEq, Repr

/-- Statuses of a correction (R19). -/
inductive CorrectionStatus where
  | cont | done | abort
  deriving DecidableEq, Repr

/-- States of a cadence channel that holds a program (6.1); an IDLE channel is not listed. -/
inductive ChannelState where
  | standby | running | draining
  deriving DecidableEq, Repr

/-- End actions of a cadence program. -/
inductive EndAction where
  | stop | reload
  deriving DecidableEq, Repr

/-- Causes of a mute (8.2). -/
inductive MuteCause where
  | voidLimit | idClash
  deriving DecidableEq, Repr

/-- Bus states (8.2). -/
inductive BusState where
  | listenOnly | active | mute (cause : MuteCause)
  deriving DecidableEq, Repr

/-- The eleven sticky lane flags, in the order of the table of 9.6. -/
inductive Flag where
  | backlogHigh | openCollideHigh | joinCollideHigh | damageHigh | emptyHigh | stray | intakeOverrun
  | openSqueezed | planSkipped | planLapsed | rampFail
  deriving DecidableEq, Repr

/-- Causes of a retirement (R36, R126). -/
inductive RetireCause where
  | order | admitExpiry | parent | rejoin | failure | laneDown
  deriving DecidableEq, Repr

/-! ### Plans (1.5, 1.6) -/

/-- A correction (R19). -/
structure Correction where
  tag : Nat
  status : CorrectionStatus
  timing : Int
  power : Int
  deriving DecidableEq, Repr

/-- A backoff pair: start and end exponent. -/
structure Backoff where
  first : Nat
  last : Nat
  deriving DecidableEq, Repr

/-- A turn of a plan (R19); `offset` counts slices from the plan start. -/
structure PlanTurn where
  tag : Nat
  kind : TurnKind
  offset : Nat
  length : Nat
  profile : Nat
  payload : Nat
  deriving DecidableEq, Repr

/-- A finished plan (R18, R19). The counts are the lengths of the lists. -/
structure Plan where
  planNo : PlanNo
  start : Slice
  length : Nat
  laneState : LaneState
  openPair : Backoff
  joinPair : Backoff
  corrections : List Correction
  turns : List PlanTurn
  deriving DecidableEq, Repr

/-- A run of unassigned slices, by offset from the plan start (R73). -/
structure Gap where
  start : Nat
  length : Nat
  deriving DecidableEq, Repr

/-- Where the data step stands: the floor it read, the class it serves, and the consecutive visits without a placement
(R86). -/
structure DataStep where
  floor : Nat
  cls : Nat
  visits : Nat
  deriving DecidableEq, Repr

/-- The build in flight: its header values (R7), its working state (R73) and how far each step has come (R76). -/
structure Build where
  lane : LaneNo
  planNo : PlanNo
  start : Slice
  laneState : LaneState
  openPair : Backoff
  joinPair : Backoff
  startTick : Tick
  /-- the step the builder is in; 0 until step 1 begins (R99) -/
  step : Nat
  gaps : List Gap
  /-- the placed list, in placement order -/
  placed : List PlanTurn
  probeTotal : Nat
  /-- the carried cadence requests have all been answered (R77) -/
  cadenceDue : Bool
  /-- provisional stations step 2 has reached (R118) -/
  probePassed : List Nat
  /-- step 2 has come to the maintenance probes, and to this tag (R80) -/
  maintenanceFrom : Option Nat
  probeStopped : Bool
  joinTried : Bool
  /-- step 3 of this build set the join countdown (R81) -/
  joinSet : Bool
  openTried : Bool
  /-- the entry number step 5 has come to (R84) -/
  pollFrom : Nat
  /-- entries whose poll countdown this build reloaded (R26) -/
  reloaded : List Nat
  dataStep : Option DataStep
  /-- views for which something was placed in this build (R73, R92) -/
  marks : List Nat
  /-- the margin point of the build's own interval was seen before its completion (R10) -/
  marginSeen : Bool
  deriving DecidableEq, Repr

/-! ### Streams (2) and alignment records (7.1) -/

/-- A turn list entry (2.4). Its end slice is start plus length. -/
structure Turn where
  lane : LaneNo
  planNo : PlanNo
  kind : TurnKind
  start : Slice
  length : Nat
  payload : Nat
  stale : Bool
  channel : Option Nat
  deriving DecidableEq, Repr

/-- A placed and unresolved probe (7.1). -/
structure ProbeOut where
  planNo : PlanNo
  lane : LaneNo
  start : Slice
  stop : Slice
  deriving DecidableEq, Repr

/-- The alignment record of a station entry (7.1). -/
structure Alignment where
  attempts : Nat
  emptyRun : Nat
  maintenance : Option Nat
  maintenanceEmpty : Nat
  lastTiming : Int
  lastPower : Int
  probeOut : Option ProbeOut
  deriving DecidableEq, Repr

/-- Where a stream is served: on its home lane, or over a spread set with a view. -/
inductive Place where
  | home (lane : LaneNo)
  | spread (set : List NodeLane) (view : Nat)
  deriving DecidableEq, Repr

/-- An entry of the Stream Table that is in use (2.1). A spread stream's outstanding demand and poll interval stand at 0
and its poll countdown is absent. `profiles` and `hold` are read for the stream's own lanes alone. -/
structure Stream where
  entry : Nat
  tag : Nat
  state : StreamState
  parent : Nat
  address : Option (BitVec 48)
  cls : Nat
  mode : ReportMode
  quantum : Nat
  deficit : Nat
  demand : Nat
  place : Place
  profiles : Vector Nat 4
  pollInterval : Nat
  pollCountdown : Option Nat
  hold : Vector (Option Slice) 4
  noShow : Nat
  quiet : Bool
  retry : Nat
  admitCountdown : Option Nat
  turns : List Turn
  alignment : Option Alignment
  deriving DecidableEq, Repr

/-! ### Cadence channels (6.1) -/

/-- The final mark of a DRAINING channel. -/
structure FinalMark where
  planNo : PlanNo
  start : Slice
  due : Slice
  deriving DecidableEq, Repr

/-- A cadence channel that holds a program. `initial = 0` means endless, and then `count` stands at 0. -/
structure Channel where
  number : Nat
  state : ChannelState
  tag : Nat
  lane : LaneNo
  period : Nat
  payload : Nat
  jitter : Nat
  initial : Nat
  count : Nat
  endAction : EndAction
  firstDue : Slice
  nextDue : Option Slice
  openingPlan : PlanNo
  carried : List Slice
  finalMark : Option FinalMark
  lastTurn : Option Slice
  misses : Nat
  unused : Nat
  deriving DecidableEq, Repr

/-! ### Spread views (8.5) -/

/-- A live lane of a view: its share, its claimed bytes, and whether it is in the excluded set. -/
structure Share where
  lane : NodeLane
  share : Nat
  claimed : Nat
  excluded : Bool
  deriving DecidableEq, Repr

/-- What a view holds for an own lane of its spread set. -/
structure OwnLane where
  lane : LaneNo
  pending : Nat
  waits : Nat
  sent : Bool
  deriving DecidableEq, Repr

/-- A claim list entry. -/
structure Claim where
  lane : NodeLane
  bytes : Nat
  endTick : Tick
  deriving DecidableEq, Repr

/-- A spread view in use. -/
structure View where
  index : Nat
  tag : Nat
  entry : Nat
  set : List NodeLane
  epoch : BitVec 8
  announced : Nat
  live : List Share
  own : List OwnLane
  claims : List Claim
  deriving DecidableEq, Repr

/-! ### The peer bus (8) -/

/-- A notice (8.3). -/
inductive Notice where
  | lane (lane : LaneNo) (state : LaneState) (weight : Nat)
  | release (tag : Nat) (epoch : BitVec 8) (lane : NodeLane) (bytes : Nat)
  | claim (tag : Nat) (epoch : BitVec 8) (lane : NodeLane) (bytes : Nat) (endTick : Tick)
  | demand (tag : Nat) (epoch : BitVec 8) (amount : Nat)
  deriving DecidableEq, Repr

/-- A peer directory entry (R141). -/
inductive PeerState where
  | absent | present (heard : Tick) | self
  deriving DecidableEq, Repr

/-- What a lane directory entry holds unless ABSENT (R142). -/
structure LaneAd where
  state : LaneState
  weight : Nat
  deriving DecidableEq, Repr

/-- Where a station stands on the bus (R128): counting recessive bits, of which 7 make it idle, or following a frame, with the bits
read since its start bit. A sender follows its own frame. -/
inductive BusReader where
  | counting (recessive : Nat) | following (bits : List Bool)
  deriving DecidableEq, Repr

/-- The Peer Bus Controller. -/
structure Bus where
  state : BusState
  clash : Bool
  queue : List Notice
  holder : Option Notice
  voidCount : Nat
  sending : Bool
  clashSeen : Bool
  reader : BusReader
  mutedAt : Tick
  refreshAt : Tick
  refreshNext : LaneNo
  peers : Vector PeerState 8
  lanes : Vector (Option LaneAd) 32
  deriving DecidableEq, Repr

/-! ### The order port (10) -/

/-- Causes of JOIN_FAILED, in the order of the table of 10.4. -/
inductive JoinFail where
  | noRoom | noConverge | silent | laneDown
  deriving DecidableEq, Repr

/-- Causes of STATION_LOST. -/
inductive LossCause where
  | silent | rejoin | notAdmitted
  deriving DecidableEq, Repr

/-- Causes of CADENCE_ENDED. -/
inductive EndCause where
  | count | closed | retired | unused
  deriving DecidableEq, Repr

/-- Causes of LANE_STATE. -/
inductive LaneCause where
  | enabled | carrierFound | rampDone | rampTimeout | disabled | carrierLost
  deriving DecidableEq, Repr

/-- Status messages (10.4). -/
inductive Message where
  | joined (tag : Nat) (address : BitVec 48) (lane : LaneNo)
  | joinFailed (address : BitVec 48) (lane : LaneNo) (cause : JoinFail)
  | stationLost (tag : Nat) (cause : LossCause)
  | retired (tag : Nat)
  | cadenceEnded (channel : Nat) (tag : Nat) (cause : EndCause)
  | laneState (lane : LaneNo) (state : LaneState) (cause : LaneCause)
  | peerState (peer : PeerNo) (present : Bool)
  | busState (mute : Option MuteCause)
  deriving DecidableEq, Repr

/-- Results of a reply (R196). -/
inductive ReplyResult where
  | done | clamped | refused
  deriving DecidableEq, Repr

/-- Reasons and notes of a reply (R196). -/
inductive ReplyNote where
  | none | badTag | tagInUse | noEntry | noView | badParent | badMode | badLane | badChannel | channelBusy
  | notReady | badFormat | endNote | emptyNote
  deriving DecidableEq, Repr

/-- A reply (R196). -/
structure Reply where
  seq : Byte
  result : ReplyResult
  note : ReplyNote
  data : List Byte
  deriving DecidableEq, Repr

/-- The reply holder (R178). -/
inductive ReplyHolder where
  | empty | unread (reply : Reply) | read (reply : Reply)
  deriving DecidableEq, Repr

/-- The Order Port. Two fields are the model's own: `walkStart`, set while the cursor stands where reset or END left it, so that
the next walk starts again from entry 0 (R181, log 34), and `replyOut`, the bits the last reply transaction shifted out. -/
structure OrderPort where
  holder : ReplyHolder
  statusQueue : List Message
  overflow : Bool
  summary : Bool
  cursor : Nat
  walkStart : Bool
  replyOut : List Bool
  deriving DecidableEq, Repr

/-! ### Lanes -/

/-- The readings of the last evaluation (9.1). -/
structure Readings where
  backlog : Nat
  openCollisions : Nat
  joinCollisions : Nat
  damage : Nat
  empty : Nat
  deriving DecidableEq, Repr

/-- The Lane Health Unit's record of a lane (9.1). `flags` is numbered as the clear set of 11.4: bit 10 BACKLOG_HIGH down to
bit 0 RAMP_FAIL. -/
structure Health where
  state : LaneState
  enable : Bool
  carrier : Carrier
  weight : Nat
  floor : Nat
  openPair : Backoff
  joinPair : Backoff
  openCount : Nat
  joinCount : Nat
  damageCount : Nat
  emptyCount : Nat
  readings : Readings
  flags : BitVec 11
  goodProbes : Nat
  rampBuilds : Nat
  deriving DecidableEq, Repr

/-- A lane's turn-sizing table (R62). -/
structure Sizing where
  profiles : Vector Profile 4
  lmax : Nat
  ld : Vector Nat 4
  minFragment : Vector Nat 4
  pollLength : Vector Nat 4
  deriving DecidableEq, Repr

/-- All the blocks hold for one local lane. -/
structure Lane where
  slice : Slice
  sub : Nat
  sliceLength : Nat
  bootWeight : Nat
  sizing : Option Sizing
  planNo : PlanNo
  nextPlanStart : Option Slice
  buildState : BuildState
  deferred : Bool
  joinCountdown : Nat
  outQueue : Option Plan
  fifo : List LaneRecord
  carrier : Carrier
  /-- the active rings of classes 1 to 6, as entry numbers, head first (R30) -/
  rings : Vector (List Nat) 6
  provisional : List Nat
  corrections : List Correction
  /-- the LANE owed mark (R139) -/
  owed : Bool
  health : Health
  deriving DecidableEq, Repr

/-- The Boot Loader. -/
structure Boot where
  startup : Startup
  peerId : PeerNo
  bootClamped : Bool
  listenStart : Tick
  params : Params
  deriving DecidableEq, Repr

/-- The state of the chip. -/
structure State where
  boot : Boot
  nodeTime : Tick
  lanes : Vector Lane 4
  table : List Stream
  tagMap : List (Nat × Nat)
  stationIndex : List (BitVec 48 × Nat)
  pool : List Nat
  channels : List Channel
  builder : Option Build
  views : List View
  /-- the model's own: release waits reached at a completion and not yet offered (R154) -/
  releaseDue : List (Nat × LaneNo)
  bus : Bus
  port : OrderPort
  /-- the model's own: the commands that wait, first in first out -/
  pending : List Instr
  deriving DecidableEq, Repr

/-! ### Reset values -/

/-- The health record after a full reset (9.1, R156), with the boot lane weight and the minimum starts. -/
def Health.reset (weight openMin joinMin : Nat) : Health :=
  { state := .dark, enable := false, carrier := .absent, weight := weight, floor := 0,
    openPair := { first := openMin, last := openMin }, joinPair := { first := joinMin, last := joinMin },
    openCount := 0, joinCount := 0, damageCount := 0, emptyCount := 0,
    readings := { backlog := 65535, openCollisions := 65535, joinCollisions := 65535, damage := 65535, empty := 65535 },
    flags := 0, goodProbes := 0, rampBuilds := 0 }

/-- A lane after a full reset (R2, R3, R4, R12, R20, R39, R41, R62, R81, R156). Its boot values stand at the defaults until
the boot read (DESIGN CHOICE, log 4, unsafe). -/
def Lane.reset : Lane :=
  { slice := 0, sub := 0, sliceLength := LaneParams.default.sliceLength, bootWeight := LaneParams.default.weight,
    sizing := none, planNo := 0, nextPlanStart := none, buildState := .idle, deferred := false, joinCountdown := 0,
    outQueue := none, fifo := [], carrier := .absent, rings := Vector.replicate 6 [], provisional := [], corrections := [],
    owed := false,
    health := Health.reset LaneParams.default.weight HealthLimits.default.openMin HealthLimits.default.joinMin }

/-- The Peer Bus Controller after a full reset (R131, R133, R141). It has read no recessive bit yet (log 24). -/
def Bus.reset (self : PeerNo) : Bus :=
  { state := .listenOnly, clash := false, queue := [], holder := none, voidCount := 0, sending := false,
    clashSeen := false, reader := .counting 0, mutedAt := 0, refreshAt := 0, refreshNext := 0,
    peers := (Vector.replicate 8 PeerState.absent).set self.val .self, lanes := Vector.replicate 32 none }

/-- The Order Port after a full reset (R178, R186, R190). -/
def OrderPort.reset : OrderPort :=
  { holder := .empty, statusQueue := [], overflow := false, summary := false, cursor := 4095, walkStart := true, replyOut := [] }

/-- The chip after a full reset that samples `self` from the straps, while the node time input stands at `now` (R190). -/
def State.resetFor (self : PeerNo) (now : Tick) : State :=
  { boot := { startup := .loading, peerId := self, bootClamped := false, listenStart := 0, params := Params.default },
    nodeTime := now, lanes := Vector.replicate 4 Lane.reset, table := [], tagMap := [], stationIndex := [],
    pool := Config.stationTags self, channels := [], builder := none, views := [], releaseDue := [],
    bus := Bus.reset self, port := OrderPort.reset, pending := [] }

/-- The machine right after reset. The straps and the node time input are outside the chip: 0 for both is a DESIGN CHOICE
(log 2, log 3, unsafe). -/
def State.reset : State := State.resetFor 0 0

end Sys2Proof.Machine
end

