-- ==== Sys2Proof/Machine/Time.lean ====
section
/-! DEFINITION. Wrapping counts, lane slices in node time, and the advance of the lane slice counters (1.1). -/

namespace Sys2Proof.Machine

/-- `a` is after `b`: their difference, modulo the count's size, lies between 1 and half the size less one (00,
"Wrapping counts"). -/
def countAfter {w : Nat} (a b : BitVec w) : Bool :=
  decide (1 ≤ (a - b).toNat) && decide ((a - b).toNat ≤ 2 ^ (w - 1) - 1)

/-- `a` is before `b`: the reverse of after. -/
def countBefore {w : Nat} (a b : BitVec w) : Bool := countAfter b a

/-- The count stands at `mark` or has passed it: `mark` is not after `now`. -/
def countReached {w : Nat} (mark now : BitVec w) : Bool := !countAfter mark now

/-- `sl + n` slices, modulo 2^24. -/
def sliceAdd (sl : Slice) (n : Nat) : Slice := sl + BitVec.ofNat 24 n

/-- `sl - n` slices, modulo 2^24. -/
def sliceSub (sl : Slice) (n : Nat) : Slice := sl - BitVec.ofNat 24 n

/-- The signed distance from slice `b` to slice `a`, in the wrapping sense. -/
def sliceDistance (a b : Slice) : Int := (a - b).toInt

/-- Node ticks from now to the start of slice `sl` of the lane, counted from its present slice number and sub-slice count
at its slice length; negative once that start has passed (R5). -/
def ticksUntil (L : Lane) (sl : Slice) : Int := sliceDistance sl L.slice * L.sliceLength - L.sub

/-- The node tick at which the lane reaches the start of slice `sl` (R5, R92). -/
def tickOfSlice (now : Tick) (L : Lane) (sl : Slice) : Tick := now + BitVec.ofInt 32 (ticksUntil L sl)

/-- The lane stands at the very tick at which slice `sl` starts. -/
def atSliceStart (L : Lane) (sl : Slice) : Bool := L.slice == sl && L.sub == 0

/-- One node tick on a lane's counters (R2). -/
def Lane.tick (L : Lane) : Lane :=
  if L.sub + 1 ≥ L.sliceLength then { L with sub := 0, slice := L.slice + 1 } else { L with sub := L.sub + 1 }

/-- The end slice of a turn list entry (2.4). -/
def Turn.stop (t : Turn) : Slice := sliceAdd t.start t.length

/-- One silence limit in node ticks (8.4). -/
def silenceTicks (p : Params) : Nat := p.silenceMs * Config.ticksPerMs

/-- `t + n` node ticks. -/
def tickAdd (t : Tick) (n : Nat) : Tick := t + BitVec.ofNat 32 n

end Sys2Proof.Machine
end

