-- ==== Sys2Proof/Machine/Ops.lean ====
section
/-! DEFINITION. The shared operations over the chip's tables: lanes, stream entries, the tag map and station index, cadence
channels, views, the build in flight, the status queue and the reply holder. -/

namespace Sys2Proof.Machine

/-! ### Lanes and parameters -/

/-- The boot parameters in force. -/
def State.params (s : State) : Params := s.boot.params

/-- The record of a local lane. -/
def State.lane (s : State) (l : LaneNo) : Lane := s.lanes[l.val]

/-- Change the record of a local lane. -/
def modLane (l : LaneNo) (f : Lane → Lane) (s : State) : State :=
  { s with lanes := s.lanes.set l.val (f (s.lane l)) }

/-- Change a lane's health record. -/
def modHealth (l : LaneNo) (f : Health → Health) (s : State) : State :=
  modLane l (fun L => { L with health := f L.health }) s

/-- The lane is fitted (R173). -/
def State.fitted (s : State) (l : LaneNo) : Bool := s.params.fitted[l.val]

/-- The fitted lanes in rising order. -/
def State.fittedLanes (s : State) : List LaneNo := allLanes.filter s.fitted

/-- The lane state of a local lane. -/
def State.laneState (s : State) (l : LaneNo) : LaneState := (s.lane l).health.state

/-- Node lane of a local lane of peer `p`: four times the identity plus the local lane. -/
def nodeLaneOf (p : PeerNo) (l : LaneNo) : NodeLane := ⟨4 * p.val + l.val, by omega⟩

/-- The node lane of an own local lane. -/
def State.nodeLane (s : State) (l : LaneNo) : NodeLane := nodeLaneOf s.boot.peerId l

/-- The peer that owns a node lane. -/
def ownerOf (n : NodeLane) : PeerNo := ⟨n.val / 4, by omega⟩

/-- The local lane number of a node lane on its owner. -/
def localOf (n : NodeLane) : LaneNo := ⟨n.val % 4, by omega⟩

/-! ### The Stream Table and its two maps (2.1, 2.2) -/

/-- The entry in use with this number; a FREE entry is none. -/
def State.entry? (s : State) (n : Nat) : Option Stream := s.table.find? fun e => e.entry == n

/-- Change an entry in use. -/
def modEntry (n : Nat) (f : Stream → Stream) (s : State) : State :=
  { s with table := s.table.map fun e => if e.entry == n then f e else e }

/-- The entry number a tag is mapped to (R21). -/
def State.lookupTag (s : State) (tag : Nat) : Option Nat := (s.tagMap.find? fun p => p.1 == tag).map (·.2)

/-- The stream that carries a tag (R21). -/
def State.byTag (s : State) (tag : Nat) : Option Stream := (s.lookupTag tag).bind s.entry?

/-- The entry number of a station address (R22). -/
def State.lookupAddress (s : State) (a : BitVec 48) : Option Nat :=
  (s.stationIndex.find? fun p => p.1 == a).map (·.2)

/-- The lowest-numbered FREE entry (R23). -/
def State.lowestFree (s : State) : Option Nat := firstUnder (fun n => (s.entry? n).isNone) Config.entries 0

/-- Fill an entry and enter its tag in the tag map (R21, R24, R33). -/
def addEntry (e : Stream) (s : State) : State :=
  { s with table := insertBy Stream.entry e s.table, tagMap := insertBy Prod.fst (e.tag, e.entry) s.tagMap }

/-- A station entry names itself as parent (2.1). -/
def Stream.isStation (e : Stream) : Bool := e.parent == e.entry

/-- The stream is BASIC or ADMITTED. -/
def Stream.served (e : Stream) : Bool := e.state == .basic || e.state == .admitted

/-- The home lane of a non-spread stream. -/
def Stream.homeLane (e : Stream) : Option LaneNo :=
  match e.place with
  | .home l => some l
  | .spread _ _ => none

/-- The stream is non-spread and homed on the lane. -/
def Stream.homedOn (e : Stream) (l : LaneNo) : Bool := e.homeLane == some l

/-- The spread set of a spread stream, empty for a non-spread one. -/
def Stream.spreadSet (e : Stream) : List NodeLane :=
  match e.place with
  | .home _ => []
  | .spread set _ => set

/-- The stream is spread. -/
def Stream.isSpread (e : Stream) : Bool := e.homeLane.isNone

/-- The own lanes of a stream: its home lane, or the lanes of its spread set that belong to this chip (2.1). -/
def ownLanes (self : PeerNo) (e : Stream) : List LaneNo :=
  match e.place with
  | .home l => [l]
  | .spread set _ => allLanes.filter fun l => set.contains (nodeLaneOf self l)

/-- The stream may be granted cadence turns on the lane: homed there, or holding it in its spread set (R77, R98). -/
def servesLane (self : PeerNo) (e : Stream) (l : LaneNo) : Bool := (ownLanes self e).contains l

/-- The stream's profile index on a lane. -/
def Stream.profile (e : Stream) (l : LaneNo) : Nat := e.profiles[l.val]

/-- Turn list entries that are DATA or POLL (R27). -/
def Stream.dataEntries (e : Stream) : Nat :=
  (e.turns.filter fun t => t.kind == .data || t.kind == .poll).length

/-- The turn list has room for a DATA or POLL turn (R27). -/
def Stream.listHasRoom (e : Stream) : Bool :=
  decide (e.turns.length < Config.turnListDepth) && decide (e.dataEntries < Config.dataDepth)

/-- The turn list entry at a lane and start slice; the pair identifies one (2.4). -/
def Stream.turnAt (e : Stream) (l : LaneNo) (start : Slice) : Option Turn :=
  e.turns.find? fun t => t.lane == l && t.start == start

/-- Remove the turn list entry at a lane and start slice. -/
def dropTurn (n : Nat) (l : LaneNo) (start : Slice) (s : State) : State :=
  modEntry n (fun e => { e with turns := e.turns.filter fun t => !(t.lane == l && t.start == start) }) s

/-- Append a turn list entry; with `evict`, the oldest is removed first from a list of 8 (R27, R28, R74). -/
def appendTurn (n : Nat) (t : Turn) (evict : Bool) (s : State) : State :=
  modEntry n (fun e =>
    let kept := if evict && decide (e.turns.length ≥ Config.turnListDepth) then e.turns.drop 1 else e.turns
    { e with turns := kept ++ [t] }) s

/-- Change a station's alignment record. -/
def modAlignment (n : Nat) (f : Alignment → Alignment) (s : State) : State :=
  modEntry n (fun e => { e with alignment := e.alignment.map f }) s

/-- The poll countdown's reload value (R26). -/
def reloadValue (p : Params) (e : Stream) : Nat := if e.quiet then p.quietPoll else e.pollInterval

/-- The poll countdown as R26 gives it from poll interval and quiet mark: a countdown that comes into being takes the reload
value, one whose conditions no longer hold becomes absent, and one that runs stands. -/
def settlePoll (p : Params) (e : Stream) : Stream :=
  if e.served && !e.isSpread && (decide (e.pollInterval > 0) || e.quiet) then
    match e.pollCountdown with
    | some _ => e
    | none => { e with pollCountdown := some (reloadValue p e) }
  else { e with pollCountdown := none }

/-! ### Cadence channels and views -/

/-- The channel of this number that holds a program; an IDLE channel is none. -/
def State.channel? (s : State) (k : Nat) : Option Channel := s.channels.find? fun c => c.number == k

/-- Change a channel that holds a program. -/
def modChannel (k : Nat) (f : Channel → Channel) (s : State) : State :=
  { s with channels := s.channels.map fun c => if c.number == k then f c else c }

/-- The view of a tag (R144). -/
def State.viewOf (s : State) (tag : Nat) : Option View := s.views.find? fun v => v.tag == tag

/-- The view in use with this index. -/
def State.view? (s : State) (i : Nat) : Option View := s.views.find? fun v => v.index == i

/-- The lowest-numbered view not in use (R144). -/
def State.lowestView (s : State) : Option Nat := firstUnder (fun i => (s.view? i).isNone) Config.views 0

/-- Change the build in flight. -/
def modBuild (f : Build → Build) (s : State) : State := { s with builder := s.builder.map f }

/-- Change the Peer Bus Controller. -/
def modBus (f : Bus → Bus) (s : State) : State := { s with bus := f s.bus }

/-- Change the Order Port. -/
def modPort (f : OrderPort → OrderPort) (s : State) : State := { s with port := f s.port }

/-! ### Status messages and replies -/

/-- Queue a status message; at a full queue it is dropped and OVERFLOW is set (R186, R187). -/
def queueStatus (m : Message) (s : State) : State :=
  if s.port.statusQueue.length < Config.statusDepth then
    modPort (fun p => { p with statusQueue := p.statusQueue ++ [m] }) s
  else modPort (fun p => { p with overflow := true }) s

/-- Place an order's reply in the reply holder, which becomes UNREAD (R178). -/
def putReply (seq : Byte) (result : ReplyResult) (note : ReplyNote) (data : List Byte) (s : State) : State :=
  modPort (fun p => { p with holder := .unread { seq := seq, result := result, note := note, data := data } }) s

/-- Refuse an order with its reason (R179). -/
def refuse (seq : Byte) (reason : ReplyNote) (s : State) : State := putReply seq .refused reason [] s

/-- Answer an order DONE, with the CLAMPED note when a numeric field was clamped (R179). -/
def answerDone (seq : Byte) (clamped : Bool) (s : State) : State :=
  putReply seq (if clamped then .clamped else .done) .none [] s

/-- The NOT_READY check of an order other than STATUS (R179): outside READY it is refused and changes nothing else. -/
def whenReady (seq : Byte) (k : State → State) (s : State) : State :=
  if s.boot.startup = .ready then k s else refuse seq .notReady s

/-- The fitted local lane a lane byte names; a value above 3 is not a fitted lane (R195). -/
def State.fittedByte (s : State) (b : Byte) : Option LaneNo :=
  if h : b.toNat < 4 then
    if s.fitted ⟨b.toNat, h⟩ then some ⟨b.toNat, h⟩ else none
  else none

end Sys2Proof.Machine
end

