-- ==== Sys2Proof/Machine/Operands.lean ====
section
/-! DEFINITION. The fields of lane records (11.1, R42, R191) and of order frames (11.4, R195). -/

namespace Sys2Proof.Machine

/-! ### Lane records (11.1) -/

/-- The field of a lane record from bit `hi` down to bit `lo`. -/
def recordField (w : LaneRecord) (hi lo : Nat) : Nat := (w.toNat >>> lo) % 2 ^ (hi - lo + 1)

/-- The record's 3-bit type. -/
def recordType (w : LaneRecord) : Nat := recordField w 127 125

/-- The tag of a demand or outcome record. -/
def recordTag (w : LaneRecord) : Nat := recordField w 122 109

/-- A demand record's kind: 0 OPEN, 1 PIGGY, 2 POLL; 3 cannot be decoded. -/
def demandKind (w : LaneRecord) : Nat := recordField w 124 123

/-- A demand record's amount, saturating at 1,048,575 (R42, R191). -/
def demandAmount (w : LaneRecord) : Nat := min (recordField w 108 85) Config.maxDemand

/-- The start slice of the turn that carried a report. -/
def demandCarrying (w : LaneRecord) : Slice := BitVec.ofNat 24 (recordField w 84 61)

/-- An outcome record's result; every value of the field names one (R191). -/
def outcomeResult (w : LaneRecord) : BurstResult :=
  match recordField w 124 123 with
  | 0 => .good
  | 1 => .empty
  | 2 => .damaged
  | _ => .collided

/-- An outcome record's start slice. -/
def outcomeStart (w : LaneRecord) : Slice := BitVec.ofNat 24 (recordField w 108 85)

/-- A 20-bit timing offset, taken into -32768 to 32767 (R42, R61). -/
def timingField (n : Nat) : Int := clampInt (-32768) 32767 (BitVec.ofNat 20 n).toInt

/-- A 10-bit power offset, taken into -128 to 127 (R42, R61). -/
def powerField (n : Nat) : Int := clampInt (-128) 127 (BitVec.ofNat 10 n).toInt

/-- An outcome record's timing offset. -/
def outcomeTiming (w : LaneRecord) : Int := timingField (recordField w 84 65)

/-- An outcome record's power offset. -/
def outcomePower (w : LaneRecord) : Int := powerField (recordField w 64 55)

/-- A join record's station address. -/
def joinAddress (w : LaneRecord) : BitVec 48 := BitVec.ofNat 48 (recordField w 124 77)

/-- A join record's timing offset. -/
def joinTiming (w : LaneRecord) : Int := timingField (recordField w 52 33)

/-- A join record's power offset. -/
def joinPower (w : LaneRecord) : Int := powerField (recordField w 32 23)

/-- A carrier record's value, judged on bit 124 alone (R191). -/
def carrierValue (w : LaneRecord) : Carrier := if recordField w 124 124 = 1 then .present else .absent

/-! ### Order fields (11.4, R195) -/

/-- Class: bits 2-0 of the class and mode byte. -/
def classOf (b : Byte) : Nat := b.toNat % 8

/-- Mode: bit 7 of the class and mode byte, 0 EDGE, 1 LEVEL. -/
def modeOf (b : Byte) : ReportMode := if b.msb then .level else .edge

/-- End action: bit 0, 0 STOP, 1 RELOAD. -/
def endActionOf (b : Byte) : EndAction := if b.toNat % 2 = 1 then .reload else .stop

/-- A keep mark of AMEND: bits 0 to 3 class, mode, quantum, poll interval; bits 4 to 7 the profiles of lanes 0 to 3. -/
def keeps (mask : Byte) (bit : Nat) : Bool := mask.toNat.testBit bit

/-- A quantum is clamped into 64 to 16,384 and rounded down to a multiple of 64 (R33). -/
def clampQuantum (q : Nat) : Nat := clamp 64 16384 q / 64 * 64

/-- A profile above 3 is clamped to 3 (R33). -/
def clampProfile (p : Nat) : Nat := min p 3

/-- The spread set of an ADMIT: the first `laneCount` lane bytes; a node lane named twice counts once (R32, 11.4). -/
def spreadOf (f : AdmitFields) : List NodeLane :=
  (List.finRange 32).filter fun n => (f.lanes.toList.take f.laneCount.toNat).any fun b => b.toNat == n.val

/-- An ADMIT is malformed: a lane count above 8, or a spread lane byte within the count above 31 (R195). -/
def admitMalformed (f : AdmitFields) : Bool :=
  decide (f.laneCount.toNat > 8) || (f.lanes.toList.take f.laneCount.toNat).any fun b => decide (b.toNat > 31)

/-- A READ STREAM is malformed: a selector neither 0 nor 1 (R195). -/
def selectorMalformed (selector : Byte) : Bool := decide (selector.toNat > 1)

end Sys2Proof.Machine
end

