-- ==== Sys2Proof/Machine/NoticeQueue.lean ====
section
/-! DEFINITION. The notice queue and the transmit holder of the Peer Bus Controller (8.3). -/

namespace Sys2Proof.Machine

/-- The LANE notice a local lane would send now, with the state and weight the Lane Health Unit holds (R166). -/
def State.laneNotice (s : State) (l : LaneNo) : Notice := .lane l (s.lane l).health.state (s.lane l).health.weight

/-- The notice is a LANE notice for the local lane. -/
def Notice.forLane (l : LaneNo) : Notice → Bool
  | .lane k _ _ => k == l
  | _ => false

/-- The notice is a DEMAND for the tag. -/
def Notice.demandFor (tag : Nat) : Notice → Bool
  | .demand t _ _ => t == tag
  | _ => false

/-- The notice is a CLAIM with this tag, epoch and node lane (R138). -/
def Notice.claimFor (tag : Nat) (epoch : BitVec 8) (lane : NodeLane) : Notice → Bool
  | .claim t e n _ _ => t == tag && e == epoch && n == lane
  | _ => false

/-- The queue has a free place and the controller takes notices (R137). -/
def State.takesNotice (s : State) : Bool :=
  s.bus.state == .active && decide (s.bus.queue.length < Config.noticeDepth)

/-- Append a notice to the queue. -/
def pushNotice (n : Notice) (s : State) : State := modBus (fun b => { b with queue := b.queue ++ [n] }) s

/-- The lowest local lane whose LANE owed mark is set. -/
def State.lowestOwed (s : State) : Option LaneNo := allLanes.find? fun l => (s.lane l).owed

/-- A place has freed: queue one LANE notice for the lowest local lane whose owed mark is set, and clear that mark (R139). -/
def serveOwed (s : State) : State :=
  match s.lowestOwed with
  | some l =>
    if s.takesNotice then modLane l (fun L => { L with owed := false }) (pushNotice (s.laneNotice l) s) else s
  | none => s

/-- Whenever the transmit holder is empty, the chip is ACTIVE and the queue holds a notice, the head moves into the holder
(R137); the place it frees may serve an owed mark (R139). -/
def pumpHolder (s : State) : State :=
  if s.bus.state = .active then
    match s.bus.holder, s.bus.queue with
    | none, n :: rest =>
      serveOwed (modBus (fun b => { b with holder := some n, voidCount := 0, queue := rest }) s)
    | _, _ => s
  else s

/-- Change the notices of the queue in place. -/
def mapQueue (f : Notice → Notice) (s : State) : State := modBus (fun b => { b with queue := b.queue.map f }) s

/-- Offer the LANE notice of a lane (R139): it takes the place of a queued one for the lane, joins the tail, or sets the
owed mark at a full queue; it is declined while the controller is not ACTIVE. -/
def offerLane (l : LaneNo) (s : State) : State :=
  if s.bus.state = .active then
    if s.bus.queue.any (Notice.forLane l) then
      mapQueue (fun n => if n.forLane l then s.laneNotice l else n) s
    else if s.bus.queue.length < Config.noticeDepth then pumpHolder (pushNotice (s.laneNotice l) s)
    else modLane l (fun L => { L with owed := true }) s
  else s

/-- Offer a DEMAND (R49, R138): it takes the place of a queued DEMAND of the tag, joins the tail, or is declined.
Declined, it leaves this view, as every owner's, on the epoch it has (R155). -/
def offerDemand (tag : Nat) (epoch : BitVec 8) (amount : Nat) (s : State) : State :=
  if s.bus.state = .active then
    if s.bus.queue.any (Notice.demandFor tag) then
      mapQueue (fun n => if n.demandFor tag then .demand tag epoch amount else n) s
    else if s.bus.queue.length < Config.noticeDepth then pumpHolder (pushNotice (.demand tag epoch amount) s)
    else s
  else s

/-- The controller has room for a CLAIM: a matching queued one, or a free place while it takes notices (R92). -/
def State.claimRoom (s : State) (tag : Nat) (epoch : BitVec 8) (lane : NodeLane) : Bool :=
  s.bus.queue.any (Notice.claimFor tag epoch lane) || s.takesNotice

/-- The later of two end ticks, in the wrapping sense. -/
def laterTick (a b : Tick) : Tick := if countAfter b a then b else a

/-- Add a CLAIM's bytes and end tick to a queued one (R138). -/
def Notice.coalesce (bytes : Nat) (endTick : Tick) : Notice → Notice
  | .claim t e n b k => .claim t e n (satAdd Config.maxDemand b bytes) (laterTick k endTick)
  | n => n

/-- Offer a CLAIM (R92, R138): it coalesces with a matching queued one, joins the tail, or is declined. -/
def offerClaim (tag : Nat) (epoch : BitVec 8) (lane : NodeLane) (bytes : Nat) (endTick : Tick) (s : State) : State :=
  if s.bus.queue.any (Notice.claimFor tag epoch lane) then
    mapQueue (fun n => if n.claimFor tag epoch lane then n.coalesce bytes endTick else n) s
  else if s.takesNotice then pumpHolder (pushNotice (.claim tag epoch lane bytes endTick) s)
  else s

end Sys2Proof.Machine
end

