-- ==== Sys2Proof/Machine/Rings.lean ====
section
/-! DEFINITION. Allowances of spread views (R145) and membership of the active rings (R30, R31). -/

namespace Sys2Proof.Machine

/-- The live lane of a view with this node lane. -/
def View.share? (v : View) (n : NodeLane) : Option Share := v.live.find? fun x => x.lane == n

/-- What a view holds for an own lane. -/
def View.own? (v : View) (l : LaneNo) : Option OwnLane := v.own.find? fun o => o.lane == l

/-- The allowance of a view on an own lane (R145): share less claimed less own pending, 0 when negative, when the lane is
not live, or when a RELEASE for it was sent in this epoch. -/
def allowance (self : PeerNo) (v : View) (l : LaneNo) : Nat :=
  match v.own? l, v.share? (nodeLaneOf self l) with
  | some o, some x => if o.sent then 0 else x.share - x.claimed - o.pending
  | _, _ => 0

/-- The allowance of a stream on an own lane, through its view. -/
def State.allowanceOf (s : State) (e : Stream) (l : LaneNo) : Nat :=
  match s.viewOf e.tag with
  | some v => allowance s.boot.peerId v l
  | none => 0

/-- What the data step may grant a stream on a lane: its outstanding demand on its home lane, or its allowance (R30, R88). -/
def State.available (s : State) (e : Stream) (l : LaneNo) : Nat :=
  match e.place with
  | .home h => if h = l then e.demand else 0
  | .spread _ _ => s.allowanceOf e l

/-- The six served classes, class `i + 1` at index `i`. -/
def ringIndexes : List (Fin 6) := [0, 1, 2, 3, 4, 5]

/-- The active ring of a lane and class index. -/
def Lane.ring (L : Lane) (i : Fin 6) : List Nat := L.rings[i.val]

/-- The ring index of a class, for the served classes 1 to 6. -/
def ringIndex (cls : Nat) : Option (Fin 6) :=
  if h : 1 ≤ cls ∧ cls ≤ 6 then some ⟨cls - 1, by omega⟩ else none

/-- The active ring of a lane and class; classes 0 and 7 have none. -/
def State.ring (s : State) (l : LaneNo) (cls : Nat) : List Nat :=
  match ringIndex cls with
  | some i => (s.lane l).ring i
  | none => []

/-- Put a ring in place. -/
def setRing (l : LaneNo) (i : Fin 6) (r : List Nat) (s : State) : State :=
  modLane l (fun L => { L with rings := L.rings.set i.val r }) s

/-- R30: the stream is a member of the ring of lane `l` and class `c`. -/
def State.meetsRing (s : State) (e : Stream) (l : LaneNo) (c : Nat) : Bool :=
  e.served && e.cls == c && decide (s.available e l > 0)

/-- One ring as R30 asks for entry `n`: it joins at the tail, leaves, or keeps its place. -/
def ringFor (n : Nat) (member : Bool) (r : List Nat) : List Nat :=
  if member then if r.contains n then r else r ++ [n] else r.filter fun m => m != n

/-- Bring the membership of entry `n` in one ring up to date. -/
def syncRing (n : Nat) (l : LaneNo) (i : Fin 6) (s : State) : State :=
  let member := match s.entry? n with
    | some e => s.meetsRing e l (i.val + 1)
    | none => false
  setRing l i (ringFor n member ((s.lane l).ring i)) s

/-- The entry is a member of some ring. -/
def State.inSomeRing (s : State) (n : Nat) : Bool :=
  allLanes.any fun l => ringIndexes.any fun i => ((s.lane l).ring i).contains n

/-- Bring every ring membership of entry `n` up to date (R30); in no ring, its deficit is 0 (R31). R30, R31 and R145 give no order
between the lanes of a spread stream whose allowances fall to 0 on one own lane and rise on another at one event: the deficit is
looked at once, after every lane, and is kept (DESIGN CHOICE, log 45). -/
def syncRings (n : Nat) (s : State) : State :=
  let s := allLanes.foldl (fun s l => ringIndexes.foldl (fun s i => syncRing n l i s) s) s
  if s.inSomeRing n then s else modEntry n (fun e => { e with deficit := 0 }) s

/-- Change an entry and bring its ring memberships up to date. -/
def updateEntry (n : Nat) (f : Stream → Stream) (s : State) : State := syncRings n (modEntry n f s)

/-- Restore a payload to outstanding demand (R29): for a BASIC or ADMITTED non-spread stream in EDGE mode alone. -/
def restore (n payload : Nat) (s : State) : State :=
  match s.entry? n with
  | some e =>
    if e.served && !e.isSpread && e.mode == .edge then
      updateEntry n (fun e => { e with demand := satAdd Config.maxDemand e.demand payload }) s
    else s
  | none => s

end Sys2Proof.Machine
end

