-- ==== Sys2Proof/Machine/Spread.lean ====
section
/-! DEFINITION. The Spread Demand Unit (8.5): splits, heard notices, re-bases, release waits. -/

namespace Sys2Proof.Machine

/-- The claims of a view that have not expired at `now` (R149). -/
def View.unexpired (now : Tick) (v : View) : List Claim := v.claims.filter fun c => countAfter c.endTick now

/-- Change the view of a tag and report its allowances to the rings (R145). -/
def modView (tag : Nat) (f : View → View) (s : State) : State :=
  match s.viewOf tag with
  | some v => syncRings v.entry { s with views := s.views.map fun w => if w.tag == tag then f w else w }
  | none => s

/-- Change the views that meet `p`, as one event, and report their allowances to the rings, view by view in rising index (R145). -/
def changeViews (p : View → Bool) (f : View → View) (s : State) : State :=
  (s.views.filter p).foldl (fun s v => syncRings v.entry s) { s with views := s.views.map fun v => if p v then f v else v }

/-- The weight of a node lane in the lane directory. -/
def State.weightOf (s : State) (n : NodeLane) : Nat :=
  match s.bus.lanes[n.val] with
  | some a => a.weight
  | none => 0

/-- The lane directory entry is LIVE. -/
def State.directoryLive (s : State) (n : NodeLane) : Bool :=
  match s.bus.lanes[n.val] with
  | some a => a.state == .live
  | none => false

/-- The lowest node lane of a set. -/
def lowestLane (set : List NodeLane) : Option NodeLane := leastBy (fun n => (n.val : Int)) set

/-- The part of lane `n` in a split of `x` bytes over `set` by weight: `⌊x w / W⌋`, and the remainder for the lowest node
lane of the set (R146). -/
def splitPart (weight : NodeLane → Nat) (x : Nat) (set : List NodeLane) (n : NodeLane) : Nat :=
  let total := (set.map weight).sum
  let part := fun m => x * weight m / total
  if set.contains n then
    part n + (if lowestLane set = some n then x - (set.map part).sum else 0)
  else 0

/-- A heard DEMAND, on a view (R147): it sets epoch, A, live set, shares and claimed bytes afresh, whatever the view missed
(R155). -/
def View.heardDemand (s : State) (epoch : BitVec 8) (amount : Nat) (v : View) : View :=
  let live := v.set.filter s.directoryLive
  { v with
    claims := v.unexpired s.nodeTime, epoch := epoch, announced := amount,
    live := live.map fun n => { lane := n, share := splitPart s.weightOf amount live n, claimed := 0, excluded := false },
    own := v.own.map fun o => { o with waits := 0, sent := false } }

/-- Make room in a full claim list: remove the entry with the earliest end tick, the oldest among equals (R148). -/
def dropEarliest (now : Tick) (claims : List Claim) : List Claim :=
  if claims.length < Config.claimDepth then claims
  else
    match leastBy (fun c => ((c.endTick - now).toNat : Int)) claims with
    | some c => claims.erase c
    | none => claims

/-- A heard CLAIM, on a view (R148). -/
def View.heardClaim (s : State) (epoch : BitVec 8) (n : NodeLane) (bytes : Nat) (endTick : Tick) (v : View) : View :=
  { v with
    claims := dropEarliest s.nodeTime (v.unexpired s.nodeTime) ++ [{ lane := n, bytes := bytes, endTick := endTick }],
    live := v.live.map fun x =>
      if epoch = v.epoch ∧ x.lane = n then { x with claimed := min (x.claimed + bytes) x.share } else x,
    own := v.own.map fun o => if s.nodeLane o.lane = n then { o with pending := o.pending - bytes } else o }

/-- A heard RELEASE, on a view (R150). Its amount is split by the weights the lane directory holds at that moment (R146), also by one
that changed since the view's last DEMAND or re-base, from the next of which R159 lets a new weight enter (DESIGN CHOICE, log 47). -/
def View.heardRelease (s : State) (epoch : BitVec 8) (n : NodeLane) (bytes : Nat) (v : View) : View :=
  match v.share? n with
  | some x =>
    if epoch = v.epoch ∧ ¬x.excluded then
      let amount := min bytes (x.share - x.claimed)
      let others := (v.live.filter fun y => !y.excluded && y.lane != n).map (·.lane)
      let live := v.live.map fun y =>
        if y.lane = n then { y with share := y.share - amount, excluded := true }
        else if y.excluded then y
        else { y with share := y.share + splitPart s.weightOf amount others y.lane }
      { v with live := live, announced := if others.isEmpty then v.announced - amount else v.announced }
    else v
  | none => v

/-- A re-base of a view when lanes leave its live set (R151). -/
def View.rebase (s : State) (leaving : List NodeLane) (v : View) : View :=
  let remaining := (v.live.map fun x => x.share - x.claimed).sum
  let stay := v.live.filter fun x => !leaving.contains x.lane
  let sharing := (stay.filter fun x => !x.excluded).map (·.lane)
  { v with
    announced := remaining,
    live := stay.map fun x =>
      { x with claimed := 0, share := if x.excluded then 0 else splitPart s.weightOf remaining sharing x.lane } }

/-- Re-base every view that holds a leaving lane in its live set, once (R143, R151). R30 and R151 give no order among the views of
one change, and so none in which their streams join the tail of a ring: rising view index (DESIGN CHOICE, log 35). -/
def rebaseViews (leaving : List NodeLane) (s : State) : State :=
  changeViews (fun v => v.live.any fun x => leaving.contains x.lane) (View.rebase s leaving) s

/-- A view cleared at mute: epoch and announced demand are kept (R134). -/
def View.muted (v : View) : View :=
  { v with live := [], claims := [], own := v.own.map fun o => { o with pending := 0, waits := 0, sent := false } }

/-- Clear every view at mute, and report the allowances that fell (R134): the streams leave their rings, in whatever order the
views are taken. The chip's views differ from its peers' from here on (R155). -/
def clearViews (s : State) : State := changeViews (fun _ => true) View.muted s

/-- A new view, with nothing in it (R144): notices for its tag that were heard before it lack from it until the next DEMAND
(R155). -/
def View.new (index : Nat) (self : PeerNo) (e : Stream) : View :=
  { index := index, tag := e.tag, entry := e.entry, set := e.spreadSet, epoch := 0, announced := 0, live := [],
    own := (ownLanes self e).map fun l => { lane := l, pending := 0, waits := 0, sent := false }, claims := [] }

/-- Create the view of an admitted spread stream (R144). -/
def addView (v : View) (s : State) : State := { s with views := insertBy View.index v s.views }

/-- Remove the view of a stream that enters CLOSING (R36, R144). -/
def removeView (tag : Nat) (s : State) : State :=
  match s.viewOf tag with
  | some v =>
    modBuild (fun b => { b with marks := b.marks.filter fun i => i != v.index })
      { s with views := s.views.filter fun w => w.tag != tag }
  | none => s

/-- What a spread report still asks for beyond what the node has granted (R48): the amount less the unexpired claims less
the own pending, 0 when negative. So what views that differ granted beyond the report lowers the next DEMAND (R155). -/
def View.wanted (now : Tick) (amount : Nat) (v : View) : Nat :=
  amount - ((v.unexpired now).map (·.bytes)).sum - (v.own.map (·.pending)).sum

/-- A release wait has been reached on an own lane: the count is at or above R, release-sent is clear and the allowance is
above 0 (R154). -/
def releaseReached (p : Params) (self : PeerNo) (v : View) (l : LaneNo) : Bool :=
  match v.own? l with
  | some o => decide (o.waits ≥ p.releaseWait) && !o.sent && decide (allowance self v l > 0)
  | none => false

/-- The release-wait count of an own lane after a completed build of it (R154). -/
def View.countWait (self : PeerNo) (l : LaneNo) (marked : Bool) (v : View) : View :=
  { v with own := v.own.map fun o =>
      if o.lane = l then
        if marked then { o with waits := 0 }
        else if allowance self v l > 0 then { o with waits := satAdd 15 o.waits 1 } else o
      else o }

/-- The release waits of a completed build of lane `l` (R154): counts move, and the views whose wait is reached become due, in rising
view index, which is the order in which NODE_TIME_CHANGE offers them (DESIGN CHOICE, log 6). -/
def countReleaseWaits (l : LaneNo) (marks : List Nat) (s : State) : State :=
  let views := s.views.map fun v => v.countWait s.boot.peerId l (marks.contains v.index)
  let due := (views.filter fun v => releaseReached s.params s.boot.peerId v l).map fun v => (v.index, l)
  { s with views := views, releaseDue := s.releaseDue ++ due.filter fun d => !s.releaseDue.contains d }

/-- Offer the RELEASE of a due release wait (R154). Taken, release-sent is set and the stream leaves the lane's ring;
declined, the offer is made again at the next completed build. -/
def releaseWaitStep (i : Nat) (l : LaneNo) (s : State) : State :=
  if s.releaseDue.contains (i, l) then
    let s := { s with releaseDue := s.releaseDue.filter fun d => d != (i, l) }
    match s.view? i with
    | some v =>
      if releaseReached s.params s.boot.peerId v l && s.takesNotice then
        let n := Notice.release v.tag v.epoch (s.nodeLane l) (allowance s.boot.peerId v l)
        pumpHolder (pushNotice n (modView v.tag (fun v =>
          { v with own := v.own.map fun o => if o.lane = l then { o with sent := true } else o }) s))
      else s
    | none => s
  else s

end Sys2Proof.Machine
end

