-- ==== Sys2Proof/Machine/PeerBus.lean ====
section
/-! DEFINITION. The Peer Bus Controller (8.1 to 8.4): frames and their check, arbitration, delivery, echo and void, bus states,
and the directories. A frame is the run of bits from its first arbitration bit on; `true` is recessive and stands for 1. -/

namespace Sys2Proof.Machine

/-! ### Frames (8.1, 11.3) -/

/-- The code of a lane state in a LANE body (11.3). -/
def LaneState.code : LaneState → Nat
  | .dark => 0
  | .ramp => 1
  | .live => 2

/-- The lane state a LANE body codes; 3 codes none (R194). -/
def laneStateOf : Nat → Option LaneState
  | 0 => some .dark
  | 1 => some .ramp
  | 2 => some .live
  | _ => none

/-- The priority of a notice's kind (8.1). -/
def Notice.priority : Notice → Nat
  | .lane _ _ _ => 0
  | .release _ _ _ _ => 1
  | .claim _ _ _ _ _ => 2
  | .demand _ _ _ => 3

/-- The body length a priority names (8.1). -/
def bodyLength : Nat → Nat
  | 0 => 16
  | 1 => 48
  | 2 => 80
  | _ => 48

/-- The body bits of a notice; fill bits are sent as 0 (11.3). -/
def Notice.body : Notice → List Bool
  | .lane l st w => bitsOf 2 l.val ++ bitsOf 2 st.code ++ bitsOf 8 w ++ bitsOf 4 0
  | .release t e n b => bitsOf 14 t ++ bitsOf 8 e.toNat ++ bitsOf 5 n.val ++ bitsOf 20 b ++ bitsOf 1 0
  | .claim t e n b k => bitsOf 14 t ++ bitsOf 8 e.toNat ++ bitsOf 5 n.val ++ bitsOf 20 b ++ bitsOf 32 k.toNat ++ bitsOf 1 0
  | .demand t e a => bitsOf 14 t ++ bitsOf 8 e.toNat ++ bitsOf 20 a ++ bitsOf 6 0

/-- The arbitration field (8.1): priority, then sender identity. -/
def arbitration (self : PeerNo) (n : Notice) : List Bool := bitsOf 2 n.priority ++ bitsOf 3 self.val

/-- The bits the check covers: arbitration field and body (R193). -/
def covered (self : PeerNo) (n : Notice) : List Bool := arbitration self n ++ n.body

/-- The bits a sender drives after its arbitration field, through the delimiter (R132). -/
def drivenAfter (self : PeerNo) (n : Notice) : List Bool :=
  n.body ++ bitsOf 16 (crc16 (covered self n)).toNat ++ [true]

/-- A whole frame as it is read when nothing disturbs it, void slot included. -/
def frameBits (self : PeerNo) (n : Notice) : List Bool := arbitration self n ++ drivenAfter self n ++ [true, true]

/-- The priority a station reads from a frame. -/
def framePriority (bits : List Bool) : Nat := bitField bits 0 2

/-- The sender identity a station reads from a frame. -/
def frameSender (bits : List Bool) : PeerNo := ⟨bitField bits 2 3 % 8, by omega⟩

/-- The first `n` bits a station reads; an undriven bus reads recessive. -/
def readBits (bits : List Bool) (n : Nat) : List Bool := (List.range n).map fun i => (bits[i]?).getD true

/-- A station finds a fault: the check does not match, or the delimiter is dominant (R130). -/
def frameFault (bits : List Bool) : Bool :=
  let b := bodyLength (framePriority bits)
  decide (bitField bits (5 + b) 16 ≠ (crc16 (readBits bits (5 + b))).toNat) || decide (bitField bits (21 + b) 1 = 0)

/-- Some void-slot bit reads dominant (R130). -/
def voidSlotDominant (bits : List Bool) : Bool :=
  decide (bitField bits (22 + bodyLength (framePriority bits)) 2 ≠ 3)

/-- The frame is well-formed for a station (R130). -/
def frameWellFormed (bits : List Bool) : Bool := !frameFault bits && !voidSlotDominant bits

/-- The notice of a well-formed frame, when its fields let it be applied (R194). -/
def heardNotice (bits : List Bool) : Option Notice :=
  let tag := bitField bits 5 14
  let epoch := BitVec.ofNat 8 (bitField bits 19 8)
  let lane : NodeLane := ⟨bitField bits 27 5 % 32, by omega⟩
  let bytes := bitField bits 32 20
  match framePriority bits with
  | 0 =>
    match laneStateOf (bitField bits 7 2), bitField bits 9 8 with
    | some st, w + 1 => some (.lane ⟨bitField bits 5 2 % 4, by omega⟩ st (w + 1))
    | _, _ => none
  | 1 => if ownerOf lane = frameSender bits then some (.release tag epoch lane bytes) else none
  | 2 =>
    if ownerOf lane = frameSender bits then
      some (.claim tag epoch lane bytes (BitVec.ofNat 32 (bitField bits 52 32)))
    else none
  | _ => some (.demand tag epoch (bitField bits 27 20))

/-! ### Arbitration (R128, R129, R132) -/

/-- The bits of a frame from its first arbitration bit to T5, the end of its void slot (8.1). -/
def frameLength (bits : List Bool) : Nat := 24 + bodyLength (framePriority bits)

/-- A station reads one bit (R128). Counting, it counts consecutive recessive bits, and from idle the first dominant bit is the start
bit of a frame. Following, it counts the frame's bits to T5; from there on it counts recessive bits again, so that a dominant bit of the
end phase starts no frame. -/
def BusReader.read (b : Bool) : BusReader → BusReader
  | .counting n => if b then .counting (satAdd 7 n 1) else if n ≥ 7 then .following [] else .counting 0
  | .following bits => if (bits ++ [b]).length ≥ frameLength (bits ++ [b]) then .counting 0 else .following (bits ++ [b])

/-- A station reads some bits, the earliest first. -/
def BusReader.readAll (r : BusReader) (bits : List Bool) : BusReader := bits.foldl (fun r b => r.read b) r

/-- The station treats the bus as idle: it follows no frame, and the 7 bits it read last were recessive (R128). -/
def BusReader.idle : BusReader → Bool
  | .counting n => decide (n ≥ 7)
  | .following _ => false

/-- The chip follows the bus: while LISTENING and in READY, not while LOADING or HALTED (R133). -/
def State.followsBus (s : State) : Bool := s.boot.startup == .listening || s.boot.startup == .ready

/-- The station's place on the bus. -/
def setReader (r : BusReader) (s : State) : State := modBus (fun b => { b with reader := r }) s

/-- T5 of the frame the station follows or sends: it counts recessive bits from here (R128), and is on the bus with nothing. -/
def frameEnds (s : State) : State :=
  modBus (fun b => { b with reader := .counting 0, sending := false, clashSeen := false }) s

/-- What a rival drives from here on. -/
def rivalBits : Rival → List Bool
  | .begins bits | .midFrame bits => bits

/-- The level a rival drives at the present bit; past its bits it drives nothing. -/
def rivalLevel (r : Rival) : Bool := (rivalBits r).headD true

/-- A rival at the next bit, after one that reads `level`: one that began with the chip drives on while it reads what it drove, and a
station in the middle of a frame drives on whatever it reads (R129). -/
def rivalNext (level : Bool) : Rival → Option Rival
  | .begins bits => if bits.headD true = level then some (.begins bits.tail) else none
  | .midFrame bits => some (.midFrame bits.tail)

/-- Bitwise arbitration: whether the sender of `own` wins, and the rivals that are still driving (R129). -/
def arbitrate : List Bool → List Rival → Bool × List Rival
  | [], rivals => (true, rivals)
  | b :: own, rivals =>
    let level := b && rivals.all rivalLevel
    if b && !level then (false, rivals) else arbitrate own (rivals.filterMap (rivalNext level))

/-- The sender reads dominant where it drove recessive: another station drives a different frame at these bits (R132). -/
def readsDominant (own other : List Bool) : Bool := (own.zip other).any fun p => p.1 && !p.2

/-- The chip is the sender of the frame whose bits are read: it began it and reads back its whole arbitration field unchanged. With
another field it has lost and is a receiver (R129). -/
def State.sends (s : State) (bits : List Bool) : Bool :=
  s.bus.sending && s.bus.holder.any fun n => readBits bits 5 == arbitration s.boot.peerId n

/-- The sender read back a level it did not drive, after its arbitration field: at its start against the other stations then driving,
or in the bits of the frame (R132). Within the arbitration field such a level is a lost arbitration (R129). -/
def State.readBack (s : State) (bits : List Bool) : Bool :=
  s.bus.clashSeen || match s.bus.holder with
    | some n => readsDominant (drivenAfter s.boot.peerId n) (bits.drop 5)
    | none => false

/-- The chip drives both void-slot bits dominant: it is ACTIVE and found a fault, or it is the sender and read a level it did not
drive (R130, R132). In LISTEN-ONLY and MUTE it drives nothing (R130, R133, R134), which is the unvoided fault of R155. -/
def State.drivesVoid (s : State) (bits : List Bool) : Bool :=
  s.bus.state == .active && (frameFault bits || (s.sends bits && s.readBack bits))

/-- The chip begins its frame with the notice in its holder (R129): it follows the frame from its start bit. Won, it is on the bus
with it; lost, it is a receiver of the frame and keeps its notice. A station in the middle of a frame takes part as R129 gives: a level
it drives where the chip drives recessive is a lost arbitration in the arbitration field, and after it what R132 gives. -/
def beginFrame (n : Notice) (rivals : List Rival) (s : State) : State :=
  let r := arbitrate (arbitration s.boot.peerId n) rivals
  modBus (fun b => { b with
    sending := r.1,
    clashSeen := if r.1 then r.2.any (fun x => readsDominant (drivenAfter s.boot.peerId n) (rivalBits x)) else b.clashSeen,
    reader := .following [] }) s

/-- FRAME_TRANSMIT_START (R128, R129): a station that is not sending reads the bits that passed; then an ACTIVE chip that holds a
notice and finds the bus idle begins its frame. A chip that follows a frame, or has not read 7 recessive bits since, waits. -/
def transmitStartStep (before : List Bool) (rivals : List Rival) (s : State) : State :=
  if s.followsBus && !s.bus.sending then
    let t := setReader (s.bus.reader.readAll before) s
    match s.bus.holder with
    | some n => if s.bus.state = .active ∧ t.bus.reader.idle then beginFrame n rivals t else t
    | none => t
  else s

/-! ### Bus states (8.2) -/

/-- Entry to MUTE (R134). -/
def enterMute (cause : MuteCause) (s : State) : State :=
  let s := modBus (fun b => { b with state := .mute cause, holder := none, voidCount := 0, sending := false,
                                     clashSeen := false, queue := [], mutedAt := s.nodeTime }) s
  let s := allLanes.foldl (fun s l => modLane l (fun L => { L with owed := false }) s) s
  clearViews (queueStatus (.busState (some cause)) s)

/-- A clash of identity is detected (R132, R135, R136): MUTE(ID_CLASH) from ACTIVE, a record of it in LISTEN-ONLY, and from
MUTE(VOID_LIMIT) a change of cause (log 15). -/
def clashDetected (s : State) : State :=
  match s.bus.state with
  | .active => enterMute .idClash s
  | .listenOnly => modBus (fun b => { b with clash := true }) s
  | .mute .voidLimit => queueStatus (.busState (some .idClash)) (modBus (fun b => { b with state := .mute .idClash }) s)
  | .mute .idClash => s

/-- Entry to ACTIVE (R133, R135): BUS_STATE(ACTIVE), the refresh measure, and a LANE notice offered for each fitted lane. -/
def enterActive (s : State) : State :=
  let s := modBus (fun b => { b with state := .active, refreshAt := s.nodeTime, refreshNext := s.fittedLanes.headD 0 }) s
  s.fittedLanes.foldl (fun s l => offerLane l s) (queueStatus (.busState none) s)

/-- MUTE_RECOVERY is due: two silence limits since the mute (R135). -/
def State.recoveryDue (s : State) : Bool :=
  s.bus.state == .mute .voidLimit && countReached (tickAdd s.bus.mutedAt (2 * silenceTicks s.params)) s.nodeTime

/-- MUTE_RECOVERY (R135). -/
def muteRecoveryStep (s : State) : State := if s.recoveryDue then enterActive s else s

/-- REFRESH is due (R140): half a silence limit without an echo, with holder and queue empty. -/
def State.refreshDue (s : State) : Bool :=
  s.bus.state == .active && s.bus.holder.isNone && s.bus.queue.isEmpty && !s.fittedLanes.isEmpty &&
    countReached (tickAdd s.bus.refreshAt (silenceTicks s.params / 2)) s.nodeTime

/-- The fitted lane a refresh after lane `l` names (R140). -/
def State.refreshAfter (s : State) (l : LaneNo) : LaneNo :=
  ((s.fittedLanes.find? fun k => decide (k > l)).or s.fittedLanes.head?).getD 0

/-- REFRESH (R140). -/
def refreshStep (s : State) : State :=
  if s.refreshDue then
    let l := s.bus.refreshNext
    offerLane l (modBus (fun b => { b with refreshNext := s.refreshAfter l }) s)
  else s

/-! ### Heard notices (8.4, 8.5) -/

/-- Set a lane directory entry. -/
def setDirectory (n : NodeLane) (a : Option LaneAd) (s : State) : State :=
  modBus (fun b => { b with lanes := b.lanes.set n.val a }) s

/-- A heard LANE notice (R142). -/
def heardLane (n : NodeLane) (st : LaneState) (weight : Nat) (s : State) : State :=
  let left := s.directoryLive n && decide (st ≠ .live)
  let s := setDirectory n (some { state := st, weight := weight }) s
  if left then rebaseViews [n] s else s

/-- Apply a heard notice of a peer (R142, R147, R148, R150). -/
def applyNotice (p : PeerNo) (n : Notice) (s : State) : State :=
  match n with
  | .lane l st w => heardLane (nodeLaneOf p l) st w s
  | .release t e m b => modView t (View.heardRelease s e m b) s
  | .claim t e m b k => modView t (View.heardClaim s e m b k) s
  | .demand t e a => modView t (View.heardDemand s e a) s

/-- Apply the notice a well-formed frame carries, unless its fields forbid it (R194). -/
def applyFrame (bits : List Bool) (s : State) : State :=
  match heardNotice bits with
  | some n => applyNotice (frameSender bits) n s
  | none => s

/-- Set a peer directory entry. -/
def setPeer (p : PeerNo) (e : PeerState) (s : State) : State :=
  modBus (fun b => { b with peers := b.peers.set p.val e }) s

/-- A PEER_STATE message, which LISTENING does not queue (R133, R141). -/
def peerMessage (p : PeerNo) (present : Bool) (s : State) : State :=
  if s.boot.startup = .ready then queueStatus (.peerState p present) s else s

/-- A well-formed frame from another peer is a hearing of it (R141). -/
def hearPeer (p : PeerNo) (s : State) : State :=
  let absent := s.bus.peers[p.val] == .absent
  let s := setPeer p (.present s.nodeTime) s
  if absent then peerMessage p true s else s

/-- The frame is the chip's own: it holds a notice, has won the bus with it, and reads back the bits it drove (R131). -/
def State.isEcho (s : State) (bits : List Bool) : Bool :=
  match s.bus.holder with
  | some n =>
    s.bus.sending && !s.bus.clashSeen && readBits bits (5 + bodyLength n.priority) == covered s.boot.peerId n
  | none => false

/-- The echo (R131, R140): the notice leaves the holder, the void count returns to 0, the refresh measure restarts, the
notice is applied, and the next notice moves into the holder. -/
def echoFrame (bits : List Bool) (s : State) : State :=
  let s := modBus (fun b => { b with holder := none, voidCount := 0, refreshAt := s.nodeTime }) s
  pumpHolder (applyFrame bits s)

/-- FRAME_DELIVERY: T5 of a well-formed frame (R128, R130, R131, R132, R133, R141). While LOADING or HALTED nothing is
delivered. -/
def frameDeliveryStep (bits : List Bool) (s : State) : State :=
  if frameWellFormed bits && s.followsBus then
    let t := frameEnds s
    if frameSender bits = s.boot.peerId then
      if s.isEcho bits then echoFrame bits t else clashDetected t
    else applyFrame bits (hearPeer (frameSender bits) t)
  else s

/-- One voided attempt of the notice in the holder (R131). -/
def voidedAttempt (s : State) : State :=
  if s.bus.voidCount + 1 ≥ Config.voidLimit then enterMute .voidLimit s
  else modBus (fun b => { b with voidCount := b.voidCount + 1 }) s

/-- FRAME_VOIDED: T5 of a frame that is voided (R128). The sender takes an effect: a clash it read back (R132), or a voided
attempt (R131); every other station discards the frame (R130). -/
def frameVoidedStep (bits : List Bool) (s : State) : State :=
  let sender := s.sends bits && s.bus.state == .active
  if sender && s.readBack bits then enterMute .idClash (frameEnds s)
  else if frameWellFormed bits then s
  else if sender then voidedAttempt (frameEnds s)
  else frameEnds s

/-! ### Silence (R141, R143) -/

/-- A PRESENT peer has not been heard for one silence limit (R141). -/
def State.silent (s : State) (p : PeerNo) : Bool :=
  s.followsBus &&
    match s.bus.peers[p.val] with
    | .present t => countReached (tickAdd t (silenceTicks s.params)) s.nodeTime
    | _ => false

/-- The four node lanes of a peer. -/
def peerLanes (p : PeerNo) : List NodeLane := allLanes.map (nodeLaneOf p)

/-- A peer becomes ABSENT (R141, R143): the message, its lanes ABSENT, and one re-base for those that were LIVE. -/
def losePeer (p : PeerNo) (s : State) : State :=
  let leaving := (peerLanes p).filter s.directoryLive
  let s := peerMessage p false (setPeer p .absent s)
  let s := (peerLanes p).foldl (fun s n => setDirectory n none s) s
  rebaseViews leaving s

/-- PEER_SILENCE (R141). -/
def peerSilenceStep (p : PeerNo) (s : State) : State := if s.silent p then losePeer p s else s

/-! ### The commands -/

/-- The meaning of FRAME_TRANSMIT_START. -/
def execFrameTransmitStart (before : List Bool) (rivals : List Rival) (s : State) :
    Host.Outcome State Fault Refusal := .next (transmitStartStep before rivals s)

/-- The meaning of FRAME_DELIVERY. -/
def execFrameDelivery (bits : List Bool) (s : State) : Host.Outcome State Fault Refusal := .next (frameDeliveryStep bits s)

/-- The meaning of FRAME_VOIDED. -/
def execFrameVoided (bits : List Bool) (s : State) : Host.Outcome State Fault Refusal := .next (frameVoidedStep bits s)

/-- The meaning of PEER_SILENCE. -/
def execPeerSilence (p : PeerNo) (s : State) : Host.Outcome State Fault Refusal := .next (peerSilenceStep p s)

/-- The meaning of MUTE_RECOVERY. -/
def execMuteRecovery (s : State) : Host.Outcome State Fault Refusal := .next (muteRecoveryStep s)

/-- The meaning of REFRESH. -/
def execRefresh (s : State) : Host.Outcome State Fault Refusal := .next (refreshStep s)

end Sys2Proof.Machine
end

