-- ==== Sys2Proof/Machine/Flags.lean ====
section
/-! DEFINITION. The sticky lane flags, the chip alert summary and the attention line (9.6, R189). -/

namespace Sys2Proof.Machine

/-- A flag's bit in the clear set: bit 10 for BACKLOG_HIGH down to bit 0 for RAMP_FAIL (11.4). -/
def Flag.bit : Flag → Nat
  | .backlogHigh => 10
  | .openCollideHigh => 9
  | .joinCollideHigh => 8
  | .damageHigh => 7
  | .emptyHigh => 6
  | .stray => 5
  | .intakeOverrun => 4
  | .openSqueezed => 3
  | .planSkipped => 2
  | .planLapsed => 1
  | .rampFail => 0

/-- A flag as a set of one. -/
def Flag.mask (f : Flag) : BitVec 11 := BitVec.ofNat 11 (2 ^ f.bit)

/-- The flags that going DARK clears and that are suppressed while DARK: the first eight of the table of 9.6 (R171). -/
def Flag.clearedAtDark : Flag → Bool
  | .planSkipped | .planLapsed | .rampFail => false
  | _ => true

/-- The flags that going DARK keeps: PLAN_SKIPPED, PLAN_LAPSED and RAMP_FAIL (R165). -/
def keptAtDark : BitVec 11 := 0b111#11

/-- The lane's flag is set. -/
def State.flag (s : State) (l : LaneNo) (f : Flag) : Bool := (s.lane l).health.flags &&& f.mask != 0

/-- The flag is suppressed: its lane is DARK and it is one of the eight (R171). -/
def State.suppressed (s : State) (l : LaneNo) (f : Flag) : Bool := s.laneState l == .dark && f.clearedAtDark

/-- An event that sets a lane flag also sets the chip alert summary; a suppressed flag does neither (R171, R172). -/
def setFlag (l : LaneNo) (f : Flag) (s : State) : State :=
  if s.suppressed l f then s
  else modPort (fun p => { p with summary := true })
    (modHealth l (fun h => { h with flags := h.flags ||| f.mask }) s)

/-- The attention line (R189). -/
def attention (s : State) : Bool :=
  !s.port.statusQueue.isEmpty || s.port.summary || s.port.overflow || s.boot.startup == .halted

end Sys2Proof.Machine
end

