-- ==== Sys2Proof/Machine/Cadence.lean ====
section
/-! DEFINITION. The Cadence Unit (6): dues, horizons, openings, endings and handovers, misses, rounds, unwinding, outcomes
and lane events. -/

namespace Sys2Proof.Machine

/-- The lane's build in flight, when there is one. -/
def State.buildOf (s : State) (l : LaneNo) : Option Build := s.builder.filter fun b => b.lane == l

/-- The lane's build in flight has begun step 1 (R99). -/
def State.begunStep1 (s : State) (l : LaneNo) : Option Build := (s.buildOf l).filter fun b => decide (b.step ≥ 1)

/-- The cadence horizon of a lane: the plan start of the first build whose step 1 has not yet begun; absent on a DARK lane
(R99). -/
def State.horizon (s : State) (l : LaneNo) : Option Slice :=
  match s.begunStep1 l with
  | some b => some (sliceAdd b.start s.params.planLength)
  | none => (s.lane l).nextPlanStart

/-- The plan number of the lane's first build to begin step 1 from now (R99). -/
def State.openingPlan (s : State) (l : LaneNo) : PlanNo :=
  match s.begunStep1 l with
  | some _ => (s.lane l).planNo + 1
  | none => (s.lane l).planNo

/-- The first slice of the form `due + k × period`, k = 0, 1, 2 and onward, that meets `ok`. -/
def firstDueWhere (ok : Slice → Bool) (period : Nat) : (fuel : Nat) → Slice → Slice
  | 0, due => due
  | fuel + 1, due => if ok due then due else firstDueWhere ok period fuel (sliceAdd due period)

/-- The number of distinct slices: a bound on the search for a due. -/
def dueFuel : Nat := 2 ^ 24

/-- The slice is not before the horizon; with no horizon, on a DARK lane, every slice meets it (DEDUCED, log 19). -/
def notBeforeHorizon (horizon : Option Slice) (due : Slice) : Bool :=
  match horizon with
  | some h => !countBefore due h
  | none => true

/-- The first slice of the form `due + k × period` that is not before the horizon (R99, R106, R110). -/
def firstDueFrom (horizon : Option Slice) (due : Slice) (period : Nat) : Slice :=
  firstDueWhere (notBeforeHorizon horizon) period dueFuel due

/-- A channel that is RUNNING or DRAINING. -/
def Channel.live (c : Channel) : Bool := c.state == .running || c.state == .draining

/-- The channel is bound to this tag and lane. -/
def Channel.bound (c : Channel) (tag : Nat) (l : LaneNo) : Bool := c.tag == tag && c.lane == l

/-- The next due that a channel taking over from `ended` starts from (R101). With no horizon, on a DARK lane, the last turn alone
decides (DEDUCED, log 19). Where no slice of the form meets both conditions,
the spec states no due: the search then ends at the first due itself (DESIGN CHOICE, log 39). -/
def takeoverDue (s : State) (ended c : Channel) : Slice :=
  let ok := fun due => notBeforeHorizon (s.horizon c.lane) due &&
    match ended.lastTurn with
    | some t => countAfter due t
    | none => true
  firstDueWhere ok c.period dueFuel c.firstDue

/-- The handover after a RUNNING or DRAINING channel became IDLE: the lowest-numbered STANDBY channel of its tag and lane
enters RUNNING (R101). -/
def handover (ended : Channel) (s : State) : State :=
  match s.channels.find? fun c => c.state == .standby && c.bound ended.tag ended.lane with
  | some c => modChannel c.number (fun c =>
      { c with state := .running, nextDue := some (takeoverDue s ended c) }) s
  | none => s

/-- The channel becomes IDLE: all its fields become absent (R97). -/
def idleChannel (k : Nat) (s : State) : State := { s with channels := s.channels.filter fun c => c.number != k }

/-- A channel ends: CADENCE_ENDED is queued, it becomes IDLE, and a handover follows when it was RUNNING or DRAINING (R100,
R106, R109, R112). -/
def endChannel (c : Channel) (cause : EndCause) (s : State) : State :=
  let s := idleChannel c.number (queueStatus (.cadenceEnded c.number c.tag cause) s)
  if c.live then handover c s else s

/-- Close every channel bound to a retired tag: the messages in channel-number order, then all of them IDLE together, with
no handover (R111). -/
def retireChannels (tag : Nat) (s : State) : State :=
  let s := (s.channels.filter fun c => c.tag == tag).foldl
    (fun s c => queueStatus (.cadenceEnded c.number c.tag .retired) s) s
  { s with channels := s.channels.filter fun c => c.tag != tag }

/-! ### Requests and misses (6.5) -/

/-- A counted channel makes a due request only while its count exceeds its carried dues (R102). -/
def Channel.mayRequest (c : Channel) : Bool := c.initial == 0 || decide (c.count > c.carried.length)

/-- A miss, saturating (R104). -/
def Channel.miss (c : Channel) : Channel := { c with misses := satAdd 65535 c.misses 1 }

/-- The next due moves on by one period (R103, R104). -/
def Channel.moveOn (c : Channel) : Channel := { c with nextDue := c.nextDue.map fun d => sliceAdd d c.period }

/-- A carried due leaves the carried dues (R103, R104). -/
def Channel.dropCarried (c : Channel) (due : Slice) : Channel := { c with carried := c.carried.erase due }

/-- Every carried request of a RUNNING channel is missed (R105). -/
def Channel.missCarried (c : Channel) : Channel :=
  { c with misses := satAdd 65535 c.misses c.carried.length, carried := [] }

/-- The offset of a due slice from a plan start, negative when it is before the plan start; a due half the count's size away is
not before it (R102; 00, "Wrapping counts"). -/
def dueOffset (planStart due : Slice) : Int :=
  if countBefore due planStart then -((planStart - due).toNat : Int) else ((due - planStart).toNat : Int)

/-- Miss the channel's due requests of an interval, one period and one miss at a time (R105). -/
def missDues (planStart : Slice) (planLength : Nat) : (fuel : Nat) → Channel → Channel
  | 0, c => c
  | fuel + 1, c =>
    match c.nextDue with
    | some d =>
      if c.mayRequest && decide (dueOffset planStart d < planLength) then
        missDues planStart planLength fuel c.miss.moveOn
      else c
    | none => c

/-- Every cadence request of an interval is missed without sizing or placement: a skipped interval or a RAMP build (R8, R76,
R105). -/
def missInterval (l : LaneNo) (planStart : Slice) (s : State) : State :=
  { s with channels := s.channels.map fun c =>
      if c.state = .running ∧ c.lane = l then missDues planStart s.params.planLength dueFuel c.missCarried else c }

/-! ### Rounds and unwinding (6.6) -/

/-- A DRAINING channel of the lane whose final mark holds this plan number. -/
def Channel.finalIn (c : Channel) (l : LaneNo) (pn : PlanNo) : Bool :=
  c.state == .draining && c.lane == l && (c.finalMark.map (·.planNo)) == some pn

/-- A reloaded channel starts its next round (R106). -/
def Channel.reloaded (horizon : Option Slice) (c : Channel) : Channel :=
  match c.finalMark with
  | some m =>
    { c with state := .running, count := c.initial, finalMark := none,
             nextDue := some (firstDueFrom horizon (sliceAdd m.due c.period) c.period) }
  | none => c

/-- The end of one channel's round at the take of its final plan (R106). -/
def endRound (c : Channel) (s : State) : State :=
  match c.endAction with
  | .stop => endChannel { c with finalMark := none } .count s
  | .reload => modChannel c.number (Channel.reloaded (s.horizon c.lane)) (queueStatus (.cadenceEnded c.number c.tag .count) s)

/-- A taken plan is handed to the Cadence Unit: every DRAINING channel whose final mark holds it completes its round (R14, R106).
Their rounds end, and their messages and handovers follow, in channel-number order (DESIGN CHOICE, log 35). -/
def endRounds (l : LaneNo) (pn : PlanNo) (s : State) : State :=
  (s.channels.filter fun c => c.finalIn l pn).foldl (fun s c => endRound c s) s

/-- A turn list entry of a stream belongs to the channel it names (R107). -/
def Channel.owns (c : Channel) (tag : Nat) (t : Turn) : Bool :=
  c.tag == tag && c.lane == t.lane && !countBefore t.planNo c.openingPlan

/-- The final turn of a DRAINING channel is lost: RUNNING with count 1 and a miss (R108). -/
def Channel.loseFinal (c : Channel) : Channel := { c.miss with state := .running, count := 1, finalMark := none }

/-- An unwound entry that belongs to the channel (R108). -/
def Channel.unwind (t : Turn) (c : Channel) : Channel :=
  if c.state = .draining ∧ c.finalMark.any (fun m => m.planNo == t.planNo && m.start == t.start) then c.loseFinal
  else
    let c := { c.miss with count := if c.initial = 0 then c.count else c.count + 1 }
    if c.state = .draining then { c with state := .running, finalMark := none } else c

/-- The Cadence Unit's part of unwinding a CADENCE entry (R16, R107, R108). -/
def unwindCadence (tag : Nat) (t : Turn) (s : State) : State :=
  match t.channel with
  | some k => modChannel k (fun c => if c.owns tag t then c.unwind t else c) s
  | none => s

/-- At a lapse, withdrawal or abandonment the plan number is handed over too: a DRAINING channel whose final entry was not
reached is unwound by it (R108). -/
def unwindRounds (l : LaneNo) (pn : PlanNo) (s : State) : State :=
  { s with channels := s.channels.map fun c => if c.finalIn l pn then c.loseFinal else c }

/-! ### Outcomes (6.7) -/

/-- The outcome of a CADENCE entry, applied to the channel it belongs to (R55, R109). -/
def cadenceOutcome (tag : Nat) (t : Turn) (r : BurstResult) (s : State) : State :=
  match t.channel.bind s.channel? with
  | some c =>
    if c.owns tag t then
      match r with
      | .good => modChannel c.number (fun c => { c with unused := 0 }) s
      | .empty =>
        let c' := { c with unused := satAdd 255 c.unused 1 }
        let s := modChannel c.number (fun _ => c') s
        if s.params.unusedLimit > 0 ∧ c'.unused ≥ s.params.unusedLimit then endChannel c' .unused s else s
      | _ => s
    else s
  | none => s

/-! ### Lane events (6.8) -/

/-- A lane goes DARK: the carried dues of its RUNNING channels are missed, and an opening plan after the plan number
counter takes the counter's value (R110). -/
def darkChannels (l : LaneNo) (s : State) : State :=
  let pn := (s.lane l).planNo
  { s with channels := s.channels.map fun c =>
      if c.lane = l then
        let c := if c.state = .running then c.missCarried else c
        if countAfter c.openingPlan pn then { c with openingPlan := pn } else c
      else c }

/-- A lane enters RAMP: the next dues of its RUNNING channels move to the new next plan start, with no miss (R110). -/
def rampChannels (l : LaneNo) (s : State) : State :=
  let start := (s.lane l).nextPlanStart
  { s with channels := s.channels.map fun c =>
      if c.lane = l ∧ c.state = .running then
        { c with nextDue := c.nextDue.map fun d => firstDueFrom start d c.period }
      else c }

end Sys2Proof.Machine
end

