-- ==== Sys2Proof/Machine/Retire.lean ====
section
/-! DEFINITION. Corrections (7.3), retirement (R36, R126) and the freeing of entries (R37). -/

namespace Sys2Proof.Machine

/-- Queue a correction on a lane: it replaces a waiting one for its tag in place, or joins the tail (R117). -/
def queueCorrection (l : LaneNo) (c : Correction) (s : State) : State :=
  modLane l (fun L =>
    if L.corrections.any fun d => d.tag == c.tag then
      { L with corrections := L.corrections.map fun d => if d.tag == c.tag then c else d }
    else { L with corrections := L.corrections ++ [c] }) s

/-- An ABORT correction: two zero adjustments (R117). -/
def abortFor (tag : Nat) : Correction := { tag := tag, status := .abort, timing := 0, power := 0 }

/-- A CONTINUE or DONE correction: the negatives of the measured offsets, clamped (R117). -/
def correctionFor (tag : Nat) (status : CorrectionStatus) (timing power : Int) : Correction :=
  { tag := tag, status := status, timing := clampInt (-8191) 8191 (-timing), power := clampInt (-24) 24 (-power) }

/-- A correction for the tag waits in some correction queue of the chip (R114, R118). -/
def State.correctionWaits (s : State) (tag : Nat) : Bool :=
  allLanes.any fun l => (s.lane l).corrections.any fun c => c.tag == tag

/-- Discard a waiting correction. -/
def dropCorrection (l : LaneNo) (tag : Nat) (s : State) : State :=
  modLane l (fun L => { L with corrections := L.corrections.filter fun c => c.tag != tag }) s

/-- The correction of a retired station, by cause: discarded after a rejoin, left as R123 or R125 made it after failure or
loss, none after a lane DARK (its queue is empty), an ABORT otherwise (R126, R127). -/
def retireCorrection (cause : RetireCause) (l : LaneNo) (tag : Nat) (s : State) : State :=
  match cause with
  | .rejoin => dropCorrection l tag s
  | .failure | .laneDown => s
  | .order | .admitExpiry | .parent => queueCorrection l (abortFor tag) s

/-- The Joining and Alignment Unit's share of a station's retirement (R126). -/
def retireStation (cause : RetireCause) (e : Stream) (s : State) : State :=
  match e.homeLane with
  | some l =>
    let s := modLane l (fun L => { L with provisional := L.provisional.filter fun t => t != e.tag }) s
    let s := modAlignment e.entry (fun a => { a with probeOut := none, maintenance := none }) s
    retireCorrection cause l e.tag s
  | none => s

/-- The record of a stream as it enters CLOSING (R36). -/
def Stream.closed (e : Stream) : Stream :=
  { e with state := .closing, demand := 0, deficit := 0, quiet := false, noShow := 0, retry := 0,
           pollCountdown := none, admitCountdown := none }

/-- Retire one entry (R36): CLOSING, out of every ring, its address, view and channels gone; its tag stays mapped and its
turn list is kept. -/
def retireEntry (cause : RetireCause) (n : Nat) (s : State) : State :=
  match s.entry? n with
  | some e =>
    let s := updateEntry n Stream.closed s
    let s := if e.isStation then
        retireStation cause e { s with stationIndex := s.stationIndex.filter fun p => p.2 != n }
      else s
    retireChannels e.tag (if e.isSpread then removeView e.tag s else s)
  | none => s

/-- A CLOSING entry with an empty turn list and, for a station, no child left, may become FREE (R37). -/
def State.mayFree (s : State) (e : Stream) : Bool :=
  e.state == .closing && e.turns.isEmpty &&
    (!e.isStation || !(s.table.any fun c => c.parent == e.entry && c.entry != e.entry))

/-- The entry becomes FREE: its tag leaves the map, RETIRED is queued, and a station tag returns to the pool (R37). -/
def freeEntry (e : Stream) (s : State) : State :=
  let s := { s with
    table := s.table.filter fun c => c.entry != e.entry, tagMap := s.tagMap.filter fun p => p.1 != e.tag,
    pool := if e.isStation then insertBy id e.tag s.pool else s.pool }
  queueStatus (.retired e.tag) (modBuild (fun b => { b with reloaded := b.reloaded.filter fun m => m != e.entry }) s)

/-- Free one entry if it may become FREE. -/
def freeOne (n : Nat) (s : State) : State :=
  match s.entry? n with
  | some e => if s.mayFree e then freeEntry e s else s
  | none => s

/-- Examine an entry for R37; when a child becomes FREE its station is examined too. -/
def tryFree (n : Nat) (s : State) : State :=
  match s.entry? n with
  | some e => if s.mayFree e then freeOne e.parent (freeEntry e s) else s
  | none => s

/-- The children of a station that are BASIC or ADMITTED, in entry order. -/
def State.servedChildren (s : State) (n : Nat) : List Nat :=
  (s.table.filter fun c => c.parent == n && c.entry != n && c.served).map (·.entry)

/-- Retire an entry and, for a station, its served children with it (R36); entries that may become FREE do so at once, a
child before its station (R37). -/
def retireWithChildren (cause : RetireCause) (n : Nat) (s : State) : State :=
  let children := s.servedChildren n
  let s := retireEntry cause n s
  let s := children.foldl (fun s c => retireEntry .parent c s) s
  tryFree n (children.foldl (fun s c => tryFree c s) s)

/-- Remove a turn list entry; the list of a CLOSING entry that becomes empty leads to R37 (R29). -/
def removeTurn (n : Nat) (l : LaneNo) (start : Slice) (s : State) : State := tryFree n (dropTurn n l start s)

end Sys2Proof.Machine
end

