-- ==== Sys2Proof/Machine/LaneState.lean ====
section
/-! DEFINITION. The changes of lane state to RAMP and to LIVE (9.3, 9.4). -/

namespace Sys2Proof.Machine

/-- A lane takes a new state; LANE_STATE is queued and a LANE notice offered (R164, R166). -/
def announceState (l : LaneNo) (cause : LaneCause) (s : State) : State :=
  offerLane l (queueStatus (.laneState l (s.laneState l) cause) s)

/-- A lane enters LIVE from RAMP, keeping its ramp counters (R164). -/
def enterLive (l : LaneNo) (s : State) : State :=
  announceState l .rampDone (modHealth l (fun h => { h with state := .live }) s)

/-- The maintenance countdowns of the lane's BASIC and ADMITTED stations become 0 (R127). -/
def rampMaintenance (l : LaneNo) (s : State) : State :=
  { s with table := s.table.map fun e =>
      if e.served && e.isStation && e.homedOn l then
        { e with alignment := e.alignment.map fun a => { a with maintenance := some 0 } }
      else e }

/-- A lane enters RAMP from DARK (R164): the ramp counters, the message and the notice; then the next plan start with the
first build point at once (R3, R5), the join countdown (R81), the maintenance countdowns (R127) and the channels' dues (R110). -/
def enterRamp (l : LaneNo) (cause : LaneCause) (s : State) : State :=
  let s := modHealth l (fun h => { h with state := .ramp, floor := 0, goodProbes := 0, rampBuilds := 0 }) s
  let s := announceState l cause s
  let s := modLane l (fun L =>
    { L with nextPlanStart := some (sliceAdd L.slice s.params.lead), buildState := .pending, deferred := false,
             joinCountdown := 0 }) s
  rampChannels l (rampMaintenance l s)

/-- The ramp of a lane has failed: its ramp build count has reached the ramp timeout (R163). -/
def State.rampFailed (s : State) (l : LaneNo) : Bool :=
  s.laneState l == .ramp && decide ((s.lane l).health.rampBuilds ≥ s.params.health.rampTimeout)

/-- A good probe report (R162): counted on a RAMP lane; at the ramp limit the lane enters LIVE. -/
def goodProbe (l : LaneNo) (s : State) : State :=
  if s.laneState l = .ramp then
    let s := modHealth l (fun h => { h with goodProbes := satAdd 255 h.goodProbes 1 }) s
    if (s.lane l).health.goodProbes ≥ s.params.health.rampLimit then enterLive l s else s
  else s

end Sys2Proof.Machine
end

