-- ==== Sys2Proof/Machine/Joining.lean ====
section
/-! DEFINITION. The Joining and Alignment Unit (7): new stations and rejoins, probe requests, probe results, completion,
failure and loss. -/

namespace Sys2Proof.Machine

/-! ### New stations (7.2) -/

/-- The lowest tag of the pool with no correction waiting and not the tag of the station it replaces (R114). -/
def State.qualifyingTag (s : State) (replaced : Option Nat) : Option Nat :=
  s.pool.find? fun t => !s.correctionWaits t && replaced != some t

/-- The alignment record of a new station (R113). -/
def Alignment.new (timing power : Int) : Alignment :=
  { attempts := 0, emptyRun := 0, maintenance := none, maintenanceEmpty := 0, lastTiming := timing, lastPower := power,
    probeOut := none }

/-- The entry of a new PROVISIONAL station (R24). -/
def Stream.newStation (entry tag quantum : Nat) (address : BitVec 48) (l : LaneNo) (timing power : Int) : Stream :=
  { entry := entry, tag := tag, state := .provisional, parent := entry, address := some address, cls := 0, mode := .edge,
    quantum := quantum, deficit := 0, demand := 0, place := .home l, profiles := Vector.replicate 4 0, pollInterval := 0,
    pollCountdown := none, hold := Vector.replicate 4 none, noShow := 0, quiet := false, retry := 0, admitCountdown := none,
    turns := [], alignment := some (Alignment.new timing power) }

/-- Enter a station address in the station index (R22). -/
def addAddress (a : BitVec 48) (n : Nat) (s : State) : State :=
  { s with stationIndex := (s.stationIndex.filter fun p => p.1 != a) ++ [(a, n)] }

/-- Make a new station on a lane, or JOIN_FAILED(NO_ROOM) (R115). -/
def joinUnknown (l : LaneNo) (a : BitVec 48) (timing power : Int) (replaced : Option Nat) (s : State) : State :=
  match s.qualifyingTag replaced, s.lowestFree with
  | some tag, some n =>
    let e := Stream.newStation n tag s.params.quantum a l timing power
    let s := addAddress a n (addEntry e { s with pool := s.pool.filter fun t => t != tag })
    queueCorrection l (correctionFor tag .cont timing power)
      (modLane l (fun L => { L with provisional := L.provisional ++ [tag] }) s)
  | _, _ => queueStatus (.joinFailed a l .noRoom) s

/-- A join arrival (R115), or a rejoin of a known address (R116). -/
def joinStation (l : LaneNo) (a : BitVec 48) (timing power : Int) (s : State) : State :=
  match (s.lookupAddress a).bind s.entry? with
  | some old =>
    let s := retireWithChildren .rejoin old.entry (queueStatus (.stationLost old.tag .rejoin) s)
    joinUnknown l a timing power (some old.tag) s
  | none => joinUnknown l a timing power none s

/-! ### Probe requests (7.4) -/

/-- The station may be offered a probe (R118). -/
def State.mayProbe (s : State) (e : Stream) : Bool :=
  match e.alignment, e.homeLane with
  | some a, some l =>
    a.probeOut.isNone && !s.correctionWaits e.tag && s.laneState l != .dark &&
      (e.state == .provisional || (e.served && a.maintenance == some 0))
  | _, _ => false

/-- The next provisional station of the lane's list that step 2 has not reached and that may be offered a probe (R118). -/
def State.nextProvisional (s : State) (b : Build) : Option Nat :=
  (s.lane b.lane).provisional.find? fun t =>
    !b.probePassed.contains t && match s.byTag t with
      | some e => s.mayProbe e
      | none => false

/-- The next BASIC or ADMITTED station homed on the lane, in tag order from the one step 2 has come to, whose maintenance
probe is due (R80, R118). -/
def State.nextMaintenance (s : State) (b : Build) : Option Nat :=
  leastBy (fun t => (t : Int)) ((s.table.filter fun e =>
    e.served && e.isStation && e.homedOn b.lane && decide (e.tag ≥ b.maintenanceFrom.getD 0) && s.mayProbe e).map (·.tag))

/-! ### Probe results (7.5, 7.6) -/

/-- The probe result is within tolerance (R120). -/
def withinTolerance (p : Params) (timing power : Int) : Bool :=
  decide (timing.natAbs ≤ p.timingTolerance) && decide (power.natAbs ≤ p.powerTolerance)

/-- The default service of a station whose alignment is done (R25, R122). -/
def Stream.aligned (p : Params) (l : LaneNo) (e : Stream) : Stream :=
  { e with
    state := .basic, cls := 1, mode := .edge, quantum := p.quantum, profiles := e.profiles.set l.val 0, pollInterval := 0,
    pollCountdown := none, admitCountdown := some p.admitWait,
    alignment := e.alignment.map fun a => { a with maintenance := some p.maintenancePeriod, maintenanceEmpty := 0 } }

/-- A PROVISIONAL station completes its alignment (R122). -/
def completeAlignment (e : Stream) (l : LaneNo) (s : State) : State :=
  let s := modLane l (fun L => { L with provisional := L.provisional.filter fun t => t != e.tag }) s
  let s := updateEntry e.entry (Stream.aligned s.params l) s
  match e.address with
  | some a => queueStatus (.joined e.tag a l) s
  | none => s

/-- A PROVISIONAL station's alignment fails: ABORT, JOIN_FAILED, retirement (R123). -/
def failAlignment (e : Stream) (l : LaneNo) (cause : JoinFail) (s : State) : State :=
  let s := queueCorrection l (abortFor e.tag) s
  let s := match e.address with
    | some a => queueStatus (.joinFailed a l cause) s
    | none => s
  retireWithChildren .failure e.entry s

/-- A station is lost: ABORT, STATION_LOST(SILENT), retirement with its children (R125). -/
def loseStation (e : Stream) (l : LaneNo) (s : State) : State :=
  retireWithChildren .failure e.entry
    (queueStatus (.stationLost e.tag .silent) (queueCorrection l (abortFor e.tag) s))

/-- A GOOD probe on a RAMP home lane is reported to the Lane Health Unit (R120, R125, R127). -/
def reportProbe (l : LaneNo) (s : State) : State := if s.laneState l = .ramp then goodProbe l s else s

/-- A GOOD result for a PROVISIONAL station (R120). -/
def provisionalGood (e : Stream) (l : LaneNo) (timing power : Int) (s : State) : State :=
  let attempts := (e.alignment.map (·.attempts)).getD 0 + 1
  let s := modAlignment e.entry (fun a =>
    { a with attempts := attempts, emptyRun := 0, lastTiming := timing, lastPower := power }) s
  let s := reportProbe l s
  if withinTolerance s.params timing power then
    completeAlignment e l (queueCorrection l (correctionFor e.tag .done timing power) s)
  else if attempts < Config.probeAttempts then queueCorrection l (correctionFor e.tag .cont timing power) s
  else failAlignment e l .noConverge s

/-- An EMPTY or DAMAGED result for a PROVISIONAL station (R121). -/
def provisionalMissed (e : Stream) (l : LaneNo) (empty : Bool) (s : State) : State :=
  let attempts := (e.alignment.map (·.attempts)).getD 0 + 1
  let run := if empty then (e.alignment.map (·.emptyRun)).getD 0 + 1 else 0
  let s := modAlignment e.entry (fun a => { a with attempts := attempts, emptyRun := run }) s
  if run ≥ Config.provisionalEmptyLimit then failAlignment e l .silent s
  else if attempts ≥ Config.probeAttempts then failAlignment e l .noConverge s
  else s

/-- A GOOD maintenance probe result (R125). -/
def maintenanceGood (e : Stream) (l : LaneNo) (timing power : Int) (s : State) : State :=
  let s := modAlignment e.entry (fun a =>
    { a with maintenanceEmpty := 0, lastTiming := timing, lastPower := power,
             maintenance := some s.params.maintenancePeriod }) s
  let s := if withinTolerance s.params timing power then s
    else queueCorrection l (correctionFor e.tag .cont timing power) s
  reportProbe l s

/-- An EMPTY maintenance probe result; at the limit the station is lost (R125). -/
def maintenanceMissed (e : Stream) (l : LaneNo) (s : State) : State :=
  let run := (e.alignment.map (·.maintenanceEmpty)).getD 0 + 1
  let s := modAlignment e.entry (fun a => { a with maintenanceEmpty := run }) s
  if run ≥ Config.maintenanceEmptyLimit then loseStation e l s else s

/-- A DAMAGED maintenance probe result (R125). -/
def maintenanceDamaged (e : Stream) (s : State) : State :=
  modAlignment e.entry (fun a => { a with maintenanceEmpty := 0 }) s

/-- A result applied to a station whose probe out has been resolved (R120, R121, R125); a CLOSING station takes none. -/
def applyProbe (n : Nat) (r : BurstResult) (timing power : Int) (s : State) : State :=
  match s.entry? n with
  | some e =>
    match e.homeLane, e.state, r with
    | some l, .provisional, .good => provisionalGood e l timing power s
    | some l, .provisional, .empty => provisionalMissed e l true s
    | some l, .provisional, .damaged => provisionalMissed e l false s
    | some l, .basic, .good => maintenanceGood e l timing power s
    | some l, .admitted, .good => maintenanceGood e l timing power s
    | some l, .basic, .empty => maintenanceMissed e l s
    | some l, .admitted, .empty => maintenanceMissed e l s
    | some _, .basic, .damaged => maintenanceDamaged e s
    | some _, .admitted, .damaged => maintenanceDamaged e s
    | _, _, _ => s
  | none => s

/-- The probe out of an entry. -/
def State.probeOut (s : State) (n : Nat) : Option ProbeOut := ((s.entry? n).bind (·.alignment)).bind (·.probeOut)

/-- Clear a station's probe out. -/
def clearProbe (n : Nat) (s : State) : State := modAlignment n (fun a => { a with probeOut := none }) s

/-- A probe result handed over for a station: applied only when its lane and start slice match the probe out, which is then
cleared (R119). -/
def probeResult (n : Nat) (l : LaneNo) (start : Slice) (r : BurstResult) (timing power : Int) (s : State) : State :=
  match s.probeOut n with
  | some p => if p.lane = l ∧ p.start = start then applyProbe n r timing power (clearProbe n s) else s
  | none => s

/-- The unwinding of a PROBE entry: the probe out is cleared and no attempt is counted (R16, R119). -/
def unwindProbe (n : Nat) (t : Turn) (s : State) : State :=
  match s.probeOut n with
  | some p => if p.lane = t.lane ∧ p.start = t.start then clearProbe n s else s
  | none => s

/-- The start of the slice at the probe's end plus the outcome wait is reached while the probe out is present (R119). -/
def State.probeOverdue (s : State) (n : Nat) : Bool :=
  match s.probeOut n with
  | some p => countReached (sliceAdd p.stop s.params.outcomeWait) (s.lane p.lane).slice
  | none => false

/-- A probe reaches its deadline: the probe out is cleared and an EMPTY result is applied (R119). -/
def probeDeadlineStep (n : Nat) (s : State) : State :=
  if s.probeOverdue n then applyProbe n .empty 0 0 (clearProbe n s) else s

/-- A lane goes DARK: the Joining and Alignment Unit's part (R127). -/
def darkStations (l : LaneNo) (s : State) : State :=
  let s := modLane l (fun L => { L with corrections := [] }) s
  let clear : Stream → Stream := fun e =>
    if e.homedOn l then { e with alignment := e.alignment.map fun a => { a with probeOut := none } } else e
  let s := { s with table := s.table.map clear }
  let s := (s.lane l).provisional.foldl (fun s t =>
    match s.byTag t with
    | some e =>
      let s := match e.address with
        | some a => queueStatus (.joinFailed a l .laneDown) s
        | none => s
      retireWithChildren .laneDown e.entry s
    | none => s) s
  modLane l (fun L => { L with provisional := [] }) s

end Sys2Proof.Machine
end

