-- ==== Sys2Proof/Machine/Unwind.lean ====
section
/-! DEFINITION. The unwinding of plans (R16), lapses (R15), withdrawals and abandonments (R11, R17), and the removal of a
dark lane's turn list entries (R38). -/

namespace Sys2Proof.Machine

/-- The turn list entry of a stream that a placed turn made, when it is still held: same lane, plan number, kind and start
(R16, R19). -/
def Stream.entryOf (e : Stream) (l : LaneNo) (pn : PlanNo) (kind : TurnKind) (start : Slice) : Option Turn :=
  e.turns.find? fun t => t.lane == l && t.planNo == pn && t.kind == kind && t.start == start

/-- Unwind one placed turn by its kind (R16). A turn whose entry has left its list is passed over; the DATA payload of a
stream in EDGE mode is restored; CADENCE and PROBE entries are handed to their units. -/
def unwindTurn (l : LaneNo) (pn : PlanNo) (planStart : Slice) (t : PlanTurn) (s : State) : State :=
  match s.byTag t.tag with
  | some e =>
    match e.entryOf l pn t.kind (sliceAdd planStart t.offset) with
    | some x =>
      let s := dropTurn e.entry l x.start s
      let s := match x.kind with
        | .data => restore e.entry x.payload s
        | .cadence => unwindCadence e.tag x s
        | .probe => unwindProbe e.entry x s
        | _ => s
      tryFree e.entry s
    | none => s
  | none => s

/-- Unwind the turns of a plan or of the part of a build placed before it was abandoned, then hand lane and plan number to
the Cadence Unit (R16, R108). -/
def unwindTurns (l : LaneNo) (pn : PlanNo) (planStart : Slice) (turns : List PlanTurn) (s : State) : State :=
  unwindRounds l pn (turns.foldl (fun s t => unwindTurn l pn planStart t s) s)

/-- Unwind a finished plan; its corrections are discarded (R15, R17). -/
def unwindPlan (l : LaneNo) (p : Plan) (s : State) : State := unwindTurns l p.planNo p.start p.turns s

/-- The plan in a lane's output queue lapses (R15). -/
def lapsePlan (l : LaneNo) (s : State) : State :=
  match (s.lane l).outQueue with
  | some p => setFlag l .planLapsed (unwindPlan l p (modLane l (fun L => { L with outQueue := none }) s))
  | none => s

/-- The plan in a dark lane's output queue is withdrawn; PLAN_LAPSED is not set (R17). -/
def withdrawPlan (l : LaneNo) (s : State) : State :=
  match (s.lane l).outQueue with
  | some p => unwindPlan l p (modLane l (fun L => { L with outQueue := none }) s)
  | none => s

/-- The lane's build in flight is abandoned: its placements are unwound and the builder is free (R11). -/
def abandonBuild (l : LaneNo) (s : State) : State :=
  match s.buildOf l with
  | some b => unwindTurns l b.planNo b.start b.placed { s with builder := none }
  | none => s

/-- The Plan Builder's part of a lane going DARK (R3, R11, R17). -/
def darkPlans (l : LaneNo) (s : State) : State :=
  let s := abandonBuild l s
  let s := modLane l (fun L => { L with buildState := .idle, deferred := false, nextPlanStart := none }) s
  withdrawPlan l s

/-- Remove one turn list entry of a dark lane: an EDGE DATA payload is restored, nothing else is touched (R38). -/
def purgeTurn (n : Nat) (t : Turn) (s : State) : State :=
  let s := dropTurn n t.lane t.start s
  if t.kind = .data then restore n t.payload s else s

/-- Remove the dark lane's turn list entries of one stream (R38). -/
def purgeStream (l : LaneNo) (s : State) (e : Stream) : State :=
  (e.turns.filter fun t => t.lane == l).foldl (fun s t => purgeTurn e.entry t s) s

/-- The hold-until field of a lane becomes absent in every entry (R38). -/
def dropHolds (l : LaneNo) (s : State) : State :=
  { s with table := s.table.map fun e => { e with hold := e.hold.set l.val none } }

/-- The Stream Table's part of a lane going DARK: the lane's turn list entries and hold-until fields go, and CLOSING entries
whose lists become empty become FREE (R38). R38 gives no order among the streams, in which restored ones join the tail of a ring
and emptied ones send RETIRED: rising entry number (DESIGN CHOICE, log 35). -/
def darkTurns (l : LaneNo) (s : State) : State :=
  let s := dropHolds l (s.table.foldl (purgeStream l) s)
  s.table.foldl (fun s e => tryFree e.entry s) s

end Sys2Proof.Machine
end

