-- ==== Sys2Proof/Machine/LaneHealth.lean ====
section
/-! DEFINITION. The Lane Health Unit (9): going DARK, carrier changes, the ramp, the evaluation at a completed build, and
LANE UP and LANE DOWN. -/

namespace Sys2Proof.Machine

/-! ### Going DARK (R165) -/

/-- The readings of a lane that has not been evaluated since its last DARK or since reset (R156, R165). -/
def Readings.unread : Readings :=
  { backlog := 65535, openCollisions := 65535, joinCollisions := 65535, damage := 65535, empty := 65535 }

/-- The Lane Health Unit's own part of a lane going DARK, after the message (R165). -/
def Health.darkened (h : Health) : Health :=
  { h with floor := 0, openCount := 0, joinCount := 0, damageCount := 0, emptyCount := 0, readings := Readings.unread,
           goodProbes := 0, rampBuilds := 0, flags := h.flags &&& keptAtDark }

/-- The lane's state becomes DARK and LANE_STATE is queued, ahead of every message the DARK causes (R165). -/
def darkMessage (l : LaneNo) (cause : LaneCause) (s : State) : State :=
  queueStatus (.laneState l .dark cause) (modHealth l (fun h => { h with state := .dark }) s)

/-- The lane's FIFO is emptied (R40). -/
def emptyFifo (l : LaneNo) (s : State) : State := modLane l (fun L => { L with fifo := [] }) s

/-- A lane in RAMP or LIVE goes DARK (R165): the message, the lane record, the LANE notice, and then the parts of the Plan
Builder, the Lane Intake Unit, the Stream Table, the Joining and Alignment Unit and the Cadence Unit. R165 lists the blocks' parts with
no order among them: they are taken in the order of that list (DESIGN CHOICE, log 43). -/
def goDark (l : LaneNo) (cause : LaneCause) (s : State) : State :=
  let s := offerLane l (modHealth l Health.darkened (darkMessage l cause s))
  let s := darkPlans l s
  let s := darkTurns l (emptyFifo l s)
  darkChannels l (darkStations l s)

/-! ### Enable and carrier (R158, R159, R160, R161) -/

/-- A carrier change reaches the Lane Health Unit (R161). -/
def carrierChange (l : LaneNo) (c : Carrier) (s : State) : State :=
  let s := modHealth l (fun h => { h with carrier := c }) s
  match c, s.laneState l with
  | .present, .dark => if (s.lane l).health.enable then enterRamp l .carrierFound s else s
  | .absent, .ramp => goDark l .carrierLost s
  | .absent, .live => goDark l .carrierLost s
  | _, _ => s

/-- LANE UP on a fitted lane (R159): enable on; the weight, unless 0; a ramp when enable was off and the carrier is PRESENT,
or a LANE notice when the weight alone changed. -/
def laneUp (l : LaneNo) (weight : Nat) (s : State) : State :=
  let old := (s.lane l).health
  let s := modHealth l (fun h => { h with enable := true, weight := if weight = 0 then h.weight else weight }) s
  if ¬old.enable ∧ old.carrier = .present then enterRamp l .enabled s
  else if weight ≠ 0 ∧ weight ≠ old.weight then offerLane l s
  else s

/-- LANE DOWN on a fitted lane (R160): enable off, and a RAMP or LIVE lane goes DARK. -/
def laneDown (l : LaneNo) (s : State) : State :=
  let s := modHealth l (fun h => { h with enable := false }) s
  if s.laneState l = .dark then s else goDark l .disabled s

/-- The ramp of a lane has failed: RAMP_FAIL, enable off, DARK (R163). -/
def failRamp (l : LaneNo) (s : State) : State :=
  goDark l .rampTimeout (modHealth l (fun h => { h with enable := false }) (setFlag l .rampFail s))

/-! ### Monitor evaluation (9.5) -/

/-- The two parts of a lane's backlog (R168): the outstanding demand of the non-spread streams homed on it, and the
allowances on it of the views that hold it. -/
def State.backlog (s : State) (l : LaneNo) : Nat :=
  ((s.table.filter fun e => e.homedOn l).map (·.demand)).sum
    + ((s.views.filter fun v => v.set.contains (s.nodeLane l)).map fun v => allowance s.boot.peerId v l).sum

/-- The backlog reading: the sum in kilobytes, saturating (R168). -/
def State.backlogReading (s : State) (l : LaneNo) : Nat := min (s.backlog l / 1024) 65535

/-- The floor after an evaluation (R168). -/
def movedFloor (lim : HealthLimits) (st : LaneState) (backlog floor : Nat) : Nat :=
  if st = .live then
    if backlog > lim.backlogHigh then min (floor + 1) 5
    else if backlog < lim.backlogLow then floor - 1
    else floor
  else floor

/-- A backoff pair after an evaluation with collision reading `c` (R169). -/
def Backoff.moved (high low least c : Nat) (b : Backoff) : Backoff :=
  if c ≥ high then { first := min (b.first + 1) 10, last := min (b.last + 1) 10 }
  else if c ≤ low then
    let first := max (b.first - 1) least
    { first := first, last := max (b.last - 1) first }
  else b

/-- Set a flag when a condition holds. -/
def setFlagIf (p : Bool) (l : LaneNo) (f : Flag) (s : State) : State := if p then setFlag l f s else s

/-- The lane record after an evaluation, but for the flags: the readings, the floor, both pairs, and the counts from 0 again
(R167, R168, R169). -/
def Health.evaluated (lim : HealthLimits) (backlog : Nat) (h : Health) : Health :=
  { h with
    readings := { backlog := backlog, openCollisions := h.openCount, joinCollisions := h.joinCount,
                  damage := h.damageCount, empty := h.emptyCount },
    floor := movedFloor lim h.state backlog h.floor,
    openPair := h.openPair.moved lim.openHigh lim.openLow lim.openMin h.openCount,
    joinPair := h.joinPair.moved lim.joinHigh lim.joinLow lim.joinMin h.joinCount,
    openCount := 0, joinCount := 0, damageCount := 0, emptyCount := 0 }

/-- The evaluation of a lane at a completed build, one event (R167, R168, R169, R170). -/
def evaluateLane (l : LaneNo) (s : State) : State :=
  let h := (s.lane l).health
  let lim := s.params.health
  let b := s.backlogReading l
  let s := modHealth l (Health.evaluated lim b) s
  let s := setFlagIf (decide (b > lim.backlogHigh)) l .backlogHigh s
  let s := setFlagIf (decide (h.openCount ≥ lim.openHigh)) l .openCollideHigh s
  let s := setFlagIf (decide (h.joinCount ≥ lim.joinHigh)) l .joinCollideHigh s
  let s := setFlagIf (decide (h.damageCount > lim.damageLimit)) l .damageHigh s
  setFlagIf (decide (h.emptyCount > lim.emptyLimit)) l .emptyHigh s

/-- The Lane Health Unit's counts at a completed build (R163, R167): the ramp build count rises on a RAMP lane, and the
evaluation follows unless that count ended the ramp; the failure then follows in the same completion (`completeBuild`). -/
def healthCompletion (l : LaneNo) (s : State) : State :=
  match s.laneState l with
  | .dark => s
  | .live => evaluateLane l s
  | .ramp =>
    let s := modHealth l (fun h => { h with rampBuilds := satAdd 255 h.rampBuilds 1 }) s
    if s.rampFailed l then s else evaluateLane l s

/-! ### The commands -/

/-- LANE UP (R159). -/
def laneUpStep (seq lane weight : Byte) (s : State) : State :=
  whenReady seq (fun s =>
    match s.fittedByte lane with
    | some l => answerDone seq false (laneUp l weight.toNat s)
    | none => refuse seq .badLane s) s

/-- LANE DOWN (R160). -/
def laneDownStep (seq lane : Byte) (s : State) : State :=
  whenReady seq (fun s =>
    match s.fittedByte lane with
    | some l => answerDone seq false (laneDown l s)
    | none => refuse seq .badLane s) s

/-- The meaning of LANE_UP. -/
def execLaneUp (seq lane weight : Byte) (s : State) : Host.Outcome State Fault Refusal :=
  .next (laneUpStep seq lane weight s)

/-- The meaning of LANE_DOWN. -/
def execLaneDown (seq lane : Byte) (s : State) : Host.Outcome State Fault Refusal := .next (laneDownStep seq lane s)

end Sys2Proof.Machine
end

