-- ==== Sys2Proof/Machine/TurnArithmetic.lean ====
section
/-! DEFINITION. Turn arithmetic (4): slices and capacity, the boot clamps, and the sizing of every kind of turn. -/

namespace Sys2Proof.Machine

/-- The slices a burst of `n` data bytes needs (R63). -/
def slices (p : Profile) (n : Nat) : Nat :=
  let c := ceilDiv n p.k
  let e := n + 2 * p.t * c
  p.h + ceilDiv e p.s

/-- The data bytes a burst of `len` slices can carry (R64). -/
def capacity (p : Profile) (len : Nat) : Nat :=
  if len ≤ p.h then 0
  else
    let a := (len - p.h) * p.s
    let q := a / (p.k + 2 * p.t)
    let r := a - q * (p.k + 2 * p.t)
    q * p.k + (r - 2 * p.t)

/-- The least data length of a profile (R65). -/
def leastLength (p : Profile) : Nat := p.h + ceilDiv (1 + 2 * p.t) p.s

/-- Lmax after its two clamps: raised to the largest Ld, then lowered to P (R65). -/
def clampLmax (lmax planLength : Nat) (profiles : Vector Profile 4) : Nat :=
  min (profiles.toList.foldl (fun m p => max m (leastLength p)) lmax) planLength

/-- The turn-sizing table of a lane (R62, R65, R66, R69). -/
def sizingOf (lmax planLength minFragment : Nat) (profiles : Vector Profile 4) : Sizing :=
  let lm := clampLmax lmax planLength profiles
  { profiles := profiles, lmax := lm, ld := profiles.map leastLength,
    minFragment := profiles.map fun p => min minFragment (capacity p lm),
    pollLength := profiles.map fun p => slices p Config.pollPayload }

/-- The lane's turn-sizing table; a lane whose table is absent places nothing, and reads as the default profile. -/
def Lane.table (L : Lane) : Sizing :=
  L.sizing.getD (sizingOf LaneParams.default.lmax Params.default.planLength Params.default.minFragment LaneParams.default.profiles)

/-- The profile of index `i` in a table; indexes are 0 to 3. -/
def Sizing.profile (z : Sizing) (i : Nat) : Profile := (z.profiles[i]?).getD Profile.default

/-- The least data length of profile `i` (R65). -/
def Sizing.leastData (z : Sizing) (i : Nat) : Nat := (z.ld[i]?).getD 0

/-- The effective minimum fragment of profile `i` (R66). -/
def Sizing.fragment (z : Sizing) (i : Nat) : Nat := (z.minFragment[i]?).getD 0

/-- The poll length of profile `i` (R69). -/
def Sizing.poll (z : Sizing) (i : Nat) : Nat := (z.pollLength[i]?).getD 0

/-- The smallest Ld of the lane's four profiles (R86). -/
def Sizing.smallestLd (z : Sizing) : Nat := z.ld.toList.foldl min (z.ld[0])

/-- Length and payload of a turn for `n` bytes, clamped to Lmax: a whole DATA turn (R67) or a CADENCE turn (R70). -/
def wholeTurn (z : Sizing) (profile n : Nat) : Nat × Nat :=
  let len := slices (z.profile profile) n
  if len ≤ z.lmax then (len, n) else (z.lmax, capacity (z.profile profile) z.lmax)

end Sys2Proof.Machine
end

