-- ==== Sys2Proof/Machine/PlanBuilder.lean ====
section
/-! DEFINITION. The Plan Builder's fill (5): the free map, placements, and the seven fill steps. -/

namespace Sys2Proof.Machine

/-! ### The free map (R73) -/

/-- The first gap that holds `n` slices (R73). -/
def firstGap (gaps : List Gap) (n : Nat) : Option Gap := gaps.find? fun g => decide (g.length ≥ n)

/-- What a placement of `len` slices at offset `off` leaves of one gap: its part before the turn and its part after it. -/
def Gap.without (off len : Nat) (g : Gap) : List Gap :=
  if g.start ≤ off ∧ off + len ≤ g.start + g.length then
    [{ start := g.start, length := off - g.start },
     { start := off + len, length := g.start + g.length - (off + len) }].filter fun h => decide (h.length > 0)
  else [g]

/-- Mark the slices of a turn as assigned (R73). -/
def takeSlices (off len : Nat) (gaps : List Gap) : List Gap := gaps.flatMap (Gap.without off len)

/-- The part of a gap at or after an offset, when there is one (R89). -/
def Gap.after (off : Nat) (g : Gap) : Option Gap :=
  if g.start + g.length ≤ off then none
  else if g.start ≥ off then some g
  else some { start := off, length := g.start + g.length - off }

/-- The earliest start in the window from `due` to `due + jitter` at which `len` slices fit in the gap (R78). -/
def Gap.fit (due : Int) (jitter len : Nat) (g : Gap) : Option Nat :=
  let p := (max (g.start : Int) due).toNat
  if (p : Int) ≤ due + jitter ∧ p + len ≤ g.start + g.length then some p else none

/-- The entry limit is reached (R75). -/
def Build.full (b : Build) : Bool := decide (b.placed.length ≥ Config.planTurns)

/-- The first gap that holds `n` slices, unless the entry limit is reached (R75). -/
def Build.room (b : Build) (n : Nat) : Option Gap := if b.full then none else firstGap b.gaps n

/-! ### Placements (R74) -/

/-- Step 1 of a placement: the slices are assigned and the turn joins the placed list (R74). -/
def placeRegion (t : PlanTurn) (s : State) : State :=
  modBuild (fun b => { b with gaps := takeSlices t.offset t.length b.gaps, placed := b.placed ++ [t] }) s

/-- Steps 1 and 2 of the placement of a stream's turn (R74). -/
def placeTurn (b : Build) (n : Nat) (t : PlanTurn) (channel : Option Nat) (evict : Bool) (s : State) : State :=
  appendTurn n
    { lane := b.lane, planNo := b.planNo, kind := t.kind, start := sliceAdd b.start t.offset, length := t.length,
      payload := t.payload, stale := false, channel := channel } evict (placeRegion t s)

/-! ### Step 1: cadence requests (R77, R78, R79, R102, R103, R104) -/

/-- A cadence request: its channel, its due slice, and whether it was carried. -/
structure CadenceReq where
  channel : Channel
  due : Slice
  carried : Bool
  deriving DecidableEq, Repr

/-- The answer to a cadence request. -/
inductive CadenceAnswer where
  | placed (start : Slice)
  | carried
  | missed
  deriving DecidableEq, Repr

/-- The RUNNING channels of a lane, in channel order. -/
def State.runningOn (s : State) (l : LaneNo) : List Channel :=
  s.channels.filter fun c => c.state == .running && c.lane == l

/-- The next carried request: the earliest due, then the lower channel (R77, R102). -/
def State.nextCarried (s : State) (b : Build) : Option CadenceReq :=
  leastBy (fun r => dueOffset b.start r.due)
    ((s.runningOn b.lane).flatMap fun c => c.carried.map fun d => { channel := c, due := d, carried := true })

/-- The next due request: the earliest next due before the interval's end, then the lower channel (R77, R102). -/
def State.nextDueReq (s : State) (b : Build) : Option CadenceReq :=
  leastBy (fun r => dueOffset b.start r.due)
    ((s.runningOn b.lane).filterMap fun c =>
      match c.nextDue with
      | some d =>
        if c.mayRequest && decide (dueOffset b.start d < s.params.planLength) then
          some { channel := c, due := d, carried := false }
        else none
      | none => none)

/-- The next request of the build, carried requests first (R77). -/
def State.nextCadence (s : State) (b : Build) : Option CadenceReq :=
  if b.laneState = .live then
    if b.cadenceDue then s.nextDueReq b else (s.nextCarried b).or (s.nextDueReq b)
  else none

/-- The stream a cadence request may be placed for (R77). -/
def State.cadenceStream (s : State) (b : Build) (c : Channel) : Option Stream :=
  (s.byTag c.tag).filter fun e => e.served && servesLane s.boot.peerId e b.lane

/-- A PLACED answer in the Cadence Unit (R79, R103). -/
def Channel.placed (pn : PlanNo) (start : Slice) (r : CadenceReq) (c : Channel) : Channel :=
  let c := { c with count := if c.initial = 0 then c.count else c.count - 1, lastTurn := some start }
  let c := if r.carried then c.dropCarried r.due else c.moveOn
  if c.initial ≠ 0 ∧ c.count = 0 then
    { c with state := .draining, finalMark := some { planNo := pn, start := start, due := r.due } }
  else c

/-- The answer to a request, in the Cadence Unit (R103, R104). -/
def Channel.answered (pn : PlanNo) (r : CadenceReq) (a : CadenceAnswer) (c : Channel) : Channel :=
  match a with
  | .placed start => c.placed pn start r
  | .carried => { c.moveOn with carried := c.carried ++ [r.due] }
  | .missed => if r.carried then c.miss.dropCarried r.due else c.miss.moveOn

/-- Hand the answer to the channel. -/
def answerCadence (b : Build) (r : CadenceReq) (a : CadenceAnswer) (s : State) : State :=
  modChannel r.channel.number (Channel.answered b.planNo r a) s

/-- Serve a request that has a stream and meets no entry limit: PLACED at the earliest position that fits, else CARRIED or
MISSED (R78, R79). -/
def serveCadence (b : Build) (r : CadenceReq) (e : Stream) (s : State) : State :=
  let due := dueOffset b.start r.due
  let profile := e.profile b.lane
  let sized := wholeTurn (s.lane b.lane).table profile r.channel.payload
  match b.gaps.findSome? (Gap.fit due r.channel.jitter sized.1) with
  | some off =>
    let t : PlanTurn :=
      { tag := e.tag, kind := .cadence, offset := off, length := sized.1, profile := profile, payload := sized.2 }
    answerCadence b r (.placed (sliceAdd b.start off)) (placeTurn b e.entry t (some r.channel.number) true s)
  | none =>
    if ¬r.carried ∧ due + r.channel.jitter + sized.1 > s.params.planLength ∧
        r.channel.carried.length < Config.carriedDepth then answerCadence b r .carried s
    else answerCadence b r .missed s

/-- Answer one cadence request (R77, R79, R102): a late due, a request refused for its stream, or one met after the entry
limit is MISSED without being sized. -/
def cadenceFill (b : Build) (r : CadenceReq) (s : State) : State :=
  let s := if r.carried then s else modBuild (fun b => { b with cadenceDue := true }) s
  if ¬r.carried ∧ dueOffset b.start r.due < 0 then answerCadence b r .missed s
  else if b.full then answerCadence b r .missed s
  else
    match s.cadenceStream b r.channel with
    | some e => serveCadence b r e s
    | none => answerCadence b r .missed s

/-! ### Step 2: probes (R80, R118) -/

/-- The next probe request of the build: provisional stations, then maintenance probes (R80, R118). -/
def State.nextProbe (s : State) (b : Build) : Option Nat :=
  if b.probeStopped then none
  else if b.maintenanceFrom.isSome then s.nextMaintenance b
  else (s.nextProvisional b).or (s.nextMaintenance b)

/-- The provisional stations of a list up to and including a tag. -/
def upTo (tag : Nat) (tags : List Nat) : List Nat := tags.takeWhile (fun t => t != tag) ++ [tag]

/-- The builder has reached the request of this tag (log 11). -/
def passProbe (provisional : List Nat) (tag : Nat) (b : Build) : Build :=
  if b.maintenanceFrom.isNone && provisional.contains tag then { b with probePassed := b.probePassed ++ upTo tag provisional }
  else { b with maintenanceFrom := some (tag + 1) }

/-- Serve one probe request (R80): the step stops at the cap, at the entry limit or for want of a gap; else a PROBE turn is
placed and the probe out recorded. -/
def probeFill (b : Build) (tag : Nat) (s : State) : State :=
  let len := s.params.probeLength
  match (if b.probeTotal + len > s.params.planLength / 4 then none else b.room len), s.byTag tag with
  | some g, some e =>
    let start := sliceAdd b.start g.start
    let t : PlanTurn := { tag := tag, kind := .probe, offset := g.start, length := len, profile := 0, payload := 0 }
    let s := placeTurn b e.entry t none true s
    let out : ProbeOut := { planNo := b.planNo, lane := b.lane, start := start, stop := sliceAdd start len }
    let s := modAlignment e.entry (fun a => { a with probeOut := some out }) s
    modBuild (fun b => { passProbe (s.lane b.lane).provisional tag b with probeTotal := b.probeTotal + len }) s
  | _, _ => modBuild (fun b => { b with probeStopped := true }) s

/-! ### Steps 3, 4 and 7: regions (R81, R82, R83, R94) -/

/-- Step 3 (R81, R82). -/
def joinFill (b : Build) (s : State) : State :=
  let s := modBuild (fun b => { b with joinTried := true }) s
  match b.room s.params.joinLength with
  | some g =>
    let t : PlanTurn := { tag := Config.newcomer, kind := .joinRegion, offset := g.start, length := s.params.joinLength,
                          profile := 0, payload := 0 }
    modLane b.lane (fun L => { L with joinCountdown := s.params.joinInterval })
      (modBuild (fun b => { b with joinSet := true }) (placeRegion t s))
  | none => s

/-- An OPEN region. -/
def openRegionTurn (off len : Nat) : PlanTurn :=
  { tag := Config.anyTag, kind := .openRegion, offset := off, length := len, profile := 0, payload := 0 }

/-- Step 4 (R83). -/
def openFill (b : Build) (s : State) : State :=
  let s := modBuild (fun b => { b with openTried := true }) s
  match b.room s.params.omin with
  | some g => placeRegion (openRegionTurn g.start s.params.omin) s
  | none => setFlag b.lane .openSqueezed s

/-- One leftover region: the whole of the first gap of at least Omin slices (R94). -/
def leftoverFill (b : Build) (s : State) : State :=
  match b.room s.params.omin with
  | some g => placeRegion (openRegionTurn g.start g.length) s
  | none => s

/-! ### Step 5: polls (R84, R85) -/

/-- The next stream of step 5, in entry order from the one it has come to (R84). -/
def State.nextPoll (s : State) (b : Build) : Option Stream :=
  if b.laneState = .live then
    s.table.find? fun e =>
      decide (e.entry ≥ b.pollFrom) && e.served && e.homedOn b.lane && e.pollCountdown == some 0
  else none

/-- Reload a poll countdown (R26, R84, R85). -/
def reloadPoll (n : Nat) (s : State) : State :=
  modBuild (fun b => { b with reloaded := b.reloaded ++ [n] })
    (modEntry n (fun e => { e with pollCountdown := some (reloadValue s.params e) }) s)

/-- Serve one stream of step 5 (R84, R85). -/
def pollFill (b : Build) (e : Stream) (s : State) : State :=
  let s := modBuild (fun b => { b with pollFrom := e.entry + 1 }) s
  if e.demand > 0 ∧ ¬e.quiet then reloadPoll e.entry s
  else
    let len := (s.lane b.lane).table.poll (e.profile b.lane)
    match (if e.listHasRoom then b.room len else none) with
    | some g =>
      let t : PlanTurn := { tag := e.tag, kind := .poll, offset := g.start, length := len, profile := e.profile b.lane,
                            payload := Config.pollPayload }
      reloadPoll e.entry (placeTurn b e.entry t none false s)
    | none => s

/-! ### Step 6: data turns (R86 to R92) -/

/-- The served classes, highest first. -/
def servedClasses : List Nat := [6, 5, 4, 3, 2, 1]

/-- Where the data step stands: it begins at class 6 with the lane's floor as it is then (R86). -/
def State.dataFrom (s : State) (b : Build) : DataStep :=
  b.dataStep.getD { floor := (s.lane b.lane).health.floor, cls := 6, visits := 0 }

/-- Consecutive visits of class `c` without a placement: the count belongs to the class being served (R86). -/
def DataStep.visitsOf (d : DataStep) (c : Nat) : Nat := if c = d.cls then d.visits else 0

/-- The class the next visit serves (R86): the first, from the one being served down to the one above the floor, whose ring
holds more streams than it has had consecutive visits. R86 ends a class when that count equals the ring's size; a ring that
shrinks during its service can pass the size without equalling it, and its class then ends too (DESIGN CHOICE, log 38). The data
step ends when no gap holds the smallest Ld, or at the entry
limit. -/
def State.nextVisit (s : State) (b : Build) : Option DataStep :=
  let d := s.dataFrom b
  if b.laneState = .live ∧ (b.room (s.lane b.lane).table.smallestLd).isSome then
    ((servedClasses.filter fun c => decide (c ≤ d.cls) && decide (c > d.floor)).find? fun c =>
      decide (d.visitsOf c < (s.ring b.lane c).length)).map fun c => { d with cls := c, visits := d.visitsOf c }
  else none

/-- A spread stream has allowance and its CLAIM has room; a non-spread stream needs neither (R87). -/
def State.spreadReady (s : State) (e : Stream) (l : LaneNo) : Bool :=
  if e.isSpread then
    match s.viewOf e.tag with
    | some v => decide (allowance s.boot.peerId v l > 0) && s.claimRoom e.tag v.epoch (s.nodeLane l)
    | none => false
  else true

/-- The stream is eligible for a data turn at this visit (R87). -/
def State.eligible (s : State) (e : Stream) (l : LaneNo) : Bool := !e.quiet && e.listHasRoom && s.spreadReady e l

/-- Move a stream to the tail of a ring. -/
def rotate (l : LaneNo) (cls n : Nat) (s : State) : State :=
  match ringIndex cls with
  | some i => setRing l i (((s.lane l).ring i).filter (fun m => m != n) ++ [n]) s
  | none => s

/-- The deficit after a quantum (R88). -/
def Stream.withQuantum (e : Stream) : Nat := min (e.deficit + e.quantum) (4 * e.quantum)

/-- The offset of the search start of a stream's data turn (R89, R91). -/
def searchFrom (b : Build) (e : Stream) : Nat :=
  match e.hold[b.lane.val] with
  | some h => if countAfter h b.start then (h - b.start).toNat else 0
  | none => 0

/-- Where a data turn of grantable amount `g` goes, with its length and payload (R67, R68, R89): the whole turn in the first
gap that holds it, failing that a fragment, failing both none. -/
def dataPlace (z : Sizing) (profile g : Nat) (gaps : List Gap) : Option (Nat × Nat × Nat) :=
  let whole := wholeTurn z profile g
  match firstGap gaps whole.1 with
  | some h => some (h.start, whole.1, whole.2)
  | none =>
    (gaps.find? fun h => decide (z.leastData profile ≤ h.length) && decide (h.length < whole.1) &&
        decide (capacity (z.profile profile) h.length ≥ z.fragment profile)).map fun h =>
      (h.start, h.length, capacity (z.profile profile) h.length)

/-- The grantable amount may be placed: it reaches the minimum fragment, or it is all the stream may be granted (R88). -/
def mayPlace (g fragment available : Nat) : Bool := decide (g > 0) && (decide (g ≥ fragment) || g == available)

/-- The hold-until a DATA turn sets (R90, R91). -/
def holdSet (p : Params) (l : LaneNo) (len : Nat) (stop : Slice) (e : Stream) : Stream :=
  if len ≥ p.longTurn ∧ p.holdGap > 0 then { e with hold := e.hold.set l.val (some (sliceAdd stop p.holdGap)) } else e

/-- A spread placement in its view and at the Peer Bus Controller (R92): own pending, the view's mark, the CLAIM. -/
def claimPlaced (l : LaneNo) (v : View) (payload : Nat) (stop : Slice) (s : State) : State :=
  let s := modView v.tag (fun v =>
    { v with own := v.own.map fun o => if o.lane = l then { o with pending := o.pending + payload } else o }) s
  let s := modBuild (fun b => { b with marks := if b.marks.contains v.index then b.marks else b.marks ++ [v.index] }) s
  offerClaim v.tag v.epoch (s.nodeLane l) payload
    (tickOfSlice s.nodeTime (s.lane l) (sliceAdd stop s.params.outcomeWait)) s

/-- The effect of a placed DATA turn on its stream (R90): deficit, demand or own pending, hold-until, and its place in the
rings. -/
def dataPlaced (b : Build) (cls : Nat) (e : Stream) (len payload : Nat) (stop : Slice) (s : State) : State :=
  let s := rotate b.lane cls e.entry s
  let s := modEntry e.entry (fun e =>
    holdSet s.params b.lane len stop
      { e with deficit := e.deficit - payload, demand := if e.isSpread then e.demand else e.demand - payload }) s
  let s := if e.isSpread then
      match s.viewOf e.tag with
      | some v => claimPlaced b.lane v payload stop s
      | none => s
    else s
  syncRings e.entry s

/-- Record the count of consecutive visits. -/
def noteVisit (d : DataStep) (visits : Nat) (s : State) : State :=
  modBuild (fun b => { b with dataStep := some { d with visits := visits } }) s

/-- The visit of an eligible stream (R88, R89, R90). -/
def serveVisit (b : Build) (d : DataStep) (e : Stream) (s : State) : State :=
  let s := modEntry e.entry (fun e => { e with deficit := e.withQuantum }) s
  let z := (s.lane b.lane).table
  let profile := e.profile b.lane
  let available := s.available e b.lane
  let g := min e.withQuantum available
  let found := if mayPlace g (z.fragment profile) available then
      dataPlace z profile g (b.gaps.filterMap (Gap.after (searchFrom b e)))
    else none
  match found with
  | some (off, len, payload) =>
    let t : PlanTurn :=
      { tag := e.tag, kind := .data, offset := off, length := len, profile := profile, payload := payload }
    noteVisit d 0 (dataPlaced b d.cls e len payload (sliceAdd (sliceAdd b.start off) len) (placeTurn b e.entry t none false s))
  | none => noteVisit d (d.visits + 1) (rotate b.lane d.cls e.entry s)

/-- One visit of the data step: the stream at the head of the ring (R86, R87). -/
def visitFill (b : Build) (d : DataStep) (s : State) : State :=
  match (s.ring b.lane d.cls).head? with
  | some n =>
    match s.entry? n with
    | some e =>
      if s.eligible e b.lane then serveVisit b d e s
      else noteVisit d (d.visits + 1) (rotate b.lane d.cls n s)
    | none => noteVisit d (d.visits + 1) (rotate b.lane d.cls n s)
  | none => s

/-! ### The order of the steps (R76) -/

/-- A fill step of the build in flight still has something to do. -/
def State.hasWork (s : State) (b : Build) : Nat → Bool
  | 1 => (s.nextCadence b).isSome
  | 2 => (s.nextProbe b).isSome
  | 3 => (s.lane b.lane).joinCountdown == 0 && !b.joinTried
  | 4 => !b.openTried
  | 5 => (s.nextPoll b).isSome
  | 6 => (s.nextVisit b).isSome
  | 7 => (b.room s.params.omin).isSome
  | _ => false

/-- The fill steps, in order. -/
def fillSteps : List Nat := [1, 2, 3, 4, 5, 6, 7]

/-- The builder may come to fill step `k`: it has not passed it, and every earlier step from the one it is in is finished
(R76). -/
def State.mayEnter (s : State) (b : Build) (k : Nat) : Bool :=
  decide (b.step ≤ k) && fillSteps.all fun j => decide (j < b.step) || decide (k ≤ j) || !s.hasWork b j

/-- The build in flight, when the builder may come to step `k` and step `k` has something to do. -/
def State.buildAt (s : State) (k : Nat) : Option Build := s.builder.filter fun b => s.mayEnter b k && s.hasWork b k

/-- The builder comes to step `k`. -/
def enterStep (k : Nat) (s : State) : State := modBuild (fun b => { b with step := k }) s

/-- Run a fill of step `k`, when it is the builder's turn for it. -/
def fillStep (k : Nat) (fill : Build → State → State) (s : State) : State :=
  match s.buildAt k with
  | some b => fill b (enterStep k s)
  | none => s

/-! ### The commands -/

/-- CADENCE_REQUEST: one request offered and answered. -/
def cadenceRequestStep (s : State) : State :=
  fillStep 1 (fun b s =>
    match s.nextCadence b with
    | some r => cadenceFill b r s
    | none => s) s

/-- PROBE_PLACEMENT: one probe request served, or the step stopped. -/
def probePlacementStep (s : State) : State :=
  fillStep 2 (fun b s =>
    match s.nextProbe b with
    | some tag => probeFill b tag s
    | none => s) s

/-- JOIN_REGION. -/
def joinRegionStep (s : State) : State := fillStep 3 joinFill s

/-- MINIMUM_OPEN_REGION. -/
def minimumOpenStep (s : State) : State := fillStep 4 openFill s

/-- POLL: one stream of step 5. -/
def pollStep (s : State) : State :=
  fillStep 5 (fun b s =>
    match s.nextPoll b with
    | some e => pollFill b e s
    | none => s) s

/-- DRR_VISIT: one visit of the data step. -/
def drrVisitStep (s : State) : State :=
  fillStep 6 (fun b s =>
    match s.nextVisit b with
    | some d => visitFill b d s
    | none => s) s

/-- LEFTOVER_OPEN_REGION: one region of step 7. -/
def leftoverStep (s : State) : State := fillStep 7 leftoverFill s

/-- The meaning of CADENCE_REQUEST. -/
def execCadenceRequest (s : State) : Host.Outcome State Fault Refusal := .next (cadenceRequestStep s)

/-- The meaning of PROBE_PLACEMENT. -/
def execProbePlacement (s : State) : Host.Outcome State Fault Refusal := .next (probePlacementStep s)

/-- The meaning of JOIN_REGION. -/
def execJoinRegion (s : State) : Host.Outcome State Fault Refusal := .next (joinRegionStep s)

/-- The meaning of MINIMUM_OPEN_REGION. -/
def execMinimumOpenRegion (s : State) : Host.Outcome State Fault Refusal := .next (minimumOpenStep s)

/-- The meaning of POLL. -/
def execPoll (s : State) : Host.Outcome State Fault Refusal := .next (pollStep s)

/-- The meaning of DRR_VISIT. -/
def execDrrVisit (s : State) : Host.Outcome State Fault Refusal := .next (drrVisitStep s)

/-- The meaning of LEFTOVER_OPEN_REGION. -/
def execLeftoverOpenRegion (s : State) : Host.Outcome State Fault Refusal := .next (leftoverStep s)

end Sys2Proof.Machine
end

