-- ==== Sys2Proof/Machine/Plans.lean ====
section
/-! DEFINITION. The plan timeline (1.2 to 1.6): build points, cut deadlines, the arbiter, completions and ramp timeouts, the
plan output port, takes, margin points, and the expiries of R26 and R59. -/

namespace Sys2Proof.Machine

/-! ### Build points and cut deadlines (R5, R8) -/

/-- The start of the slice `before` slices ahead of the lane's next plan start has been reached. -/
def Lane.reached (L : Lane) (before : Nat) : Bool :=
  match L.nextPlanStart with
  | some n => countReached (sliceSub n before) L.slice
  | none => false

/-- An IDLE lane that is not DARK has reached its build point (R5). -/
def State.buildPointDue (s : State) (l : LaneNo) : Bool :=
  (s.lane l).buildState == .idle && s.laneState l != .dark && (s.lane l).reached s.params.lead

/-- A BUILDING lane has reached the build point of the next interval, and its deferred mark is clear (R5). -/
def State.deferralDue (s : State) (l : LaneNo) : Bool :=
  (s.lane l).buildState == .building && !(s.lane l).deferred &&
    match (s.lane l).nextPlanStart with
    | some n => countReached (sliceSub (sliceAdd n s.params.planLength) s.params.lead) (s.lane l).slice
    | none => false

/-- BUILD_POINT (R5). -/
def buildPointStep (l : LaneNo) (s : State) : State :=
  if s.buildPointDue l then modLane l (fun L => { L with buildState := .pending }) s
  else if s.deferralDue l then modLane l (fun L => { L with deferred := true }) s
  else s

/-- A PENDING lane has reached its cut deadline (R8). -/
def State.cutDue (s : State) (l : LaneNo) : Bool :=
  (s.lane l).buildState == .pending && (s.lane l).reached s.params.cut

/-- The next plan start rises by P (R3). -/
def Lane.nextInterval (p : Params) (L : Lane) : Lane :=
  { L with nextPlanStart := L.nextPlanStart.map fun n => sliceAdd n p.planLength }

/-- An interval is skipped (R8): IDLE, the next plan start moves on, its cadence requests are missed, PLAN_SKIPPED. -/
def skipInterval (l : LaneNo) (s : State) : State :=
  match (s.lane l).nextPlanStart with
  | some n =>
    setFlag l .planSkipped
      (missInterval l n (modLane l (fun L => { L.nextInterval s.params with buildState := .idle }) s))
  | none => s

/-- CUT_DEADLINE (R8). -/
def cutDeadlineStep (l : LaneNo) (s : State) : State := if s.cutDue l then skipInterval l s else s

/-! ### The arbiter (R6, R7) -/

/-- Node ticks to a lane's cut deadline (R5). -/
def State.ticksToCut (s : State) (l : LaneNo) : Int :=
  match (s.lane l).nextPlanStart with
  | some n => ticksUntil (s.lane l) (sliceSub n s.params.cut)
  | none => 0

/-- The PENDING lane of earliest cut deadline, the lower lane among equals (R6). -/
def State.arbiterChoice (s : State) : Option LaneNo :=
  leastBy s.ticksToCut (allLanes.filter fun l => (s.lane l).buildState == .pending)

/-- A BASIC station whose admit countdown has reached 0 (R26). -/
def Stream.admitExpired (e : Stream) : Bool := e.state == .basic && e.admitCountdown == some 0

/-- Effects of a completion that are steps of their own still wait (log 9). -/
def State.followUps (s : State) : Bool :=
  !s.releaseDue.isEmpty || s.table.any Stream.admitExpired

/-- The working state of a new build, and its header values (R7, R73). -/
def State.newBuild (s : State) (l : LaneNo) (start : Slice) : Build :=
  { lane := l, planNo := (s.lane l).planNo, start := start, laneState := s.laneState l,
    openPair := (s.lane l).health.openPair, joinPair := (s.lane l).health.joinPair, startTick := s.nodeTime,
    step := if s.laneState l = .ramp then 1 else 0, gaps := [{ start := 0, length := s.params.planLength }], placed := [],
    probeTotal := 0, cadenceDue := false, probePassed := [], maintenanceFrom := none, probeStopped := false,
    joinTried := false, joinSet := false, openTried := false, pollFrom := 0, reloaded := [], dataStep := none, marks := [],
    marginSeen := false }

/-- Start the build of a lane (R7); a RAMP build misses its cadence requests at its start (R76, R105). -/
def startBuild (l : LaneNo) (start : Slice) (s : State) : State :=
  let b := s.newBuild l start
  let s := modLane l (fun L => { L with buildState := .building }) { s with builder := some b }
  if b.laneState = .ramp then missInterval l start s else s

/-- BUILD_START (R6): the builder is free, no follow-up of a completion waits, and a lane is PENDING. -/
def buildStartStep (s : State) : State :=
  if s.builder.isSome || s.followUps then s
  else
    match s.arbiterChoice with
    | some l =>
      match (s.lane l).nextPlanStart with
      | some start => startBuild l start s
      | none => s
    | none => s

/-! ### Completion (R9, R95) -/

/-- The placed list in order of start slice (R95). -/
def Build.turns (b : Build) : List PlanTurn := b.placed.foldl (fun acc t => insertBy PlanTurn.offset t acc) []

/-- The finished plan of a build (R9, R18, R19). -/
def Build.plan (planLength : Nat) (corrections : List Correction) (b : Build) : Plan :=
  { planNo := b.planNo, start := b.start, length := planLength, laneState := b.laneState, openPair := b.openPair,
    joinPair := b.joinPair, corrections := corrections, turns := b.turns }

/-- The lane's own part of a completion (R9 steps 1 to 4): up to 16 corrections leave the queue, the plan enters the output
queue, the counters advance, and the lane is IDLE, or PENDING when its deferred mark is set. -/
def Lane.completed (p : Params) (b : Build) (L : Lane) : Lane :=
  { L.nextInterval p with
    outQueue := some (b.plan p.planLength (L.corrections.take Config.planCorrections)),
    corrections := L.corrections.drop Config.planCorrections, planNo := L.planNo + 1,
    buildState := if L.deferred then .pending else .idle, deferred := false }

/-- The join countdown at a completed build (R81). -/
def Lane.countJoin (set : Bool) (L : Lane) : Lane := if set then L else { L with joinCountdown := L.joinCountdown - 1 }

/-- A poll countdown at a completed build of its home lane (R26). An entry whose countdown this build reloaded is left out by its
number, so a countdown that became absent after the reload and came into being anew before the completion does not fall either
(DESIGN CHOICE, log 46). -/
def Stream.countPoll (reloaded : List Nat) (e : Stream) : Stream :=
  if reloaded.contains e.entry then e else { e with pollCountdown := e.pollCountdown.map (· - 1) }

/-- The admit countdown of a BASIC station at a completed build (R26). -/
def Stream.countAdmit (e : Stream) : Stream :=
  if e.state = .basic then { e with admitCountdown := e.admitCountdown.map (· - 1) } else e

/-- The maintenance countdown at a completed build (R124). -/
def Stream.countMaintenance (e : Stream) : Stream :=
  { e with alignment := e.alignment.map fun a => { a with maintenance := a.maintenance.map (· - 1) } }

/-- A hold-until that is not after the lane's new next plan start becomes absent (R91). -/
def Stream.dropHold (l : LaneNo) (start : Slice) (e : Stream) : Stream :=
  match e.hold[l.val] with
  | some h => if countAfter h start then e else { e with hold := e.hold.set l.val none }
  | none => e

/-- The Stream Table's and the Joining and Alignment Unit's countdowns, and the hold-untils, at a completed build (R26, R91,
R124). -/
def countBuild (l : LaneNo) (reloaded : List Nat) (start : Slice) (s : State) : State :=
  let counted : Stream → Stream := fun e =>
    Stream.dropHold l start (if e.homedOn l then (e.countPoll reloaded).countAdmit.countMaintenance else e)
  { s with table := s.table.map counted }

/-- The margin point of the build's own interval came before its completion (R10). -/
def State.completesLate (s : State) (b : Build) : Bool :=
  let margin := sliceSub b.start s.params.margin
  b.marginSeen || (countReached margin (s.lane b.lane).slice && !atSliceStart (s.lane b.lane) margin)

/-- The completion of a build (R9, R95), with the parts of the blocks that count in builds, the lapse of a late plan (R10),
and the failure of a ramp whose build count it brought to the ramp timeout (R163). -/
def completeBuild (b : Build) (s : State) : State :=
  let late := s.completesLate b
  let s := modLane b.lane (fun L => (L.completed s.params b).countJoin b.joinSet) s
  let s := countBuild b.lane b.reloaded (sliceAdd b.start s.params.planLength) s
  let s := countReleaseWaits b.lane b.marks s
  let s := { healthCompletion b.lane s with builder := none }
  let s := if late then lapsePlan b.lane s else s
  if s.rampFailed b.lane then failRamp b.lane s else s

/-- BUILD_COMPLETION: no fill step has anything left to do (R95). -/
def buildCompletionStep (s : State) : State :=
  match s.builder with
  | some b => if s.mayEnter b 8 then completeBuild b s else s
  | none => s

/-- The completion of this build brings the ramp build count of a RAMP lane to the ramp timeout (R163). -/
def State.endsRamp (s : State) (b : Build) : Bool :=
  s.laneState b.lane == .ramp && decide (satAdd 255 (s.lane b.lane).health.rampBuilds 1 ≥ s.params.health.rampTimeout)

/-- RAMP_TIMEOUT (R163): the completion of the lane's build in flight, when that completion is the one that ends its ramp. It is
the same event as BUILD_COMPLETION of that build (log 9); in every other state it has no effect. -/
def rampTimeoutStep (l : LaneNo) (s : State) : State :=
  match s.buildOf l with
  | some b => if s.mayEnter b 8 && s.endsRamp b then completeBuild b s else s
  | none => s

/-- ADMIT_COUNTDOWN_EXPIRY (R26): STATION_LOST(NOT_ADMITTED) and retirement. R26 lets an ADMIT that follows meet a CLOSING station
and TAG_IN_USE; R37 frees a station with an empty turn list and no child at once, and its tag is then not mapped: BAD_TAG (R32). The
model follows R37 (DESIGN CHOICE, log 44). -/
def admitExpiryStep (n : Nat) (s : State) : State :=
  match s.entry? n with
  | some e =>
    if e.admitExpired then retireWithChildren .admitExpiry n (queueStatus (.stationLost e.tag .notAdmitted) s) else s
  | none => s

/-! ### The plan output port (R13, R192) -/

/-- Node ticks to the margin point of a lane's queued plan (R5). -/
def State.ticksToMargin (s : State) (l : LaneNo) : Int :=
  match (s.lane l).outQueue with
  | some p => ticksUntil (s.lane l) (sliceSub p.start s.params.margin)
  | none => 0

/-- The lane whose plan the port offers: earliest margin point, the lower lane among equals (R13). -/
def State.offered (s : State) : Option LaneNo :=
  leastBy s.ticksToMargin (allLanes.filter fun l => (s.lane l).outQueue.isSome)

/-- The ready indication (R13). -/
def State.planReady (s : State) : Bool := s.offered.isSome

/-- Fields of the given widths, packed from the most significant bit (11.2). -/
def packWord (fields : List (Nat × Nat)) : BitVec 64 :=
  BitVec.ofNat 64 (natOfBits (fields.flatMap fun f => bitsOf f.1 f.2))

/-- The turn kind code (11.2). -/
def TurnKind.code : TurnKind → Nat
  | .data => 0
  | .poll => 1
  | .cadence => 2
  | .probe => 3
  | .openRegion => 4
  | .joinRegion => 5

/-- The correction status code (11.2). -/
def CorrectionStatus.code : CorrectionStatus → Nat
  | .cont => 0
  | .done => 1
  | .abort => 2

/-- A correction word (11.2). -/
def Correction.word (c : Correction) : BitVec 64 :=
  packWord [(14, c.tag), (2, c.status.code), (14, (BitVec.ofInt 14 c.timing).toNat), (6, (BitVec.ofInt 6 c.power).toNat),
    (28, 0)]

/-- A turn word (11.2). -/
def PlanTurn.word (t : PlanTurn) : BitVec 64 :=
  packWord [(14, t.tag), (3, t.kind.code), (12, t.offset), (13, t.length), (2, t.profile), (16, t.payload), (4, 0)]

/-- The words of a plan at the port (11.2). -/
def Plan.words (self : PeerNo) (l : LaneNo) (p : Plan) : List (BitVec 64) :=
  [packWord [(5, (nodeLaneOf self l).val), (2, l.val), (16, p.planNo.toNat), (24, p.start.toNat), (13, p.length),
      (1, if p.laneState = .live then 1 else 0), (3, 0)],
   packWord [(4, p.openPair.first), (4, p.openPair.last), (4, p.joinPair.first), (4, p.joinPair.last),
      (5, p.corrections.length), (8, p.turns.length), (35, 0)]]
  ++ p.corrections.map Correction.word ++ p.turns.map PlanTurn.word

/-- The word the port answers at an index: of the plan offered, all zeros beyond it and while none is offered (R192). -/
def State.planPortWord (s : State) (index : Nat) : BitVec 64 :=
  match s.offered with
  | some l =>
    match (s.lane l).outQueue with
    | some p => ((p.words s.boot.peerId l)[index]?).getD 0
    | none => 0
  | none => 0

/-- The framer takes the plan in a lane's output queue (R14). -/
def takePlan (l : LaneNo) (s : State) : State :=
  match (s.lane l).outQueue with
  | some p => endRounds l p.planNo (modLane l (fun L => { L with outQueue := none }) s)
  | none => s

/-- TAKE (R14): with no plan offered it has no effect (R15). -/
def takeStep (s : State) : State :=
  match s.offered with
  | some l => takePlan l s
  | none => s

/-! ### Margin points (R10, R15) -/

/-- A queued plan has reached its margin point (R15). -/
def State.marginDue (s : State) (l : LaneNo) : Bool :=
  match (s.lane l).outQueue with
  | some p => countReached (sliceSub p.start s.params.margin) (s.lane l).slice
  | none => false

/-- The margin point of the interval being built on the lane is reached (R10). -/
def State.ownMarginReached (s : State) (l : LaneNo) : Bool :=
  match s.buildOf l with
  | some b => countReached (sliceSub b.start s.params.margin) (s.lane l).slice
  | none => false

/-- MARGIN_POINT: a queued plan lapses (R15); failing one, the margin point of the build in flight is seen (R10). -/
def marginPointStep (l : LaneNo) (s : State) : State :=
  if s.marginDue l then lapsePlan l s
  else if s.ownMarginReached l then modBuild (fun b => { b with marginSeen := true }) s
  else s

/-! ### Expiry of turn list entries (R59) -/

/-- A turn list entry has reached its expiry (R59). -/
def State.turnExpired (s : State) (t : Turn) : Bool :=
  countReached (sliceAdd t.stop s.params.outcomeWait) (s.lane t.lane).slice

/-- A PROBE entry of a station that is not CLOSING hands over its result (R56, R59). -/
def handProbe (n : Nat) (t : Turn) (r : BurstResult) (timing power : Int) (s : State) : State :=
  match s.entry? n with
  | some e =>
    if t.kind = .probe ∧ e.state ≠ .closing then probeResult n t.lane t.start r timing power s else s
  | none => s

/-- OUTCOME_WAIT_EXPIRY (R59). -/
def outcomeWaitStep (n : Nat) (l : LaneNo) (start : Slice) (s : State) : State :=
  match (s.entry? n).bind fun e => e.turnAt l start with
  | some t => if s.turnExpired t then tryFree n (handProbe n t .empty 0 0 (dropTurn n l start s)) else s
  | none => s

/-! ### The commands -/

/-- The meaning of BUILD_POINT. -/
def execBuildPoint (l : LaneNo) (s : State) : Host.Outcome State Fault Refusal := .next (buildPointStep l s)

/-- The meaning of CUT_DEADLINE. -/
def execCutDeadline (l : LaneNo) (s : State) : Host.Outcome State Fault Refusal := .next (cutDeadlineStep l s)

/-- The meaning of BUILD_START. -/
def execBuildStart (s : State) : Host.Outcome State Fault Refusal := .next (buildStartStep s)

/-- The meaning of BUILD_COMPLETION. -/
def execBuildCompletion (s : State) : Host.Outcome State Fault Refusal := .next (buildCompletionStep s)

/-- The meaning of RAMP_TIMEOUT. -/
def execRampTimeout (l : LaneNo) (s : State) : Host.Outcome State Fault Refusal := .next (rampTimeoutStep l s)

/-- The meaning of ADMIT_COUNTDOWN_EXPIRY. -/
def execAdmitCountdownExpiry (n : Nat) (s : State) : Host.Outcome State Fault Refusal := .next (admitExpiryStep n s)

/-- The meaning of TAKE. -/
def execTake (s : State) : Host.Outcome State Fault Refusal := .next (takeStep s)

/-- The meaning of MARGIN_POINT. -/
def execMarginPoint (l : LaneNo) (s : State) : Host.Outcome State Fault Refusal := .next (marginPointStep l s)

/-- The meaning of OUTCOME_WAIT_EXPIRY. -/
def execOutcomeWaitExpiry (n : Nat) (l : LaneNo) (start : Slice) (s : State) : Host.Outcome State Fault Refusal :=
  .next (outcomeWaitStep n l start s)

/-- The meaning of PROBE_DEADLINE (R119). -/
def execProbeDeadline (n : Nat) (s : State) : Host.Outcome State Fault Refusal := .next (probeDeadlineStep n s)

/-- The meaning of RELEASE_WAIT (R154). -/
def execReleaseWait (i : Nat) (l : LaneNo) (s : State) : Host.Outcome State Fault Refusal := .next (releaseWaitStep i l s)

end Sys2Proof.Machine
end

