-- ==== Sys2Proof/Machine/Reports.lean ====
section
/-! DEFINITION. The data of read replies and status messages, coded by the general rule of R196: items in the order their rule
lists them, each in the fewest whole bytes, a presence byte before an item that may be absent, a length byte before a list.
Where R196 leaves a reading open, logs 22 and 37 give the one taken here. -/

namespace Sys2Proof.Machine

/-! ### Items (R196) -/

/-- An item that may be absent, with its presence byte. -/
def optItem {α : Type} (f : α → List Byte) : Option α → List Byte
  | some a => 1 :: f a
  | none => [0]

/-- A list, with its length byte. -/
def listItem {α : Type} (f : α → List Byte) (xs : List α) : List Byte := BitVec.ofNat 8 xs.length :: xs.flatMap f

/-- A mark: 0 clear, 1 set. -/
def markItem (b : Bool) : List Byte := [if b then 1 else 0]

/-- A set of lanes: bit k for lane k. -/
def laneSet {n : Nat} (count : Nat) (lanes : List (Fin n)) : List Byte :=
  bytesOf count ((List.range n).map fun k => if lanes.any (fun l => l.val == k) then 2 ^ k else 0).sum

/-- A code of one byte. -/
def code (n : Nat) : List Byte := [BitVec.ofNat 8 n]

/-- A lane slice number. -/
def sliceItem (x : Slice) : List Byte := bytesOf 3 x.toNat

/-- A plan number. -/
def planItem (n : PlanNo) : List Byte := bytesOf 2 n.toNat

/-! ### Codes by position in the defining list -/

/-- FREE is 0 (2.1). -/
def StreamState.code : StreamState → Nat
  | .provisional => 1
  | .basic => 2
  | .admitted => 3
  | .closing => 4

/-- 11.4 gives 0 EDGE, 1 LEVEL. -/
def ReportMode.code : ReportMode → Nat
  | .edge => 0
  | .level => 1

/-- 11.4 gives 0 STOP, 1 RELOAD. -/
def EndAction.code : EndAction → Nat
  | .stop => 0
  | .reload => 1

/-- IDLE is 0 (6.1). -/
def ChannelState.code : ChannelState → Nat
  | .standby => 1
  | .running => 2
  | .draining => 3

/-- 1.4. -/
def BuildState.code : BuildState → Nat
  | .idle => 0
  | .pending => 1
  | .building => 2

/-- 11.1 gives 0 ABSENT, 1 PRESENT. -/
def Carrier.code : Carrier → Nat
  | .absent => 0
  | .present => 1

/-- 10.2. -/
def Startup.code : Startup → Nat
  | .loading => 0
  | .listening => 1
  | .halted => 2
  | .ready => 3

/-- 8.2. -/
def MuteCause.code : MuteCause → Nat
  | .voidLimit => 0
  | .idClash => 1

/-- 10.4. -/
def JoinFail.code : JoinFail → Nat
  | .noRoom => 0
  | .noConverge => 1
  | .silent => 2
  | .laneDown => 3

/-- 10.4. -/
def LossCause.code : LossCause → Nat
  | .silent => 0
  | .rejoin => 1
  | .notAdmitted => 2

/-- 10.4. -/
def EndCause.code : EndCause → Nat
  | .count => 0
  | .closed => 1
  | .retired => 2
  | .unused => 3

/-- 10.4. -/
def LaneCause.code : LaneCause → Nat
  | .enabled => 0
  | .carrierFound => 1
  | .rampDone => 2
  | .rampTimeout => 3
  | .disabled => 4
  | .carrierLost => 5

/-! ### Streams (R180) -/

/-- A turn list entry, every field of 2.4. -/
def Turn.bytes (t : Turn) : List Byte :=
  code t.lane.val ++ planItem t.planNo ++ code t.kind.code ++ sliceItem t.start ++ bytesOf 2 t.length ++ sliceItem t.stop ++
    bytesOf 2 t.payload ++ markItem t.stale ++ optItem (bytesOf 2) t.channel

/-- A probe out. -/
def ProbeOut.bytes (p : ProbeOut) : List Byte :=
  planItem p.planNo ++ code p.lane.val ++ sliceItem p.start ++ sliceItem p.stop

/-- An alignment record (7.1). -/
def Alignment.bytes (a : Alignment) : List Byte :=
  code a.attempts ++ code a.emptyRun ++ optItem (bytesOf 2) a.maintenance ++ code a.maintenanceEmpty ++
    bytesOfInt 2 a.lastTiming ++ bytesOfInt 1 a.lastPower ++ optItem ProbeOut.bytes a.probeOut

/-- A claim list entry. -/
def claimBytes (c : Claim) : List Byte := code c.lane.val ++ bytesOf 3 c.bytes ++ bytesOf 4 c.endTick.toNat

/-- A view (8.5), with the allowance of each own lane. Share and claimed bytes of the live lanes, and own pending, release-wait counts,
release-sent marks and allowances of the own lanes, each stand as a list in rising lane order with a length byte (DESIGN CHOICE,
log 37). -/
def View.report (self : PeerNo) (v : View) : List Byte :=
  bytesOf 2 v.tag ++ bytesOf 2 v.entry ++ laneSet 4 v.set ++ code v.epoch.toNat ++ bytesOf 3 v.announced ++
    laneSet 4 (v.live.map (·.lane)) ++ laneSet 4 ((v.live.filter (·.excluded)).map (·.lane)) ++
    listItem (fun x => bytesOf 3 x.share) v.live ++ listItem (fun x => bytesOf 3 x.claimed) v.live ++
    listItem (fun o => bytesOf 3 o.pending) v.own ++ listItem (fun o => code o.waits) v.own ++
    listItem (fun o => markItem o.sent) v.own ++ listItem claimBytes v.claims ++
    listItem (fun o => bytesOf 3 (allowance self v o.lane)) v.own

/-- The fields of the stream record that are present (2.1), without the turn list and the alignment record. The hold-untils and the poll
and admit countdowns, which R180 names again behind the fields of 2.1, stand once, at their rows of 2.1; the profiles and the
hold-untils each stand as a list by own lane, in rising lane order with a length byte, also the one of a non-spread stream (DESIGN
CHOICE, log 37). -/
def Stream.bytes (self : PeerNo) (e : Stream) : List Byte :=
  let own := ownLanes self e
  let home {α : Type} (x : α) : Option α := if e.isSpread then none else some x
  let view : Option Nat := match e.place with
    | .spread _ i => some i
    | .home _ => none
  bytesOf 2 e.entry ++ bytesOf 2 e.tag ++ code e.state.code ++ bytesOf 2 e.parent ++
    optItem (fun a => bytesOf 6 a.toNat) e.address ++ code e.cls ++ code e.mode.code ++ bytesOf 2 e.quantum ++
    bytesOf 3 e.deficit ++ optItem (bytesOf 3) (home e.demand) ++ optItem (fun l => code l.val) e.homeLane ++
    optItem (laneSet 4) (if e.isSpread then some e.spreadSet else none) ++ optItem (bytesOf 2) view ++
    listItem (fun l => code (e.profile l)) own ++ optItem code (home e.pollInterval) ++ optItem code e.pollCountdown ++
    listItem (fun l => optItem sliceItem e.hold[l.val]) own ++ code e.noShow ++
    optItem markItem (if e.served then some e.quiet else none) ++ code e.retry ++ optItem (bytesOf 2) e.admitCountdown

/-- An entry in use, whole (R180). -/
def State.entryReport (s : State) (e : Stream) : List Byte :=
  e.bytes s.boot.peerId ++ listItem Turn.bytes e.turns ++ optItem Alignment.bytes e.alignment ++
    optItem markItem (if e.isStation then some (s.correctionWaits e.tag) else none) ++
    optItem (View.report s.boot.peerId) (if e.isSpread then s.viewOf e.tag else none)

/-- A FREE entry: its number and FREE, nothing more (R20, R180). -/
def freeReport (n : Nat) : List Byte := bytesOf 2 n ++ code 0

/-! ### Channels (R182) -/

/-- A final mark. -/
def FinalMark.bytes (m : FinalMark) : List Byte := planItem m.planNo ++ sliceItem m.start ++ sliceItem m.due

/-- A channel that holds a program: its state, then the other fields of 6.1. The carried dues and the final mark, which R182 lists
behind every field of 6.1 though they are rows of 6.1, stand once, at those rows (DESIGN CHOICE, log 37). -/
def Channel.report (c : Channel) : List Byte :=
  code c.state.code ++ bytesOf 2 c.number ++ bytesOf 2 c.tag ++ code c.lane.val ++ bytesOf 2 c.period ++ bytesOf 2 c.payload ++
    code c.jitter ++ bytesOf 2 c.initial ++ optItem (bytesOf 2) (if c.initial = 0 then none else some c.count) ++
    code c.endAction.code ++ sliceItem c.firstDue ++ optItem sliceItem c.nextDue ++ planItem c.openingPlan ++
    optItem (listItem sliceItem) (if c.state = .running then some c.carried else none) ++
    optItem FinalMark.bytes c.finalMark ++ optItem sliceItem c.lastTurn ++ bytesOf 2 c.misses ++ code c.unused

/-- The report of a channel number (R182): an IDLE channel is IDLE alone. -/
def State.channelReport (s : State) (k : Nat) : List Byte :=
  match s.channel? k with
  | some c => c.report
  | none => code 0

/-! ### Lanes (R183) -/

/-- A backoff pair. -/
def Backoff.bytes (b : Backoff) : List Byte := code b.first ++ code b.last

/-- Readings, in the order of 9.1. -/
def Readings.bytes (r : Readings) : List Byte :=
  bytesOf 2 r.backlog ++ bytesOf 2 r.openCollisions ++ bytesOf 2 r.joinCollisions ++ bytesOf 2 r.damage ++ bytesOf 2 r.empty

/-- The lane record of 9.1; `on` comes before `off` in its list of values. -/
def Health.bytes (h : Health) : List Byte :=
  code h.state.code ++ code (if h.enable then 0 else 1) ++ code h.carrier.code ++ code h.weight ++ code h.floor ++
    h.openPair.bytes ++ h.joinPair.bytes ++ bytesOf 2 h.openCount ++ bytesOf 2 h.joinCount ++ bytesOf 2 h.damageCount ++
    bytesOf 2 h.emptyCount ++ h.readings.bytes ++ bytesOf 2 h.flags.toNat ++ code h.goodProbes ++ code h.rampBuilds

/-- The clamped lane health limits, in the order of 9.1. -/
def limitBytes (m : HealthLimits) : List Byte :=
  bytesOf 2 m.backlogHigh ++ bytesOf 2 m.backlogLow ++ bytesOf 2 m.openHigh ++ bytesOf 2 m.openLow ++ bytesOf 2 m.joinHigh ++
    bytesOf 2 m.joinLow ++ code m.openMin ++ code m.joinMin ++ bytesOf 2 m.damageLimit ++ bytesOf 2 m.emptyLimit ++
    code m.rampLimit ++ code m.rampTimeout

/-- A turn-sizing table (R62): its four profiles and the lengths by profile are fields of the table, with no length byte before them
(DESIGN CHOICE, log 37). -/
def Sizing.bytes (z : Sizing) : List Byte :=
  z.profiles.toList.flatMap (fun p => code p.k ++ code p.t ++ code p.s ++ code p.h) ++ bytesOf 2 z.lmax ++
    z.ld.toList.flatMap code ++ z.minFragment.toList.flatMap (bytesOf 2) ++ z.pollLength.toList.flatMap code

/-- The report of a lane (R183). -/
def State.laneReport (s : State) (l : LaneNo) : List Byte :=
  let L := s.lane l
  L.health.bytes ++ limitBytes s.params.health ++ code L.bootWeight ++ L.table.bytes ++ code L.joinCountdown ++
    code L.buildState.code ++ markItem L.deferred ++ optItem sliceItem L.nextPlanStart ++ planItem L.planNo ++
    optItem (fun p => planItem p.planNo) L.outQueue ++ sliceItem L.slice ++ bytesOf 2 L.sub ++ code L.carrier.code ++
    code L.fifo.length ++ bytesOf 2 L.corrections.length ++ bytesOf 2 L.provisional.length

/-! ### The bus and the chip (R184, R185) -/

/-- The bus state with its cause (8.2). -/
def BusState.bytes : BusState → List Byte
  | .listenOnly => [0, 0]
  | .active => [1, 0]
  | .mute c => 2 :: optItem (fun c => code (MuteCause.code c)) (some c)

/-- A peer directory entry. -/
def PeerState.bytes : PeerState → List Byte
  | .absent => code 0 ++ [0]
  | .present t => code 1 ++ optItem (bytesOf 4) (some t.toNat)
  | .self => code 2 ++ [0]

/-- A lane directory entry: its state is coded by its place among ABSENT, DARK, RAMP and LIVE, 0 to 3 (DESIGN CHOICE, log 37). -/
def laneAdBytes : Option LaneAd → List Byte
  | none => code 0 ++ [0]
  | some a => code (a.state.code + 1) ++ optItem code (some a.weight)

/-- The report of READ PEERS (R184). A notice kind is coded, and the counts by kind stand, by the kind's priority on the bus, and the
LANE owed marks stand together as one set of lanes (DESIGN CHOICE, log 37). -/
def State.peersReport (s : State) : List Byte :=
  let b := s.bus
  b.state.bytes ++ listItem PeerState.bytes b.peers.toList ++ listItem laneAdBytes b.lanes.toList ++
    optItem (fun n => code (Notice.priority n) ++ code b.voidCount) b.holder ++ code b.queue.length ++
    [0, 1, 2, 3].flatMap (fun k => code (b.queue.filter fun n => n.priority == k).length) ++
    laneSet 1 (allLanes.filter fun l => (s.lane l).owed)

/-- The report of STATUS (R185). -/
def State.statusReport (s : State) : List Byte :=
  code s.boot.startup.code ++ code s.boot.peerId.val ++ laneSet 1 s.fittedLanes ++ s.bus.state.bytes ++
    markItem s.boot.bootClamped ++ code s.port.statusQueue.length ++ markItem s.port.summary ++ markItem s.port.overflow

/-! ### Status messages (10.4) -/

/-- A status message: its kind, 1 JOINED to 8 BUS_STATE, and its fields (R196). -/
def Message.bytes : Message → List Byte
  | .joined t a l => 1 :: (bytesOf 2 t ++ bytesOf 6 a.toNat ++ code l.val)
  | .joinFailed a l c => 2 :: (bytesOf 6 a.toNat ++ code l.val ++ code c.code)
  | .stationLost t c => 3 :: (bytesOf 2 t ++ code c.code)
  | .retired t => 4 :: bytesOf 2 t
  | .cadenceEnded k t c => 5 :: (bytesOf 2 k ++ bytesOf 2 t ++ code c.code)
  | .laneState l st c => 6 :: (code l.val ++ code st.code ++ code c.code)
  | .peerState p present => 7 :: (code p.val ++ code (if present then 0 else 1))
  | .busState none => 8 :: (code 0 ++ [0])
  | .busState (some c) => 8 :: (code 1 ++ optItem (fun c => code (MuteCause.code c)) (some c))

/-! ### Replies (R196) -/

/-- The result byte. -/
def ReplyResult.code : ReplyResult → Nat
  | .done => 0
  | .clamped => 1
  | .refused => 2

/-- The reason or note byte. -/
def ReplyNote.code : ReplyNote → Nat
  | .none => 0
  | .badTag => 1
  | .tagInUse => 2
  | .noEntry => 3
  | .noView => 4
  | .badParent => 5
  | .badMode => 6
  | .badLane => 7
  | .badChannel => 8
  | .channelBusy => 9
  | .notReady => 10
  | .badFormat => 11
  | .endNote => 16
  | .emptyNote => 17

/-- A reply as bytes, with its repeat mark. -/
def Reply.bytes (repeated : Bool) (r : Reply) : List Byte :=
  [r.seq] ++ code r.result.code ++ code r.note.code ++ markItem repeated ++ bytesOf 2 r.data.length ++ r.data

/-- The empty reply. -/
def emptyReply : List Byte := [0, 3, 0, 0, 0, 0]

/-- What a reply transaction reads out (R178, R196). -/
def ReplyHolder.bytes : ReplyHolder → List Byte
  | .empty => emptyReply
  | .unread r => r.bytes false
  | .read r => r.bytes true

end Sys2Proof.Machine
end

