-- ==== Sys2Proof/Machine/Reads.lean ====
section
/-! DEFINITION. The orders that read, the frame refused at its format, and the reply transaction (10.3, 11.4). -/

namespace Sys2Proof.Machine

/-- Answer a read with its data. -/
def answerData (seq : Byte) (data : List Byte) (s : State) : State := putReply seq .done .none data s

/-- Move the read cursor to an entry that is reported (R180, R181). -/
def setCursor (n : Nat) (s : State) : State := modPort (fun p => { p with cursor := n, walkStart := false }) s

/-- END: the cursor becomes 4095, and the next walk starts again from entry 0 (R181, log 34). -/
def endWalk (s : State) : State := modPort (fun p => { p with cursor := Config.entries - 1, walkStart := true }) s

/-- Report an entry number and set the cursor to it (R180). -/
def reportEntry (seq : Byte) (n : Nat) (s : State) : State :=
  let data := match s.entry? n with
    | some e => s.entryReport e
    | none => freeReport n
  setCursor n (answerData seq data s)

/-- READ STREAM (R180): by tag, or by entry number. -/
def readStreamStep (seq selector : Byte) (value : BitVec 16) (s : State) : State :=
  if selectorMalformed selector then refuse seq .badFormat s
  else whenReady seq (fun s =>
    if selector = 0 then
      match s.lookupTag value.toNat with
      | some n => reportEntry seq n s
      | none => refuse seq .badTag s
    else if value.toNat < Config.entries then reportEntry seq value.toNat s
    else refuse seq .badTag s) s

/-- The first entry in use above the cursor; at the start of a walk, the first entry in use (R181, log 34). -/
def State.nextEntry (s : State) : Option Stream :=
  s.table.find? fun e => s.port.walkStart || decide (e.entry > s.port.cursor)

/-- READ NEXT (R181). -/
def readNextStep (seq : Byte) (s : State) : State :=
  whenReady seq (fun s =>
    match s.nextEntry with
    | some e => reportEntry seq e.entry s
    | none => endWalk (putReply seq .done .endNote [] s)) s

/-- READ CADENCE (R182). -/
def readCadenceStep (seq : Byte) (channel : BitVec 16) (s : State) : State :=
  whenReady seq (fun s =>
    if channel.toNat ≥ Config.channels then refuse seq .badChannel s
    else answerData seq (s.channelReport channel.toNat) s) s

/-- Clear the lane flags named in a clear set (R171). -/
def clearFlags (l : LaneNo) (clearSet : BitVec 16) (s : State) : State :=
  modHealth l (fun h => { h with flags := h.flags &&& ~~~(clearSet.truncate 11) }) s

/-- READ LANE (R183): the report as the lane stands, then the flags of the clear set are cleared. -/
def readLaneStep (seq lane : Byte) (clearSet : BitVec 16) (s : State) : State :=
  whenReady seq (fun s =>
    match s.fittedByte lane with
    | some l => clearFlags l clearSet (answerData seq (s.laneReport l) s)
    | none => refuse seq .badLane s) s

/-- READ PEERS (R184). -/
def readPeersStep (seq : Byte) (s : State) : State := whenReady seq (fun s => answerData seq s.peersReport s) s

/-- FETCH STATUS (R188): the oldest message leaves the queue, with the number still waiting. -/
def fetchStatusStep (seq : Byte) (s : State) : State :=
  whenReady seq (fun s =>
    match s.port.statusQueue with
    | m :: rest =>
      answerData seq (m.bytes ++ code rest.length) (modPort (fun p => { p with statusQueue := rest }) s)
    | [] => putReply seq .done .emptyNote [] s) s

/-- STATUS (R185), taken in every start-up state: the report, then OVERFLOW is cleared, and the summary when asked. -/
def statusStep (seq mark : Byte) (s : State) : State :=
  modPort (fun p => { p with overflow := false, summary := p.summary && decide (mark.toNat % 2 = 0) })
    (answerData seq s.statusReport s)

/-- The frame length of an order code (11.4). -/
def orderLength : Nat → Option Nat
  | 1 => some 23
  | 2 => some 13
  | 3 => some 4
  | 4 => some 20
  | 5 => some 4
  | 6 => some 4
  | 7 => some 3
  | 8 => some 5
  | 9 => some 2
  | 10 => some 4
  | 11 => some 5
  | 12 => some 2
  | 13 => some 2
  | 14 => some 3
  | _ => none

/-- The byte of a frame at a position; 0 beyond its end. -/
def byteAt (frame : List Byte) (i : Nat) : Byte := (frame[i]?).getD 0

/-- An order frame fails the BAD_FORMAT check (R195). A transaction whose first byte is 0, or that moves no byte, is not an
order frame. -/
def orderMalformed (frame : List Byte) : Bool :=
  match frame with
  | [] => false
  | c :: _ =>
    if c = 0 then false
    else if orderLength c.toNat ≠ some frame.length then true
    else if c = 1 then
      let count := (byteAt frame 10).toNat
      decide (count > 8) || ((frame.drop 11).take count).any fun b => decide (b.toNat > 31)
    else if c = 8 then selectorMalformed (byteAt frame 2)
    else false

/-- ORDER_BAD_FORMAT (R179, R195): a malformed frame is refused with the sequence number as read, or 0 when the frame ended
before it. -/
def orderBadFormatStep (frame : List Byte) (s : State) : State :=
  if orderMalformed frame then refuse (byteAt frame 1) .badFormat s else s

/-- The bits a reply transaction of `n` bits shifts out: the reply, and zeros past its last byte (R196). -/
def shiftedOut (bytes : List Byte) (n : Nat) : List Bool :=
  let bits := bytes.flatMap byteBits
  bits.take n ++ List.replicate (n - bits.length) false

/-- A reply transaction that reads the last bit marks an UNREAD reply READ (R178). -/
def ReplyHolder.readOut : ReplyHolder → ReplyHolder
  | .unread r => .read r
  | h => h

/-- REPLY_TRANSACTION (R178, R196). The `n` bits are all those of the transaction: the reply's first bits are shifted out with the
byte on data in that names it (DESIGN CHOICE, log 23). -/
def replyTransactionStep (n : Nat) (s : State) : State :=
  modPort (fun p =>
    let bytes := p.holder.bytes
    { p with replyOut := shiftedOut bytes n, holder := if n ≥ 8 * bytes.length then p.holder.readOut else p.holder }) s

/-! ### The commands -/

/-- The meaning of READ_STREAM. -/
def execReadStream (seq selector : Byte) (value : BitVec 16) (s : State) : Host.Outcome State Fault Refusal :=
  .next (readStreamStep seq selector value s)

/-- The meaning of READ_NEXT. -/
def execReadNext (seq : Byte) (s : State) : Host.Outcome State Fault Refusal := .next (readNextStep seq s)

/-- The meaning of READ_CADENCE. -/
def execReadCadence (seq : Byte) (channel : BitVec 16) (s : State) : Host.Outcome State Fault Refusal :=
  .next (readCadenceStep seq channel s)

/-- The meaning of READ_LANE. -/
def execReadLane (seq lane : Byte) (clearSet : BitVec 16) (s : State) : Host.Outcome State Fault Refusal :=
  .next (readLaneStep seq lane clearSet s)

/-- The meaning of READ_PEERS. -/
def execReadPeers (seq : Byte) (s : State) : Host.Outcome State Fault Refusal := .next (readPeersStep seq s)

/-- The meaning of FETCH_STATUS. -/
def execFetchStatus (seq : Byte) (s : State) : Host.Outcome State Fault Refusal := .next (fetchStatusStep seq s)

/-- The meaning of STATUS. -/
def execStatus (seq mark : Byte) (s : State) : Host.Outcome State Fault Refusal := .next (statusStep seq mark s)

/-- The meaning of ORDER_BAD_FORMAT. -/
def execOrderBadFormat (frame : List Byte) (s : State) : Host.Outcome State Fault Refusal := .next (orderBadFormatStep frame s)

/-- The meaning of REPLY_TRANSACTION. -/
def execReplyTransaction (bits : Nat) (s : State) : Host.Outcome State Fault Refusal := .next (replyTransactionStep bits s)

end Sys2Proof.Machine
end

