-- ==== Sys2Proof/Decode.lean ====
section
/-! DEFINITION. Decoding. spec/opcode_table.json gives no row any bits, so no table word spells a command. The frames at the
order port do spell commands (11.4): a decoder of them, and the encoder written from the same table. -/

namespace Sys2Proof

/-- The command a table word spells: none, because the table gives no row any bits. -/
def decodeTableWord (_nbits _w : Nat) : Option Instr := none

/-! ### Fields of a frame, most significant byte first (11.4) -/

/-- The 16-bit field at a position. -/
def field16 (frame : List Byte) (i : Nat) : BitVec 16 := Machine.byteAt frame i ++ Machine.byteAt frame (i + 1)

/-- The 24-bit field at a position. -/
def field24 (frame : List Byte) (i : Nat) : BitVec 24 :=
  (Machine.byteAt frame i ++ Machine.byteAt frame (i + 1) : BitVec 16) ++ Machine.byteAt frame (i + 2)

/-- The bytes of a 16-bit field. -/
def bytes16 (w : BitVec 16) : List Byte := [w.extractLsb' 8 8, w.extractLsb' 0 8]

/-- The bytes of a 24-bit field. -/
def bytes24 (w : BitVec 24) : List Byte := [w.extractLsb' 16 8, w.extractLsb' 8 8, w.extractLsb' 0 8]

/-- The fields of an ADMIT frame. -/
def admitOf (frame : List Byte) : AdmitFields :=
  { tag := field16 frame 2, parent := field16 frame 4, classMode := Machine.byteAt frame 6, quantum := field16 frame 7,
    pollInterval := Machine.byteAt frame 9, laneCount := Machine.byteAt frame 10,
    lanes := Vector.ofFn fun k => Machine.byteAt frame (11 + k.val),
    profiles := Vector.ofFn fun k => Machine.byteAt frame (19 + k.val) }

/-- The fields of an AMEND frame. -/
def amendOf (frame : List Byte) : AmendFields :=
  { tag := field16 frame 2, keep := Machine.byteAt frame 4, classMode := Machine.byteAt frame 5, quantum := field16 frame 6,
    pollInterval := Machine.byteAt frame 8, profiles := Vector.ofFn fun k => Machine.byteAt frame (9 + k.val) }

/-- The fields of a CADENCE OPEN frame. -/
def cadenceOpenOf (frame : List Byte) : CadenceOpenFields :=
  { channel := field16 frame 2, tag := field16 frame 4, lane := Machine.byteAt frame 6, firstDue := field24 frame 7,
    period := field24 frame 10, payload := field16 frame 13, jitter := field16 frame 15, initialCount := field16 frame 17,
    endAction := Machine.byteAt frame 19 }

/-- The order of a frame that passes the BAD_FORMAT check, by its code. -/
def orderOf (frame : List Byte) : Instr :=
  let seq := Machine.byteAt frame 1
  let byte := Machine.byteAt frame
  match (byte 0).toNat with
  | 1 => .admitOrder seq (admitOf frame)
  | 2 => .amend seq (amendOf frame)
  | 3 => .retire seq (field16 frame 2)
  | 4 => .cadenceOpen seq (cadenceOpenOf frame)
  | 5 => .cadenceClose seq (field16 frame 2)
  | 6 => .laneUp seq (byte 2) (byte 3)
  | 7 => .laneDown seq (byte 2)
  | 8 => .readStream seq (byte 2) (field16 frame 3)
  | 9 => .readNext seq
  | 10 => .readCadence seq (field16 frame 2)
  | 11 => .readLane seq (byte 2) (field16 frame 3)
  | 12 => .readPeers seq
  | 13 => .fetchStatus seq
  | 14 => .status seq (byte 2)
  | _ => .orderBadFormat frame

/-- The command of a transaction at the order port, from the bytes on data in (11.4, R195, R196). A transaction that moves no
byte names nothing and is no command (log 31). The 8 bits of the byte 0 that names a reply transaction count among the reply's bits
clocked out (DESIGN CHOICE, log 23). -/
def decodeOrder (frame : List Byte) : Option Instr :=
  match frame with
  | [] => none
  | c :: _ =>
    if c = 0 then some (.replyTransaction (8 * frame.length))
    else if Machine.orderMalformed frame then some (.orderBadFormat frame)
    else some (orderOf frame)

/-- The frame of an order (11.4); a command that is not an order has none. -/
def encodeOrder : Instr → Option (List Byte)
  | .admitOrder seq f =>
    some ([1, seq] ++ bytes16 f.tag ++ bytes16 f.parent ++ [f.classMode] ++ bytes16 f.quantum ++
      [f.pollInterval, f.laneCount] ++ f.lanes.toList ++ f.profiles.toList)
  | .amend seq f =>
    some ([2, seq] ++ bytes16 f.tag ++ [f.keep, f.classMode] ++ bytes16 f.quantum ++ [f.pollInterval] ++ f.profiles.toList)
  | .retire seq tag => some ([3, seq] ++ bytes16 tag)
  | .cadenceOpen seq f =>
    some ([4, seq] ++ bytes16 f.channel ++ bytes16 f.tag ++ [f.lane] ++ bytes24 f.firstDue ++ bytes24 f.period ++
      bytes16 f.payload ++ bytes16 f.jitter ++ bytes16 f.initialCount ++ [f.endAction])
  | .cadenceClose seq channel => some ([5, seq] ++ bytes16 channel)
  | .laneUp seq lane weight => some [6, seq, lane, weight]
  | .laneDown seq lane => some [7, seq, lane]
  | .readStream seq selector value => some ([8, seq, selector] ++ bytes16 value)
  | .readNext seq => some [9, seq]
  | .readCadence seq channel => some ([10, seq] ++ bytes16 channel)
  | .readLane seq lane clearSet => some ([11, seq, lane] ++ bytes16 clearSet)
  | .readPeers seq => some [12, seq]
  | .fetchStatus seq => some [13, seq]
  | .status seq mark => some [14, seq, mark]
  | .orderBadFormat frame => some frame
  | .fullReset _ => none
  | .bootReadComplete _ => none
  | .ready => none
  | .nodeTimeChange _ => none
  | .buildPoint _ => none
  | .cutDeadline _ => none
  | .buildStart => none
  | .cadenceRequest => none
  | .probePlacement => none
  | .joinRegion => none
  | .minimumOpenRegion => none
  | .poll => none
  | .drrVisit => none
  | .leftoverOpenRegion => none
  | .buildCompletion => none
  | .admitCountdownExpiry _ => none
  | .rampTimeout _ => none
  | .releaseWait _ _ => none
  | .take => none
  | .marginPoint _ => none
  | .recordArrival _ _ => none
  | .carrierRecord _ _ => none
  | .demandReport _ => none
  | .burstOutcome _ => none
  | .unknownRecordType _ => none
  | .joinArrival _ => none
  | .outcomeWaitExpiry _ _ _ => none
  | .probeDeadline _ => none
  | .frameTransmitStart _ _ => none
  | .frameDelivery _ => none
  | .frameVoided _ => none
  | .peerSilence _ => none
  | .muteRecovery => none
  | .refresh => none
  | .replyTransaction _ => none

end Sys2Proof
end

