-- ==== Sys2Proof/Machine/Intake.lean ====
section
/-! DEFINITION. The Lane Intake Unit and the Stream Table's taking of records (3): arrivals, carrier records, demand reports,
burst outcomes, unknown types and join arrivals. -/

namespace Sys2Proof.Machine

/-! ### The ports and the FIFO (R39, R40, R41) -/

/-- A port accepts a record that enters the FIFO: fitted lane, READY, lane in RAMP or LIVE (R40). -/
def State.portAccepts (s : State) (l : LaneNo) : Bool :=
  s.fitted l && s.boot.startup == .ready && s.laneState l != .dark

/-- RECORD_ARRIVAL (R39, R40, R191): the record joins the tail of the FIFO, or is dropped with INTAKE_OVERRUN at a full one.
A carrier record never enters the FIFO. -/
def recordArrivalStep (l : LaneNo) (w : LaneRecord) (s : State) : State :=
  if recordType w ≠ 4 ∧ s.portAccepts l then
    if (s.lane l).fifo.length < Config.fifoDepth then modLane l (fun L => { L with fifo := L.fifo ++ [w] }) s
    else setFlag l .intakeOverrun s
  else s

/-- A carrier record on a fitted lane changes the lane's carrier state, and in READY the change is handed over (R41). -/
def takeCarrier (l : LaneNo) (c : Carrier) (s : State) : State :=
  if (s.lane l).carrier = c then s
  else
    let s := modLane l (fun L => { L with carrier := c }) s
    if s.boot.startup = .ready then carrierChange l c s else s

/-- CARRIER_RECORD (R41, R191): applied at arrival in every start-up state except HALTED. Before the boot read ends no lane is
known to be fitted or not, and the record is kept for every lane (log 12). -/
def carrierRecordStep (l : LaneNo) (w : LaneRecord) (s : State) : State :=
  if recordType w = 4 ∧ s.boot.startup ≠ .halted ∧ s.fitted l then takeCarrier l (carrierValue w) s else s

/-- The record at the head of a lane's FIFO, when its type is one of those given. -/
def State.headRecord (s : State) (l : LaneNo) (isType : Nat → Bool) : Option LaneRecord :=
  (s.lane l).fifo.head?.filter fun w => isType (recordType w)

/-- Remove the record at the head of a lane's FIFO. -/
def popRecord (l : LaneNo) (s : State) : State := modLane l (fun L => { L with fifo := L.fifo.drop 1 }) s

/-! ### Demand reports (R43 to R49) -/

/-- A report clears the quiet mark and the no-show run; with the mark, the poll countdown follows (R44). -/
def Stream.reported (e : Stream) : Stream :=
  let countdown := if e.quiet && !e.isSpread then (if e.pollInterval > 0 then some e.pollInterval else none) else e.pollCountdown
  { e with quiet := false, noShow := 0, pollCountdown := countdown }

/-- A turn list entry counts in the in-flight sum: DATA, not stale, and not the PIGGY carrying entry (R46). -/
def Turn.inFlight (l : LaneNo) (carrying : Option Slice) (t : Turn) : Bool :=
  t.kind == .data && !t.stale && !(t.lane == l && some t.start == carrying)

/-- The in-flight sum (R46). -/
def inFlightSum (l : LaneNo) (carrying : Option Slice) (turns : List Turn) : Nat :=
  ((turns.filter (Turn.inFlight l carrying)).map (·.payload)).sum

/-- Mark entries stale, newest first, until the sum is at or below the amount (R47): the rest of the list, newer entries
last, and the sum that is left. -/
def markStale (l : LaneNo) (carrying : Option Slice) (amount sum : Nat) : List Turn → List Turn × Nat
  | [] => ([], sum)
  | t :: newer =>
    let r := markStale l carrying amount sum newer
    if t.inFlight l carrying ∧ r.2 > amount then ({ t with stale := true } :: r.1, r.2 - t.payload) else (t :: r.1, r.2)

/-- A LEVEL report on a stream (R46, R47). -/
def Stream.levelReport (l : LaneNo) (carrying : Option Slice) (amount : Nat) (e : Stream) : Stream :=
  let sum := inFlightSum l carrying e.turns
  { e with demand := amount - sum, turns := (markStale l carrying amount sum e.turns).1 }

/-- An EDGE report on a stream (R45). -/
def Stream.edgeReport (amount : Nat) (e : Stream) : Stream :=
  { e with demand := satAdd Config.maxDemand e.demand amount }

/-- A report on a non-spread stream (R44, R45, R46). -/
def homeReport (l : LaneNo) (carrying : Option Slice) (amount : Nat) (e : Stream) (s : State) : State :=
  updateEntry e.entry (fun e =>
    match e.mode with
    | .edge => e.reported.edgeReport amount
    | .level => e.reported.levelReport l carrying amount) s

/-- A report on a spread stream (R44, R48, R49): expired claims leave the view, and a DEMAND is offered. R49 says that a declined
DEMAND leaves the report without effect on the view, R48 and R149 that every report removes the expired claims; here they are
removed in both cases (DESIGN CHOICE, log 36). -/
def spreadReport (amount : Nat) (e : Stream) (s : State) : State :=
  let s := modEntry e.entry Stream.reported s
  match s.viewOf e.tag with
  | some v =>
    let wanted := v.wanted s.nodeTime amount
    offerDemand e.tag (v.epoch + 1) wanted (modView e.tag (fun v => { v with claims := v.unexpired s.nodeTime }) s)
  | none => s

/-- Apply a demand report to the entry its tag names (R43). -/
def applyReport (l : LaneNo) (carrying : Option Slice) (amount : Nat) (e : Stream) (s : State) : State :=
  match e.state, e.place with
  | .provisional, _ => setFlag l .stray s
  | .closing, _ => s
  | _, .home h => if h = l then homeReport l carrying amount e s else setFlag l .stray s
  | _, .spread set _ => if set.contains (s.nodeLane l) then spreadReport amount e s else setFlag l .stray s

/-- Take a demand record (R43, R60, R191). -/
def takeReport (l : LaneNo) (w : LaneRecord) (s : State) : State :=
  if demandKind w = 3 then setFlag l .stray s
  else
    match s.byTag (recordTag w) with
    | some e => applyReport l (if demandKind w = 1 then some (demandCarrying w) else none) (demandAmount w) e s
    | none => setFlag l .stray s

/-- DEMAND_REPORT: the demand record at the head of the lane's FIFO is delivered. -/
def demandReportStep (l : LaneNo) (s : State) : State :=
  match s.headRecord l (· == 1) with
  | some w => takeReport l w (popRecord l s)
  | none => s

/-! ### Burst outcomes (R50 to R58) -/

/-- Raise a monitor count of a lane, saturating (R58). -/
def countOpen (l : LaneNo) (s : State) : State := modHealth l (fun h => { h with openCount := satAdd 65535 h.openCount 1 }) s

/-- The join collision count rises (R58). -/
def countJoin (l : LaneNo) (s : State) : State := modHealth l (fun h => { h with joinCount := satAdd 65535 h.joinCount 1 }) s

/-- The damage count rises (R58). -/
def countDamage (l : LaneNo) (s : State) : State :=
  modHealth l (fun h => { h with damageCount := satAdd 65535 h.damageCount 1 }) s

/-- The empty count rises (R58). -/
def countEmpty (l : LaneNo) (s : State) : State := modHealth l (fun h => { h with emptyCount := satAdd 65535 h.emptyCount 1 }) s

/-- A region outcome, tag ANY or NEWCOMER (R51). -/
def regionOutcome (l : LaneNo) (tag : Nat) (r : BurstResult) (s : State) : State :=
  match r with
  | .collided => if tag = Config.anyTag then countOpen l s else countJoin l s
  | .damaged => countDamage l s
  | _ => s

/-- The monitor counts of a matched outcome (R58). -/
def countOutcome (l : LaneNo) (t : Turn) (r : BurstResult) (s : State) : State :=
  match r with
  | .damaged => countDamage l s
  | .empty => if t.stale then s else countEmpty l s
  | _ => s

/-- The no-show run after an EMPTY turn, and at the limit the quiet mark with its poll countdown (R53). -/
def Stream.noShown (p : Params) (e : Stream) : Stream :=
  let run := satAdd 15 e.noShow 1
  if run ≥ p.noShowLimit then
    { e with noShow := run, quiet := true, pollCountdown := if e.isSpread then none else some p.quietPoll }
  else { e with noShow := run }

/-- The effect of a DAMAGED DATA entry (R54): a restore within the retry limit. -/
def damagedData (e : Stream) (t : Turn) (s : State) : State :=
  if !e.isSpread && e.mode == .edge && decide (e.retry < s.params.retryLimit) then
    restore e.entry t.payload (modEntry e.entry (fun e => { e with retry := e.retry + 1 }) s)
  else s

/-- The effect of a matched outcome on the runs and the demand of a stream that is not CLOSING (R52, R53, R54). A GOOD CADENCE
outcome sets both runs to 0 as R52 says, though R109 says that CADENCE outcomes do not touch the no-show run (DESIGN CHOICE,
log 42). -/
def streamOutcome (e : Stream) (t : Turn) (r : BurstResult) (s : State) : State :=
  match r with
  | .good => modEntry e.entry (fun e => { e with noShow := 0, retry := 0 }) s
  | .empty =>
    if e.served && (t.kind == .data || t.kind == .poll) && !t.stale then modEntry e.entry (Stream.noShown s.params) s else s
  | .damaged => if e.served && t.kind == .data then damagedData e t s else s
  | .collided => s

/-- The hand-over of a matched outcome to the Cadence Unit or the Joining and Alignment Unit (R55, R56). -/
def handOutcome (e : Stream) (t : Turn) (r : BurstResult) (timing power : Int) (s : State) : State :=
  match t.kind with
  | .cadence => cadenceOutcome e.tag t r s
  | .probe => handProbe e.entry t r timing power s
  | _ => s

/-- An outcome that matches a turn list entry: the entry is removed, the monitors count, and the result is applied; for a
CLOSING stream the removal and the count alone (R50 to R58). -/
def matchedOutcome (l : LaneNo) (e : Stream) (t : Turn) (r : BurstResult) (timing power : Int) (s : State) : State :=
  let s := countOutcome l t r (dropTurn e.entry l t.start s)
  let s := if e.state = .closing then s else handOutcome e t r timing power (streamOutcome e t r s)
  tryFree e.entry s

/-- Take an outcome record (R50, R51, R60). -/
def takeOutcome (l : LaneNo) (w : LaneRecord) (s : State) : State :=
  let tag := recordTag w
  let r := outcomeResult w
  if tag = Config.anyTag ∨ tag = Config.newcomer then regionOutcome l tag r s
  else if r = .collided then setFlag l .stray s
  else
    match s.byTag tag with
    | some e =>
      match e.turnAt l (outcomeStart w) with
      | some t => matchedOutcome l e t r (outcomeTiming w) (outcomePower w) s
      | none => setFlag l .stray s
    | none => setFlag l .stray s

/-- BURST_OUTCOME: the outcome record at the head of the lane's FIFO is delivered. -/
def burstOutcomeStep (l : LaneNo) (s : State) : State :=
  match s.headRecord l (· == 2) with
  | some w => takeOutcome l w (popRecord l s)
  | none => s

/-! ### Unknown types and join arrivals (R42, R61, R115) -/

/-- UNKNOWN_RECORD_TYPE: a record of type 0, 5, 6 or 7 at the head of the FIFO is discarded, and STRAY is set (R42, R191). -/
def unknownTypeStep (l : LaneNo) (s : State) : State :=
  match s.headRecord l (fun t => !(t == 1 || t == 2 || t == 3)) with
  | some _ => setFlag l .stray (popRecord l s)
  | none => s

/-- JOIN_ARRIVAL: the join record at the head of the FIFO is delivered to the Joining and Alignment Unit (R61, R115). -/
def joinArrivalStep (l : LaneNo) (s : State) : State :=
  match s.headRecord l (· == 3) with
  | some w => joinStation l (joinAddress w) (joinTiming w) (joinPower w) (popRecord l s)
  | none => s

/-! ### The commands -/

/-- The meaning of RECORD_ARRIVAL. -/
def execRecordArrival (l : LaneNo) (w : LaneRecord) (s : State) : Host.Outcome State Fault Refusal :=
  .next (recordArrivalStep l w s)

/-- The meaning of CARRIER_RECORD. -/
def execCarrierRecord (l : LaneNo) (w : LaneRecord) (s : State) : Host.Outcome State Fault Refusal :=
  .next (carrierRecordStep l w s)

/-- The meaning of DEMAND_REPORT. -/
def execDemandReport (l : LaneNo) (s : State) : Host.Outcome State Fault Refusal := .next (demandReportStep l s)

/-- The meaning of BURST_OUTCOME. -/
def execBurstOutcome (l : LaneNo) (s : State) : Host.Outcome State Fault Refusal := .next (burstOutcomeStep l s)

/-- The meaning of UNKNOWN_RECORD_TYPE. -/
def execUnknownRecordType (l : LaneNo) (s : State) : Host.Outcome State Fault Refusal := .next (unknownTypeStep l s)

/-- The meaning of JOIN_ARRIVAL. -/
def execJoinArrival (l : LaneNo) (s : State) : Host.Outcome State Fault Refusal := .next (joinArrivalStep l s)

end Sys2Proof.Machine
end

