-- ==== Sys2Proof/Machine/StartUp.lean ====
section
/-! DEFINITION. Full reset, the boot image and its clamps, and the entry to READY (10.1, 10.2, 11.5). -/

namespace Sys2Proof.Machine

/-! ### Full reset (R190) -/

/-- FULL_RESET: the straps are sampled and every block takes its reset values. The node time input is not reset (log 3), and
the commands that wait are outside the chip. -/
def fullResetStep (straps : PeerNo) (s : State) : State := { State.resetFor straps s.nodeTime with pending := s.pending }

/-! ### The image (R197) -/

/-- The image is readable: 340 bytes, the format mark, and the check over bytes 0 to 337 (R197). -/
def imageReadable (image : List Byte) : Bool :=
  decide (image.length = Config.imageBytes) && decide (natOfBytes (image.take 2) = Config.formatMark) &&
    decide (natOfBytes (image.drop 338) = (crc16 ((image.take 338).flatMap byteBits)).toNat)

/-- Field `i` of the image; a blank one takes its default (R173, R197). -/
def imageField (image : List Byte) (i deflt : Nat) : Nat :=
  let v := natOfBytes ((image.drop (2 + 3 * i)).take 3)
  if v = 2 ^ 24 - 1 then deflt else v

/-- The lane health limits as the image gives them (R197, 9.1). -/
def rawLimits (image : List Byte) : HealthLimits :=
  let d := HealthLimits.default
  let f := imageField image
  { backlogHigh := f 24 d.backlogHigh, backlogLow := f 25 d.backlogLow, openHigh := f 26 d.openHigh, openLow := f 27 d.openLow,
    joinHigh := f 28 d.joinHigh, joinLow := f 29 d.joinLow, openMin := f 30 d.openMin, joinMin := f 31 d.joinMin,
    damageLimit := f 32 d.damageLimit, emptyLimit := f 33 d.emptyLimit, rampLimit := f 34 d.rampLimit,
    rampTimeout := f 35 d.rampTimeout }

/-- The chip-wide fields as the image gives them, in the order of R173 (R197). -/
def rawParams (image : List Byte) : Params :=
  let d := Params.default
  let f := imageField image
  let lanes := f 0 15
  { fitted := Vector.ofFn fun l => lanes.testBit l.val, planLength := f 1 d.planLength, lead := f 2 d.lead, cut := f 3 d.cut,
    margin := f 4 d.margin, quantum := f 5 d.quantum, minFragment := f 6 d.minFragment, quietPoll := f 7 d.quietPoll,
    probeLength := f 8 d.probeLength, joinLength := f 9 d.joinLength, joinInterval := f 10 d.joinInterval, omin := f 11 d.omin,
    longTurn := f 12 d.longTurn, holdGap := f 13 d.holdGap, retryLimit := f 14 d.retryLimit, noShowLimit := f 15 d.noShowLimit,
    outcomeWait := f 16 d.outcomeWait, unusedLimit := f 17 d.unusedLimit, releaseWait := f 18 d.releaseWait,
    silenceMs := f 19 d.silenceMs, admitWait := f 20 d.admitWait, maintenancePeriod := f 21 d.maintenancePeriod,
    timingTolerance := f 22 d.timingTolerance, powerTolerance := f 23 d.powerTolerance, health := rawLimits image }

/-- A profile as the image gives it, from its first field. -/
def rawProfile (image : List Byte) (i : Nat) : Profile :=
  let d := Profile.default
  { k := imageField image i d.k, t := imageField image (i + 1) d.t, s := imageField image (i + 2) d.s,
    h := imageField image (i + 3) d.h }

/-- The fields of a lane as the image gives them (R197). -/
def rawLane (image : List Byte) (l : LaneNo) : LaneParams :=
  let d := LaneParams.default
  let i := 36 + 19 * l.val
  { sliceLength := imageField image i d.sliceLength, lmax := imageField image (i + 1) d.lmax,
    weight := imageField image (i + 2) d.weight, profiles := Vector.ofFn fun p => rawProfile image (i + 3 + 4 * p.val) }

/-! ### The clamps (R174) -/

/-- Step 1, on the lane health limits (9.1). -/
def rangeLimits (m : HealthLimits) : HealthLimits :=
  { backlogHigh := clamp 1 65535 m.backlogHigh, backlogLow := clamp 0 65535 m.backlogLow,
    openHigh := clamp 1 65535 m.openHigh, openLow := clamp 0 65535 m.openLow, joinHigh := clamp 1 65535 m.joinHigh,
    joinLow := clamp 0 65535 m.joinLow, openMin := clamp 0 10 m.openMin, joinMin := clamp 0 10 m.joinMin,
    damageLimit := clamp 0 65535 m.damageLimit, emptyLimit := clamp 0 65535 m.emptyLimit,
    rampLimit := clamp 1 255 m.rampLimit, rampTimeout := clamp 8 255 m.rampTimeout }

/-- Step 4: the limits against one another (R157). -/
def balanceLimits (m : HealthLimits) : HealthLimits :=
  { m with backlogLow := min m.backlogLow m.backlogHigh, openLow := min m.openLow (m.openHigh - 1),
           joinLow := min m.joinLow (m.joinHigh - 1) }

/-- A set naming no lane becomes the set of lane 0 alone (R174). -/
def fittedSet (v : Vector Bool 4) : Vector Bool 4 := if v.toList.any id then v else #v[true, false, false, false]

/-- Steps 1, 2 and 4 on the chip-wide fields (R173, R174). -/
def clampParams (p : Params) : Params :=
  let planLength := clamp 256 4096 p.planLength
  let lead := clamp 64 planLength p.lead
  let cut := clamp 16 lead p.cut
  { fitted := fittedSet p.fitted, planLength := planLength, lead := lead, cut := cut, margin := clamp 8 (cut / 2) p.margin,
    quantum := clampQuantum p.quantum, minFragment := clamp 16 1024 p.minFragment, quietPoll := clamp 1 255 p.quietPoll,
    probeLength := clamp 2 64 p.probeLength, joinLength := clamp 4 255 p.joinLength, joinInterval := clamp 1 64 p.joinInterval,
    omin := clamp 2 255 p.omin, longTurn := clamp 1 1023 p.longTurn, holdGap := clamp 0 4095 p.holdGap,
    retryLimit := clamp 0 3 p.retryLimit, noShowLimit := clamp 1 15 p.noShowLimit, outcomeWait := clamp 0 4095 p.outcomeWait,
    unusedLimit := clamp 0 255 p.unusedLimit, releaseWait := clamp 1 15 p.releaseWait, silenceMs := clamp 1 255 p.silenceMs,
    admitWait := clamp 16 65535 p.admitWait, maintenancePeriod := clamp 8 1024 p.maintenancePeriod,
    timingTolerance := clamp 0 8191 p.timingTolerance, powerTolerance := clamp 0 24 p.powerTolerance,
    health := balanceLimits (rangeLimits p.health) }

/-- A profile in its ranges (R173). -/
def rangeProfile (p : Profile) : Profile :=
  { k := clamp 16 255 p.k, t := clamp 0 16 p.t, s := clamp 1 64 p.s, h := clamp 1 31 p.h }

/-- Step 1 on the fields of a lane (R173). -/
def rangeLane (q : LaneParams) : LaneParams :=
  { sliceLength := clamp 16 4096 q.sliceLength, lmax := clamp 8 1023 q.lmax, weight := clamp 1 255 q.weight,
    profiles := q.profiles.map rangeProfile }

/-- The parameters in force after a read. -/
def bootParams (image : List Byte) : Params := clampParams (rawParams image)

/-- The turn-sizing table of a fitted lane (step 3; R62, R65, R66). -/
def bootSizing (image : List Byte) (l : LaneNo) : Sizing :=
  let q := rangeLane (rawLane image l)
  sizingOf q.lmax (bootParams image).planLength (bootParams image).minFragment q.profiles

/-- Some field was changed by some step of the clamp (R174). -/
def imageClamped (image : List Byte) : Bool :=
  decide (bootParams image ≠ rawParams image) ||
    allLanes.any (fun l => decide (rangeLane (rawLane image l) ≠ rawLane image l)) ||
    allLanes.any fun l => (bootParams image).fitted[l.val] &&
      decide ((bootSizing image l).lmax ≠ (rangeLane (rawLane image l)).lmax)

/-- What a fitted lane takes from the image (R62, R156, R173). -/
def Lane.booted (image : List Byte) (l : LaneNo) (L : Lane) : Lane :=
  let q := rangeLane (rawLane image l)
  let m := (bootParams image).health
  { L with sliceLength := q.sliceLength, bootWeight := q.weight, sizing := some (bootSizing image l),
           health := Health.reset q.weight m.openMin m.joinMin }

/-- Fill the lanes from the image; a lane that is not fitted keeps no carrier record (R41, log 12). -/
def bootLane (image : List Byte) (s : State) (l : LaneNo) : State :=
  if (bootParams image).fitted[l.val] then modLane l (Lane.booted image l) s
  else modLane l (fun L => { L with carrier := .absent }) s

/-- Change the Boot Loader. -/
def modBoot (f : Boot → Boot) (s : State) : State := { s with boot := f s.boot }

/-- A readable image: the clamped fields fill the tables and LISTENING begins (R174, R176). -/
def bootReadable (image : List Byte) (s : State) : State :=
  let s := modBoot (fun b => { b with startup := .listening, params := bootParams image, bootClamped := imageClamped image,
                                      listenStart := s.nodeTime }) s
  allLanes.foldl (bootLane image) s

/-- An unreadable image: HALTED, in which every block keeps its full-reset values; the carrier states recorded in LOADING go too (R41,
R175). -/
def bootHalted (s : State) : State :=
  allLanes.foldl (fun s l => modLane l (fun L => { L with carrier := .absent }) s) (modBoot (fun b => { b with startup := .halted }) s)

/-- BOOT_READ_COMPLETE (R174, R175): in LOADING alone. -/
def bootReadStep (image : Option (List Byte)) (s : State) : State :=
  if s.boot.startup = .loading then
    match image.filter imageReadable with
    | some bytes => bootReadable bytes s
    | none => bootHalted s
  else s

/-! ### The entry to READY (R177) -/

/-- LISTENING has lasted one silence limit (R176). -/
def State.readyDue (s : State) : Bool :=
  s.boot.startup == .listening && countReached (tickAdd s.boot.listenStart (silenceTicks s.params)) s.nodeTime

/-- The carrier of a lane that reported PRESENT is handed over (R41, R161). -/
def handCarrier (s : State) (l : LaneNo) : State :=
  if (s.lane l).carrier = .present then carrierChange l .present s else s

/-- READY (R177): the bus becomes ACTIVE with a LANE notice for each fitted lane, or MUTE(ID_CLASH) when a clash was recorded;
carriers are handed over. The slice counters run from here on (R2). -/
def readyStep (s : State) : State :=
  if s.readyDue then
    let s := modBoot (fun b => { b with startup := .ready }) s
    let s := if s.bus.clash then enterMute .idClash s else enterActive s
    s.fittedLanes.foldl handCarrier s
  else s

/-! ### The commands -/

/-- The meaning of FULL_RESET. -/
def execFullReset (straps : PeerNo) (s : State) : Host.Outcome State Fault Refusal := .next (fullResetStep straps s)

/-- The meaning of BOOT_READ_COMPLETE. -/
def execBootReadComplete (image : Option (List Byte)) (s : State) : Host.Outcome State Fault Refusal :=
  .next (bootReadStep image s)

/-- The meaning of READY. -/
def execReady (s : State) : Host.Outcome State Fault Refusal := .next (readyStep s)

end Sys2Proof.Machine
end

