-- ==== Sys2Proof/Machine/NodeTime.lean ====
section
/-! DEFINITION. The node time input (R1, R2): a change by d advances, each of which first performs the steps that have become
due, so that every slice start and every deadline it passes is reached in its order. -/

namespace Sys2Proof.Machine

/-! ### What is due now (log 5, log 6) -/

/-- A step, when its event is due. -/
def whenDue (due : Bool) (step : State → State) (s : State) : Option State := if due then some (step s) else none

/-- A step of the first lane for which it is due. -/
def laneDue (due : State → LaneNo → Bool) (step : LaneNo → State → State) (s : State) : Option State :=
  (allLanes.find? fun l => due s l).map fun l => step l s

/-- The first BASIC station whose admit countdown has reached 0 is lost (R26). -/
def admitDue (s : State) : Option State :=
  (s.table.find? Stream.admitExpired).map fun e => admitExpiryStep e.entry s

/-- The first release wait that is due is offered (R154): those of an earlier completion first, and of one completion in rising view
index (DESIGN CHOICE, log 6). -/
def releaseNext (s : State) : Option State := s.releaseDue.head?.map fun d => releaseWaitStep d.1 d.2 s

/-- The first turn list entry that has expired, in entry order and then placement order (R59). -/
def State.firstExpired (s : State) : Option (Nat × Turn) :=
  s.table.findSome? fun e => (e.turns.find? s.turnExpired).map fun t => (e.entry, t)

/-- It expires. -/
def expiryNext (s : State) : Option State :=
  s.firstExpired.map fun p => outcomeWaitStep p.1 p.2.lane p.2.start s

/-- The first probe out at its deadline (R119). -/
def deadlineNext (s : State) : Option State :=
  (s.table.find? fun e => s.probeOverdue e.entry).map fun e => probeDeadlineStep e.entry s

/-- The build in flight has used up its 1200 ticks (1.3, R7). The node tick 1200 after its start is compared with the node time as it
stands, also after a change that was no advance (DESIGN CHOICE, log 41). -/
def State.buildForced (s : State) : Bool :=
  match s.builder with
  | some b => countReached (tickAdd b.startTick Config.buildTicks) s.nodeTime
  | none => false

/-- The fill step the builder is at, from its own number. -/
def fillOf : Nat → State → State
  | 1 => cadenceRequestStep
  | 2 => probePlacementStep
  | 3 => joinRegionStep
  | 4 => minimumOpenStep
  | 5 => pollStep
  | 6 => drrVisitStep
  | _ => leftoverStep

/-- The builder's next step: the first fill step with something to do, or else the completion (R76). -/
def builderNext (s : State) : State :=
  match fillSteps.find? fun k => (s.buildAt k).isSome with
  | some k => fillOf k s
  | none => buildCompletionStep s

/-- The builder is free and a lane is PENDING (R6). -/
def State.startDue (s : State) : Bool := s.builder.isNone && !s.followUps && s.arbiterChoice.isSome

/-- A build point of the lane is due. -/
def State.pointDue (s : State) (l : LaneNo) : Bool := s.buildPointDue l || s.deferralDue l

/-- A silent peer is lost (R141). -/
def silenceNext (s : State) : Option State :=
  ((List.finRange 8).find? fun p => s.silent p).map fun p => peerSilenceStep p s

/-- The steps that time or an earlier completion makes due, in the order they are taken when several are due at one tick
(log 6). -/
def dueSteps : List (State → Option State) :=
  [fun s => whenDue s.readyDue readyStep s,
   admitDue,
   releaseNext,
   expiryNext,
   deadlineNext,
   laneDue State.marginDue marginPointStep,
   laneDue State.pointDue buildPointStep,
   fun s => whenDue s.buildForced builderNext s,
   fun s => whenDue s.startDue buildStartStep s,
   laneDue State.cutDue cutDeadlineStep,
   silenceNext,
   fun s => whenDue s.recoveryDue muteRecoveryStep s,
   fun s => whenDue s.refreshDue refreshStep s]

/-- The next due step, performed. -/
def dueStep (s : State) : Option State := dueSteps.findSome? fun f => f s

/-- Perform due steps until none is due. -/
def settle : (fuel : Nat) → State → State
  | 0, s => s
  | fuel + 1, s =>
    match dueStep s with
    | some t => settle fuel t
    | none => s

/-- A bound on the due steps of one tick, far above what any state can make due. -/
def settleFuel : Nat := 2 ^ 40

/-- One node tick on the chip (R2): the slice counters of fitted lanes run in READY alone. -/
def tickLane (s : State) (l : LaneNo) : State :=
  if s.boot.startup = .ready ∧ s.fitted l then modLane l Lane.tick s else s

/-- One advance of the node tick count. -/
def tickOnce (s : State) : State := allLanes.foldl tickLane { s with nodeTime := s.nodeTime + 1 }

/-- `d` advances of one, made one after another (R1). -/
def advance : (d : Nat) → State → State
  | 0, s => s
  | d + 1, s => advance d (tickOnce (settle settleFuel s))

/-- NODE_TIME_CHANGE (R1): a difference from 1 to 2^31 - 1 is that many advances; any other leaves the counters standing and
is the new current node time, and no step that is due is performed on it (DESIGN CHOICE, log 40). -/
def nodeTimeStep (value : Tick) (s : State) : State :=
  if countAfter value s.nodeTime then advance (value - s.nodeTime).toNat s else { s with nodeTime := value }

/-- The meaning of NODE_TIME_CHANGE. -/
def execNodeTimeChange (value : Tick) (s : State) : Host.Outcome State Fault Refusal := .next (nodeTimeStep value s)

end Sys2Proof.Machine
end

