-- ==== Sys2Proof/Machine/Orders.lean ====
section
/-! DEFINITION. The orders that change streams and cadence channels: ADMIT, AMEND, RETIRE, CADENCE OPEN, CADENCE CLOSE
(R32 to R35, R98 to R100), with the checks of R179. -/

namespace Sys2Proof.Machine

/-! ### ADMIT (R32, R33) -/

/-- The tag is a service tag, or a station tag of this chip's block that is entered in the tag map (R32). -/
def State.admitTagOk (s : State) (tag : Nat) : Bool :=
  decide (tag ≤ Config.lastServiceTag) ||
    ((Config.stationTags s.boot.peerId).contains tag && (s.lookupTag tag).isSome)

/-- The ADMIT upgrades a BASIC station: the tag is mapped to one and the parent tag is the tag itself (R32). -/
def State.upgraded (s : State) (f : AdmitFields) : Option Stream :=
  (s.byTag f.tag.toNat).filter fun e => e.state == .basic && e.isStation && f.parent == f.tag

/-- The parent of a new service stream: a station entry that is BASIC or ADMITTED (R32). -/
def State.parentOf (s : State) (f : AdmitFields) : Option Stream :=
  (s.byTag f.parent.toNat).filter fun e => e.served && e.isStation

/-- The ADMIT gives a spread set: its lane count is above 0 (11.4). -/
def admitSpread (f : AdmitFields) : Bool := decide (f.laneCount.toNat > 0)

/-- The lanes of an ADMIT are good (R32): a fitted home lane, or a spread set with a node lane of this chip in which every
node lane of this chip is fitted, and none for an upgrade. -/
def State.admitLanesOk (s : State) (upgrade : Bool) (f : AdmitFields) : Bool :=
  if admitSpread f then
    let own := allLanes.filter fun l => (spreadOf f).contains (s.nodeLane l)
    !upgrade && !own.isEmpty && own.all s.fitted
  else (s.fittedByte f.lanes[0]).isSome

/-- The first check an ADMIT fails, in the order of R32. -/
def State.admitRefusal (s : State) (f : AdmitFields) : Option ReplyNote :=
  let upgrade := (s.upgraded f).isSome
  if ¬s.admitTagOk f.tag.toNat then some .badTag
  else if (s.lookupTag f.tag.toNat).isSome ∧ ¬upgrade then some .tagInUse
  else if ¬upgrade ∧ (s.parentOf f).isNone then some .badParent
  else if modeOf f.classMode = .edge ∧ admitSpread f then some .badMode
  else if ¬s.admitLanesOk upgrade f then some .badLane
  else if ¬upgrade ∧ s.lowestFree.isNone then some .noEntry
  else if ¬upgrade ∧ admitSpread f ∧ s.lowestView.isNone then some .noView
  else none

/-- A field of the given profile bytes above 3 on some lane of a list (R33). -/
def profileClamped (profiles : Vector Byte 4) (lanes : List LaneNo) : Bool :=
  lanes.any fun l => decide (profiles[l.val].toNat > 3)

/-- Where the new service stream is served. -/
def State.admitPlace (s : State) (f : AdmitFields) : Place :=
  if admitSpread f then .spread (spreadOf f) (s.lowestView.getD 0) else .home ((s.fittedByte f.lanes[0]).getD 0)

/-- The record of a new service stream (R33). -/
def State.newService (s : State) (f : AdmitFields) (entry parent : Nat) : Stream :=
  settlePoll s.params
    { entry := entry, tag := f.tag.toNat, state := .admitted, parent := parent, address := none, cls := classOf f.classMode,
      mode := modeOf f.classMode, quantum := clampQuantum f.quantum.toNat, deficit := 0, demand := 0, place := s.admitPlace f,
      profiles := f.profiles.map fun b => clampProfile b.toNat,
      pollInterval := if admitSpread f then 0 else f.pollInterval.toNat, pollCountdown := none,
      hold := Vector.replicate 4 none, noShow := 0, quiet := false, retry := 0, admitCountdown := none, turns := [],
      alignment := none }

/-- Admit a new service stream: its entry, its tag, and for a spread stream its view (R33, R144). -/
def admitService (f : AdmitFields) (entry parent : Nat) (s : State) : State :=
  let e := s.newService f entry parent
  let s := addEntry e s
  match e.place with
  | .spread _ i => addView (View.new i s.boot.peerId e) s
  | .home _ => s

/-! ### AMEND (R34) -/

/-- The new values of the amended fields; an absent one keeps its present value. -/
structure Amendment where
  cls : Option Nat
  mode : Option ReportMode
  quantum : Option Nat
  pollInterval : Option Nat
  profile : LaneNo → Option Nat

/-- The amendment of an ADMIT upgrade: every field (R33). -/
def admitAmendment (f : AdmitFields) : Amendment :=
  { cls := some (classOf f.classMode), mode := some (modeOf f.classMode), quantum := some (clampQuantum f.quantum.toNat),
    pollInterval := some f.pollInterval.toNat, profile := fun l => some (clampProfile f.profiles[l.val].toNat) }

/-- A value unless its keep mark is set. -/
def unlessKept {α : Type} (mask : Byte) (bit : Nat) (a : α) : Option α := if keeps mask bit then none else some a

/-- The amendment of an AMEND order (11.4). -/
def amendAmendment (f : AmendFields) : Amendment :=
  { cls := unlessKept f.keep 0 (classOf f.classMode), mode := unlessKept f.keep 1 (modeOf f.classMode),
    quantum := unlessKept f.keep 2 (clampQuantum f.quantum.toNat), pollInterval := unlessKept f.keep 3 f.pollInterval.toNat,
    profile := fun l => unlessKept f.keep (4 + l.val) (clampProfile f.profiles[l.val].toNat) }

/-- Step 1: the report mode (R34). -/
def Stream.amendMode (mode : Option ReportMode) (e : Stream) : Stream :=
  match mode with
  | some m =>
    if m = e.mode then e
    else { e with mode := m, demand := 0, deficit := 0, turns := e.turns.map fun t => { t with stale := false } }
  | none => e

/-- Step 2: the quantum (R34). -/
def Stream.amendQuantum (quantum : Option Nat) (e : Stream) : Stream :=
  match quantum with
  | some q => { e with quantum := q, deficit := min e.deficit (4 * q) }
  | none => e

/-- Step 3: the class; the rings follow from R30 (R34). -/
def Stream.amendClass (cls : Option Nat) (e : Stream) : Stream := { e with cls := cls.getD e.cls }

/-- Step 4: the poll interval; a running countdown is set to the new interval (R34). -/
def Stream.amendPoll (p : Params) (interval : Option Nat) (e : Stream) : Stream :=
  match interval with
  | some n =>
    if e.isSpread then e
    else settlePoll p { e with pollInterval := n, pollCountdown := e.pollCountdown.map fun _ => n }
  | none => e

/-- Step 4: the profile of each own lane (R34). -/
def Stream.amendProfiles (own : List LaneNo) (profile : LaneNo → Option Nat) (e : Stream) : Stream :=
  { e with profiles := own.foldl (fun ps l => ps.set l.val ((profile l).getD ps[l.val])) e.profiles }

/-- Apply an amendment to a stream's record, in the order of R34. -/
def Stream.amend (p : Params) (self : PeerNo) (a : Amendment) (e : Stream) : Stream :=
  ((((e.amendMode a.mode).amendQuantum a.quantum).amendClass a.cls).amendPoll p a.pollInterval).amendProfiles
    (ownLanes self e) a.profile

/-- Apply an amendment to a stream and its rings. -/
def applyAmendment (n : Nat) (a : Amendment) (s : State) : State :=
  updateEntry n (Stream.amend s.params s.boot.peerId a) s

/-- The upgrade of a BASIC station (R33). -/
def upgradeStation (e : Stream) (f : AdmitFields) (s : State) : State :=
  applyAmendment e.entry (admitAmendment f)
    (modEntry e.entry (fun e => { e with state := .admitted, admitCountdown := none }) s)

/-- An ADMIT clamps a field: the quantum, or the profile of an own lane (R33). -/
def State.admitClamped (s : State) (f : AdmitFields) : Bool :=
  let own := match s.upgraded f with
    | some e => ownLanes s.boot.peerId e
    | none => match s.admitPlace f with
      | .home l => [l]
      | .spread set _ => allLanes.filter fun l => set.contains (s.nodeLane l)
  clampQuantum f.quantum.toNat != f.quantum.toNat || profileClamped f.profiles own

/-- An ADMIT that passes R32 (R33). -/
def admitAccepted (seq : Byte) (f : AdmitFields) (s : State) : State :=
  let clamped := s.admitClamped f
  match s.upgraded f with
  | some e => answerDone seq clamped (upgradeStation e f s)
  | none =>
    match s.parentOf f, s.lowestFree with
    | some parent, some entry => answerDone seq clamped (admitService f entry parent.entry s)
    | _, _ => s

/-- ADMIT (R32, R33). -/
def admitStep (seq : Byte) (f : AdmitFields) (s : State) : State :=
  if admitMalformed f then refuse seq .badFormat s
  else whenReady seq (fun s =>
    match s.admitRefusal f with
    | some reason => refuse seq reason s
    | none => admitAccepted seq f s) s

/-- An AMEND clamps a field it does not keep: the quantum, or the profile of an own lane (R33, R34). -/
def amendClamped (self : PeerNo) (f : AmendFields) (e : Stream) : Bool :=
  (!keeps f.keep 2 && clampQuantum f.quantum.toNat != f.quantum.toNat) ||
    profileClamped f.profiles ((ownLanes self e).filter fun l => !keeps f.keep (4 + l.val))

/-- AMEND (R34). -/
def amendStep (seq : Byte) (f : AmendFields) (s : State) : State :=
  whenReady seq (fun s =>
    match (s.byTag f.tag.toNat).filter fun e => e.state == .admitted with
    | some e =>
      if e.isSpread ∧ (amendAmendment f).mode = some .edge then refuse seq .badMode s
      else answerDone seq (amendClamped s.boot.peerId f e) (applyAmendment e.entry (amendAmendment f) s)
    | none => refuse seq .badTag s) s

/-! ### RETIRE (R35) -/

/-- RETIRE (R35). -/
def retireStep (seq : Byte) (tag : BitVec 16) (s : State) : State :=
  whenReady seq (fun s =>
    match s.byTag tag.toNat with
    | some e =>
      match e.state with
      | .provisional => refuse seq .badTag s
      | .closing => answerDone seq false s
      | _ => answerDone seq false (retireWithChildren .order e.entry s)
    | none => refuse seq .badTag s) s

/-! ### CADENCE OPEN and CADENCE CLOSE (R98, R99, R100) -/

/-- The stream a CADENCE OPEN may bind to: BASIC or ADMITTED, served on the lane (R98). -/
def State.cadenceBindable (s : State) (tag : Nat) (l : LaneNo) : Bool :=
  match s.byTag tag with
  | some e => e.served && servesLane s.boot.peerId e l
  | none => false

/-- The first check a CADENCE OPEN fails, in the order of R98. -/
def State.openRefusal (s : State) (f : CadenceOpenFields) : Option ReplyNote :=
  if f.channel.toNat ≥ Config.channels then some .badChannel
  else
    match s.fittedByte f.lane with
    | none => some .badLane
    | some l =>
      if ¬s.cadenceBindable f.tag.toNat l then some .badChannel
      else if (s.channel? f.channel.toNat).isSome then some .channelBusy
      else none

/-- The ordered period, payload and jitter, clamped (R98). -/
def openSized (f : CadenceOpenFields) : Nat × Nat × Nat :=
  (clamp 8 65535 f.period.toNat, clamp 1 4096 f.payload.toNat, min f.jitter.toNat 255)

/-- A CADENCE OPEN clamps a field (R98). -/
def openClamped (f : CadenceOpenFields) : Bool :=
  openSized f != (f.period.toNat, f.payload.toNat, f.jitter.toNat)

/-- A channel of the tag and lane is RUNNING or DRAINING (R99). -/
def State.pairBusy (s : State) (tag : Nat) (l : LaneNo) : Bool := s.channels.any fun c => c.live && c.bound tag l

/-- The record of an opened channel (R99). -/
def State.openedChannel (s : State) (f : CadenceOpenFields) (l : LaneNo) : Channel :=
  let tag := f.tag.toNat
  let busy := s.pairBusy tag l
  { number := f.channel.toNat, state := if busy then .standby else .running, tag := tag, lane := l, period := (openSized f).1,
    payload := (openSized f).2.1, jitter := (openSized f).2.2, initial := f.initialCount.toNat, count := f.initialCount.toNat,
    endAction := endActionOf f.endAction, firstDue := f.firstDue,
    nextDue := if busy then none else some (firstDueFrom (s.horizon l) f.firstDue (openSized f).1),
    openingPlan := s.openingPlan l, carried := [], finalMark := none, lastTurn := none, misses := 0, unused := 0 }

/-- Enter a channel that leaves IDLE. -/
def addChannel (c : Channel) (s : State) : State := { s with channels := insertBy Channel.number c s.channels }

/-- CADENCE OPEN (R98, R99). -/
def cadenceOpenStep (seq : Byte) (f : CadenceOpenFields) (s : State) : State :=
  whenReady seq (fun s =>
    match s.openRefusal f with
    | some reason => refuse seq reason s
    | none =>
      match s.fittedByte f.lane with
      | some l => answerDone seq (openClamped f) (addChannel (s.openedChannel f l) s)
      | none => s) s

/-- CADENCE CLOSE (R100). -/
def cadenceCloseStep (seq : Byte) (channel : BitVec 16) (s : State) : State :=
  whenReady seq (fun s =>
    if channel.toNat ≥ Config.channels then refuse seq .badChannel s
    else
      match s.channel? channel.toNat with
      | some c => answerDone seq false (endChannel c .closed s)
      | none => answerDone seq false s) s

/-! ### The commands -/

/-- The meaning of ADMIT. -/
def execAdmit (seq : Byte) (f : AdmitFields) (s : State) : Host.Outcome State Fault Refusal := .next (admitStep seq f s)

/-- The meaning of AMEND. -/
def execAmend (seq : Byte) (f : AmendFields) (s : State) : Host.Outcome State Fault Refusal := .next (amendStep seq f s)

/-- The meaning of RETIRE. -/
def execRetire (seq : Byte) (tag : BitVec 16) (s : State) : Host.Outcome State Fault Refusal := .next (retireStep seq tag s)

/-- The meaning of CADENCE_OPEN. -/
def execCadenceOpen (seq : Byte) (f : CadenceOpenFields) (s : State) : Host.Outcome State Fault Refusal :=
  .next (cadenceOpenStep seq f s)

/-- The meaning of CADENCE_CLOSE. -/
def execCadenceClose (seq : Byte) (channel : BitVec 16) (s : State) : Host.Outcome State Fault Refusal :=
  .next (cadenceCloseStep seq channel s)

end Sys2Proof.Machine
end

