-- ==== Sys2Proof/Machine/Dispatch.lean ====
section
/-! DEFINITION. The dispatch: each command of the table to its meaning. -/

namespace Sys2Proof.Machine

/-- The effect of a command on everything but the queue. -/
def exec (i : Instr) (s : State) : Host.Outcome State Fault Refusal :=
  match i with
  | .fullReset p => Sys2Proof.Machine.execFullReset p s
  | .bootReadComplete image => Sys2Proof.Machine.execBootReadComplete image s
  | .ready => Sys2Proof.Machine.execReady s
  | .nodeTimeChange value => Sys2Proof.Machine.execNodeTimeChange value s
  | .buildPoint l => Sys2Proof.Machine.execBuildPoint l s
  | .cutDeadline l => Sys2Proof.Machine.execCutDeadline l s
  | .buildStart => Sys2Proof.Machine.execBuildStart s
  | .cadenceRequest => Sys2Proof.Machine.execCadenceRequest s
  | .probePlacement => Sys2Proof.Machine.execProbePlacement s
  | .joinRegion => Sys2Proof.Machine.execJoinRegion s
  | .minimumOpenRegion => Sys2Proof.Machine.execMinimumOpenRegion s
  | .poll => Sys2Proof.Machine.execPoll s
  | .drrVisit => Sys2Proof.Machine.execDrrVisit s
  | .leftoverOpenRegion => Sys2Proof.Machine.execLeftoverOpenRegion s
  | .buildCompletion => Sys2Proof.Machine.execBuildCompletion s
  | .admitCountdownExpiry n => Sys2Proof.Machine.execAdmitCountdownExpiry n s
  | .rampTimeout l => Sys2Proof.Machine.execRampTimeout l s
  | .releaseWait v l => Sys2Proof.Machine.execReleaseWait v l s
  | .take => Sys2Proof.Machine.execTake s
  | .marginPoint l => Sys2Proof.Machine.execMarginPoint l s
  | .recordArrival l w => Sys2Proof.Machine.execRecordArrival l w s
  | .carrierRecord l w => Sys2Proof.Machine.execCarrierRecord l w s
  | .demandReport l => Sys2Proof.Machine.execDemandReport l s
  | .burstOutcome l => Sys2Proof.Machine.execBurstOutcome l s
  | .unknownRecordType l => Sys2Proof.Machine.execUnknownRecordType l s
  | .joinArrival l => Sys2Proof.Machine.execJoinArrival l s
  | .outcomeWaitExpiry n l start => Sys2Proof.Machine.execOutcomeWaitExpiry n l start s
  | .probeDeadline n => Sys2Proof.Machine.execProbeDeadline n s
  | .frameTransmitStart before rivals => Sys2Proof.Machine.execFrameTransmitStart before rivals s
  | .frameDelivery bits => Sys2Proof.Machine.execFrameDelivery bits s
  | .frameVoided bits => Sys2Proof.Machine.execFrameVoided bits s
  | .peerSilence p => Sys2Proof.Machine.execPeerSilence p s
  | .muteRecovery => Sys2Proof.Machine.execMuteRecovery s
  | .refresh => Sys2Proof.Machine.execRefresh s
  | .admitOrder seq f => Sys2Proof.Machine.execAdmit seq f s
  | .amend seq f => Sys2Proof.Machine.execAmend seq f s
  | .retire seq tag => Sys2Proof.Machine.execRetire seq tag s
  | .cadenceOpen seq f => Sys2Proof.Machine.execCadenceOpen seq f s
  | .cadenceClose seq channel => Sys2Proof.Machine.execCadenceClose seq channel s
  | .laneUp seq lane weight => Sys2Proof.Machine.execLaneUp seq lane weight s
  | .laneDown seq lane => Sys2Proof.Machine.execLaneDown seq lane s
  | .readStream seq selector value => Sys2Proof.Machine.execReadStream seq selector value s
  | .readNext seq => Sys2Proof.Machine.execReadNext seq s
  | .readCadence seq channel => Sys2Proof.Machine.execReadCadence seq channel s
  | .readLane seq lane clearSet => Sys2Proof.Machine.execReadLane seq lane clearSet s
  | .readPeers seq => Sys2Proof.Machine.execReadPeers seq s
  | .fetchStatus seq => Sys2Proof.Machine.execFetchStatus seq s
  | .status seq mark => Sys2Proof.Machine.execStatus seq mark s
  | .orderBadFormat frame => Sys2Proof.Machine.execOrderBadFormat frame s
  | .replyTransaction n => Sys2Proof.Machine.execReplyTransaction n s

end Sys2Proof.Machine
end

