-- ==== Sys2Proof/Safety.lean ====
section
/-! DEFINITION. What counts as a safe state of the chip: bounds and relations that the spec states and that no command breaks. And
the words in which the statements say what one event does: rings that follow, a notice that is offered, a stream that is retired. -/

namespace Sys2Proof.Machine

/-! ### Queues and floors -/

/-- The queues of fixed depth hold at most their places: the status queue 32 (R186), the notice queue 64 (R137), each intake
FIFO 64 (R39). -/
def State.depthsOk (s : State) : Bool :=
  decide (s.port.statusQueue.length ≤ Config.statusDepth) && decide (s.bus.queue.length ≤ Config.noticeDepth) &&
    allLanes.all fun l => decide ((s.lane l).fifo.length ≤ Config.fifoDepth)

/-- A chip that is not ACTIVE holds no notice, neither queued nor in the transmit holder (R133, R134, R137). -/
def State.quietBus (s : State) : Bool :=
  s.bus.state == .active || (s.bus.queue.isEmpty && s.bus.holder.isNone)

/-- A lane's floor lies between 0 and 5, and is 0 whenever the lane is not LIVE (R168). -/
def Lane.floorOk (L : Lane) : Bool := decide (L.health.floor ≤ 5) && (L.health.state == .live || L.health.floor == 0)

/-- Every lane's floor is in its range. -/
def State.floorsOk (s : State) : Bool := allLanes.all fun l => (s.lane l).floorOk

/-! ### The notice queue (R137, R138, R139) -/

/-- Two notices of which the queue holds one at most: two DEMAND of a tag (R137), two CLAIM of a tag, an epoch and a node lane
(R138), two LANE of a lane (R139). -/
def Notice.alike : Notice → Notice → Bool
  | .demand t _ _, n => n.demandFor t
  | .claim t e k _ _, n => n.claimFor t e k
  | .lane l _ _, n => n.forLane l
  | .release _ _ _ _, _ => false

/-- No two notices of the queue are alike, and a LANE owed mark stands only while the chip is ACTIVE with a full queue that holds no
LANE notice of the lane (R137, R138, R139). -/
def State.noticesOk (s : State) : Bool :=
  decide (s.bus.queue.Pairwise fun a b => a.alike b = false) &&
    allLanes.all fun l => !(s.lane l).owed ||
      (s.bus.state == .active && decide (Config.noticeDepth ≤ s.bus.queue.length) && !s.bus.queue.any (Notice.forLane l))

/-! ### Builds and plans (R19, R73, R75, R95) -/

/-- Runs of slices, each by its first slice and its length, that lie within `len` slices and do not overlap. -/
def spansOk (len : Nat) (spans : List (Nat × Nat)) : Bool :=
  (spans.all fun x => decide (x.1 + x.2 ≤ len)) && decide (spans.Pairwise fun x y => x.1 + x.2 ≤ y.1 ∨ y.1 + y.2 ≤ x.1)

/-- The slices of a turn. -/
def PlanTurn.span (t : PlanTurn) : Nat × Nat := (t.offset, t.length)

/-- The slices of a gap. -/
def Gap.span (g : Gap) : Nat × Nat := (g.start, g.length)

/-- The placed turns of a build and the gaps of its free map lie in its interval, and overlap neither each other nor one another
(R19, R73); a build places at most 240 turns (R75). -/
def Build.ok (planLength : Nat) (b : Build) : Bool :=
  spansOk planLength (b.placed.map PlanTurn.span ++ b.gaps.map Gap.span) && decide (b.placed.length ≤ Config.planTurns)

/-- The turns of a plan lie in it, do not overlap, and stand in order of start slice; it carries at most 240 turns and 16 corrections
(R9, R19, R75, R95). -/
def Plan.ok (p : Plan) : Bool :=
  spansOk p.length (p.turns.map PlanTurn.span) && decide (p.turns.Pairwise fun x y => x.offset ≤ y.offset) &&
    decide (p.turns.length ≤ Config.planTurns) && decide (p.corrections.length ≤ Config.planCorrections)

/-- The build in flight and the plans queued are as they should be, and while LOADING, before the boot read gives the plan length, there
is no build and every lane is DARK and IDLE (R156, R190). -/
def State.plansOk (s : State) : Bool :=
  s.builder.all (Build.ok s.params.planLength) && (allLanes.all fun l => (s.lane l).outQueue.all Plan.ok) &&
    (s.boot.startup != .loading || s.builder.isNone &&
      allLanes.all fun l => s.laneState l == .dark && (s.lane l).buildState == .idle)

/-! ### Streams (R20, R21, R27, R30, R31, R37) -/

/-- A stream's values are in range: outstanding demand (R20), turn list (R27), deficit, which is 0 in no ring (R31). Its rings are just
those R30 gives it: a spread stream is in the ring of its class on each own lane on which its allowance is above 0 (R145). -/
def Stream.ok (s : State) (e : Stream) : Bool :=
  decide (e.demand ≤ Config.maxDemand) && decide (e.turns.length ≤ Config.turnListDepth) &&
    decide (e.dataEntries ≤ Config.dataDepth) && decide (e.deficit ≤ 4 * e.quantum) &&
    (s.inSomeRing e.entry || e.deficit == 0) &&
    allLanes.all fun l => ringIndexes.all fun i =>
      ((s.lane l).ring i).contains e.entry == s.meetsRing e l (i.val + 1)

/-- The entries of the table stand in rising order, each once, and the tag map holds the tag of each entry in use and no other (R21, R37):
every entry is found under its tag. -/
def State.tagsOk (s : State) : Bool :=
  decide (s.table.Pairwise fun a b => a.entry < b.entry) && (s.table.all fun e => s.byTag e.tag == some e) &&
    s.tagMap.all fun p => s.table.any fun e => e.tag == p.1 && e.entry == p.2

/-- A station is an entry with an address (2.1). Every other entry is an ADMITTED or CLOSING service stream under a station that is not
PROVISIONAL, and that is not CLOSING unless its child is (R32, R36, R37). The station index names stations that are not CLOSING (R22). -/
def State.familiesOk (s : State) : Bool :=
  (s.table.all fun e => e.isStation == e.address.isSome && (e.isStation || (e.state == .admitted || e.state == .closing) &&
    s.table.any fun p => p.entry == e.parent && p.isStation && (p.served || p.state == .closing && e.state == .closing))) &&
    s.stationIndex.all fun x => s.table.any fun e => e.entry == x.2 && e.isStation && e.state != .closing

/-- The station index holds each address once, for the station that carries it, and the address of every station that is not CLOSING
(R22, R24, R36). -/
def State.addressesOk (s : State) : Bool :=
  decide (s.stationIndex.map (·.1)).Nodup && (s.stationIndex.all fun x => (s.entry? x.2).any fun e => e.address == some x.1) &&
    s.table.all fun e => !e.isStation || e.state == .closing || e.address.any fun a => s.lookupAddress a == some e.entry

/-- A correction queue holds at most one correction for each tag (R117). -/
def State.correctionsOk (s : State) : Bool := allLanes.all fun l => decide ((s.lane l).corrections.map (·.tag)).Nodup

/-- The tags of the pool are station tags that are not mapped, and a station carries a station tag (R37, R114). -/
def State.poolOk (s : State) : Bool :=
  (s.pool.all fun t => decide (Config.lastServiceTag < t) && (s.lookupTag t).isNone) &&
    s.table.all fun e => !e.isStation || decide (Config.lastServiceTag < e.tag)

/-- The entries have their values in range; a ring holds an entry once, and only an entry in use. -/
def State.streamsOk (s : State) : Bool :=
  (s.table.all fun e => e.ok s) && allLanes.all fun l => ringIndexes.all fun i =>
    decide ((s.lane l).ring i).Nodup && ((s.lane l).ring i).all fun n => (s.entry? n).isSome

/-! ### Channels and views (R97, R99, R144, R148) -/

/-- For each pair of tag and lane at most one channel is RUNNING or DRAINING, and one is while a channel is in STANDBY (R99); the
channels stand in rising order, each once. A channel holds at most 32 carried dues (R104). -/
def State.channelsOk (s : State) : Bool :=
  decide (s.channels.Pairwise fun a b => a.number < b.number) &&
    decide (s.channels.Pairwise fun a b => ¬(a.live = true ∧ b.live = true ∧ b.bound a.tag a.lane = true)) &&
    (s.channels.all fun c => c.state != .standby || s.pairBusy c.tag c.lane) &&
    s.channels.all fun c => decide (c.carried.length ≤ Config.carriedDepth)

/-- A channel is bound to the tag of a BASIC or ADMITTED stream, so to that of no FREE entry (R37, R98, R111). -/
def State.boundOk (s : State) : Bool := s.channels.all fun c => (s.byTag c.tag).any Stream.served

/-- The claimed bytes of a live lane are at most its share, and the shares sum to no more than the announced demand (R148); a view holds
each of its lanes once, its live lanes are lanes of its spread set (R144), and it holds at most 16 claims (R148). -/
def View.ok (v : View) : Bool :=
  decide v.set.Nodup && decide (v.live.map (·.lane)).Nodup && (v.live.all fun x => decide (x.claimed ≤ x.share)) &&
    decide ((v.live.map (·.share)).sum ≤ v.announced) && (v.live.all fun x => v.set.contains x.lane) &&
    decide (v.claims.length ≤ Config.claimDepth)

/-- The views stand in rising order of index, each once, with their values in range. -/
def State.viewsOk (s : State) : Bool :=
  decide (s.views.Pairwise fun a b => a.index < b.index) && s.views.all View.ok

/-- A view is that of the BASIC or ADMITTED spread stream of its entry, tag, spread set and index, and each such stream has its view
(R33, R36, R144). -/
def State.spreadOk (s : State) : Bool :=
  (s.views.all fun v => (s.entry? v.entry).any fun e => e.tag == v.tag && e.place == .spread v.set v.index && e.served) &&
    s.table.all fun e => !(e.isSpread && e.served) || (s.viewOf e.tag).isSome

/-! ### Backoff pairs (9.1, R169) -/

/-- A backoff pair in its range: boot minimum ≤ start ≤ end ≤ 10. -/
def Backoff.ok (least : Nat) (b : Backoff) : Bool := decide (least ≤ b.first) && decide (b.first ≤ b.last) && decide (b.last ≤ 10)

/-- The backoff pairs of the fitted lanes are in their ranges; there is no record of any other lane (R156, R169). -/
def State.backoffsOk (s : State) : Bool :=
  s.fittedLanes.all fun l =>
    (s.lane l).health.openPair.ok s.params.health.openMin && (s.lane l).health.joinPair.ok s.params.health.joinMin

/-- The safe states. -/
def State.safe (s : State) : Bool :=
  s.depthsOk && s.quietBus && s.floorsOk && s.backoffsOk && s.noticesOk && s.plansOk && s.tagsOk && s.familiesOk && s.addressesOk &&
    s.correctionsOk && s.poolOk && s.streamsOk && s.channelsOk && s.boundOk && s.viewsOk && s.spreadOk

/-! ### What one event does -/

/-- The memberships of the entries `ns`, and of no other, are in `t` as R30 asks: one that joins a ring goes to its tail, one that
stays keeps its place, and one that is then in no ring has deficit 0 (R30, R31, R145). The order of several that join is that of `ns`
(log 35), and a stream that leaves one ring and joins another keeps its deficit (log 45). -/
def RingsFollow (ns : List Nat) (s t : State) : Prop :=
  (∀ k c, 1 ≤ c → c ≤ 6 →
    (∀ n ∈ ns, n ∈ t.ring k c ↔
      ∃ e, t.entry? n = some e ∧ e.served = true ∧ e.cls = c ∧ 0 < t.available e k) ∧
    ∃ joined, joined.Sublist ns ∧ joined.Nodup ∧ (∀ n ∈ joined, n ∉ s.ring k c) ∧
      t.ring k c = (s.ring k c).filter (fun m => decide (m ∉ ns ∨ m ∈ t.ring k c)) ++ joined) ∧
  ∀ m, t.entry? m = (s.entry? m).map fun e =>
    if m ∈ ns ∧ t.inSomeRing m = false then { e with deficit := 0 } else e

/-- Lanes that were LIVE leave the live sets, as one change (R143, R151): each view that holds one of them is re-based once. What is left of
its shares is announced anew and split over the weights the directory then holds, over the live lanes that stay and are not excluded.
The rings of the streams of those views follow. -/
def LanesRebased (leaving : List NodeLane) (s t : State) : Prop :=
  let holds := fun v : View => v.live.any fun x => leaving.contains x.lane
  t.views = s.views.map (fun v =>
    if holds v then
      let remaining := (v.live.map fun x => x.share - x.claimed).sum
      let stay := v.live.filter fun x => !leaving.contains x.lane
      { v with
        announced := remaining,
        live := stay.map fun x => { x with
          claimed := 0,
          share := if x.excluded then 0
            else splitPart t.weightOf remaining ((stay.filter fun y => !y.excluded).map (·.lane)) x.lane } }
    else v) ∧
  RingsFollow ((s.views.filter holds).map (·.entry)) s t

/-- The head of the notices `q` is in the transmit holder, void count 0, the rest in the queue; the place that freed goes to the LANE
notice of the lowest lane with an owed mark, which is cleared (R131, R137, R139). `b` is the bus before. -/
def HolderFilled (b : Bus) (q : List Notice) (s t : State) : Prop :=
  ∃ owed, t.bus = { b with holder := q.head?, voidCount := 0, queue := q.tail ++ owed } ∧
    ((∀ k, (s.lane k).owed = false) → owed = [] ∧ ∀ k, (t.lane k).owed = false) ∧
    ∀ l, (s.lane l).owed = true → (∀ k, k < l → (s.lane k).owed = false) →
      owed = [.lane l (s.laneState l) (s.lane l).health.weight] ∧ (t.lane l).owed = false ∧
        ∀ k, k ≠ l → (t.lane k).owed = (s.lane k).owed

/-- What becomes of an offered notice (R137, R138, R139): declined while the chip is not ACTIVE; in the place of a queued one of the
same kind; declined at a full queue, where the LANE notice of lane `owes` leaves an owed mark; or at the tail of the queue, from
whose head an empty holder is filled. -/
def NoticeOffered (same : Notice → Bool) (owes : Option LaneNo) (note : Notice) (s t : State) : Prop :=
  (s.bus.state ≠ .active → t.bus = s.bus ∧ ∀ k, (t.lane k).owed = (s.lane k).owed) ∧
  (s.bus.state = .active →
    ((∃ x ∈ s.bus.queue, same x = true) →
      t.bus = { s.bus with queue := s.bus.queue.map fun x => if same x then note else x } ∧
        ∀ k, (t.lane k).owed = (s.lane k).owed) ∧
    ((∀ x ∈ s.bus.queue, same x = false) →
      (64 ≤ s.bus.queue.length → t.bus = s.bus ∧ ∀ k, (t.lane k).owed = ((s.lane k).owed || owes == some k)) ∧
      (s.bus.queue.length < 64 →
        (s.bus.holder.isSome = true → t.bus = { s.bus with queue := s.bus.queue ++ [note] } ∧
          ∀ k, (t.lane k).owed = (s.lane k).owed) ∧
        (s.bus.holder = none → HolderFilled s.bus (s.bus.queue ++ [note]) s t))))

/-- What a skipped interval, or the start of a RAMP build, from slice `start` on makes of a channel (R8, R102, R105). Of a RUNNING channel
of the lane every carried due is a miss and goes; then each due in the interval is one miss and moves the next due on by a period, as long
as the channel may make the request: it is endless or has count left. Every other channel stays. -/
def IntervalMissed (l : LaneNo) (start : Slice) (planLength : Nat) (c d : Channel) : Prop :=
  (c.state ≠ .running ∨ c.lane ≠ l → d = c) ∧
  (c.state = .running → c.lane = l → ∃ j ≤ 2 ^ 24,
    d = { c with
      carried := [], misses := min (c.misses + c.carried.length + j) 65535,
      nextDue := c.nextDue.map fun x => sliceAdd x (j * c.period) } ∧
    (c.nextDue = none → j = 0) ∧
    ∀ x, c.nextDue = some x →
      (∀ i < j, (c.initial = 0 ∨ 0 < c.count) ∧ dueOffset start (sliceAdd x (i * c.period)) < planLength) ∧
      (j < 2 ^ 24 → ¬((c.initial = 0 ∨ 0 < c.count) ∧ dueOffset start (sliceAdd x (j * c.period)) < planLength)))

/-- A heard CLAIM joins the claim list of a view, from `claims` to `claims'` (R148 step 1, R149): expired claims leave, from a list that
still holds 16 the one of earliest end tick besides, the oldest among equals, and the claim is the tail. -/
def ClaimJoined (now : Tick) (claim : Claim) (claims claims' : List Claim) : Prop :=
  let kept := claims.filter fun c => countAfter c.endTick now
  let time := fun c : Claim => (c.endTick - now).toNat
  (kept.length < 16 → claims' = kept ++ [claim]) ∧
  (16 ≤ kept.length → ∃ older old newer, kept = older ++ old :: newer ∧ claims' = older ++ newer ++ [claim] ∧
    (∀ c ∈ older, time old < time c) ∧ (∀ c ∈ newer, time old ≤ time c))

/-- What the entry of lane `l` to RAMP, with the next plan start `start`, makes of a channel (R110): of a RUNNING channel of the lane the
next due moves, with no miss, to the first slice of its form that is not before the start. Every other channel stays. -/
def DuesMoved (l : LaneNo) (start : Slice) (c d : Channel) : Prop :=
  (c.state ≠ .running ∨ c.lane ≠ l → d = c) ∧
  (c.state = .running → c.lane = l → d = { c with nextDue := d.nextDue } ∧ (c.nextDue = none → d.nextDue = none) ∧
    ∀ x, c.nextDue = some x → ∀ j < 2 ^ 24, countBefore (sliceAdd x (j * c.period)) start = false →
      (∀ i < j, countBefore (sliceAdd x (i * c.period)) start = true) → d.nextDue = some (sliceAdd x (j * c.period)))

/-- Lane `l` enters RAMP from DARK (R3, R5, R81, R110, R127, R139, R164); `s` holds the enable, carrier and weight it has then. The
message and the notice come first; the next plan start is one lead ahead, and the lane PENDING; the join countdown, the ramp counters and
the maintenance countdowns of the lane's BASIC and ADMITTED stations are 0; the dues of its RUNNING channels move. -/
def RampEntered (l : LaneNo) (cause : LaneCause) (s t : State) : Prop :=
  let start := sliceAdd (s.lane l).slice s.params.lead
  t.lane l = { s.lane l with
    nextPlanStart := some start, buildState := .pending, deferred := false, joinCountdown := 0, owed := (t.lane l).owed,
    health := { (s.lane l).health with state := .ramp, floor := 0, goodProbes := 0, rampBuilds := 0 } } ∧
  (∀ k, k ≠ l → t.lane k = { s.lane k with owed := (t.lane k).owed }) ∧
  t.port = { s.port with
    statusQueue := s.port.statusQueue ++ [.laneState l .ramp cause].take (32 - s.port.statusQueue.length),
    overflow := s.port.overflow || decide (32 ≤ s.port.statusQueue.length) } ∧
  NoticeOffered (Notice.forLane l) (some l) (.lane l .ramp (s.lane l).health.weight)
    (modHealth l (fun h => { h with state := .ramp }) s) t ∧
  t.table = s.table.map (fun e =>
    if e.served = true ∧ e.isStation = true ∧ e.place = .home l then
      { e with alignment := e.alignment.map fun a => { a with maintenance := some 0 } }
    else e) ∧
  (∃ f, t.channels = s.channels.map f ∧ ∀ c ∈ s.channels, DuesMoved l start c (f c)) ∧
  t = { s with lanes := t.lanes, port := t.port, bus := t.bus, table := t.table, channels := t.channels }

/-- The chip enters MUTE, from `s` to `t` (R134): nothing is in holder or queue, no LANE notice is owed, BUS_STATE is queued, every view is
cleared but for epoch and announced demand, and the streams of the views leave their rings. -/
def Muted (cause : MuteCause) (s t : State) : Prop :=
  t.bus = { s.bus with state := .mute cause, holder := none, queue := [], voidCount := 0, sending := false,
                       clashSeen := false, reader := .counting 0, mutedAt := s.nodeTime } ∧
  (∀ l, t.lane l = { s.lane l with rings := (t.lane l).rings, owed := false }) ∧
  t.views = s.views.map (fun v => { v with
    live := [], claims := [], own := v.own.map fun o => { o with pending := 0, waits := 0, sent := false } }) ∧
  (s.port.statusQueue.length < 32 →
    t.port = { s.port with statusQueue := s.port.statusQueue ++ [.busState (some cause)] }) ∧
  RingsFollow (s.views.map (·.entry)) s t ∧
  t = { s with bus := t.bus, port := t.port, views := t.views, table := t.table, lanes := t.lanes }

/-- The streams that are retired with a stream: itself and the BASIC or ADMITTED children of its entry (R36). -/
def State.retiring (s : State) (e : Stream) : List Stream :=
  e :: s.table.filter fun c => c.parent == e.entry && c.entry != e.entry && c.served

/-- What a retirement of the stream `e`, from `s` to `t`, does (R36, R37, R111, R117, R126). -/
structure Retired (cause : RetireCause) (e : Stream) (s t : State) : Prop where
  /-- Each stream retired with it is CLOSING with no demand and no deficit, its marks and countdowns gone, its turn list kept; a station's
  probe out and maintenance countdown go besides (R36, R126). -/
  closed : ∀ c ∈ s.retiring e, ∀ d, t.entry? c.entry = some d → d = { c with
    state := .closing, demand := 0, deficit := 0, quiet := false, noShow := 0, retry := 0, pollCountdown := none,
    admitCountdown := none,
    alignment := if c.isStation && !c.isSpread then c.alignment.map fun a => { a with probeOut := none, maintenance := none }
      else c.alignment }
  /-- A child with an empty turn list is FREE at once, and the stream itself when its list is empty and, of a station, no child is
  left (R37). -/
  freed : (∀ c ∈ s.retiring e, c.entry ≠ e.entry → (t.entry? c.entry = none ↔ c.turns = [])) ∧
    (t.entry? e.entry = none ↔ e.turns = [] ∧
      (e.isStation = true → ∀ c ∈ s.table, c.parent = e.entry → c.entry ≠ e.entry → c.served = true ∧ c.turns = []))
  /-- Every other entry stays as it is. -/
  others : ∀ m, (∀ c ∈ s.retiring e, c.entry ≠ m) → t.entry? m = s.entry? m
  /-- They leave every ring; the others keep their places (R36). -/
  rings : ∀ k c, t.ring k c = (s.ring k c).filter fun m => !(s.retiring e).any fun d => d.entry == m
  /-- A tag leaves the map with the entry that becomes FREE and stays in it otherwise; a FREE station's tag is in the pool (R37). -/
  tags : (∀ c ∈ s.retiring e, t.entry? c.entry = none → t.lookupTag c.tag = none) ∧
    (∀ tag, (∀ c ∈ s.retiring e, c.tag = tag → t.entry? c.entry ≠ none) → t.lookupTag tag = s.lookupTag tag) ∧
    (t.entry? e.entry = none → e.isStation = true → t.pool = insertBy id e.tag s.pool) ∧
    (t.entry? e.entry ≠ none ∨ e.isStation = false → t.pool = s.pool)
  /-- A station's address leaves the station index (R36). -/
  address : t.stationIndex = if e.isStation then s.stationIndex.filter fun p => p.2 != e.entry else s.stationIndex
  /-- The views of the spread ones are removed (R36, R144). -/
  views : t.views = s.views.filter fun v => !(s.retiring e).any fun c => c.isSpread && c.tag == v.tag
  /-- Their channels are closed, with no handover (R111). -/
  channels : t.channels = s.channels.filter fun x => !(s.retiring e).any fun c => c.tag == x.tag
  /-- The messages: CADENCE_ENDED(RETIRED) for each channel of each of them, in the order of the list of channels, which is that of their
  numbers; then RETIRED for each that becomes FREE, a child before its station. What finds the status queue full is dropped, with OVERFLOW
  (R36, R37, R111, R187). -/
  messages : let said := ((s.retiring e).flatMap fun c => (s.channels.filter fun x => x.tag == c.tag).map fun x =>
        Message.cadenceEnded x.number c.tag .retired) ++
      (((s.retiring e).drop 1 ++ [e]).filter fun c => (t.entry? c.entry).isNone).map fun c => Message.retired c.tag
    t.port = { s.port with
      statusQueue := s.port.statusQueue ++ said.take (32 - s.port.statusQueue.length),
      overflow := s.port.overflow || decide (32 - s.port.statusQueue.length < said.length) }
  /-- A station leaves the provisional list of its lane; its waiting correction is discarded after a rejoin, left after a failure, a loss or
  a lane DARK, and is an ABORT otherwise, in the place of a waiting one or at the tail (R117, R126). -/
  lanes : ∀ k, t.lane k = { s.lane k with
    rings := (t.lane k).rings,
    provisional := if e.isStation && e.homedOn k then (s.lane k).provisional.filter fun x => x != e.tag
      else (s.lane k).provisional,
    corrections := if e.isStation && e.homedOn k then
        let waiting := (s.lane k).corrections
        let abort : Correction := { tag := e.tag, status := .abort, timing := 0, power := 0 }
        match cause with
        | .rejoin => waiting.filter fun c => c.tag != e.tag
        | .failure | .laneDown => waiting
        | .order | .admitExpiry | .parent =>
          if ∃ c ∈ waiting, c.tag = e.tag then waiting.map fun c => if c.tag = e.tag then abort else c else waiting ++ [abort]
      else (s.lane k).corrections }
  /-- The build in flight stays, but for the marks of removed views and of freed entries. -/
  build : t.builder.map (fun b => { b with marks := [], reloaded := [] }) =
    s.builder.map fun b => { b with marks := [], reloaded := [] }
  /-- Nothing else changes. -/
  frame : t = { s with table := t.table, tagMap := t.tagMap, stationIndex := t.stationIndex, pool := t.pool,
                       channels := t.channels, builder := t.builder, views := t.views, lanes := t.lanes, port := t.port }

end Sys2Proof.Machine
end

