-- ==== Sys2Proof/WellFormed.lean ====
section
/-! DEFINITION. The checks on the operands of a command: the ranges that the wires, records and frames of the spec can carry.
The meanings are total and do not rest on these checks. -/

namespace Sys2Proof

/-- An entry number of the Stream Table (2.1). -/
def entryOk (n : Nat) : Bool := decide (n < Config.entries)

/-- A view index (8.5). -/
def viewOk (n : Nat) : Bool := decide (n < Config.views)

/-- A boot read that is answered gives 340 bytes (R197). -/
def imageOk (image : Option (List Byte)) : Bool :=
  match image with
  | some bytes => decide (bytes.length = Config.imageBytes)
  | none => true

/-- A frame runs from its first arbitration bit through its void slot (8.1). -/
def frameOk (bits : List Bool) : Bool :=
  decide (bits.length = 24 + Machine.bodyLength (Machine.framePriority bits))

/-- A rival that begins with the chip drives at least its arbitration field (8.1). -/
def rivalOk : Rival → Bool
  | .begins bits => decide (bits.length ≥ 5)
  | .midFrame _ => true

/-- The operands of a command are within what its wires can carry. -/
def Instr.wf : Instr → Bool
  | .fullReset _ => true
  | .bootReadComplete image => imageOk image
  | .ready => true
  | .nodeTimeChange _ => true
  | .buildPoint _ => true
  | .cutDeadline _ => true
  | .buildStart => true
  | .cadenceRequest => true
  | .probePlacement => true
  | .joinRegion => true
  | .minimumOpenRegion => true
  | .poll => true
  | .drrVisit => true
  | .leftoverOpenRegion => true
  | .buildCompletion => true
  | .admitCountdownExpiry n => entryOk n
  | .rampTimeout _ => true
  | .releaseWait i _ => viewOk i
  | .take => true
  | .marginPoint _ => true
  | .recordArrival _ w => decide (Machine.recordType w ≠ 4)
  | .carrierRecord _ w => decide (Machine.recordType w = 4)
  | .demandReport _ => true
  | .burstOutcome _ => true
  | .unknownRecordType _ => true
  | .joinArrival _ => true
  | .outcomeWaitExpiry n _ _ => entryOk n
  | .probeDeadline n => entryOk n
  | .frameTransmitStart _ rivals => decide (rivals.length ≤ 7) && rivals.all rivalOk
  | .frameDelivery bits => frameOk bits
  | .frameVoided bits => frameOk bits
  | .peerSilence _ => true
  | .muteRecovery => true
  | .refresh => true
  | .admitOrder _ f => !Machine.admitMalformed f
  | .amend _ _ => true
  | .retire _ _ => true
  | .cadenceOpen _ _ => true
  | .cadenceClose _ _ => true
  | .laneUp _ _ _ => true
  | .laneDown _ _ => true
  | .readStream _ selector _ => !Machine.selectorMalformed selector
  | .readNext _ => true
  | .readCadence _ _ => true
  | .readLane _ _ _ => true
  | .readPeers _ => true
  | .fetchStatus _ => true
  | .status _ _ => true
  | .orderBadFormat frame => Machine.orderMalformed frame
  | .replyTransaction _ => true

/-- A command is well-formed. -/
abbrev WellFormed (i : Instr) : Prop := i.wf = true

end Sys2Proof
end

