-- ==== Sys2Proof/Certificates/Slice0/Obligations.lean ====
section
/-! DEFINITION. The statements for the provers. A frame is written `t = { s with f := t.f, … }`: every field of the state that is not
named is as it was. A docstring that names a log entry says which clause is the model's own choice. -/

section

open Sys2Proof Sys2Proof.Machine

/-! ### The queue, reset, start-up and time -/

/-- Log 1: one step runs the command at the front of the queue with the queue's rest; on an empty queue the chip idles. -/
def Obligations.StepRunsFrontCommand : Prop :=
  ∀ s : State, (∀ (c : Instr) (rest : List Instr), s.pending = c :: rest → step s = exec c { s with pending := rest }) ∧
    (s.pending = [] → step s = .next s)

/-- R190 and the reset rules of every block: what a full reset leaves. The model's own choices among these values: the node time
input is not reset and the commands that wait are outside the chip (log 1, log 3); the station on the bus has read no recessive bit
(log 24); the minimum starts of the backoff pairs are those of the default parameters (log 4). -/
def Obligations.FullResetLeavesResetValues : Prop :=
  ∀ (p : PeerNo) (s : State), ∃ t, exec (.fullReset p) s = .next t ∧ t.boot.startup = .loading ∧ t.boot.peerId = p ∧
    t.boot.bootClamped = false ∧ t.port.holder = .empty ∧ t.port.statusQueue = [] ∧ t.port.overflow = false ∧
    t.port.summary = false ∧ t.port.cursor = 4095 ∧ attention t = false ∧ t.table = [] ∧ t.tagMap = [] ∧
    t.stationIndex = [] ∧ t.pool = Config.stationTags p ∧ t.channels = [] ∧ t.builder = none ∧ t.views = [] ∧
    t.bus.state = .listenOnly ∧ t.bus.clash = false ∧ t.bus.queue = [] ∧ t.bus.holder = none ∧ t.bus.voidCount = 0 ∧
    t.bus.reader = .counting 0 ∧ t.bus.peers[p.val] = .self ∧
    (∀ q : PeerNo, q ≠ p → t.bus.peers[q.val] = .absent) ∧ (∀ n : NodeLane, t.bus.lanes[n.val] = none) ∧
    (∀ l, (t.lane l).slice = 0 ∧ (t.lane l).sub = 0 ∧ (t.lane l).planNo = 0 ∧ (t.lane l).nextPlanStart = none ∧
      (t.lane l).buildState = .idle ∧ (t.lane l).deferred = false ∧ (t.lane l).sizing = none ∧ (t.lane l).outQueue = none ∧
      (t.lane l).joinCountdown = 0 ∧ (t.lane l).fifo = [] ∧ (t.lane l).carrier = .absent ∧ (t.lane l).provisional = [] ∧
      (t.lane l).corrections = [] ∧ (t.lane l).owed = false ∧ (∀ c, t.ring l c = []) ∧
      t.laneState l = .dark ∧ (t.lane l).health.enable = false ∧ (t.lane l).health.carrier = .absent ∧
      (t.lane l).health.floor = 0 ∧
      (t.lane l).health.openPair = { first := t.params.health.openMin, last := t.params.health.openMin } ∧
      (t.lane l).health.joinPair = { first := t.params.health.joinMin, last := t.params.health.joinMin } ∧
      (t.lane l).health.openCount = 0 ∧ (t.lane l).health.joinCount = 0 ∧ (t.lane l).health.damageCount = 0 ∧
      (t.lane l).health.emptyCount = 0 ∧
      (t.lane l).health.readings =
        { backlog := 65535, openCollisions := 65535, joinCollisions := 65535, damage := 65535, empty := 65535 } ∧
      (t.lane l).health.flags = 0 ∧ (t.lane l).health.goodProbes = 0 ∧ (t.lane l).health.rampBuilds = 0) ∧
    t.nodeTime = s.nodeTime ∧ t.pending = s.pending

/-- R41, R174, R175, R176: a readable image starts LISTENING and fills the tables of the fitted lanes; a boot memory that does not answer,
or an unreadable image, sends the chip to HALTED, in which no carrier state stands, and changes nothing else. The boot-clamped mark counts
the fields of lanes that are not fitted too, and no derived value: the model's choice (log 20). -/
def Obligations.BootReadListensOrHalts : Prop :=
  ∀ s : State, s.boot.startup = .loading →
    (∀ image : List Byte, imageReadable image = true →
      ∃ t, exec (.bootReadComplete (some image)) s = .next t ∧ t.boot.startup = .listening ∧
        t.boot.listenStart = s.nodeTime ∧ t.boot.params = bootParams image ∧ t.boot.bootClamped = imageClamped image ∧
        t.boot.peerId = s.boot.peerId ∧
        (∀ l : LaneNo, (bootParams image).fitted[l.val] = true →
          (t.lane l).sizing = some (bootSizing image l) ∧
          (t.lane l).sliceLength = (rangeLane (rawLane image l)).sliceLength ∧
          (t.lane l).health.weight = (rangeLane (rawLane image l)).weight ∧ (t.lane l).carrier = (s.lane l).carrier ∧
          (t.lane l).slice = (s.lane l).slice) ∧
        t = { s with boot := t.boot, lanes := t.lanes }) ∧
    (∀ image : Option (List Byte), (∀ bytes, image = some bytes → imageReadable bytes = false) →
      ∃ t, exec (.bootReadComplete image) s = .next t ∧ t.boot = { s.boot with startup := .halted } ∧
        (∀ l, t.lane l = { s.lane l with carrier := .absent }) ∧ t = { s with boot := t.boot, lanes := t.lanes })

/-- R173, R174, R157: after the clamps every bound of the timeline and between the limits holds. -/
def Obligations.BootClampsHold : Prop :=
  ∀ p : Params, 256 ≤ (clampParams p).planLength ∧ (clampParams p).planLength ≤ 4096 ∧
    64 ≤ (clampParams p).lead ∧ (clampParams p).lead ≤ (clampParams p).planLength ∧
    16 ≤ (clampParams p).cut ∧ (clampParams p).cut ≤ (clampParams p).lead ∧
    8 ≤ (clampParams p).margin ∧ (clampParams p).margin ≤ (clampParams p).cut / 2 ∧
    64 ≤ (clampParams p).quantum ∧ (clampParams p).quantum ≤ 16384 ∧ (clampParams p).quantum % 64 = 0 ∧
    (∃ l : LaneNo, (clampParams p).fitted[l.val] = true) ∧
    (clampParams p).health.backlogLow ≤ (clampParams p).health.backlogHigh ∧
    (clampParams p).health.openLow < (clampParams p).health.openHigh ∧
    (clampParams p).health.joinLow < (clampParams p).health.joinHigh

/-- R177, R41, R133, R134, R139, R161: one silence limit after LISTENING began the chip is READY, on the bus ACTIVE, or MUTE(ID_CLASH) when
a clash was recorded, with its BUS_STATE message in the status queue; the slice counters stand where they are. On the entry to ACTIVE a
LANE notice of every fitted lane is offered, in rising order, with the state and weight it holds: the first in the holder, the others in
the queue. A fitted lane whose carrier state stands at PRESENT is seen with carrier by the Lane Health Unit; a lane at ABSENT is handed
nothing. Enable being off no lane ramps, no other message follows, and lanes change in no more than that carrier, owed marks and, by the
views that a mute clears, rings. The premises (no notice, no owed mark, no lane enabled) hold from reset to READY. -/
def Obligations.ReadyActivatesOrMutes : Prop :=
  ∀ s : State, s.boot.startup = .listening →
    countReached (tickAdd s.boot.listenStart (s.params.silenceMs * 20000)) s.nodeTime = true →
    s.port.statusQueue.length < 32 →
    ∃ t, exec .ready s = .next t ∧ t.boot = { s.boot with startup := .ready } ∧
      t.bus.state = (if s.bus.clash then BusState.mute .idClash else BusState.active) ∧
      (∃ more, t.port.statusQueue =
        s.port.statusQueue ++ (Message.busState (if s.bus.clash then some .idClash else none) :: more)) ∧
      (s.bus.clash = false → t.bus.refreshAt = s.nodeTime) ∧
      (s.bus.clash = false → s.bus.holder = none → s.bus.queue = [] →
        (∀ l, (s.lane l).owed = false ∧ (s.lane l).health.enable = false) →
        let notices := s.fittedLanes.map fun l => Notice.lane l (s.laneState l) (s.lane l).health.weight
        t.bus = { s.bus with
          state := .active, refreshAt := s.nodeTime, refreshNext := s.fittedLanes.headD 0, holder := notices.head?,
          queue := notices.tail, voidCount := if notices = [] then s.bus.voidCount else 0 } ∧
        ∀ l, (t.lane l).owed = false) ∧
      ((∀ l, (s.lane l).health.enable = false) →
        (∀ l, t.lane l = { s.lane l with
          rings := (t.lane l).rings, owed := (t.lane l).owed,
          health := { (s.lane l).health with
            carrier := if s.fitted l = true ∧ (s.lane l).carrier = .present then .present else (s.lane l).health.carrier } }) ∧
        t.port = { s.port with
          statusQueue := s.port.statusQueue ++ [.busState (if s.bus.clash then some .idClash else none)] } ∧
        (s.bus.clash = false → t.views = s.views ∧ t.table = s.table ∧ ∀ l, (t.lane l).rings = (s.lane l).rings) ∧
        (s.bus.clash = true →
          t.bus = { s.bus with state := .mute .idClash, holder := none, queue := [], voidCount := 0, sending := false,
                               clashSeen := false, mutedAt := s.nodeTime } ∧
          (∀ l, (t.lane l).owed = false) ∧
          t.views = s.views.map (fun v => { v with
            live := [], claims := [], own := v.own.map fun o => { o with pending := 0, waits := 0, sent := false } }) ∧
          RingsFollow (s.views.map (·.entry)) s t) ∧
        t = { s with boot := t.boot, bus := t.bus, port := t.port, lanes := t.lanes, views := t.views, table := t.table }) ∧
      (∀ l, (t.lane l).slice = (s.lane l).slice ∧ (t.lane l).sub = (s.lane l).sub) ∧ t.nodeTime = s.nodeTime

/-- R1: a change by d, from 1 to 2^31 - 1, is d advances of one, made one after another; each advance performs first what is due (log
5), one step after another until none is due, in the model's order (log 6), and is then one tick. A change by any other difference
leaves the counters standing, and performs nothing (log 40). -/
def Obligations.NodeTimeChangeAdvancesOrJumps : Prop :=
  ∀ s : State,
    (∀ d : Nat, 1 ≤ d → d ≤ 2 ^ 31 - 1 →
      exec (.nodeTimeChange (s.nodeTime + BitVec.ofNat 32 d)) s = .next (advance d s) ∧
        advance d s = advance (d - 1) (tickOnce (settle settleFuel s)) ∧
        (dueStep s = none → advance d s = advance (d - 1) (tickOnce s)) ∧
        (∀ u, dueStep s = some u → settle settleFuel s = settle (settleFuel - 1) u)) ∧
    (∀ v : Tick, ¬(1 ≤ (v - s.nodeTime).toNat ∧ (v - s.nodeTime).toNat ≤ 2 ^ 31 - 1) →
      exec (.nodeTimeChange v) s = .next { s with nodeTime := v })

/-- R2: one tick on the counters of every lane: those of a fitted lane run in READY, with the sub-slice count wrapping at the
slice length; every other lane's stand, and nothing else changes. -/
def Obligations.TickMovesSliceCounters : Prop :=
  ∀ (s : State) (l : LaneNo), (tickOnce s).lane l =
      (if s.boot.startup = .ready ∧ s.fitted l = true then
        (if (s.lane l).sub + 1 ≥ (s.lane l).sliceLength then
          { s.lane l with sub := 0, slice := (s.lane l).slice + 1 }
        else { s.lane l with sub := (s.lane l).sub + 1 })
      else s.lane l) ∧
    tickOnce s = { s with nodeTime := s.nodeTime + 1, lanes := (tickOnce s).lanes }

/-! ### Builds and plans -/

/-- R5: at its build point an IDLE lane that is not DARK becomes PENDING; a BUILDING lane at the next build point sets its
deferred mark. Nothing else changes. -/
def Obligations.BuildPointQueuesOrDefers : Prop :=
  ∀ (l : LaneNo) (n : Slice) (s : State), (s.lane l).nextPlanStart = some n → s.laneState l ≠ .dark →
    ((s.lane l).buildState = .idle → countReached (sliceSub n s.params.lead) (s.lane l).slice = true →
      exec (.buildPoint l) s = .next (modLane l (fun L => { L with buildState := .pending }) s)) ∧
    ((s.lane l).buildState = .building → (s.lane l).deferred = false →
      countReached (sliceSub (sliceAdd n s.params.planLength) s.params.lead) (s.lane l).slice = true →
      exec (.buildPoint l) s = .next (modLane l (fun L => { L with deferred := true }) s))

/-- R8, R105: a PENDING lane at its cut deadline skips its interval: IDLE, the next plan start up by P, PLAN_SKIPPED and the summary
set; only the channels besides change: of each RUNNING channel of the lane the carried dues and the dues of the interval are missed
(`IntervalMissed`), every other stays. -/
def Obligations.CutDeadlineSkipsInterval : Prop :=
  ∀ (l : LaneNo) (n : Slice) (s : State), (s.lane l).buildState = .pending → (s.lane l).nextPlanStart = some n →
    countReached (sliceSub n s.params.cut) (s.lane l).slice = true →
    ∃ t, exec (.cutDeadline l) s = .next t ∧
      t.lane l = { s.lane l with
        buildState := .idle, nextPlanStart := some (sliceAdd n s.params.planLength),
        health := { (s.lane l).health with flags := (s.lane l).health.flags ||| 4 } } ∧
      t.port = { s.port with summary := true } ∧ (∀ k, k ≠ l → t.lane k = s.lane k) ∧
      (∀ c ∈ s.channels, c.state ≠ .running ∨ c.lane ≠ l → c ∈ t.channels) ∧
      (∃ f, t.channels = s.channels.map f ∧ ∀ c ∈ s.channels, IntervalMissed l n s.params.planLength c (f c)) ∧
      t = { s with lanes := t.lanes, channels := t.channels, port := t.port }

/-- R6, R7, R76, R105: with the builder free, no follow-up of a completion waiting (log 9) and a lane chosen, that lane is PENDING with
a cut deadline, in node time, no later than any PENDING lane's, and lower than its equals; its build starts with the values the lane
holds. A LIVE build leaves the cadence channels as they are; a RAMP build counts as having begun step 1, and misses the carried dues and
the dues of its interval of each RUNNING channel of the lane (`IntervalMissed`). -/
def Obligations.BuildStartTakesEarliestLane : Prop :=
  ∀ (l : LaneNo) (n : Slice) (s : State), s.builder = none → s.followUps = false → s.arbiterChoice = some l →
    (s.lane l).nextPlanStart = some n →
    (s.lane l).buildState = .pending ∧
    (∀ k, (s.lane k).buildState = .pending →
      s.ticksToCut l ≤ s.ticksToCut k ∧ (s.ticksToCut l = s.ticksToCut k → l ≤ k)) ∧
    ∃ t b, exec .buildStart s = .next t ∧ t.builder = some b ∧ b.lane = l ∧ b.start = n ∧
      b.planNo = (s.lane l).planNo ∧ b.laneState = s.laneState l ∧ b.openPair = (s.lane l).health.openPair ∧
      b.joinPair = (s.lane l).health.joinPair ∧ b.startTick = s.nodeTime ∧ b.placed = [] ∧
      b.gaps = [{ start := 0, length := s.params.planLength }] ∧
      t.lane l = { s.lane l with buildState := .building } ∧ (∀ k, k ≠ l → t.lane k = s.lane k) ∧
      (s.laneState l ≠ .ramp → t.channels = s.channels ∧ b.step = 0) ∧
      (s.laneState l = .ramp → b.step = 1 ∧
        ∃ f, t.channels = s.channels.map f ∧ ∀ c ∈ s.channels, IntervalMissed l n s.params.planLength c (f c)) ∧
      t = { s with builder := t.builder, lanes := t.lanes, channels := t.channels }

/-- R73, R74, R75, R77, R78, R79, R102, R103, R104: a cadence request with a stream and a window position that fits is PLACED at the
earliest such position: its slices leave the free map, the turn joins the placed list and the tail of the stream's turn list, whose
oldest entry leaves a list of 8; the channel's count falls by 1 unless it is endless, its last turn is the turn's start, the request is
gone (a carried due leaves the carried dues, a due one moves the next due on by a period), and the final turn of a counted channel makes
it DRAINING with the final mark. A due request that fits nowhere and whose window with its turn reaches past the interval's end is
CARRIED, while the channel carries fewer than 32. A request that is late, met after the entry limit, without a stream, or that fits
nowhere and may not be carried, is MISSED. Carried or missed, nothing is placed. -/
def Obligations.CadenceRequestPlacedOrMissed : Prop :=
  ∀ (b : Build) (r : CadenceReq) (s : State), s.builder = some b → s.mayEnter b 1 = true → s.nextCadence b = some r →
    let due := dueOffset b.start r.due
    let turn := fun e : Stream => wholeTurn (s.lane b.lane).table (e.profile b.lane) r.channel.payload
    let fits := fun e : Stream => b.gaps.findSome? (Gap.fit due r.channel.jitter (turn e).1)
    let carries := fun e : Stream =>
      r.carried = false ∧ (s.params.planLength : Int) < due + r.channel.jitter + (turn e).1 ∧ r.channel.carried.length < 32
    let answered := fun (f : Channel → Channel) (t : State) =>
      t.channels = s.channels.map fun c => if c.number == r.channel.number then f c else c
    let gone : Channel → Channel := fun c =>
      if r.carried then { c with carried := c.carried.erase r.due }
      else { c with nextDue := c.nextDue.map fun d => sliceAdd d c.period }
    let unplaced := fun t : State => t.builder.map (·.placed) = some b.placed ∧ t.builder.map (·.gaps) = some b.gaps ∧
      t = { s with channels := t.channels, builder := t.builder }
    ((b.placed.length ≥ 240 ∨ (r.carried = false ∧ due < 0) ∨ s.cadenceStream b r.channel = none ∨
        (∃ e, s.cadenceStream b r.channel = some e ∧ fits e = none ∧ ¬carries e)) →
      ∃ t, exec .cadenceRequest s = .next t ∧ unplaced t ∧
        answered (fun c => { gone c with misses := min (c.misses + 1) 65535 }) t) ∧
    (∀ e : Stream, b.placed.length < 240 → 0 ≤ due → s.cadenceStream b r.channel = some e → fits e = none → carries e →
      ∃ t, exec .cadenceRequest s = .next t ∧ unplaced t ∧
        answered (fun c => { gone c with carried := c.carried ++ [r.due] }) t) ∧
    (∀ (e : Stream) (off : Nat), b.placed.length < 240 → (r.carried = true ∨ 0 ≤ due) → s.cadenceStream b r.channel = some e →
      fits e = some off →
      ∃ t e', exec .cadenceRequest s = .next t ∧
        answered (fun c =>
          let count := if c.initial = 0 then c.count else c.count - 1
          let final := decide (c.initial ≠ 0 ∧ count = 0)
          { gone c with
            count := count, lastTurn := some (sliceAdd b.start off), state := if final then .draining else c.state,
            finalMark := if final then some { planNo := b.planNo, start := sliceAdd b.start off, due := r.due }
              else c.finalMark }) t ∧
        t.builder.map (·.placed) = some (b.placed ++
          [{ tag := e.tag, kind := .cadence, offset := off, length := (turn e).1, profile := e.profile b.lane,
             payload := (turn e).2 }]) ∧
        t.builder.map (·.gaps) = some (takeSlices off (turn e).1 b.gaps) ∧
        t.entry? e.entry = some e' ∧
        e'.turns = (if e.turns.length ≥ 8 then e.turns.drop 1 else e.turns) ++
          [{ lane := b.lane, planNo := b.planNo, kind := .cadence, start := sliceAdd b.start off, length := (turn e).1,
             payload := (turn e).2, stale := false, channel := some r.channel.number }] ∧
        e' = { e with turns := e'.turns } ∧ (∀ n, n ≠ e.entry → t.entry? n = s.entry? n) ∧
        t = { s with channels := t.channels, builder := t.builder, table := t.table })

/-- R73, R80, R118, R28: a probe within the cap that finds a gap is placed in the first gap that holds it, its slices leave the free
map, its probe total is counted, its PROBE entry is at the tail of the station's turn list, whose oldest entry leaves a list of 8, and
its probe out recorded; failing either, the step stops and nothing else changes. -/
def Obligations.ProbePlacedOrStepStops : Prop :=
  ∀ (b : Build) (tag : Nat) (e : Stream) (s : State), s.builder = some b → s.mayEnter b 2 = true →
    s.nextProbe b = some tag → s.byTag tag = some e →
    (∀ g, b.probeTotal + s.params.probeLength ≤ s.params.planLength / 4 → b.room s.params.probeLength = some g →
      ∃ t e', exec .probePlacement s = .next t ∧
        t.builder.map (·.placed) = some (b.placed ++
          [{ tag := tag, kind := .probe, offset := g.start, length := s.params.probeLength, profile := 0, payload := 0 }]) ∧
        t.builder.map (·.gaps) = some (takeSlices g.start s.params.probeLength b.gaps) ∧
        t.builder.map (·.probeTotal) = some (b.probeTotal + s.params.probeLength) ∧ t.entry? e.entry = some e' ∧
        e'.turns = (if e.turns.length ≥ 8 then e.turns.drop 1 else e.turns) ++
          [{ lane := b.lane, planNo := b.planNo, kind := .probe, start := sliceAdd b.start g.start,
             length := s.params.probeLength, payload := 0, stale := false, channel := none }] ∧
        e'.alignment = e.alignment.map (fun a => { a with
          probeOut := some { planNo := b.planNo, lane := b.lane, start := sliceAdd b.start g.start,
                             stop := sliceAdd (sliceAdd b.start g.start) s.params.probeLength } }) ∧
        e' = { e with turns := e'.turns, alignment := e'.alignment } ∧ (∀ n, n ≠ e.entry → t.entry? n = s.entry? n) ∧
        t = { s with builder := t.builder, table := t.table }) ∧
    (b.probeTotal + s.params.probeLength > s.params.planLength / 4 ∨ b.room s.params.probeLength = none →
      exec .probePlacement s = .next { s with builder := some { b with step := 2, probeStopped := true } })

/-- R73, R81, R82: at a join countdown of 0 a JOIN region goes to the start of the first gap that holds it, its slices leave the free map,
and the countdown takes the join interval; with no room nothing is placed and the countdown stays. -/
def Obligations.JoinRegionPlacedOrTriedAgain : Prop :=
  ∀ (b : Build) (s : State), s.builder = some b → s.mayEnter b 3 = true → (s.lane b.lane).joinCountdown = 0 →
    b.joinTried = false →
    ∃ t, exec .joinRegion s = .next t ∧ t = { s with builder := t.builder, lanes := t.lanes } ∧
      (∀ k, k ≠ b.lane → t.lane k = s.lane k) ∧
      (∀ g, b.room s.params.joinLength = some g →
        t.builder.map (·.placed) = some (b.placed ++
          [{ tag := 16382, kind := .joinRegion, offset := g.start, length := s.params.joinLength, profile := 0,
             payload := 0 }]) ∧
        t.builder.map (·.gaps) = some (takeSlices g.start s.params.joinLength b.gaps) ∧
        t.lane b.lane = { s.lane b.lane with joinCountdown := s.params.joinInterval }) ∧
      (b.room s.params.joinLength = none → t.builder.map (·.placed) = some b.placed ∧ t.builder.map (·.gaps) = some b.gaps ∧
        t.lanes = s.lanes)

/-- R73, R83: the minimum OPEN region goes to the start of the first gap of Omin slices, which leave the free map; with no room
OPEN_SQUEEZED and the summary are set. -/
def Obligations.MinimumOpenPlacedOrSqueezed : Prop :=
  ∀ (b : Build) (s : State), s.builder = some b → s.mayEnter b 4 = true → b.openTried = false →
    s.laneState b.lane ≠ .dark →
    ∃ t, exec .minimumOpenRegion s = .next t ∧
      (∀ g, b.room s.params.omin = some g →
        t.builder.map (·.placed) = some (b.placed ++
          [{ tag := 16383, kind := .openRegion, offset := g.start, length := s.params.omin, profile := 0, payload := 0 }]) ∧
        t.builder.map (·.gaps) = some (takeSlices g.start s.params.omin b.gaps) ∧ t = { s with builder := t.builder }) ∧
      (b.room s.params.omin = none → t.builder.map (·.placed) = some b.placed ∧ t.builder.map (·.gaps) = some b.gaps ∧
        t.flag b.lane .openSqueezed = true ∧ t.port = { s.port with summary := true } ∧ (∀ k, k ≠ b.lane → t.lane k = s.lane k) ∧
        t = { s with builder := t.builder, lanes := t.lanes, port := t.port })

/-- R94: a leftover OPEN region fills the whole of the first gap of at least Omin slices. -/
def Obligations.LeftoverRegionFillsGap : Prop :=
  ∀ (b : Build) (g : Gap) (s : State), s.builder = some b → s.mayEnter b 7 = true → b.room s.params.omin = some g →
    exec .leftoverOpenRegion s = .next { s with builder := some { b with
      step := 7, gaps := takeSlices g.start g.length b.gaps,
      placed := b.placed ++
        [{ tag := 16383, kind := .openRegion, offset := g.start, length := g.length, profile := 0, payload := 0 }] } }

/-- R73, R84, R85: before the entry limit, a stream with demand and no quiet mark is skipped with its countdown reloaded; one to be polled
with room in its turn list gets a POLL turn in the first gap that holds it, whose slices leave the free map, and its countdown
reloaded. With no gap, or no room in its list, nothing is placed and the countdown stays at 0. -/
def Obligations.PollSkippedOrPlaced : Prop :=
  ∀ (b : Build) (e : Stream) (s : State), s.builder = some b → s.mayEnter b 5 = true → s.nextPoll b = some e →
    (e.demand > 0 → e.quiet = false → b.placed.length < 240 →
      ∃ t, exec .poll s = .next t ∧ t.builder.map (·.placed) = some b.placed ∧ t.builder.map (·.gaps) = some b.gaps ∧
        t.table = s.table.map (fun x =>
          if x.entry == e.entry then { x with pollCountdown := some (reloadValue s.params x) } else x) ∧
        t = { s with builder := t.builder, table := t.table }) ∧
    (∀ g, (e.demand = 0 ∨ e.quiet = true) → e.listHasRoom = true →
      b.room ((s.lane b.lane).table.poll (e.profile b.lane)) = some g →
      ∃ t, exec .poll s = .next t ∧
        t.builder.map (·.placed) = some (b.placed ++
          [{ tag := e.tag, kind := .poll, offset := g.start, length := (s.lane b.lane).table.poll (e.profile b.lane),
             profile := e.profile b.lane, payload := 8 }]) ∧
        t.builder.map (·.gaps) = some (takeSlices g.start ((s.lane b.lane).table.poll (e.profile b.lane)) b.gaps) ∧
        t.table = s.table.map (fun x =>
          if x.entry == e.entry then
            { x with
              pollCountdown := some (reloadValue s.params x),
              turns := x.turns ++ [{ lane := b.lane, planNo := b.planNo, kind := .poll, start := sliceAdd b.start g.start,
                                     length := (s.lane b.lane).table.poll (e.profile b.lane), payload := 8, stale := false,
                                     channel := none }] }
          else x) ∧
        t = { s with builder := t.builder, table := t.table }) ∧
    ((e.demand = 0 ∨ e.quiet = true) →
      (e.listHasRoom = false ∨ b.room ((s.lane b.lane).table.poll (e.profile b.lane)) = none) →
      exec .poll s = .next { s with builder := some { b with step := 5, pollFrom := e.entry + 1 } })

/-- R73, R87, R88, R89, R90, R91: at a visit to the head of a ring, an ineligible stream goes to the tail with no quantum and nothing is
placed; an eligible stream without a place takes its quantum and goes to the tail; an eligible stream with a place for its grantable
amount gets one DATA turn, whose slices leave the free map, and its deficit, after its quantum, falls by the payload, or is 0 with the
stream then in no ring. A long turn sets its hold-until on the lane, the hold gap after the turn's end. A stream still to be served
goes to the tail of the ring, one that is not leaves it; the others keep their places. A non-spread stream's outstanding demand falls by
the payload. R92: a spread stream's own pending on the lane rises by it, its view is marked in the build, and a CLAIM of it joins a
matching queued CLAIM or the queue. -/
def Obligations.VisitRotatesOrPlacesData : Prop :=
  ∀ (b : Build) (d : DataStep) (i : Fin 6) (e : Stream) (rest : List Nat) (s : State), s.builder = some b →
    s.mayEnter b 6 = true → s.nextVisit b = some d → d.cls = i.val + 1 → (s.lane b.lane).ring i = e.entry :: rest →
    s.entry? e.entry = some e →
    (s.eligible e b.lane = false → (∀ m ∈ rest, m ≠ e.entry) →
      ∃ t, exec .drrVisit s = .next t ∧ (t.lane b.lane).ring i = rest ++ [e.entry] ∧
        t.builder.map (·.placed) = some b.placed ∧ t.builder.map (·.gaps) = some b.gaps ∧
        (∀ k, k ≠ b.lane → t.lane k = s.lane k) ∧
        t = { s with builder := t.builder, lanes := t.lanes }) ∧
    (s.eligible e b.lane = true →
      (mayPlace (min e.withQuantum (s.available e b.lane)) ((s.lane b.lane).table.fragment (e.profile b.lane))
          (s.available e b.lane) = false ∨
        dataPlace (s.lane b.lane).table (e.profile b.lane) (min e.withQuantum (s.available e b.lane))
          (b.gaps.filterMap (Gap.after (searchFrom b e))) = none) →
      ∃ t, exec .drrVisit s = .next t ∧ t.entry? e.entry = some { e with deficit := min (e.deficit + e.quantum) (4 * e.quantum) } ∧
        (t.lane b.lane).ring i = rest.filter (· != e.entry) ++ [e.entry] ∧ (∀ j, j ≠ i → (t.lane b.lane).ring j = (s.lane b.lane).ring j) ∧
        t.builder.map (·.placed) = some b.placed ∧ t.builder.map (·.gaps) = some b.gaps ∧
        (∀ n, n ≠ e.entry → t.entry? n = s.entry? n) ∧ (∀ k, k ≠ b.lane → t.lane k = s.lane k) ∧
        t = { s with builder := t.builder, lanes := t.lanes, table := t.table }) ∧
    (∀ off len payload, s.eligible e b.lane = true → e.place = .home b.lane →
      mayPlace (min e.withQuantum e.demand) ((s.lane b.lane).table.fragment (e.profile b.lane)) e.demand = true →
      dataPlace (s.lane b.lane).table (e.profile b.lane) (min e.withQuantum e.demand)
        (b.gaps.filterMap (Gap.after (searchFrom b e))) = some (off, len, payload) →
      ∃ t e', exec .drrVisit s = .next t ∧ t.entry? e.entry = some e' ∧ e'.demand = e.demand - payload ∧
        e'.turns = e.turns ++ [{ lane := b.lane, planNo := b.planNo, kind := .data, start := sliceAdd b.start off, length := len,
                                 payload := payload, stale := false, channel := none }] ∧
        e'.deficit = (if t.inSomeRing e.entry then e.withQuantum - payload else 0) ∧
        e' = { e with demand := e'.demand, deficit := e'.deficit, turns := e'.turns, hold := e'.hold } ∧
        e'.hold = (if s.params.longTurn ≤ len ∧ 0 < s.params.holdGap then
            e.hold.set b.lane.val (some (sliceAdd (sliceAdd (sliceAdd b.start off) len) s.params.holdGap))
          else e.hold) ∧
        (t.lane b.lane).ring i = rest.filter (· != e.entry) ++
          (if e.served = true ∧ e.cls = d.cls ∧ 0 < e'.demand then [e.entry] else []) ∧
        (∀ k c, (t.ring k c).filter (· != e.entry) = (s.ring k c).filter (· != e.entry)) ∧
        (∀ k, t.lane k = { s.lane k with rings := (t.lane k).rings }) ∧
        t.builder.map (·.gaps) = some (takeSlices off len b.gaps) ∧
        t.builder.map (·.placed) = some (b.placed ++
          [{ tag := e.tag, kind := .data, offset := off, length := len, profile := e.profile b.lane, payload := payload }]) ∧
        (∀ n, n ≠ e.entry → t.entry? n = s.entry? n) ∧
        t = { s with builder := t.builder, lanes := t.lanes, table := t.table }) ∧
    (∀ off len payload v set i k, s.eligible e b.lane = true → e.place = .spread set i → s.viewOf e.tag = some v →
      k = tickOfSlice s.nodeTime (s.lane b.lane) (sliceAdd (sliceAdd (sliceAdd b.start off) len) s.params.outcomeWait) →
      mayPlace (min e.withQuantum (allowance s.boot.peerId v b.lane)) ((s.lane b.lane).table.fragment (e.profile b.lane))
        (allowance s.boot.peerId v b.lane) = true →
      dataPlace (s.lane b.lane).table (e.profile b.lane) (min e.withQuantum (allowance s.boot.peerId v b.lane))
        (b.gaps.filterMap (Gap.after (searchFrom b e))) = some (off, len, payload) →
      ∃ t e' b', exec .drrVisit s = .next t ∧ t.entry? e.entry = some e' ∧ t.builder = some b' ∧
        e'.turns = e.turns ++ [{ lane := b.lane, planNo := b.planNo, kind := .data, start := sliceAdd b.start off, length := len,
                                 payload := payload, stale := false, channel := none }] ∧
        e'.deficit = (if t.inSomeRing e.entry then e.withQuantum - payload else 0) ∧
        e' = { e with deficit := e'.deficit, turns := e'.turns, hold := e'.hold } ∧
        e'.hold = (if s.params.longTurn ≤ len ∧ 0 < s.params.holdGap then
            e.hold.set b.lane.val (some (sliceAdd (sliceAdd (sliceAdd b.start off) len) s.params.holdGap))
          else e.hold) ∧
        (v.entry = e.entry → t.ring b.lane d.cls = rest.filter (· != e.entry) ++
          (if e.served = true ∧ e.cls = d.cls ∧ 0 < t.allowanceOf e b.lane then [e.entry] else [])) ∧
        (v.entry = e.entry → ∀ k c, (t.ring k c).filter (· != e.entry) = (s.ring k c).filter (· != e.entry)) ∧
        (∀ k, t.lane k = { s.lane k with rings := (t.lane k).rings, owed := (t.lane k).owed }) ∧
        b'.gaps = takeSlices off len b.gaps ∧
        b'.placed = b.placed ++
          [{ tag := e.tag, kind := .data, offset := off, length := len, profile := e.profile b.lane, payload := payload }] ∧
        v.index ∈ b'.marks ∧
        t.viewOf e.tag = some { v with
          own := v.own.map fun o => if o.lane = b.lane then { o with pending := o.pending + payload } else o } ∧
        (∀ tag, tag ≠ e.tag → t.viewOf tag = s.viewOf tag) ∧
        (∀ bytes old, .claim e.tag v.epoch (s.nodeLane b.lane) bytes old ∈ s.bus.queue →
          .claim e.tag v.epoch (s.nodeLane b.lane) (min (bytes + payload) 1048575) (laterTick old k) ∈ t.bus.queue) ∧
        ((∀ bytes old, .claim e.tag v.epoch (s.nodeLane b.lane) bytes old ∉ s.bus.queue) →
          .claim e.tag v.epoch (s.nodeLane b.lane) payload k ∈ t.bus.holder.toList ++ t.bus.queue) ∧
        (∀ n, n ≠ e.entry → n ≠ v.entry → t.entry? n = s.entry? n) ∧
        t = { s with builder := t.builder, lanes := t.lanes, table := t.table, views := t.views, bus := t.bus })

/-- R9, R10, R16, R95, R19, R26, R81, R91, R124, R154, R167, R168, R169, R170: a completion that does not end a ramp: up to 16 corrections
ride on the plan, the plan is queued with its placed turns in order of start slice, the plan number rises by 1 and the next plan start by
P, the lane is IDLE, or PENDING when deferred, and the builder is free. The join countdown falls by 1 unless step 3 set it; on the streams
homed on the lane the poll countdown falls unless this build reloaded that entry's (one that went and came anew after the reload does not
fall: the model's choice, log 46), as do the admit countdown of a BASIC station and the maintenance countdown; a hold-until of any stream
on the lane that is not after the new next plan start goes. The release-wait count of a view on the lane is 0 after a build that placed
something for it, else it rises while there is an allowance. A RAMP or LIVE lane is evaluated: its readings are the backlog and the four
counts, the floor of a LIVE lane moves by the backlog, the open pair by the open count and the join pair by the join count, the counts are
0 again, and a flag and the summary are set for each limit passed. Other lanes stay, and so does all else of the lane, slice counters,
rings and FIFO among it. The model's choices: a release wait that is reached stands in releaseDue, and RELEASE is offered, and
STATION_LOST sent for an admit countdown that reached 0, by commands of their own after the completion, not in it (log 9); the evaluation
comes before them (log 27). A completion after the margin point of its own interval does all this, and then its plan lapses at once: it
leaves the queue and its turns are unwound as at a margin point (`MarginPointLapsesPlan`; in order of start slice: log 13), with
PLAN_LAPSED and the summary; plan number, next plan start and build state stay as the completion left them. -/
def Obligations.CompletionQueuesPlan : Prop :=
  ∀ (b : Build) (s : State), s.builder = some b → s.mayEnter b 8 = true → s.endsRamp b = false →
    ∃ t plan, (s.completesLate b = false → exec .buildCompletion s = .next t) ∧
      (s.completesLate b = true → ∃ u f, exec .buildCompletion s = .next u ∧
        f = plan.turns.foldl (fun x w => unwindTurn b.lane plan.planNo plan.start w x)
          (modLane b.lane (fun L => { L with outQueue := none }) t) ∧
        u.builder = none ∧ u.flag b.lane .planLapsed = true ∧ u.port.summary = true ∧
        u.lane b.lane = { t.lane b.lane with
          outQueue := none, rings := (u.lane b.lane).rings,
          health := { (t.lane b.lane).health with flags := (t.lane b.lane).health.flags ||| 2 } } ∧
        (u.lane b.lane).rings = (f.lane b.lane).rings ∧ (∀ k, k ≠ b.lane → u.lane k = f.lane k) ∧
        u.channels = f.channels.map (fun c =>
          if c.state = .draining ∧ c.lane = b.lane ∧ c.finalMark.map (·.planNo) = some plan.planNo then
            { c with state := .running, count := 1, finalMark := none, misses := min (c.misses + 1) 65535 }
          else c) ∧
        u = { f with lanes := u.lanes, channels := u.channels, port := { f.port with summary := true } }) ∧
      t.builder = none ∧ (t.lane b.lane).outQueue = some plan ∧
      plan.planNo = b.planNo ∧ plan.start = b.start ∧ plan.length = s.params.planLength ∧ plan.laneState = b.laneState ∧
      plan.openPair = b.openPair ∧ plan.joinPair = b.joinPair ∧
      plan.corrections = (s.lane b.lane).corrections.take 16 ∧ plan.turns.Perm b.placed ∧
      plan.turns.Pairwise (fun x y => x.offset ≤ y.offset) ∧
      (t.lane b.lane).corrections = (s.lane b.lane).corrections.drop 16 ∧
      (t.lane b.lane).planNo = (s.lane b.lane).planNo + 1 ∧
      (t.lane b.lane).nextPlanStart = (s.lane b.lane).nextPlanStart.map (fun n => sliceAdd n s.params.planLength) ∧
      (t.lane b.lane).buildState = (if (s.lane b.lane).deferred then BuildState.pending else BuildState.idle) ∧
      (t.lane b.lane).deferred = false ∧ (∀ k, k ≠ b.lane → t.lane k = s.lane k) ∧
      t.lane b.lane = { s.lane b.lane with
        outQueue := (t.lane b.lane).outQueue, corrections := (t.lane b.lane).corrections, planNo := (t.lane b.lane).planNo,
        nextPlanStart := (t.lane b.lane).nextPlanStart, buildState := (t.lane b.lane).buildState,
        deferred := (t.lane b.lane).deferred, joinCountdown := (t.lane b.lane).joinCountdown, health := (t.lane b.lane).health } ∧
      (t.lane b.lane).joinCountdown =
        (if b.joinSet then (s.lane b.lane).joinCountdown else (s.lane b.lane).joinCountdown - 1) ∧
      t.table = s.table.map (fun e => { e with
        pollCountdown := if e.homedOn b.lane = true ∧ e.entry ∉ b.reloaded then e.pollCountdown.map (· - 1) else e.pollCountdown,
        admitCountdown := if e.homedOn b.lane = true ∧ e.state = .basic then e.admitCountdown.map (· - 1) else e.admitCountdown,
        alignment := if e.homedOn b.lane = true then e.alignment.map (fun a => { a with maintenance := a.maintenance.map (· - 1) })
          else e.alignment,
        hold := if e.hold[b.lane.val].any (fun h => !countAfter h (sliceAdd b.start s.params.planLength)) = true then
          e.hold.set b.lane.val none else e.hold }) ∧
      t.views = s.views.map (fun v => { v with
        own := v.own.map fun o =>
          if o.lane = b.lane then
            if v.index ∈ b.marks then { o with waits := 0 }
            else if 0 < allowance s.boot.peerId v b.lane then { o with waits := min (o.waits + 1) 15 }
            else o
          else o }) ∧
      (∀ d, d ∈ t.releaseDue ↔ d ∈ s.releaseDue ∨ d.2 = b.lane ∧ ∃ v ∈ t.views, ∃ o, v.index = d.1 ∧ v.own? b.lane = some o ∧
        s.params.releaseWait ≤ o.waits ∧ o.sent = false ∧ 0 < allowance s.boot.peerId v b.lane) ∧
      (let h := (s.lane b.lane).health
       let lim := s.params.health
       let backlog := min ((((s.table.filter fun e => e.homedOn b.lane).map (·.demand)).sum +
         ((s.views.filter fun v => v.set.contains (s.nodeLane b.lane)).map fun v =>
           allowance s.boot.peerId v b.lane).sum) / 1024) 65535
       (s.laneState b.lane = .dark → (t.lane b.lane).health = h ∧ t.port = s.port) ∧
       (s.laneState b.lane ≠ .dark →
         (t.lane b.lane).health = { h with
           rampBuilds := if s.laneState b.lane = .ramp then min (h.rampBuilds + 1) 255 else h.rampBuilds,
           readings := { backlog := backlog, openCollisions := h.openCount, joinCollisions := h.joinCount,
                         damage := h.damageCount, empty := h.emptyCount },
           floor := if s.laneState b.lane = .live ∧ backlog > lim.backlogHigh then min (h.floor + 1) 5
             else if s.laneState b.lane = .live ∧ backlog < lim.backlogLow then h.floor - 1
             else h.floor,
           openPair := h.openPair.moved lim.openHigh lim.openLow lim.openMin h.openCount,
           joinPair := h.joinPair.moved lim.joinHigh lim.joinLow lim.joinMin h.joinCount,
           openCount := 0, joinCount := 0, damageCount := 0, emptyCount := 0,
           flags := h.flags ||| (if backlog > lim.backlogHigh then 1024 else 0) ||| (if h.openCount ≥ lim.openHigh then 512 else 0)
             ||| (if h.joinCount ≥ lim.joinHigh then 256 else 0) ||| (if h.damageCount > lim.damageLimit then 128 else 0)
             ||| (if h.emptyCount > lim.emptyLimit then 64 else 0) } ∧
         (t.port.summary = true ↔ s.port.summary = true ∨ backlog > lim.backlogHigh ∨ h.openCount ≥ lim.openHigh ∨
           h.joinCount ≥ lim.joinHigh ∨ h.damageCount > lim.damageLimit ∨ h.emptyCount > lim.emptyLimit))) ∧
      t.port = { s.port with summary := t.port.summary } ∧
      t = { s with builder := none, lanes := t.lanes, table := t.table, views := t.views, releaseDue := t.releaseDue,
                   port := t.port }

/-- R13, R14, R101, R106, R192: the plan output port answers a word index with that word of the offered plan: two header words, its
corrections in queue order and its turns in order, each of the fields of 11.2 from the most significant bit on; with zeros past the plan's
last word, and at every index while no plan is offered. The offered plan is one of earliest margin point, the lower lane among equals;
with no plan offered a take has no effect. A take removes the plan from its queue, and each DRAINING channel of the lane whose final mark
holds the plan's number ends its round with CADENCE_ENDED(COUNT): STOP makes it IDLE, and the first STANDBY channel of its tag and lane
enters RUNNING; RELOAD makes it RUNNING with its initial count, its final mark gone and as next due the first slice of the form final due
+ k x period, k from 1, that is not before the lane's horizon. Nothing else changes. The channels, at most one of them RUNNING or DRAINING
for each tag and lane, stand in number order, and the rounds end in that order: the model's choice (log 35). On a DARK lane there is no
horizon, and a form that meets no condition takes its first due: the model's choices (logs 19, 39). -/
def Obligations.TakeRemovesOfferedPlan : Prop :=
  (∀ (before after : List (Nat × Nat)) (width value : Nat), ((before ++ (width, value) :: after).map (·.1)).sum = 64 →
    (packWord (before ++ (width, value) :: after)).toNat / 2 ^ (after.map (·.1)).sum % 2 ^ width = value % 2 ^ width) ∧
  (∀ (s : State) (i : Nat), (s.offered = none → s.planPortWord i = 0) ∧
    ∀ l p, s.offered = some l → (s.lane l).outQueue = some p →
      s.planPortWord 0 = packWord [(5, (s.nodeLane l).val), (2, l.val), (16, p.planNo.toNat), (24, p.start.toNat), (13, p.length),
        (1, if p.laneState = .live then 1 else 0), (3, 0)] ∧
      s.planPortWord 1 = packWord [(4, p.openPair.first), (4, p.openPair.last), (4, p.joinPair.first), (4, p.joinPair.last),
        (5, p.corrections.length), (8, p.turns.length), (35, 0)] ∧
      (∀ c, p.corrections[i]? = some c → s.planPortWord (2 + i) = packWord [(14, c.tag), (2, match c.status with
        | .cont => 0 | .done => 1 | .abort => 2), (14, (BitVec.ofInt 14 c.timing).toNat), (6, (BitVec.ofInt 6 c.power).toNat),
        (28, 0)]) ∧
      (∀ w, p.turns[i]? = some w → s.planPortWord (2 + p.corrections.length + i) = packWord [(14, w.tag), (3, match w.kind with
        | .data => 0 | .poll => 1 | .cadence => 2 | .probe => 3 | .openRegion => 4 | .joinRegion => 5), (12, w.offset),
        (13, w.length), (2, w.profile), (16, w.payload), (4, 0)]) ∧
      (2 + p.corrections.length + p.turns.length ≤ i → s.planPortWord i = 0)) ∧
  ∀ s : State, (s.offered = none → exec .take s = .next s) ∧
    (∀ l p, s.offered = some l → (s.lane l).outQueue = some p →
      (∀ k, (s.lane k).outQueue.isSome = true →
        s.ticksToMargin l ≤ s.ticksToMargin k ∧ (s.ticksToMargin l = s.ticksToMargin k → l ≤ k)) ∧
      ((∀ c ∈ s.channels, c.finalIn l p.planNo = false) →
        exec .take s = .next (modLane l (fun L => { L with outQueue := none }) s)) ∧
      (let ends := s.channels.filter fun c =>
        c.state == .draining && c.lane == l && c.finalMark.any fun m => m.planNo == p.planNo
       let said := ends.map fun c => Message.cadenceEnded c.number c.tag .count
       let next := fun c : Channel => s.channels.find? fun d => d.state == .standby && d.tag == c.tag && d.lane == c.lane
       ∃ t, exec .take s = .next t ∧ (t.lane l) = { s.lane l with outQueue := none } ∧ (∀ k, k ≠ l → t.lane k = s.lane k) ∧
        t.port = { s.port with
          statusQueue := s.port.statusQueue ++ said.take (32 - s.port.statusQueue.length),
          overflow := s.port.overflow || decide (32 - s.port.statusQueue.length < said.length) } ∧
        (s.channelsOk = true →
          (∀ c ∈ ends, c.endAction = .stop → t.channel? c.number = none ∧
            ∀ d, next c = some d →
              t.channel? d.number = some { d with state := .running, nextDue := some (takeoverDue s c d) }) ∧
          (∀ c ∈ ends, c.endAction = .reload → ∀ m, c.finalMark = some m →
            ∃ due, t.channel? c.number = some { c with
                state := .running, count := c.initial, finalMark := none, nextDue := some due } ∧
              (s.horizon l = none → due = sliceAdd m.due c.period) ∧
              ∀ h, s.horizon l = some h → ∀ j < 2 ^ 24, countBefore (sliceAdd m.due ((j + 1) * c.period)) h = false →
                (∀ i < j, countBefore (sliceAdd m.due ((i + 1) * c.period)) h = true) →
                due = sliceAdd m.due ((j + 1) * c.period)) ∧
          (∀ k, (∀ c ∈ ends, c.number ≠ k ∧ (c.endAction = .stop → ∀ d, next c = some d → d.number ≠ k)) →
            t.channel? k = s.channel? k)) ∧
        t = { s with lanes := t.lanes, channels := t.channels, port := t.port }))

/-- R15, R16, R29, R108: a queued plan at its margin point lapses: it leaves its queue, PLAN_LAPSED and the summary are set; plan
number, next plan start, build state and corrections stay. Its turns are unwound one after another (in order of start slice: log 13),
and then its plan number brings every DRAINING channel that still holds it in its final mark back to RUNNING with count 1 and a miss.
The second part is the unwinding of one turn: with no entry held it is passed over; else its entry leaves the list, and of a stream
that is not CLOSING an EDGE DATA payload goes back to the demand, and the stream into its ring; a PROBE's probe out is cleared; a
CADENCE turn that belongs to its channel is missed and its count restored. A CLOSING stream gets nothing back and, if it is no
station, is FREE once its list is empty. -/
def Obligations.MarginPointLapsesPlan : Prop :=
  (∀ (l : LaneNo) (p : Plan) (s : State), (s.lane l).outQueue = some p →
    countReached (sliceSub p.start s.params.margin) (s.lane l).slice = true →
    ∃ t f, exec (.marginPoint l) s = .next t ∧
      f = p.turns.foldl (fun u w => unwindTurn l p.planNo p.start w u) (modLane l (fun L => { L with outQueue := none }) s) ∧
      (t.lane l).outQueue = none ∧ t.flag l .planLapsed = true ∧ t.port.summary = true ∧
      t.lane l = { s.lane l with
        outQueue := none, rings := (t.lane l).rings,
        health := { (s.lane l).health with flags := (s.lane l).health.flags ||| 2 } } ∧
      (t.lane l).rings = (f.lane l).rings ∧ (∀ k, k ≠ l → t.lane k = f.lane k) ∧
      t.channels = f.channels.map (fun c =>
        if c.state = .draining ∧ c.lane = l ∧ c.finalMark.map (·.planNo) = some p.planNo then
          { c with state := .running, count := 1, finalMark := none, misses := min (c.misses + 1) 65535 }
        else c) ∧
      t = { f with lanes := t.lanes, channels := t.channels, port := { f.port with summary := true } } ∧
      t.views = s.views ∧ t.bus = s.bus ∧ t.boot = s.boot ∧ t.nodeTime = s.nodeTime) ∧
  (∀ (l : LaneNo) (pn : PlanNo) (planStart : Slice) (w : PlanTurn) (u : State),
    ((u.byTag w.tag).bind (·.entryOf l pn w.kind (sliceAdd planStart w.offset)) = none →
      unwindTurn l pn planStart w u = u) ∧
    (∀ (e : Stream) (x : Turn), u.byTag w.tag = some e → e.entryOf l pn w.kind (sliceAdd planStart w.offset) = some x →
      ∃ v, unwindTurn l pn planStart w u = v ∧
        v.channels = u.channels.map (fun c =>
          if w.kind = .cadence ∧ x.channel = some c.number ∧ c.tag = e.tag ∧ c.lane = l ∧
              countBefore pn c.openingPlan = false then
            (if c.state = .draining ∧
                c.finalMark.any (fun m => m.planNo == pn && m.start == sliceAdd planStart w.offset) = true then
              { c with state := .running, count := 1, finalMark := none, misses := min (c.misses + 1) 65535 }
            else
              { c with
                state := if c.state = .draining then .running else c.state,
                finalMark := if c.state = .draining then none else c.finalMark,
                count := if c.initial = 0 then c.count else c.count + 1, misses := min (c.misses + 1) 65535 })
          else c) ∧
        (e.state ≠ .closing → ∃ e', v.entry? e.entry = some e' ∧
          e'.turns = e.turns.filter (fun y => !(y.lane == l && y.start == sliceAdd planStart w.offset)) ∧
          (w.kind = .data ∧ e.served = true ∧ e.isSpread = false ∧ e.mode = .edge →
            e'.demand = min (e.demand + x.payload) 1048575 ∧
              e' = { e with turns := e'.turns, demand := e'.demand, deficit := e'.deficit } ∧
              (∀ h, e.place = .home h → 1 ≤ e.cls → e.cls ≤ 6 → 0 < e'.demand →
                e.entry ∈ v.ring h e.cls ∧ e'.deficit = e.deficit)) ∧
          (w.kind = .data ∧ ¬(e.served = true ∧ e.isSpread = false ∧ e.mode = .edge) ∨ w.kind ≠ .data ∧ w.kind ≠ .probe →
            e' = { e with turns := e'.turns } ∧ v.lanes = u.lanes) ∧
          (w.kind = .probe → e' = { e with turns := e'.turns, alignment := e'.alignment } ∧ v.lanes = u.lanes ∧
            e'.alignment = e.alignment.map (fun a =>
              if a.probeOut.any (fun o => o.lane == l && o.start == sliceAdd planStart w.offset) = true then
                { a with probeOut := none }
              else a)) ∧
          (∀ n, n ≠ e.entry → v.entry? n = u.entry? n) ∧
          (∀ k, v.lane k = { u.lane k with rings := (v.lane k).rings }) ∧
          v = { u with table := v.table, lanes := v.lanes, channels := v.channels }) ∧
        (e.state = .closing →
          (∀ e', v.entry? e.entry = some e' →
            e'.turns = e.turns.filter (fun y => !(y.lane == l && y.start == sliceAdd planStart w.offset)) ∧
              e'.demand = e.demand) ∧
          (e.parent ≠ e.entry →
            e.turns.filter (fun y => !(y.lane == l && y.start == sliceAdd planStart w.offset)) = [] →
            v.entry? e.entry = none))))

/-- R26, R36, R37, R111, R126: a BASIC station whose admit countdown has reached 0 is announced lost with cause NOT_ADMITTED and is
CLOSING, or already FREE, afterwards. It is then retired with its served children, as `Retired` says, in every state in which each entry
is found under its tag and has its station: demand and deficit 0, out of every ring and out of the station index, its channels closed
with CADENCE_ENDED(RETIRED), an ABORT correction for it. Of several children the messages stand in entry order: the model's choice (log
14). -/
def Obligations.AdmitExpiryRetiresStation : Prop :=
  ∀ (n : Nat) (e : Stream) (s : State), s.entry? n = some e → e.state = .basic → e.admitCountdown = some 0 →
    s.port.statusQueue.length < 32 →
    ∃ t more, exec (.admitCountdownExpiry n) s = .next t ∧
      t.port.statusQueue = s.port.statusQueue ++ (.stationLost e.tag .notAdmitted :: more) ∧
      (s.tagsOk = true → s.familiesOk = true → Retired .admitExpiry e { s with
        port := { s.port with statusQueue := s.port.statusQueue ++ [.stationLost e.tag .notAdmitted] } } t) ∧
      (∀ e', t.entry? n = some e' → e'.state = .closing) ∧ t.bus = s.bus ∧ t.boot = s.boot ∧ t.nodeTime = s.nodeTime

/-- R37, R56, R59, R119: an expiring entry of a stream that is not CLOSING, if it is no PROBE, is removed; no demand is restored and no
run or count changes. An expiring PROBE entry of such a stream is removed and handed over as EMPTY: where its lane and start slice are
those of the station's probe out, that is cleared and the result applied (`ProbeDeadlineCountsEmpty` says how); else nothing follows. An
expiring entry of a CLOSING stream is removed, whatever its kind, and the stream is FREE with RETIRED once its list is empty, a station
only when no child is left. An entry that has not come to its expiry stays. -/
def Obligations.ExpiryRemovesEntryOnly : Prop :=
  ∀ (n : Nat) (l : LaneNo) (x : Slice) (e : Stream) (u : Turn) (s : State), s.entry? n = some e → e.turnAt l x = some u →
    let due := countReached (sliceAdd u.stop s.params.outcomeWait) (s.lane u.lane).slice
    let kept := e.turns.filter fun v => !(v.lane == l && v.start == x)
    (due = false → exec (.outcomeWaitExpiry n l x) s = .next s) ∧
    (due = true → u.kind ≠ .probe → e.state ≠ .closing →
      ∃ t, exec (.outcomeWaitExpiry n l x) s = .next t ∧ t.entry? n = some { e with turns := kept } ∧
        (∀ m, m ≠ n → t.entry? m = s.entry? m) ∧ t = { s with table := t.table }) ∧
    (due = true → u.kind = .probe → e.state ≠ .closing →
      ∃ v e', v.entry? n = some e' ∧ e' = { e with turns := kept, alignment := e'.alignment } ∧
        (∀ m, m ≠ n → v.entry? m = s.entry? m) ∧ v = { s with table := v.table } ∧
        (∀ a p, e.alignment = some a → a.probeOut = some p → p.lane = l → p.start = x →
          e'.alignment = some { a with probeOut := none } ∧
          exec (.outcomeWaitExpiry n l x) s = .next (applyProbe n .empty 0 0 v)) ∧
        ((∀ a p, e.alignment = some a → a.probeOut = some p → p.lane ≠ l ∨ p.start ≠ x) →
          e'.alignment = e.alignment ∧ exec (.outcomeWaitExpiry n l x) s = .next v)) ∧
    (due = true → e.state = .closing →
      ∃ t, exec (.outcomeWaitExpiry n l x) s = .next t ∧
        (kept ≠ [] ∨ e.parent = n ∧ (∃ c ∈ s.table, c.parent = n ∧ c.entry ≠ n) →
          t.entry? n = some { e with turns := kept } ∧ (∀ m, m ≠ n → t.entry? m = s.entry? m) ∧ t = { s with table := t.table }) ∧
        (kept = [] → (e.parent = n → ∀ c ∈ s.table, c.parent = n → c.entry = n) →
          t.entry? n = none ∧ t.lookupTag e.tag = none ∧
          (s.port.statusQueue.length < 32 → ∃ more, t.port.statusQueue = s.port.statusQueue ++ (.retired e.tag :: more))) ∧
        t = { s with table := t.table, tagMap := t.tagMap, pool := t.pool, builder := t.builder, port := t.port })

/-- R56, R117, R119 to R126, R162, R164: probe results. A probe out at its deadline is cleared and an EMPTY result is applied (of a
PROVISIONAL station below both limits its two counts rise and nothing else follows); a delivered outcome of a PROBE entry is counted,
the entry removed, and its result applied where its lane and start slice are those of the probe out, which is cleared. The third part is
the result applied, to a PROVISIONAL station: GOOD within tolerance gives a DONE correction and a BASIC station in default service with
JOINED; GOOD outside it a CONTINUE correction; at the sixteenth attempt, or the fourth EMPTY in a row, an ABORT correction, JOIN_FAILED
with its cause, and retirement. The fourth part is the result applied to a BASIC or ADMITTED station: GOOD restarts the maintenance
countdown, with a CONTINUE correction outside tolerance; EMPTY counts and at the eighth gives an ABORT correction, STATION_LOST(SILENT)
and retirement with the served children; DAMAGED sets the count of EMPTY to 0. A GOOD probe is reported to the lane's health record: the
last part is that report. It counts on a RAMP lane alone, and at the ramp limit the lane is LIVE, its ramp counters kept, with
LANE_STATE(LIVE, RAMP_DONE) queued and a LANE notice offered. -/
def Obligations.ProbeDeadlineCountsEmpty : Prop :=
  let queued : Correction → List Correction → List Correction := fun c cs =>
    if ∃ d ∈ cs, d.tag = c.tag then cs.map fun d => if d.tag = c.tag then c else d else cs ++ [c]
  let back : Nat → CorrectionStatus → Int → Int → Correction := fun tag st timing power =>
    { tag := tag, status := st, timing := min (max (-timing) (-8191)) 8191, power := min (max (-power) (-24)) 24 }
  (∀ (n : Nat) (e : Stream) (a : Sys2Proof.Machine.Alignment) (p : ProbeOut) (l : LaneNo) (s : State), s.entry? n = some e →
    e.alignment = some a → a.probeOut = some p →
    (countReached (sliceAdd p.stop s.params.outcomeWait) (s.lane p.lane).slice = false → exec (.probeDeadline n) s = .next s) ∧
    (countReached (sliceAdd p.stop s.params.outcomeWait) (s.lane p.lane).slice = true →
      exec (.probeDeadline n) s =
        .next (applyProbe n .empty 0 0 (modAlignment n (fun a => { a with probeOut := none }) s)) ∧
      (e.state = .provisional → e.place = .home l → a.emptyRun < 3 → a.attempts < 15 →
        ∃ t, exec (.probeDeadline n) s = .next t ∧
          t.entry? n = some { e with alignment := some { a with
            probeOut := none, attempts := a.attempts + 1, emptyRun := a.emptyRun + 1 } } ∧
          (∀ m, m ≠ n → t.entry? m = s.entry? m) ∧ t = { s with table := t.table }))) ∧
  (∀ (l : LaneNo) (w : LaneRecord) (rest : List LaneRecord) (e : Stream) (a : Sys2Proof.Machine.Alignment) (u : Turn) (s : State),
    (s.lane l).fifo = w :: rest → recordType w = 2 → recordTag w < 16382 → s.byTag (recordTag w) = some e →
    e.turnAt l (outcomeStart w) = some u → u.kind = .probe → outcomeResult w ≠ .collided → e.state ≠ .closing →
    e.alignment = some a →
    ∃ v e', v.entry? e.entry = some e' ∧
      e' = { e with
        turns := e.turns.filter fun x => !(x.lane == l && x.start == u.start),
        noShow := if outcomeResult w = .good then 0 else e.noShow, retry := if outcomeResult w = .good then 0 else e.retry,
        alignment := e'.alignment } ∧
      (∀ n, n ≠ e.entry → v.entry? n = s.entry? n) ∧
      v.lane l = { s.lane l with
        fifo := rest,
        health := { (s.lane l).health with
          emptyCount := if outcomeResult w = .empty ∧ u.stale = false then min ((s.lane l).health.emptyCount + 1) 65535
            else (s.lane l).health.emptyCount,
          damageCount := if outcomeResult w = .damaged then min ((s.lane l).health.damageCount + 1) 65535
            else (s.lane l).health.damageCount } } ∧
      (∀ k, k ≠ l → v.lane k = s.lane k) ∧ v = { s with lanes := v.lanes, table := v.table } ∧
      (∀ p, a.probeOut = some p → p.lane = l → p.start = u.start → e'.alignment = some { a with probeOut := none } ∧
        exec (.burstOutcome l) s =
          .next (applyProbe e.entry (outcomeResult w) (outcomeTiming w) (outcomePower w) v)) ∧
      ((∀ p, a.probeOut = some p → p.lane ≠ l ∨ p.start ≠ u.start) → e'.alignment = some a ∧
        exec (.burstOutcome l) s = .next v)) ∧
  (∀ (n : Nat) (e : Stream) (a : Sys2Proof.Machine.Alignment) (l : LaneNo) (timing power : Int) (v : State), v.entry? n = some e →
    e.alignment = some a → e.place = .home l → e.state = .provisional →
    let tolerable := timing.natAbs ≤ v.params.timingTolerance ∧ power.natAbs ≤ v.params.powerTolerance
    let good : Sys2Proof.Machine.Alignment → Sys2Proof.Machine.Alignment := fun x =>
      { x with attempts := a.attempts + 1, emptyRun := 0, lastTiming := timing, lastPower := power }
    let measured := modAlignment n good v
    let failed : JoinFail → State → State → Prop := fun cause y t =>
      e.parent = n →
      (∀ x, e.address = some x → y.port.statusQueue.length < 32 →
        ∃ more, t.port.statusQueue = y.port.statusQueue ++ (.joinFailed x l cause :: more)) ∧
      (y.servedChildren n = [] →
        (t.lane l).corrections = queued (back e.tag .abort 0 0) (y.lane l).corrections) ∧
      e.tag ∉ (t.lane l).provisional ∧ (∀ e', t.entry? n = some e' → e'.state = .closing) ∧ t.bus = y.bus ∧
      t.boot = y.boot ∧ t.nodeTime = y.nodeTime
    (tolerable → ∃ t e', applyProbe n .good timing power v = t ∧ t.entry? n = some e' ∧
      e' = { e with
        state := .basic, cls := 1, mode := .edge, quantum := v.params.quantum, deficit := e'.deficit,
        profiles := e.profiles.set l.val 0, pollInterval := 0, pollCountdown := none, admitCountdown := some v.params.admitWait,
        alignment := some { good a with maintenance := some v.params.maintenancePeriod, maintenanceEmpty := 0 } } ∧
      (e.demand = 0 → e'.deficit = 0 ∧ ∀ k c, n ∉ t.ring k c) ∧
      (∀ k c, (t.ring k c).filter (· != n) = (v.ring k c).filter (· != n)) ∧
      t.lane l = { (reportProbe l measured).lane l with
        provisional := (v.lane l).provisional.filter (· != e.tag), corrections := queued (back e.tag .done timing power) (v.lane l).corrections,
        rings := (t.lane l).rings } ∧
      (∀ k, k ≠ l → t.lane k = { (reportProbe l measured).lane k with rings := (t.lane k).rings }) ∧
      (∀ x, e.address = some x → (reportProbe l measured).port.statusQueue.length < 32 →
        t.port = { (reportProbe l measured).port with
          statusQueue := (reportProbe l measured).port.statusQueue ++ [.joined e.tag x l] }) ∧
      (∀ m, m ≠ n → t.entry? m = v.entry? m) ∧
      t = { reportProbe l measured with lanes := t.lanes, table := t.table, port := t.port }) ∧
    (¬tolerable → a.attempts + 1 < 16 → ∃ t, applyProbe n .good timing power v = t ∧
      t.entry? n = some { e with alignment := some (good a) } ∧
      t.lane l = { (reportProbe l measured).lane l with corrections := queued (back e.tag .cont timing power) (v.lane l).corrections } ∧
      (∀ k, k ≠ l → t.lane k = (reportProbe l measured).lane k) ∧ t = { reportProbe l measured with lanes := t.lanes }) ∧
    (¬tolerable → 16 ≤ a.attempts + 1 →
      failed .noConverge (reportProbe l measured) (applyProbe n .good timing power v)) ∧
    (4 ≤ a.emptyRun + 1 → failed .silent v (applyProbe n .empty timing power v)) ∧
    (a.emptyRun + 1 < 4 → 16 ≤ a.attempts + 1 → failed .noConverge v (applyProbe n .empty timing power v)) ∧
    (16 ≤ a.attempts + 1 → failed .noConverge v (applyProbe n .damaged timing power v)) ∧
    (a.emptyRun + 1 < 4 → a.attempts + 1 < 16 → applyProbe n .empty timing power v =
      modAlignment n (fun x => { x with attempts := a.attempts + 1, emptyRun := a.emptyRun + 1 }) v) ∧
    (a.attempts + 1 < 16 → applyProbe n .damaged timing power v =
      modAlignment n (fun x => { x with attempts := a.attempts + 1, emptyRun := 0 }) v)) ∧
  (∀ (n : Nat) (e : Stream) (a : Sys2Proof.Machine.Alignment) (l : LaneNo) (timing power : Int) (v : State), v.entry? n = some e →
    e.alignment = some a → e.place = .home l → e.served = true →
    (∃ u, applyProbe n .good timing power v = reportProbe l u ∧
      u.entry? n = some { e with alignment := some { a with
        maintenanceEmpty := 0, lastTiming := timing, lastPower := power, maintenance := some v.params.maintenancePeriod } } ∧
      (∀ m, m ≠ n → u.entry? m = v.entry? m) ∧
      (timing.natAbs ≤ v.params.timingTolerance → power.natAbs ≤ v.params.powerTolerance → u.lanes = v.lanes) ∧
      (v.params.timingTolerance < timing.natAbs ∨ v.params.powerTolerance < power.natAbs →
        u.lane l = { v.lane l with corrections := queued (back e.tag .cont timing power) (v.lane l).corrections } ∧
        ∀ k, k ≠ l → u.lane k = v.lane k) ∧
      u = { v with table := u.table, lanes := u.lanes }) ∧
    (a.maintenanceEmpty + 1 < 8 → applyProbe n .empty timing power v =
      modAlignment n (fun x => { x with maintenanceEmpty := a.maintenanceEmpty + 1 }) v) ∧
    (8 ≤ a.maintenanceEmpty + 1 → ∃ t, applyProbe n .empty timing power v = t ∧
      (v.port.statusQueue.length < 32 →
        ∃ more, t.port.statusQueue = v.port.statusQueue ++ (.stationLost e.tag .silent :: more)) ∧
      (e.parent = n → v.servedChildren n = [] →
        (t.lane l).corrections = queued (back e.tag .abort 0 0) (v.lane l).corrections) ∧
      (∀ e', t.entry? n = some e' → e'.state = .closing) ∧
      (∀ c ∈ v.table, c.parent = n → c.served = true → ∀ c', t.entry? c.entry = some c' → c'.state = .closing) ∧
      t.bus = v.bus ∧ t.boot = v.boot ∧ t.nodeTime = v.nodeTime) ∧
    applyProbe n .damaged timing power v = modAlignment n (fun x => { x with maintenanceEmpty := 0 }) v) ∧
  (∀ (l : LaneNo) (v : State),
    let h := (v.lane l).health
    let note := Notice.lane l .live h.weight
    (v.laneState l ≠ .ramp → reportProbe l v = v) ∧
    (v.laneState l = .ramp → min (h.goodProbes + 1) 255 < v.params.health.rampLimit →
      reportProbe l v = modHealth l (fun h => { h with goodProbes := min (h.goodProbes + 1) 255 }) v) ∧
    (v.laneState l = .ramp → v.params.health.rampLimit ≤ min (h.goodProbes + 1) 255 →
      ∃ t, reportProbe l v = t ∧
        t.lane l = { v.lane l with
          health := { h with state := .live, goodProbes := min (h.goodProbes + 1) 255 }, owed := (t.lane l).owed } ∧
        (∀ k, k ≠ l → t.lane k = { v.lane k with owed := (t.lane k).owed }) ∧
        (v.port.statusQueue.length < 32 →
          t.port = { v.port with statusQueue := v.port.statusQueue ++ [.laneState l .live .rampDone] }) ∧
        (v.bus.state ≠ .active → t.bus = v.bus ∧ ∀ k, (t.lane k).owed = (v.lane k).owed) ∧
        (v.bus.state = .active →
          ((∃ x ∈ v.bus.queue, x.forLane l = true) →
            t.bus = { v.bus with queue := v.bus.queue.map fun x => if x.forLane l then note else x } ∧
            ∀ k, (t.lane k).owed = (v.lane k).owed) ∧
          ((∀ x ∈ v.bus.queue, x.forLane l = false) → 64 ≤ v.bus.queue.length →
            t.bus = v.bus ∧ (t.lane l).owed = true ∧ ∀ k, k ≠ l → (t.lane k).owed = (v.lane k).owed) ∧
          ((∀ x ∈ v.bus.queue, x.forLane l = false) → v.bus.queue.length < 64 →
            note ∈ t.bus.holder.toList ++ t.bus.queue ∧
            (v.bus.holder.isSome = true → t.bus = { v.bus with queue := v.bus.queue ++ [note] } ∧
              ∀ k, (t.lane k).owed = (v.lane k).owed))) ∧
        t = { v with lanes := t.lanes, port := t.port, bus := t.bus }))

/-! ### Lane health -/

/-- R163, R165, R172: the completion of a RAMP lane's build that brings its ramp build count to the ramp timeout ends the ramp:
RAMP_FAIL and the summary are set, enable is off and the lane is DARK with cause RAMP_TIMEOUT, its message ahead of every message the
DARK causes; floor, readings, monitor counts and ramp counts are cleared, both pairs and the weight stay. The plan number has
advanced and the builder is free. RAMP_TIMEOUT and BUILD_COMPLETION name that one event (the model's choice: log 9), and with no
build in flight RAMP_TIMEOUT has no effect. -/
def Obligations.RampTimeoutGoesDark : Prop :=
  ∀ (l : LaneNo) (s : State),
    (∀ b : Build, s.builder = some b → b.lane = l → s.mayEnter b 8 = true → s.laneState l = .ramp →
      s.params.health.rampTimeout ≤ min ((s.lane l).health.rampBuilds + 1) 255 →
      ∃ t, exec (.rampTimeout l) s = .next t ∧ exec .buildCompletion s = .next t ∧ t.builder = none ∧
        t.laneState l = .dark ∧ (t.lane l).health.enable = false ∧ t.flag l .rampFail = true ∧ t.port.summary = true ∧
        (t.lane l).health.floor = 0 ∧ (t.lane l).health.readings = Readings.unread ∧
        (t.lane l).health.openCount = 0 ∧ (t.lane l).health.joinCount = 0 ∧ (t.lane l).health.damageCount = 0 ∧
        (t.lane l).health.emptyCount = 0 ∧ (t.lane l).health.goodProbes = 0 ∧ (t.lane l).health.rampBuilds = 0 ∧
        (t.lane l).health.openPair = (s.lane l).health.openPair ∧ (t.lane l).health.joinPair = (s.lane l).health.joinPair ∧
        (t.lane l).health.weight = (s.lane l).health.weight ∧ (t.lane l).nextPlanStart = none ∧
        (t.lane l).buildState = .idle ∧ (t.lane l).outQueue = none ∧ (t.lane l).fifo = [] ∧
        (t.lane l).planNo = (s.lane l).planNo + 1 ∧ (t.lane l).slice = (s.lane l).slice ∧
        (s.completesLate b = false → s.port.statusQueue.length < 32 →
          ∃ more, t.port.statusQueue = s.port.statusQueue ++ (.laneState l .dark .rampTimeout :: more)) ∧
        t.boot = s.boot ∧ t.nodeTime = s.nodeTime) ∧
    (s.builder = none → exec (.rampTimeout l) s = .next s)

/-- R110, R127, R137, R139, R158, R159, R164: LANE UP in READY. BAD_LANE for a lane that is not fitted; without carrier and with the bus
not ACTIVE, enable on, the weight (0 keeps it), DONE, and no ramp; with carrier and enable off before, a ramp with cause ENABLED, whole as
`RampEntered` says, its one LANE notice with state RAMP and the weight the order gives. Without carrier, or with enable on before, there
is no ramp on any bus: enable is on, and a weight that changes is offered in a LANE notice, one that does not is not. -/
def Obligations.LaneUpEnablesOrRamps : Prop :=
  ∀ (seq lane weight : Byte) (s : State), s.boot.startup = .ready →
    (s.fittedByte lane = none → exec (.laneUp seq lane weight) s = .next (refuse seq .badLane s)) ∧
    (∀ l, s.fittedByte lane = some l →
      ((s.lane l).health.carrier = .absent → s.bus.state ≠ .active →
        exec (.laneUp seq lane weight) s = .next (putReply seq .done .none [] (modHealth l (fun h =>
          { h with enable := true, weight := if weight.toNat = 0 then h.weight else weight.toNat }) s))) ∧
      ((s.lane l).health.carrier = .absent ∨ (s.lane l).health.enable = true →
        let w := if weight.toNat = 0 then (s.lane l).health.weight else weight.toNat
        let u := modHealth l (fun h => { h with enable := true, weight := w }) s
        ∃ t, exec (.laneUp seq lane weight) s = .next t ∧
          t.lane l = { s.lane l with
            health := { (s.lane l).health with enable := true, weight := w }, owed := (t.lane l).owed } ∧
          (∀ k, k ≠ l → t.lane k = { s.lane k with owed := (t.lane k).owed }) ∧
          t.port = { s.port with holder := .unread { seq := seq, result := .done, note := .none, data := [] } } ∧
          (w = (s.lane l).health.weight → t.bus = s.bus ∧ ∀ k, (t.lane k).owed = (s.lane k).owed) ∧
          (w ≠ (s.lane l).health.weight →
            NoticeOffered (Notice.forLane l) (some l) (.lane l (s.laneState l) w) u t) ∧
          t = { s with lanes := t.lanes, port := t.port, bus := t.bus }) ∧
      ((s.lane l).health.carrier = .present → (s.lane l).health.enable = false → s.port.statusQueue.length < 32 →
        ∃ t, exec (.laneUp seq lane weight) s = .next t ∧ t.laneState l = .ramp ∧ (t.lane l).health.enable = true ∧
          (t.lane l).nextPlanStart = some (sliceAdd (s.lane l).slice s.params.lead) ∧ (t.lane l).buildState = .pending ∧
          (t.lane l).joinCountdown = 0 ∧ (t.lane l).health.goodProbes = 0 ∧ (t.lane l).health.rampBuilds = 0 ∧
          (t.lane l).health.flags = (s.lane l).health.flags ∧ (t.lane l).planNo = (s.lane l).planNo ∧
          t.port.statusQueue = s.port.statusQueue ++ [.laneState l .ramp .enabled] ∧
          t.port.holder = .unread { seq := seq, result := .done, note := .none, data := [] } ∧
          t.views = s.views ∧ t.boot = s.boot ∧ t.nodeTime = s.nodeTime) ∧
      ((s.lane l).health.carrier = .present → (s.lane l).health.enable = false →
        ∃ t, RampEntered l .enabled (modHealth l (fun h =>
            { h with enable := true, weight := if weight.toNat = 0 then h.weight else weight.toNat }) s) t ∧
          exec (.laneUp seq lane weight) s = .next (putReply seq .done .none [] t)))

/-- R160, R165 and the lane DARK rules of five blocks: LANE DOWN in READY. A lane that is not fitted is refused with BAD_LANE; on a fitted
lane enable becomes off and the reply is DONE; a RAMP or LIVE lane goes DARK with cause DISABLED, a DARK one keeps its state with no
message and no notice; the weight is kept, and a carrier record that follows starts no ramp. A lane that goes DARK, for whatever cause, is
left with no turn and no hold-until of any stream, no build and no plan, no record, no correction, no provisional station and no carried
due. Its parts, in the order of the list of R165, which is the model's choice (log 43): the message, the record and the LANE notice; the
builder abandons the lane's build and withdraws its plan, whose turns are unwound as `MarginPointLapsesPlan` says (R11, R17; in the
order of log 13); the FIFO goes; the Stream Table removes the lane's turns and hold-untils, gives EDGE DATA payloads back, and frees the
CLOSING streams left without turns (R38; in entry order: log 35); every correction and probe out goes, and the provisional stations are
announced with JOIN_FAILED(LANE_DOWN) and retired in list order (R127); the carried dues of the RUNNING channels are missed, and an
opening plan after the plan number is the plan number (R110). -/
def Obligations.LaneDownDisablesLane : Prop :=
  (∀ (seq lane : Byte) (s : State), s.boot.startup = .ready →
    (s.fittedByte lane = none → exec (.laneDown seq lane) s = .next (refuse seq .badLane s)) ∧
    (∀ l, s.fittedByte lane = some l →
      (s.laneState l = .dark → exec (.laneDown seq lane) s =
        .next (putReply seq .done .none [] (modHealth l (fun h => { h with enable := false }) s))) ∧
      (s.laneState l ≠ .dark → exec (.laneDown seq lane) s =
        .next (putReply seq .done .none [] (goDark l .disabled (modHealth l (fun h => { h with enable := false }) s)))) ∧
      (∃ t, exec (.laneDown seq lane) s = .next t ∧ t.laneState l = .dark ∧ (t.lane l).health.enable = false ∧
        (t.lane l).health.weight = (s.lane l).health.weight ∧
        t.port.holder = .unread { seq := seq, result := .done, note := .none, data := [] } ∧
        (s.laneState l = .dark → t.port.statusQueue = s.port.statusQueue ∧ t.bus = s.bus) ∧
        (s.laneState l ≠ .dark → s.port.statusQueue.length < 32 →
          ∃ more, t.port.statusQueue = s.port.statusQueue ++ (.laneState l .dark .disabled :: more)) ∧
        (∀ w u, exec (.carrierRecord l w) t = .next u → u.laneState l = .dark)))) ∧
  (∀ (l : LaneNo) (cause : LaneCause) (s : State), ∃ w,
    goDark l cause s = darkChannels l (darkStations l (darkTurns l (emptyFifo l (darkPlans l w)))) ∧
      w.lane l = { s.lane l with
        owed := (w.lane l).owed,
        health := { (s.lane l).health with
          state := .dark, floor := 0, openCount := 0, joinCount := 0, damageCount := 0, emptyCount := 0,
          readings := { backlog := 65535, openCollisions := 65535, joinCollisions := 65535, damage := 65535, empty := 65535 },
          goodProbes := 0, rampBuilds := 0, flags := (s.lane l).health.flags &&& 7 } } ∧
      (∀ k, k ≠ l → w.lane k = { s.lane k with owed := (w.lane k).owed }) ∧
      w.port = { s.port with
        statusQueue := s.port.statusQueue ++ [.laneState l .dark cause].take (32 - s.port.statusQueue.length),
        overflow := s.port.overflow || decide (32 ≤ s.port.statusQueue.length) } ∧
      NoticeOffered (Notice.forLane l) (some l) (.lane l .dark (s.lane l).health.weight)
        (modHealth l (fun h => { h with state := .dark }) s) w ∧
      w = { s with lanes := w.lanes, port := w.port, bus := w.bus }) ∧
  (∀ (l : LaneNo) (cause : LaneCause) (s : State), let t := goDark l cause s
    (∀ b, s.builder = some b → b.lane = l → t.builder = none) ∧ (t.lane l).nextPlanStart = none ∧ (t.lane l).buildState = .idle ∧
      (t.lane l).deferred = false ∧ (t.lane l).outQueue = none ∧ (t.lane l).fifo = [] ∧ (t.lane l).planNo = (s.lane l).planNo ∧
      (t.lane l).provisional = [] ∧ (s.tagsOk = true → (t.lane l).corrections = []) ∧
      (∀ e ∈ t.table, (∀ x ∈ e.turns, x.lane ≠ l) ∧ e.hold[l.val] = none) ∧
      (∀ c ∈ t.channels, c.lane = l → (c.state = .running → c.carried = []) ∧
        countAfter c.openingPlan (s.lane l).planNo = false)) ∧
  (∀ (l : LaneNo) (s : State),
    let unwound := fun (pn : PlanNo) (start : Slice) (turns : List PlanTurn) (u v : State) =>
      let f := turns.foldl (fun x w => unwindTurn l pn start w x) u
      v = { f with channels := f.channels.map fun c =>
        if c.state = .draining ∧ c.lane = l ∧ c.finalMark.map (·.planNo) = some pn then
          { c with state := .running, count := 1, finalMark := none, misses := min (c.misses + 1) 65535 }
        else c }
    ∃ u v, (∀ b, s.builder = some b → b.lane = l → unwound b.planNo b.start b.placed { s with builder := none } u) ∧
      ((∀ b, s.builder = some b → b.lane ≠ l) → u = s) ∧
      v = modLane l (fun L => { L with buildState := .idle, deferred := false, nextPlanStart := none }) u ∧
      (∀ p, (s.lane l).outQueue = some p → unwound p.planNo p.start p.turns (modLane l (fun L => { L with outQueue := none }) v)
        (darkPlans l s)) ∧
      ((s.lane l).outQueue = none → darkPlans l s = v)) ∧
  (∀ (l : LaneNo) (s : State), s.tagsOk = true →
    let t := darkTurns l s
    let back := fun e : Stream => e.turns.filter fun x => x.lane == l && x.kind == .data
    let restored := fun e : Stream => e.served = true ∧ e.isSpread = false ∧ e.mode = .edge ∧ back e ≠ []
    (∀ e, s.entry? e.entry = some e →
      let kept := { e with turns := e.turns.filter (·.lane != l), hold := e.hold.set l.val none }
      (restored e → ∃ d, t.entry? e.entry = some { kept with
          demand := min (e.demand + ((back e).map (·.payload)).sum) 1048575, deficit := d } ∧
        ∀ h, e.place = .home h → 1 ≤ e.cls → e.cls ≤ 6 → 0 < e.demand + ((back e).map (·.payload)).sum →
          e.entry ∈ t.ring h e.cls ∧ d = e.deficit) ∧
      (¬restored e → e.state ≠ .closing → t.entry? e.entry = some kept) ∧
      (e.state = .closing →
        if kept.turns = [] ∧ (e.isStation = true → ∀ c ∈ s.table, c.parent = e.entry → c.entry ≠ e.entry →
            c.state = .closing ∧ ∀ x ∈ c.turns, x.lane = l) then
          t.entry? e.entry = none ∧ t.lookupTag e.tag = none
        else t.entry? e.entry = some kept)) ∧
    (∀ n, s.entry? n = none → t.entry? n = none) ∧
    (∀ k c, (t.ring k c).filter (fun n => (s.entry? n).all fun e => decide (¬restored e)) =
      (s.ring k c).filter fun n => (s.entry? n).all fun e => decide (¬restored e)) ∧
    (∃ more, t.port.statusQueue = s.port.statusQueue ++ more ∧
      ∀ m ∈ more, ∃ e ∈ s.table, m = .retired e.tag ∧ t.entry? e.entry = none) ∧
    (∀ k, t.lane k = { s.lane k with rings := (t.lane k).rings }) ∧
    t = { s with table := t.table, tagMap := t.tagMap, pool := t.pool, builder := t.builder, lanes := t.lanes, port := t.port }) ∧
  (∀ (l : LaneNo) (s : State), ∃ (fail : State → Nat → State) (u : State),
    darkStations l s = modLane l (fun L => { L with provisional := [] }) ((s.lane l).provisional.foldl fail u) ∧
      u = { modLane l (fun L => { L with corrections := [] }) s with
        table := s.table.map fun e =>
          if e.homedOn l then { e with alignment := e.alignment.map fun a => { a with probeOut := none } } else e } ∧
      ∀ (v : State) (tag : Nat), (v.byTag tag = none → fail v tag = v) ∧
        ∀ e a, v.byTag tag = some e → e.address = some a → v.tagsOk = true → v.familiesOk = true →
          Retired .laneDown e { v with port := { v.port with
            statusQueue := v.port.statusQueue ++ [.joinFailed a l .laneDown].take (32 - v.port.statusQueue.length),
            overflow := v.port.overflow || decide (32 ≤ v.port.statusQueue.length) } } (fail v tag)) ∧
  (∀ (l : LaneNo) (s : State), darkChannels l s = { s with channels := s.channels.map fun c =>
    if c.lane = l then
      { c with
        misses := if c.state = .running then min (c.misses + c.carried.length) 65535 else c.misses,
        carried := if c.state = .running then [] else c.carried,
        openingPlan := if countAfter c.openingPlan (s.lane l).planNo = true then (s.lane l).planNo else c.openingPlan }
    else c })

/-- R169: a backoff pair keeps minimum ≤ start ≤ end ≤ 10 through every evaluation, and each exponent moves by at most one step: at or
above the high limit both rise by one, to at most 10; at or below the low limit both fall by one, the start to no less than the
minimum and the end to no less than the new start; between the limits the pair stands. -/
def Obligations.BackoffPairStaysInRange : Prop :=
  ∀ (high low least c : Nat) (b : Backoff), low < high → least ≤ b.first → b.first ≤ b.last → b.last ≤ 10 →
    least ≤ (b.moved high low least c).first ∧ (b.moved high low least c).first ≤ (b.moved high low least c).last ∧
      (b.moved high low least c).last ≤ 10 ∧ (b.moved high low least c).first ≤ b.first + 1 ∧
      b.first ≤ (b.moved high low least c).first + 1 ∧ (b.moved high low least c).last ≤ b.last + 1 ∧
      b.last ≤ (b.moved high low least c).last + 1 ∧
      (high ≤ c → b.moved high low least c = { first := min (b.first + 1) 10, last := min (b.last + 1) 10 }) ∧
      (c ≤ low → b.moved high low least c =
        { first := max (b.first - 1) least, last := max (b.last - 1) (max (b.first - 1) least) }) ∧
      (low < c → c < high → b.moved high low least c = b)

/-! ### Records -/

/-- R39, R40: a record of a type other than carrier at a lane port joins the tail of the FIFO, is dropped with INTAKE_OVERRUN at a
full FIFO, and is discarded without effect where the port does not accept it. -/
def Obligations.RecordArrivalQueuesDropsOrDiscards : Prop :=
  ∀ (l : LaneNo) (w : LaneRecord) (s : State), recordType w ≠ 4 →
    (s.fitted l = true → s.boot.startup = .ready → s.laneState l ≠ .dark → (s.lane l).fifo.length < 64 →
      exec (.recordArrival l w) s = .next (modLane l (fun L => { L with fifo := L.fifo ++ [w] }) s)) ∧
    (s.fitted l = true → s.boot.startup = .ready → s.laneState l ≠ .dark → 64 ≤ (s.lane l).fifo.length →
      exec (.recordArrival l w) s = .next (modPort (fun p => { p with summary := true })
        (modHealth l (fun h => { h with flags := h.flags ||| 16 }) s))) ∧
    (s.fitted l = false ∨ s.boot.startup ≠ .ready ∨ s.laneState l = .dark → exec (.recordArrival l w) s = .next s)

/-- R41, R110, R127, R139, R161, R164: a carrier record with the present value has no effect; a change before READY is recorded and not
handed on. In READY, a change on a DARK lane with enable off, and a change to ABSENT on a DARK lane, changes the two copies alone; a
change to PRESENT on a DARK lane with enable on starts a ramp with cause CARRIER_FOUND, whole as `RampEntered` says; a change to ABSENT
takes a RAMP or LIVE lane DARK with cause CARRIER_LOST, its message first and its enable as it stands. -/
def Obligations.CarrierRecordRecordsChange : Prop :=
  ∀ (l : LaneNo) (w : LaneRecord) (s : State), recordType w = 4 → s.fitted l = true → s.boot.startup ≠ .halted →
    ((s.lane l).carrier = carrierValue w → exec (.carrierRecord l w) s = .next s) ∧
    ((s.lane l).carrier ≠ carrierValue w → s.boot.startup ≠ .ready →
      exec (.carrierRecord l w) s = .next (modLane l (fun L => { L with carrier := carrierValue w }) s)) ∧
    ((s.lane l).carrier ≠ carrierValue w → s.boot.startup = .ready → s.laneState l = .dark →
      ((s.lane l).health.enable = false ∨ carrierValue w = .absent) →
      exec (.carrierRecord l w) s = .next (modLane l (fun L =>
        { L with carrier := carrierValue w, health := { L.health with carrier := carrierValue w } }) s)) ∧
    ((s.lane l).carrier = .absent → carrierValue w = .present → s.boot.startup = .ready → s.laneState l = .dark →
      (s.lane l).health.enable = true →
      ∃ t, exec (.carrierRecord l w) s = .next t ∧ t.laneState l = .ramp ∧ (t.lane l).carrier = .present ∧
        (t.lane l).health.carrier = .present ∧ (t.lane l).health.enable = true ∧ (t.lane l).buildState = .pending ∧
        (t.lane l).nextPlanStart = some (sliceAdd (s.lane l).slice s.params.lead) ∧ (t.lane l).joinCountdown = 0 ∧
        (t.lane l).health.goodProbes = 0 ∧ (t.lane l).health.rampBuilds = 0 ∧
        (t.lane l).health.weight = (s.lane l).health.weight ∧
        (s.port.statusQueue.length < 32 →
          t.port = { s.port with statusQueue := s.port.statusQueue ++ [.laneState l .ramp .carrierFound] }) ∧
        RampEntered l .carrierFound (modLane l (fun L =>
          { L with carrier := .present, health := { L.health with carrier := .present } }) s) t ∧
        t.views = s.views ∧ t.boot = s.boot ∧ t.nodeTime = s.nodeTime) ∧
    ((s.lane l).carrier = .present → carrierValue w = .absent → s.boot.startup = .ready → s.laneState l ≠ .dark →
      ∃ t, exec (.carrierRecord l w) s = .next t ∧ t.laneState l = .dark ∧ (t.lane l).carrier = .absent ∧
        (t.lane l).health.carrier = .absent ∧ (t.lane l).health.enable = (s.lane l).health.enable ∧
        (t.lane l).health.weight = (s.lane l).health.weight ∧ (t.lane l).nextPlanStart = none ∧ (t.lane l).fifo = [] ∧
        (s.port.statusQueue.length < 32 →
          ∃ more, t.port.statusQueue = s.port.statusQueue ++ (.laneState l .dark .carrierLost :: more)) ∧
        t.boot = s.boot ∧ t.nodeTime = s.nodeTime)

/-- R26, R30, R31, R43, R44, R45, R46, R48, R49: a report that names a BASIC or ADMITTED stream on a lane it is served on leaves the
FIFO. It clears the no-show run and a quiet mark it finds, after which the poll countdown of a non-spread stream takes the poll
interval, or is absent without one. On the home lane an EDGE report adds its amount to the outstanding demand, saturating; a LEVEL
report makes it the amount less the payloads in flight and marks turns as `LevelReportLeavesSumWithinAmount` says; the stream then joins
the tail of its ring, keeps its place, or leaves it, as its demand gives. On a spread stream the view's expired claims go, and a DEMAND
of the next epoch is offered, for the amount less the unexpired claims and the own pending: in the place of a queued DEMAND of the tag,
at the tail, or declined. That the expired claims go at a declined DEMAND too is the model's choice (log 36). -/
def Obligations.EdgeReportAddsDemand : Prop :=
  ∀ (l : LaneNo) (w : LaneRecord) (rest : List LaneRecord) (e : Stream) (s : State), (s.lane l).fifo = w :: rest →
    recordType w = 1 → demandKind w ≠ 3 → s.byTag (recordTag w) = some e → e.served = true →
    let popped := modLane l (fun L => { L with fifo := rest }) s
    let carrying := if demandKind w = 1 then some (demandCarrying w) else none
    let heard : Stream := { e with
      noShow := 0, quiet := false,
      pollCountdown := if e.quiet = true ∧ e.isSpread = false then (if 0 < e.pollInterval then some e.pollInterval else none)
        else e.pollCountdown }
    let ringed := fun (d : Stream) (t : State) =>
      RingsFollow [e.entry] (modEntry e.entry (fun _ => d) popped) t ∧
        (∀ k, t.lane k = { popped.lane k with rings := (t.lane k).rings })
    (e.place = .home l → e.mode = .edge →
      ∃ t e', exec (.demandReport l) s = .next t ∧ (t.lane l).fifo = rest ∧ t.entry? e.entry = some e' ∧
        e'.demand = min (e.demand + demandAmount w) 1048575 ∧
        e' = { heard with demand := e'.demand, deficit := e'.deficit } ∧
        ringed { heard with demand := e'.demand } t ∧
        (1 ≤ e.cls → e.cls ≤ 6 → 0 < e'.demand → e'.deficit = e.deficit ∧
          t.ring l e.cls = if e.entry ∈ s.ring l e.cls then s.ring l e.cls else s.ring l e.cls ++ [e.entry]) ∧
        (∀ n, n ≠ e.entry → t.entry? n = s.entry? n) ∧ t = { s with lanes := t.lanes, table := t.table }) ∧
    (e.place = .home l → e.mode = .level →
      ∃ t e', exec (.demandReport l) s = .next t ∧ (t.lane l).fifo = rest ∧ t.entry? e.entry = some e' ∧
        e'.demand = demandAmount w - inFlightSum l carrying e.turns ∧
        e'.turns = (e.levelReport l carrying (demandAmount w)).turns ∧
        e' = { heard with demand := e'.demand, turns := e'.turns, deficit := e'.deficit } ∧
        ringed { heard with demand := e'.demand, turns := e'.turns } t ∧
        (1 ≤ e.cls → e.cls ≤ 6 → 0 < e'.demand → e'.deficit = e.deficit ∧
          t.ring l e.cls = if e.entry ∈ s.ring l e.cls then s.ring l e.cls else s.ring l e.cls ++ [e.entry]) ∧
        (e'.demand = 0 → e'.deficit = 0 ∧ ∀ k c, e.entry ∉ t.ring k c) ∧
        (∀ n, n ≠ e.entry → t.entry? n = s.entry? n) ∧ t = { s with lanes := t.lanes, table := t.table }) ∧
    (∀ set i v, e.place = .spread set i → s.nodeLane l ∈ set → s.viewOf e.tag = some v →
      let kept := v.claims.filter fun c => countAfter c.endTick s.nodeTime
      let wanted := demandAmount w - (kept.map (·.bytes)).sum - (v.own.map (·.pending)).sum
      ∃ t, exec (.demandReport l) s = .next t ∧ (t.lane l).fifo = rest ∧
        NoticeOffered (Notice.demandFor e.tag) none (.demand e.tag (v.epoch + 1) wanted) popped t ∧
        t.viewOf e.tag = some { v with claims := kept } ∧ (∀ tag, tag ≠ e.tag → t.viewOf tag = s.viewOf tag) ∧
        RingsFollow [v.entry] (modEntry e.entry (fun _ => heard) popped) t ∧
        (∀ k, t.lane k = { popped.lane k with rings := (t.lane k).rings, owed := (t.lane k).owed }) ∧
        t = { s with lanes := t.lanes, table := t.table, views := t.views, bus := t.bus })

/-- R46, R47: after a LEVEL report the payload still in flight and unstale is at most the reported amount, and the outstanding
demand is the amount less the in-flight sum; the turn list keeps its entries. Those in flight are marked stale from the newest on, and no
more than needed: with the oldest one marked still counted, the sum would be above the amount. -/
def Obligations.LevelReportLeavesSumWithinAmount : Prop :=
  ∀ (l : LaneNo) (carrying : Option Slice) (amount : Nat) (e : Stream),
    inFlightSum l carrying (e.levelReport l carrying amount).turns ≤ amount ∧
      (e.levelReport l carrying amount).demand = amount - inFlightSum l carrying e.turns ∧
      (e.levelReport l carrying amount).turns.map (·.start) = e.turns.map (·.start) ∧
      (e.levelReport l carrying amount).turns.map (·.payload) = e.turns.map (·.payload) ∧
      ∃ older newer, e.turns = older ++ newer ∧
        (e.levelReport l carrying amount).turns =
          older ++ newer.map (fun x => if x.inFlight l carrying then { x with stale := true } else x) ∧
        inFlightSum l carrying older ≤ amount ∧
        (newer = [] ∨ ∃ x more, newer = x :: more ∧ x.inFlight l carrying = true ∧
          amount < inFlightSum l carrying (older ++ [x]))

/-- R42, R43, R50, R60, R191: a demand record of kind 3 or of an unmapped tag, one for a PROVISIONAL station, and one that comes on a lane
other than the home lane or whose node lane is not in the spread set, a turn's outcome that is COLLIDED or matches no turn list entry, and
a record of unknown type, are discarded with STRAY; only the FIFO, the flag and the summary change. A report for a CLOSING stream is
discarded without a flag: only the FIFO changes. -/
def Obligations.StrayRecordsSetStray : Prop :=
  ∀ (l : LaneNo) (w : LaneRecord) (rest : List LaneRecord) (s : State), (s.lane l).fifo = w :: rest → s.laneState l ≠ .dark →
    (recordType w = 1 → (demandKind w = 3 ∨ s.byTag (recordTag w) = none ∨
        ∃ e, s.byTag (recordTag w) = some e ∧ (e.state = .provisional ∨
          (e.served = true ∧ ((∃ h, e.place = .home h ∧ h ≠ l) ∨ ∃ set i, e.place = .spread set i ∧ s.nodeLane l ∉ set)))) →
      exec (.demandReport l) s = .next (modPort (fun p => { p with summary := true }) (modLane l (fun L =>
        { L with fifo := rest, health := { L.health with flags := L.health.flags ||| 32 } }) s))) ∧
    (∀ e, recordType w = 1 → demandKind w ≠ 3 → s.byTag (recordTag w) = some e → e.state = .closing →
      exec (.demandReport l) s = .next (modLane l (fun L => { L with fifo := rest }) s)) ∧
    (recordType w = 2 → recordTag w < 16382 →
      (outcomeResult w = .collided ∨ s.byTag (recordTag w) = none ∨
        ∃ e, s.byTag (recordTag w) = some e ∧ e.turnAt l (outcomeStart w) = none) →
      exec (.burstOutcome l) s = .next (modPort (fun p => { p with summary := true }) (modLane l (fun L =>
        { L with fifo := rest, health := { L.health with flags := L.health.flags ||| 32 } }) s))) ∧
    (recordType w = 0 ∨ recordType w ≥ 5 →
      exec (.unknownRecordType l) s = .next (modPort (fun p => { p with summary := true }) (modLane l (fun L =>
        { L with fifo := rest, health := { L.health with flags := L.health.flags ||| 32 } }) s)))

/-- R51, R58: a region outcome raises its monitor count by 1, saturating, and changes no stream. -/
def Obligations.RegionOutcomesRaiseCounts : Prop :=
  ∀ (l : LaneNo) (w : LaneRecord) (rest : List LaneRecord) (s : State), (s.lane l).fifo = w :: rest → recordType w = 2 →
    (recordTag w = 16383 → outcomeResult w = .collided →
      exec (.burstOutcome l) s = .next (modLane l (fun L => { L with
        fifo := rest, health := { L.health with openCount := min (L.health.openCount + 1) 65535 } }) s)) ∧
    (recordTag w = 16382 → outcomeResult w = .collided →
      exec (.burstOutcome l) s = .next (modLane l (fun L => { L with
        fifo := rest, health := { L.health with joinCount := min (L.health.joinCount + 1) 65535 } }) s)) ∧
    (recordTag w = 16383 ∨ recordTag w = 16382 → outcomeResult w = .damaged →
      exec (.burstOutcome l) s = .next (modLane l (fun L => { L with
        fifo := rest, health := { L.health with damageCount := min (L.health.damageCount + 1) 65535 } }) s)) ∧
    (recordTag w = 16383 ∨ recordTag w = 16382 → outcomeResult w = .good ∨ outcomeResult w = .empty →
      exec (.burstOutcome l) s = .next (modLane l (fun L => { L with fifo := rest }) s))

/-- R29, R31, R50, R52, R53, R54, R55, R57, R58, R109: a GOOD, EMPTY or DAMAGED outcome that matches a turn list entry of a kind other
than PROBE, or any entry of a CLOSING stream. In every case the entry leaves the list, the record leaves the FIFO, and the empty count
(of an entry that is not stale) or the damage count rises. GOOD of DATA or POLL sets the no-show and retry runs to 0. EMPTY of a DATA
or POLL entry that is not stale, of a BASIC or ADMITTED stream, raises the no-show run, and at or above the limit sets the quiet mark
and its poll countdown (each such EMPTY anew: the model's choice, log 16). DAMAGED of a DATA entry of a BASIC or ADMITTED non-spread
EDGE stream within the retry limit gives the payload back, raises the retry run and puts the stream into its ring; every other one
restores nothing. CADENCE changes the unused run of the channel the entry belongs to, which at the unused limit ends it with
CADENCE_ENDED(UNUSED), and a STANDBY channel takes over (the first in the list, which the model keeps in number order; on a lane with
no horizon its due is judged by the last turn alone, the model's choice, log 19, and where no slice meets both conditions it is the first
due, the model's choice, log 39); a GOOD one also sets both runs to 0 (the model's
choice, log 42). A CLOSING stream gets the removal and the count alone, and is FREE with RETIRED once its list is empty,
a station only when no child is left. -/
def Obligations.GoodOutcomeResolvesTurn : Prop :=
  ∀ (l : LaneNo) (w : LaneRecord) (rest : List LaneRecord) (e : Stream) (u : Turn) (s : State),
    (s.lane l).fifo = w :: rest → recordType w = 2 → recordTag w < 16382 → s.byTag (recordTag w) = some e →
    e.turnAt l (outcomeStart w) = some u →
    let kept := e.turns.filter fun v => !(v.lane == l && v.start == u.start)
    let h := (s.lane l).health
    let counted : Health := { h with
      emptyCount := if outcomeResult w = .empty ∧ u.stale = false then min (h.emptyCount + 1) 65535 else h.emptyCount,
      damageCount := if outcomeResult w = .damaged then min (h.damageCount + 1) 65535 else h.damageCount }
    (outcomeResult w = .good → e.state ≠ .closing → (u.kind = .data ∨ u.kind = .poll) →
      ∃ t, exec (.burstOutcome l) s = .next t ∧
        t.entry? e.entry = some { e with noShow := 0, retry := 0, turns := kept } ∧
        (∀ n, n ≠ e.entry → t.entry? n = s.entry? n) ∧ t.lane l = { s.lane l with fifo := rest } ∧
        (∀ k, k ≠ l → t.lane k = s.lane k) ∧ t = { s with lanes := t.lanes, table := t.table }) ∧
    (outcomeResult w = .empty → e.state ≠ .closing → (u.kind = .data ∨ u.kind = .poll) →
      ∃ t e', exec (.burstOutcome l) s = .next t ∧ t.entry? e.entry = some e' ∧
        (e.served = true → u.stale = false → min (e.noShow + 1) 15 < s.params.noShowLimit →
          e' = { e with turns := kept, noShow := min (e.noShow + 1) 15 }) ∧
        (e.served = true → u.stale = false → s.params.noShowLimit ≤ min (e.noShow + 1) 15 →
          e' = { e with
            turns := kept, noShow := min (e.noShow + 1) 15, quiet := true,
            pollCountdown := if e.isSpread then none else some s.params.quietPoll }) ∧
        (e.served = false ∨ u.stale = true → e' = { e with turns := kept }) ∧
        (∀ n, n ≠ e.entry → t.entry? n = s.entry? n) ∧ t.lane l = { s.lane l with fifo := rest, health := counted } ∧
        (∀ k, k ≠ l → t.lane k = s.lane k) ∧ t = { s with lanes := t.lanes, table := t.table }) ∧
    (outcomeResult w = .damaged → e.state ≠ .closing → (u.kind = .data ∨ u.kind = .poll) →
      ∃ t e', exec (.burstOutcome l) s = .next t ∧ t.entry? e.entry = some e' ∧
        (u.kind = .data ∧ e.served = true ∧ e.isSpread = false ∧ e.mode = .edge ∧ e.retry < s.params.retryLimit →
          e'.demand = min (e.demand + u.payload) 1048575 ∧
          e' = { e with turns := kept, demand := e'.demand, retry := e.retry + 1, deficit := e'.deficit } ∧
          (∀ k c, (t.ring k c).filter (· != e.entry) = (s.ring k c).filter (· != e.entry)) ∧
          (∀ k, e.place = .home k → 1 ≤ e.cls → e.cls ≤ 6 → 0 < e'.demand → e'.deficit = e.deficit ∧
            t.ring k e.cls = if e.entry ∈ s.ring k e.cls then s.ring k e.cls else s.ring k e.cls ++ [e.entry])) ∧
        (¬(u.kind = .data ∧ e.served = true ∧ e.isSpread = false ∧ e.mode = .edge ∧ e.retry < s.params.retryLimit) →
          e' = { e with turns := kept } ∧ ∀ k, (t.lane k).rings = (s.lane k).rings) ∧
        (∀ n, n ≠ e.entry → t.entry? n = s.entry? n) ∧
        t.lane l = { s.lane l with fifo := rest, health := counted, rings := (t.lane l).rings } ∧
        (∀ k, k ≠ l → t.lane k = { s.lane k with rings := (t.lane k).rings }) ∧
        t = { s with lanes := t.lanes, table := t.table }) ∧
    (outcomeResult w ≠ .collided → e.state ≠ .closing → u.kind = .cadence →
      ∃ t, exec (.burstOutcome l) s = .next t ∧
        t.entry? e.entry = some (if outcomeResult w = .good then { e with turns := kept, noShow := 0, retry := 0 }
          else { e with turns := kept }) ∧
        (∀ k c, u.channel = some k → s.channel? k = some c → c.tag = e.tag → c.lane = l →
          countBefore u.planNo c.openingPlan = false →
          (outcomeResult w = .good → t.port = s.port ∧
            t.channels = s.channels.map fun x => if x.number == k then { x with unused := 0 } else x) ∧
          (outcomeResult w = .damaged → t.port = s.port ∧ t.channels = s.channels) ∧
          (outcomeResult w = .empty → s.params.unusedLimit = 0 ∨ min (c.unused + 1) 255 < s.params.unusedLimit →
            t.port = s.port ∧
            t.channels = s.channels.map fun x => if x.number == k then { c with unused := min (c.unused + 1) 255 } else x) ∧
          (outcomeResult w = .empty → 0 < s.params.unusedLimit → s.params.unusedLimit ≤ min (c.unused + 1) 255 →
            s.port.statusQueue.length < 32 →
            let others := s.channels.filter fun d => d.number != k
            let next := others.find? fun d => d.state == .standby && d.tag == c.tag && d.lane == c.lane
            t.port = { s.port with statusQueue := s.port.statusQueue ++ [.cadenceEnded k c.tag .unused] } ∧
              t.channel? k = none ∧
              (c.state = .standby ∨ next = none → t.channels = others) ∧
              (∀ d, c.state = .running ∨ c.state = .draining → next = some d → t.channels = others.map fun x =>
                if x.number == d.number then { x with state := .running, nextDue := some (takeoverDue s c x) } else x))) ∧
        ((∀ k c, u.channel = some k → s.channel? k = some c →
            c.tag ≠ e.tag ∨ c.lane ≠ l ∨ countBefore u.planNo c.openingPlan = true) →
          t.channels = s.channels ∧ t.port = s.port) ∧
        (∀ n, n ≠ e.entry → t.entry? n = s.entry? n) ∧ t.lane l = { s.lane l with fifo := rest, health := counted } ∧
        (∀ k, k ≠ l → t.lane k = s.lane k) ∧
        t = { s with lanes := t.lanes, table := t.table, channels := t.channels, port := t.port }) ∧
    (outcomeResult w ≠ .collided → e.state = .closing →
      ∃ t, exec (.burstOutcome l) s = .next t ∧ t.lane l = { s.lane l with fifo := rest, health := counted } ∧
        (∀ k, k ≠ l → t.lane k = s.lane k) ∧
        (kept ≠ [] ∨ e.parent = e.entry ∧ (∃ c ∈ s.table, c.parent = e.entry ∧ c.entry ≠ e.entry) →
          t.entry? e.entry = some { e with turns := kept } ∧ (∀ n, n ≠ e.entry → t.entry? n = s.entry? n) ∧
          t = { s with lanes := t.lanes, table := t.table }) ∧
        (kept = [] → (e.parent = e.entry → ∀ c ∈ s.table, c.parent = e.entry → c.entry = e.entry) →
          t.entry? e.entry = none ∧ t.lookupTag e.tag = none ∧
          (s.port.statusQueue.length < 32 → ∃ more, t.port.statusQueue = s.port.statusQueue ++ (.retired e.tag :: more))) ∧
        t = { s with lanes := t.lanes, table := t.table, tagMap := t.tagMap, pool := t.pool, builder := t.builder,
                     port := t.port })

/-- R24, R114, R115, R116, R117, R126, R187: a join arrival of an unknown address with no qualifying tag, or with the Stream Table full,
ends in JOIN_FAILED(NO_ROOM), dropped with OVERFLOW at a full status queue; nothing else changes. With a tag and a FREE entry it makes a
PROVISIONAL station in the lowest FREE entry under the lowest qualifying tag, with a CONTINUE correction at the tail of the lane's queue.
A rejoin, of the address of a station in use: STATION_LOST(REJOIN); the old station is retired with its children, its waiting correction
discarded, as `Retired` says; and then the arrival is handled as that of an unknown address, the old tag not qualifying. Of several
children the messages stand in entry order: the model's choice (log 14). -/
def Obligations.JoinArrivalMakesStationOrFails : Prop :=
  ∀ (l : LaneNo) (w : LaneRecord) (rest : List LaneRecord) (s : State), (s.lane l).fifo = w :: rest → recordType w = 3 →
    let popped := modLane l (fun L => { L with fifo := rest }) s
    let said := fun (m : Message) (u : State) => modPort (fun p =>
      if p.statusQueue.length < 32 then { p with statusQueue := p.statusQueue ++ [m] } else { p with overflow := true }) u
    let lowestTag := fun (replaced : Option Nat) (u : State) (tag : Nat) =>
      tag ∈ u.pool ∧ replaced ≠ some tag ∧ (∀ k, ∀ c ∈ (u.lane k).corrections, c.tag ≠ tag) ∧
        (u.pool.Pairwise (· < ·) → ∀ x ∈ u.pool, replaced ≠ some x → (∀ k, ∀ c ∈ (u.lane k).corrections, c.tag ≠ x) → tag ≤ x)
    let made := fun (replaced : Option Nat) (u t : State) =>
      (u.qualifyingTag replaced = none ∨ u.lowestFree = none → t = said (.joinFailed (joinAddress w) l .noRoom) u) ∧
      (∀ tag n, u.qualifyingTag replaced = some tag → u.lowestFree = some n → lowestTag replaced u tag ∧
        ∃ e, t.entry? n = some e ∧ e.tag = tag ∧ e.state = .provisional ∧
          e.parent = n ∧ e.address = some (joinAddress w) ∧ e.place = .home l ∧ e.cls = 0 ∧ e.demand = 0 ∧ e.turns = [] ∧
          (t.lane l).provisional = (u.lane l).provisional ++ [tag] ∧
          (t.lane l).corrections = (u.lane l).corrections ++ [correctionFor tag .cont (joinTiming w) (joinPower w)] ∧
          t.lane l = { u.lane l with provisional := (t.lane l).provisional, corrections := (t.lane l).corrections } ∧
          (∀ k, k ≠ l → t.lane k = u.lane k) ∧ (u.lookupTag tag = none → t.lookupTag tag = some n) ∧
          t.lookupAddress (joinAddress w) = some n ∧ tag ∉ t.pool ∧ (∀ m, m ≠ n → t.entry? m = u.entry? m) ∧
          t = { u with lanes := t.lanes, table := t.table, tagMap := t.tagMap, stationIndex := t.stationIndex, pool := t.pool })
    (s.lookupAddress (joinAddress w) = none → ∃ t, exec (.joinArrival l) s = .next t ∧ made none popped t) ∧
    (∀ n old, s.lookupAddress (joinAddress w) = some n → s.entry? n = some old → s.tagsOk = true → s.familiesOk = true →
      ∃ u t, exec (.joinArrival l) s = .next t ∧ Retired .rejoin old (said (.stationLost old.tag .rejoin) popped) u ∧
        made (some old.tag) u t)

/-! ### The peer bus and the views -/

/-- R128, R129: a station at idle that reads a dominant bit follows a frame, whatever its bits, until the frame's T5, and is idle again
once it has read 7 recessive bits in a row after it; a dominant bit in between starts no frame. In READY an ACTIVE chip with a notice
in its holder that finds the bus idle begins its frame: it is on the bus with it exactly when it wins, and a lost arbitration makes it a
receiver and changes nothing else; while the bus is not idle it waits. A station in the middle of a frame, which does not arbitrate,
makes it lose with a dominant level at a recessive bit of its arbitration field; one it drives later is seen as a clash (R132). -/
def Obligations.TransmitStartArbitrates : Prop :=
  (∀ bits : List Bool,
    (bits.length < 24 + bodyLength (framePriority bits) →
      (BusReader.counting 7).readAll (false :: bits) = .following bits) ∧
    (bits.length = 24 + bodyLength (framePriority bits) →
      (BusReader.counting 7).readAll (false :: bits) = .counting 0)) ∧
  (∀ n : Nat, n < 7 → (BusReader.counting n).read false = .counting 0) ∧
  (∀ n : Nat, ((BusReader.counting 0).readAll (List.replicate n true)).idle = decide (7 ≤ n)) ∧
  (∀ (before : List Bool) (rivals : List Rival) (n : Notice) (s : State), s.boot.startup = .ready →
    s.bus.state = .active → s.bus.holder = some n → s.bus.sending = false →
    ((s.bus.reader.readAll before).idle = true →
      ∃ t, exec (.frameTransmitStart before rivals) s = .next t ∧
        t.bus.sending = (arbitrate (arbitration s.boot.peerId n) rivals).1 ∧ t.bus.reader = .following [] ∧
        ((arbitrate (arbitration s.boot.peerId n) rivals).1 = false →
          t = { s with bus := { s.bus with reader := .following [] } }) ∧
        (∀ bits, .midFrame bits ∈ rivals →
          (readsDominant (arbitration s.boot.peerId n) bits = true → t.bus.sending = false) ∧
          (t.bus.sending = true → readsDominant (drivenAfter s.boot.peerId n) (bits.drop 5) = true →
            t.bus.clashSeen = true)) ∧
        (t.bus.sending = true → (∀ r ∈ rivals, readsDominant (drivenAfter s.boot.peerId n) ((rivalBits r).drop 5) = false) →
          t.bus.clashSeen = false) ∧
        t = { s with bus := { s.bus with sending := t.bus.sending, clashSeen := t.bus.clashSeen, reader := t.bus.reader } }) ∧
    ((s.bus.reader.readAll before).idle = false →
      exec (.frameTransmitStart before rivals) s =
        .next { s with bus := { s.bus with reader := s.bus.reader.readAll before } }))

/-- R129: of the stations that begin together the one with the lowest arbitration field wins, unless a station in the middle of a frame
drives dominant at one of its recessive bits. -/
def Obligations.LowestArbitrationWins : Prop :=
  ∀ (own : List Bool) (rivals : List Rival), (∀ bits, .begins bits ∈ rivals → bits.length ≥ own.length) →
    ((arbitrate own rivals).1 = true ↔
      (∀ bits, .midFrame bits ∈ rivals → readsDominant own bits = false) ∧
      ∀ bits, .begins bits ∈ rivals → natOfBits own ≤ natOfBits (bits.take own.length))

/-- R130, R193, R194, 11.3: the frame a T416 sends is well-formed for every station that reads it undisturbed, and the notice read
from it is the notice sent, with every field at every value its body admits. -/
def Obligations.FrameCarriesItsNotice : Prop :=
  (∀ (p : PeerNo) (n : Notice), frameWellFormed (frameBits p n) = true ∧ frameSender (frameBits p n) = p) ∧
  (∀ (p : PeerNo) (l : LaneNo) (st : LaneState) (w : Nat), 1 ≤ w → w ≤ 255 →
    heardNotice (frameBits p (.lane l st w)) = some (.lane l st w)) ∧
  (∀ (p : PeerNo) (tag : Nat) (e : BitVec 8) (l : LaneNo) (b : Nat), tag < 2 ^ 14 → b < 2 ^ 20 →
    heardNotice (frameBits p (.release tag e (nodeLaneOf p l) b)) = some (.release tag e (nodeLaneOf p l) b)) ∧
  (∀ (p : PeerNo) (tag : Nat) (e : BitVec 8) (l : LaneNo) (b : Nat) (k : Tick), tag < 2 ^ 14 → b < 2 ^ 20 →
    heardNotice (frameBits p (.claim tag e (nodeLaneOf p l) b k)) = some (.claim tag e (nodeLaneOf p l) b k)) ∧
  (∀ (p : PeerNo) (tag : Nat) (e : BitVec 8) (a : Nat), tag < 2 ^ 14 → a < 2 ^ 20 →
    heardNotice (frameBits p (.demand tag e a)) = some (.demand tag e a))

/-- R132, R133, R134, R141, R142, R147, R148, R150, R151, R176: what a notice heard from another peer in READY does. Its peer is PRESENT
with the node time of delivery, and announced if it was ABSENT. A LANE notice sets the lane directory entry, and when a LIVE lane leaves
LIVE every view that holds it in its live set is re-based over the weights the directory then holds. A DEMAND gives the view of its tag
epoch, A, live set and shares afresh, claimed 0, and clears release waits and marks; own pending stays. A CLAIM joins the claim list, from
a full one the earliest end tick leaving first, and raises the lane's claimed bytes up to its share in the view's own epoch. A RELEASE
that the view admits lowers the lane's share, excludes the lane and splits the amount over the live lanes not excluded, or lowers A with
none left; one it does not admit changes no view. In every case lanes change in their rings only and streams in their deficit only: the
rings follow the allowances of the views that change (R30, R31, R145; of several views of one change in rising index, and a stream that
leaves one ring and joins another at one event keeps its deficit: the model's choices, logs 35 and 45), where the weights that split a
RELEASE are those the directory holds, also one that changed since the last DEMAND or re-base (the model's choice, log 47). In LISTENING a
delivery sets the directories likewise and queues no message. A well-formed frame of the chip's own identity that it did not send changes
no directory and no view: ACTIVE is muted with cause ID_CLASH, LISTEN-ONLY records the clash, and MUTE(VOID_LIMIT) becomes MUTE(ID_CLASH)
with its BUS_STATE message alone (log 15). In LOADING and HALTED nothing is delivered. -/
def Obligations.LaneNoticeHeardSetsDirectories : Prop :=
  (∀ (bits : List Bool) (s : State), s.boot.startup = .loading ∨ s.boot.startup = .halted →
    exec (.frameDelivery bits) s = .next s) ∧
  (∀ (bits : List Bool) (s : State), s.boot.startup = .listening ∨ s.boot.startup = .ready → frameWellFormed bits = true →
    frameSender bits = s.boot.peerId → s.bus.holder = none ∨ s.bus.sending = false →
    let left := { s.bus with reader := .counting 0, sending := false, clashSeen := false }
    (s.bus.state = .active → ∃ t, exec (.frameDelivery bits) s = .next t ∧ Muted .idClash s t) ∧
    (s.bus.state = .listenOnly → exec (.frameDelivery bits) s = .next { s with bus := { left with clash := true } }) ∧
    (s.bus.state = .mute .idClash → exec (.frameDelivery bits) s = .next { s with bus := left }) ∧
    (s.bus.state = .mute .voidLimit → s.port.statusQueue.length < 32 →
      exec (.frameDelivery bits) s = .next { s with
        bus := { left with state := .mute .idClash },
        port := { s.port with statusQueue := s.port.statusQueue ++ [.busState (some .idClash)] } })) ∧
  (∀ (bits : List Bool) (p : PeerNo) (s : State), s.boot.startup = .listening → frameWellFormed bits = true →
    frameSender bits = p → p ≠ s.boot.peerId →
    ∃ t, exec (.frameDelivery bits) s = .next t ∧ t.port = s.port ∧
      t.bus = { s.bus with
        reader := .counting 0, sending := false, clashSeen := false, peers := s.bus.peers.set p.val (.present s.nodeTime),
        lanes := t.bus.lanes } ∧
      (∀ l st w, heardNotice bits = some (.lane l st w) →
        t.bus.lanes = s.bus.lanes.set (nodeLaneOf p l).val (some { state := st, weight := w }) ∧
        (s.directoryLive (nodeLaneOf p l) = true → st ≠ .live → LanesRebased [nodeLaneOf p l] s t) ∧
        (s.directoryLive (nodeLaneOf p l) = false ∨ st = .live →
          t.views = s.views ∧ t.table = s.table ∧ t.lanes = s.lanes)) ∧
      ((∀ l st w, heardNotice bits ≠ some (.lane l st w)) → t.bus.lanes = s.bus.lanes) ∧
      (∀ k, t.lane k = { s.lane k with rings := (t.lane k).rings }) ∧
      t = { s with bus := t.bus, views := t.views, table := t.table, lanes := t.lanes }) ∧
  ∀ (p : PeerNo) (l : LaneNo) (s : State), p ≠ s.boot.peerId → s.boot.startup = .ready →
    let announced := fun t : State => s.port.statusQueue.length < 32 → t.port = { s.port with
      statusQueue := if s.bus.peers[p.val] = .absent then s.port.statusQueue ++ [.peerState p true] else s.port.statusQueue }
    let ringsOnly := fun t : State => ∀ k, t.lane k = { s.lane k with rings := (t.lane k).rings }
    (∀ (st : LaneState) (w : Nat), 1 ≤ w → w ≤ 255 → s.port.statusQueue.length < 32 →
      ∃ t, exec (.frameDelivery (frameBits p (.lane l st w))) s = .next t ∧
        t.bus = { s.bus with
          reader := .counting 0, sending := false, clashSeen := false, peers := s.bus.peers.set p.val (.present s.nodeTime),
          lanes := s.bus.lanes.set (nodeLaneOf p l).val (some { state := st, weight := w }) } ∧
        t.port.statusQueue = (if s.bus.peers[p.val] = .absent then s.port.statusQueue ++ [.peerState p true]
          else s.port.statusQueue) ∧
        (s.directoryLive (nodeLaneOf p l) = true → st ≠ .live →
          t.views = s.views.map fun v =>
            if v.live.any (fun x => x.lane == nodeLaneOf p l) then
              let remaining := (v.live.map fun x => x.share - x.claimed).sum
              let stay := v.live.filter fun x => x.lane != nodeLaneOf p l
              { v with
                announced := remaining,
                live := stay.map fun x => { x with
                  claimed := 0,
                  share := if x.excluded then 0
                    else splitPart t.weightOf remaining ((stay.filter fun y => !y.excluded).map (·.lane)) x.lane } }
            else v) ∧
        (s.directoryLive (nodeLaneOf p l) = false ∨ st = .live →
          t.views = s.views ∧ t.table = s.table ∧ t.lanes = s.lanes) ∧
        (s.directoryLive (nodeLaneOf p l) = true → st ≠ .live → LanesRebased [nodeLaneOf p l] s t) ∧ ringsOnly t ∧
        t = { s with bus := t.bus, port := { s.port with statusQueue := t.port.statusQueue }, views := t.views,
                     table := t.table, lanes := t.lanes }) ∧
    (∀ (tag : Nat) (e : BitVec 8) (a : Nat) (v : View), tag < 2 ^ 14 → a < 2 ^ 20 → s.viewOf tag = some v →
      ∃ t, exec (.frameDelivery (frameBits p (.demand tag e a))) s = .next t ∧
        t.viewOf tag = some { v with
          epoch := e, announced := a, claims := v.claims.filter fun c => countAfter c.endTick s.nodeTime,
          live := (v.set.filter s.directoryLive).map fun n =>
            { lane := n, share := splitPart s.weightOf a (v.set.filter s.directoryLive) n, claimed := 0, excluded := false },
          own := v.own.map fun o => { o with waits := 0, sent := false } } ∧
        (∀ m, m ≠ tag → t.viewOf m = s.viewOf m) ∧ RingsFollow [v.entry] s t ∧ ringsOnly t ∧ announced t ∧
        t.bus = { s.bus with
          reader := .counting 0, sending := false, clashSeen := false, peers := s.bus.peers.set p.val (.present s.nodeTime) } ∧
        t = { s with bus := t.bus, port := t.port, views := t.views, table := t.table, lanes := t.lanes }) ∧
    (∀ (tag : Nat) (e : BitVec 8) (b : Nat) (k : Tick) (v : View), tag < 2 ^ 14 → b < 2 ^ 20 → s.viewOf tag = some v →
      ∃ t v', exec (.frameDelivery (frameBits p (.claim tag e (nodeLaneOf p l) b k))) s = .next t ∧
        t.viewOf tag = some v' ∧
        v' = { v with
          claims := v'.claims,
          live := v.live.map fun x => if e = v.epoch ∧ x.lane = nodeLaneOf p l then
            { x with claimed := min (x.claimed + b) x.share } else x } ∧
        ClaimJoined s.nodeTime { lane := nodeLaneOf p l, bytes := b, endTick := k } v.claims v'.claims ∧
        (∀ m, m ≠ tag → t.viewOf m = s.viewOf m) ∧ RingsFollow [v.entry] s t ∧ ringsOnly t ∧ announced t ∧
        t.bus = { s.bus with
          reader := .counting 0, sending := false, clashSeen := false, peers := s.bus.peers.set p.val (.present s.nodeTime) } ∧
        t = { s with bus := t.bus, port := t.port, views := t.views, table := t.table, lanes := t.lanes }) ∧
    (∀ (tag : Nat) (e : BitVec 8) (b : Nat) (v : View), tag < 2 ^ 14 → b < 2 ^ 20 → s.viewOf tag = some v →
      ∃ t, exec (.frameDelivery (frameBits p (.release tag e (nodeLaneOf p l) b))) s = .next t ∧
        (∀ x, e = v.epoch → v.share? (nodeLaneOf p l) = some x → x.excluded = false →
          let others := (v.live.filter fun y => !y.excluded && y.lane != nodeLaneOf p l).map (·.lane)
          let amount := min b (x.share - x.claimed)
          t.viewOf tag = some { v with
            announced := if others.isEmpty then v.announced - amount else v.announced,
            live := v.live.map fun y =>
              if y.lane = nodeLaneOf p l then { y with share := y.share - amount, excluded := true }
              else if y.excluded then y
              else { y with share := y.share + splitPart s.weightOf amount others y.lane } }) ∧
        (e ≠ v.epoch ∨ (∀ x, v.share? (nodeLaneOf p l) = some x → x.excluded = true) → t.viewOf tag = some v) ∧
        (∀ m, m ≠ tag → t.viewOf m = s.viewOf m) ∧ RingsFollow [v.entry] s t ∧ ringsOnly t ∧ announced t ∧
        t.bus = { s.bus with
          reader := .counting 0, sending := false, clashSeen := false, peers := s.bus.peers.set p.val (.present s.nodeTime) } ∧
        t = { s with bus := t.bus, port := t.port, views := t.views, table := t.table, lanes := t.lanes })

/-- R92, R131, R137, R139, R140, R142, R148, R149, R151: the echo empties the holder of its notice, resets the void count and restarts the
refresh measure. The head of the queue then moves into the holder, and a LANE notice owed takes the place that frees; with an empty queue
the holder is empty afterwards. The notice is applied: the echo of a CLAIM of an own lane moves its bytes out of that lane's own pending,
not below 0, and in the view's own epoch into the lane's claimed bytes, and the claim joins the claim list, from a full one the earliest
end tick leaving first; that of a LANE notice sets the own lane's directory entry, and re-bases the views when the lane leaves LIVE; those
of a DEMAND and of a RELEASE do what they do when heard from a peer (`LaneNoticeHeardSetsDirectories`; the weights of a RELEASE: the
model's choice, log 47). Lanes change in their rings and owed marks only, and the rings follow the allowances (of several views of one
change in rising index, and a stream that leaves one ring and joins another at one event keeps its deficit: the model's choices, logs 35
and 45). -/
def Obligations.EchoEndsAttempt : Prop :=
  ∀ (n : Notice) (s : State), s.boot.startup = .ready → s.bus.state = .active → s.bus.holder = some n →
    s.bus.sending = true → s.bus.clashSeen = false → s.bus.queue.length ≤ 64 →
    ∃ t, exec (.frameDelivery (frameBits s.boot.peerId n)) s = .next t ∧
      (s.bus.queue = [] → t.bus = { s.bus with
        holder := none, voidCount := 0, sending := false, clashSeen := false, reader := .counting 0, refreshAt := s.nodeTime,
        lanes := t.bus.lanes } ∧ ∀ k, (t.lane k).owed = (s.lane k).owed) ∧
      (s.bus.queue ≠ [] → HolderFilled { s.bus with
        sending := false, clashSeen := false, reader := .counting 0, refreshAt := s.nodeTime, lanes := t.bus.lanes }
        s.bus.queue s t) ∧
      (∀ tag e l b k v, n = .claim tag e (s.nodeLane l) b k → tag < 2 ^ 14 → b < 2 ^ 20 → s.viewOf tag = some v →
        ∃ v', t.viewOf tag = some v' ∧
          v' = { v with
            claims := v'.claims,
            own := v.own.map fun o => if o.lane = l then { o with pending := o.pending - b } else o,
            live := v.live.map fun x => if e = v.epoch ∧ x.lane = s.nodeLane l then
              { x with claimed := min (x.claimed + b) x.share } else x } ∧
          ClaimJoined s.nodeTime { lane := s.nodeLane l, bytes := b, endTick := k } v.claims v'.claims ∧
          (∀ m, m ≠ tag → t.viewOf m = s.viewOf m) ∧ RingsFollow [v.entry] s t) ∧
      (∀ l st w, n = .lane l st w → 1 ≤ w → w ≤ 255 →
        t.bus.lanes = s.bus.lanes.set (s.nodeLane l).val (some { state := st, weight := w }) ∧
        (s.directoryLive (s.nodeLane l) = true → st ≠ .live → LanesRebased [s.nodeLane l] s t) ∧
        (s.directoryLive (s.nodeLane l) = false ∨ st = .live →
          t.views = s.views ∧ t.table = s.table ∧ ∀ k, (t.lane k).rings = (s.lane k).rings)) ∧
      ((∀ l st w, n ≠ .lane l st w) → t.bus.lanes = s.bus.lanes) ∧
      (∀ tag e a v, n = .demand tag e a → tag < 2 ^ 14 → a < 2 ^ 20 → s.viewOf tag = some v →
        t.viewOf tag = some (v.heardDemand s e a) ∧ (∀ m, m ≠ tag → t.viewOf m = s.viewOf m) ∧ RingsFollow [v.entry] s t) ∧
      (∀ tag e l b v, n = .release tag e (s.nodeLane l) b → tag < 2 ^ 14 → b < 2 ^ 20 → s.viewOf tag = some v →
        t.viewOf tag = some (v.heardRelease s e (s.nodeLane l) b) ∧ (∀ m, m ≠ tag → t.viewOf m = s.viewOf m) ∧
        RingsFollow [v.entry] s t) ∧
      (∀ k, t.lane k = { s.lane k with rings := (t.lane k).rings, owed := (t.lane k).owed }) ∧
      t = { s with bus := t.bus, views := t.views, table := t.table, lanes := t.lanes }

/-- R129, R130, R131, R132, R134, R145: a station that did not send a voided frame, or reads in it another arbitration field than its own,
discards it. The sender's voided attempt below the limit raises the void count and keeps the notice; the eighth mutes the chip with cause
VOID_LIMIT. A sender that read a level it did not drive drives the void slot and is muted with cause ID_CLASH. The entry to MUTE empties
holder and queue, clears every owed mark, queues BUS_STATE, and clears every view: live set, claim list, and on every own lane own
pending, release-wait count and release-sent mark; epoch and announced demand are kept. No view leaves an allowance, and the streams of
the views leave their rings, with deficit 0 in none. -/
def Obligations.VoidedFrameRetriesOrMutes : Prop :=
  (∀ (bits : List Bool) (s : State), (s.bus.sending = true → s.bus.holder.any (fun n =>
      readBits bits 5 == arbitration s.boot.peerId n) = false) → frameWellFormed bits = false →
    exec (.frameVoided bits) s =
      .next { s with bus := { s.bus with reader := .counting 0, sending := false, clashSeen := false } }) ∧
  (∀ (n : Notice) (bits : List Bool) (s : State), s.bus.state = .active → s.bus.holder = some n → s.bus.sending = true →
    readBits bits 5 = arbitration s.boot.peerId n → s.readBack bits = true →
    s.drivesVoid bits = true ∧ ∃ t, exec (.frameVoided bits) s = .next t ∧ Muted .idClash s t) ∧
  (∀ (n : Notice) (bits : List Bool) (s : State), s.bus.state = .active → s.bus.holder = some n → s.bus.sending = true →
    readBits bits 5 = arbitration s.boot.peerId n → s.readBack bits = false → frameWellFormed bits = false →
    (s.bus.voidCount < 7 → exec (.frameVoided bits) s =
      .next { s with bus := { s.bus with
        voidCount := s.bus.voidCount + 1, sending := false, clashSeen := false, reader := .counting 0 } }) ∧
    (7 ≤ s.bus.voidCount → ∃ t, exec (.frameVoided bits) s = .next t ∧ Muted .voidLimit s t))

/-- R133, R141, R143, R151: a PRESENT peer unheard for one silence limit becomes ABSENT, with its four lanes, in LISTENING and in READY
alike; in READY it is announced, in LISTENING no message is queued. Those of its lanes that were LIVE leave the live sets as one change:
each view that holds any of them is re-based once, and the rings follow (of several views in rising index, and a stream that leaves one
ring and joins another at one event keeps its deficit: the model's choices, logs 35 and 45). Before that tick, and in LOADING and HALTED,
nothing changes. -/
def Obligations.SilentPeerBecomesAbsent : Prop :=
  ∀ (p : PeerNo) (heard : Tick) (s : State), s.bus.peers[p.val] = .present heard →
    let reached := countReached (tickAdd heard (s.params.silenceMs * 20000)) s.nodeTime
    (s.boot.startup = .loading ∨ s.boot.startup = .halted ∨ reached = false → exec (.peerSilence p) s = .next s) ∧
    (s.boot.startup = .listening ∨ s.boot.startup = .ready → reached = true →
      ∃ t, exec (.peerSilence p) s = .next t ∧
        t.bus = { s.bus with peers := s.bus.peers.set p.val .absent, lanes := t.bus.lanes } ∧
        (∀ l, t.bus.lanes[(nodeLaneOf p l).val] = none) ∧
        (∀ n : NodeLane, ownerOf n ≠ p → t.bus.lanes[n.val] = s.bus.lanes[n.val]) ∧
        (s.boot.startup = .listening → t.port = s.port) ∧
        (s.boot.startup = .ready → t.port = if s.port.statusQueue.length < 32
          then { s.port with statusQueue := s.port.statusQueue ++ [.peerState p false] } else { s.port with overflow := true }) ∧
        LanesRebased ((allLanes.map (nodeLaneOf p)).filter s.directoryLive) s t ∧
        (∀ k, t.lane k = { s.lane k with rings := (t.lane k).rings }) ∧
        t = { s with bus := t.bus, port := t.port, views := t.views, table := t.table, lanes := t.lanes })

/-- R135, R137, R139: two silence limits after a VOID_LIMIT mute the chip is ACTIVE again, with its refresh measure restarted and
BUS_STATE queued. A LANE notice of every fitted lane is offered, in rising order, with the state and weight it holds: the first in the
holder, the others in the queue. The premises of that clause (no notice, no owed mark) hold in every safe state that is not ACTIVE. -/
def Obligations.MuteRecoveryReactivates : Prop :=
  ∀ s : State, s.bus.state = .mute .voidLimit →
    countReached (tickAdd s.bus.mutedAt (2 * (s.params.silenceMs * 20000))) s.nodeTime = true →
    s.port.statusQueue.length < 32 →
    ∃ t, exec .muteRecovery s = .next t ∧ t.bus.state = .active ∧ t.bus.refreshAt = s.nodeTime ∧
      t.port = { s.port with statusQueue := s.port.statusQueue ++ [.busState none] } ∧
      (s.bus.holder = none → s.bus.queue = [] → (∀ l, (s.lane l).owed = false) →
        let notices := s.fittedLanes.map fun l => Notice.lane l (s.laneState l) (s.lane l).health.weight
        t.bus = { s.bus with
          state := .active, refreshAt := s.nodeTime, refreshNext := s.fittedLanes.headD 0, holder := notices.head?,
          queue := notices.tail, voidCount := if notices = [] then s.bus.voidCount else 0 } ∧ t.lanes = s.lanes) ∧
      (∀ l, t.lane l = { s.lane l with owed := (t.lane l).owed }) ∧
      t = { s with bus := t.bus, port := t.port, lanes := t.lanes }

/-- R140: half a silence limit without an echo, with holder and queue empty, a LANE notice of the next lane in turn goes out with
the state and weight it holds. -/
def Obligations.RefreshQueuesLaneNotice : Prop :=
  ∀ s : State, s.bus.state = .active → s.bus.holder = none → s.bus.queue = [] → s.fittedLanes ≠ [] →
    (∀ l, (s.lane l).owed = false) →
    countReached (tickAdd s.bus.refreshAt (s.params.silenceMs * 20000 / 2)) s.nodeTime = true →
    exec .refresh s = .next { s with bus := { s.bus with
      holder := some (.lane s.bus.refreshNext (s.laneState s.bus.refreshNext) (s.lane s.bus.refreshNext).health.weight),
      voidCount := 0, refreshNext := s.refreshAfter s.bus.refreshNext } }

/-- R146: a split of X over a set of lanes of total weight W gives each lane ⌊X × w / W⌋, and the remainder besides to the lowest node
lane; every byte is given, none outside the set, and nothing over an empty set. The weights of the splits of a heard DEMAND, a heard
RELEASE and a re-base are those the lane directory holds at that moment; a later change of the directory leaves shares already made. That
a RELEASE heard between a change of weight and the next DEMAND or re-base of the view is split with the new weight, as R146 says and R159
does not, is the model's choice (log 47). -/
def Obligations.SplitIsProportional : Prop :=
  (∀ (weight : NodeLane → Nat) (x : Nat) (set : List NodeLane), set.Nodup →
    (∀ n ∈ set, (∃ m ∈ set, m < n) → splitPart weight x set n = x * weight n / (set.map weight).sum) ∧
    (∀ n ∈ set, (∀ m ∈ set, n ≤ m) → splitPart weight x set n = x * weight n / (set.map weight).sum +
      (x - (set.map fun m => x * weight m / (set.map weight).sum).sum)) ∧
    (0 < (set.map weight).sum → (set.map (splitPart weight x set)).sum = x) ∧
    (∀ n, n ∉ set → splitPart weight x set n = 0)) ∧
  (∀ (v : View) (s : State),
    (∀ (n : NodeLane) (a : LaneAd), s.bus.lanes[n.val] = some a → s.weightOf n = a.weight) ∧
    (∀ epoch amount, ∀ x ∈ (v.heardDemand s epoch amount).live,
      x.share = splitPart s.weightOf amount ((v.heardDemand s epoch amount).live.map (·.lane)) x.lane) ∧
    (∀ leaving, ∀ x ∈ (v.rebase s leaving).live, x.excluded = false →
      x.share = splitPart s.weightOf (v.rebase s leaving).announced
        (((v.rebase s leaving).live.filter fun y => !y.excluded).map (·.lane)) x.lane) ∧
    (∀ epoch n bytes, ((v.heardRelease s epoch n bytes).live.map (·.share)) = v.live.map (·.share) ∨
      ∃ amount, ((v.heardRelease s epoch n bytes).live.map (·.share)) = v.live.map fun y =>
        if y.lane = n then y.share - amount
        else if y.excluded then y.share
        else y.share + splitPart s.weightOf amount
          ((v.live.filter fun z => !z.excluded && z.lane != n).map (·.lane)) y.lane) ∧
    (∀ (n : NodeLane) (a : Option LaneAd), (setDirectory n a s).views = s.views))

/-- R30, R145, R154: a release wait that is reached, with notices taken, offers a RELEASE of the whole allowance, which joins the tail of
the queue, or goes through it into an empty holder. Release-sent is set, the allowance on the lane is 0 afterwards, and the stream leaves
the lane's ring. Declined, at a full queue or on a bus that is not ACTIVE, it changes nothing but that the offer is no longer due: it is
due again at the next completed build of the lane (`CompletionQueuesPlan`). -/
def Obligations.ReleaseWaitOffersRelease : Prop :=
  ∀ (i : Nat) (l : LaneNo) (v : View) (s : State), (i, l) ∈ s.releaseDue → s.view? i = some v →
    s.viewOf v.tag = some v → releaseReached s.params s.boot.peerId v l = true →
    let note := Notice.release v.tag v.epoch (s.nodeLane l) (allowance s.boot.peerId v l)
    let due := s.releaseDue.filter fun d => d != (i, l)
    (s.bus.state = .active → s.bus.queue.length < 64 →
      ∃ t, exec (.releaseWait i l) s = .next t ∧ note ∈ t.bus.holder.toList ++ t.bus.queue ∧
        NoticeOffered (fun _ => false) none note s t ∧
        t.viewOf v.tag = some { v with own := v.own.map fun o => if o.lane = l then { o with sent := true } else o } ∧
        (∀ tag, tag ≠ v.tag → t.viewOf tag = s.viewOf tag) ∧
        (∀ v', t.viewOf v.tag = some v' → allowance s.boot.peerId v' l = 0) ∧
        RingsFollow [v.entry] s t ∧
        (∀ e, t.entry? v.entry = some e → e.tag = v.tag → e.isSpread = true → ∀ c, v.entry ∉ t.ring l c) ∧
        (∀ k, t.lane k = { s.lane k with rings := (t.lane k).rings, owed := (t.lane k).owed }) ∧ t.releaseDue = due ∧
        t = { s with bus := t.bus, views := t.views, releaseDue := t.releaseDue, table := t.table, lanes := t.lanes }) ∧
    (s.bus.state ≠ .active ∨ 64 ≤ s.bus.queue.length → exec (.releaseWait i l) s = .next { s with releaseDue := due })

/-! ### Orders and replies -/

/-- R179: outside READY every well-formed order but STATUS is refused with NOT_READY, and nothing else changes. -/
def Obligations.OrdersRefusedBeforeReady : Prop :=
  ∀ (seq : Byte) (s : State), s.boot.startup ≠ .ready →
    (∀ f, admitMalformed f = false → exec (.admitOrder seq f) s = .next (refuse seq .notReady s)) ∧
    (∀ f, exec (.amend seq f) s = .next (refuse seq .notReady s)) ∧
    (∀ tag, exec (.retire seq tag) s = .next (refuse seq .notReady s)) ∧
    (∀ f, exec (.cadenceOpen seq f) s = .next (refuse seq .notReady s)) ∧
    (∀ k, exec (.cadenceClose seq k) s = .next (refuse seq .notReady s)) ∧
    (∀ l w, exec (.laneUp seq l w) s = .next (refuse seq .notReady s)) ∧
    (∀ l, exec (.laneDown seq l) s = .next (refuse seq .notReady s)) ∧
    (∀ x v, selectorMalformed x = false → exec (.readStream seq x v) s = .next (refuse seq .notReady s)) ∧
    exec (.readNext seq) s = .next (refuse seq .notReady s) ∧
    (∀ k, exec (.readCadence seq k) s = .next (refuse seq .notReady s)) ∧
    (∀ l c, exec (.readLane seq l c) s = .next (refuse seq .notReady s)) ∧
    exec (.readPeers seq) s = .next (refuse seq .notReady s) ∧ exec (.fetchStatus seq) s = .next (refuse seq .notReady s)

/-- R26, R30, R32, R33, R34, R144: an ADMIT that fails a check is refused with the reason of the first it fails, and nothing else changes.
An ADMIT of a service stream that passes every check, under a tag that is not mapped, fills the lowest FREE entry, ADMITTED, with no
demand and no turns, and maps its tag; a non-spread one takes its home lane and its poll interval, and a spread one its spread set and the
lowest view that is not in use, which is created with nothing in it, and no poll interval. An ADMIT that upgrades a BASIC station makes it
ADMITTED with no admit countdown; it keeps entry, tag, address, home lane and alignment record, and takes the ordered class, mode,
quantum, poll interval and profile as AMEND applies them (a running poll countdown takes the new interval also under the quiet mark: the
model's choice, log 17). That the home lane byte of an upgrade is checked as any other (log 32), and that the CLAMPED note looks at the
quantum and the profiles of the own lanes alone (log 21), is the model's choice. -/
def Obligations.AdmitCreatesStreamOrRefuses : Prop :=
  ∀ (seq : Byte) (f : AdmitFields) (s : State), s.boot.startup = .ready → admitMalformed f = false →
    let answered := fun t : State => ∃ r, t.port = { s.port with holder := .unread r } ∧ r.seq = seq ∧ r.note = .none ∧ r.data = [] ∧
      r.result = (if s.admitClamped f then ReplyResult.clamped else ReplyResult.done)
    (∀ why, s.admitRefusal f = some why → exec (.admitOrder seq f) s = .next (putReply seq .refused why [] s)) ∧
    (∀ n, s.admitRefusal f = none → f.laneCount = 0 → s.lowestFree = some n → s.lookupTag f.tag.toNat = none →
      ∃ t e l, exec (.admitOrder seq f) s = .next t ∧ s.fittedByte f.lanes[0] = some l ∧ t.entry? n = some e ∧
        e.tag = f.tag.toNat ∧ e.state = .admitted ∧ e.cls = f.classMode.toNat % 8 ∧ e.place = .home l ∧ e.demand = 0 ∧
        e.deficit = 0 ∧ e.turns = [] ∧ e.quiet = false ∧ e.quantum = clampQuantum f.quantum.toNat ∧
        e.pollInterval = f.pollInterval.toNat ∧ t.lookupTag f.tag.toNat = some n ∧ (∀ m, m ≠ n → t.entry? m = s.entry? m) ∧
        (∀ x, s.byTag f.parent.toNat = some x → e.parent = x.entry) ∧ e.mode = modeOf f.classMode ∧
        e.profile l = min f.profiles[l.val].toNat 3 ∧ e.noShow = 0 ∧ e.retry = 0 ∧ (∀ k : LaneNo, e.hold[k.val] = none) ∧
        e.pollCountdown = (if 0 < f.pollInterval.toNat then some f.pollInterval.toNat else none) ∧ e.admitCountdown = none ∧
        (∃ r, t.port = { s.port with holder := .unread r } ∧ r.seq = seq ∧ r.note = .none ∧ r.data = [] ∧
          r.result = (if s.admitClamped f then ReplyResult.clamped else ReplyResult.done)) ∧
        t = { s with table := t.table, tagMap := t.tagMap, port := t.port }) ∧
    (∀ n i, s.admitRefusal f = none → 0 < f.laneCount.toNat → s.lowestFree = some n → s.lowestView = some i →
      s.lookupTag f.tag.toNat = none → s.viewOf f.tag.toNat = none →
      ∃ t e, exec (.admitOrder seq f) s = .next t ∧ t.entry? n = some e ∧ e.tag = f.tag.toNat ∧ e.state = .admitted ∧
        (∀ x, s.byTag f.parent.toNat = some x → e.parent = x.entry) ∧ e.cls = f.classMode.toNat % 8 ∧ e.mode = .level ∧
        e.quantum = clampQuantum f.quantum.toNat ∧ e.place = .spread (spreadOf f) i ∧ e.demand = 0 ∧ e.deficit = 0 ∧ e.turns = [] ∧
        e.quiet = false ∧ e.noShow = 0 ∧ e.retry = 0 ∧ (∀ k : LaneNo, e.hold[k.val] = none) ∧ e.pollInterval = 0 ∧
        e.pollCountdown = none ∧ (∀ k : LaneNo, s.nodeLane k ∈ spreadOf f → e.profile k = min f.profiles[k.val].toNat 3) ∧
        t.viewOf e.tag = some {
          index := i, tag := e.tag, entry := n, set := spreadOf f, epoch := 0, announced := 0, live := [], claims := [],
          own := (allLanes.filter fun k => (spreadOf f).contains (s.nodeLane k)).map fun k =>
            { lane := k, pending := 0, waits := 0, sent := false } } ∧
        (∀ tag, tag ≠ e.tag → t.viewOf tag = s.viewOf tag) ∧ t.lookupTag e.tag = some n ∧
        (∀ m, m ≠ n → t.entry? m = s.entry? m) ∧ answered t ∧
        t = { s with table := t.table, tagMap := t.tagMap, views := t.views, port := t.port }) ∧
    (∀ e l, s.admitRefusal f = none → s.byTag f.tag.toNat = some e → e.state = .basic → e.parent = e.entry → f.parent = f.tag →
      e.place = .home l →
      let changed := decide (modeOf f.classMode ≠ e.mode)
      let new : Stream := { e with
        state := .admitted, admitCountdown := none, cls := f.classMode.toNat % 8, mode := modeOf f.classMode,
        quantum := clampQuantum f.quantum.toNat, demand := if changed then 0 else e.demand,
        deficit := if changed then 0 else min e.deficit (4 * clampQuantum f.quantum.toNat),
        turns := if changed then e.turns.map fun x => { x with stale := false } else e.turns, pollInterval := f.pollInterval.toNat,
        pollCountdown := if 0 < f.pollInterval.toNat ∨ e.quiet = true then
            some (if e.pollCountdown = none ∧ e.quiet = true then s.params.quietPoll else f.pollInterval.toNat)
          else none,
        profiles := e.profiles.set l.val (min f.profiles[l.val].toNat 3) }
      ∃ t, exec (.admitOrder seq f) s = .next t ∧ RingsFollow [e.entry] (modEntry e.entry (fun _ => new) s) t ∧
        (∀ k, t.lane k = { s.lane k with rings := (t.lane k).rings }) ∧ answered t ∧
        t = { s with table := t.table, lanes := t.lanes, port := t.port })

/-- R26, R30, R31, R33, R34: AMEND of a tag that is not ADMITTED is refused with BAD_TAG, and one that sets EDGE on a spread stream with
BAD_MODE. An accepted AMEND replaces each field that is not kept. A change of report mode makes demand and deficit 0 and clears every
stale mark; a new quantum holds the deficit to four times it; a new class moves the stream to the tail of its new ring, on each lane
where it belongs in one, and it keeps its place where it stays; a running poll countdown takes the new interval (also under the quiet
mark: the model's choice, log 17), one that comes into being its reload value, and none is left without interval and mark; a profile
above 3 is 3. The deficit is 0 with the stream in no ring. The CLAMPED note looks at the profiles of the own lanes alone: the model's
choice (log 21). -/
def Obligations.AmendReplacesQuantum : Prop :=
  ∀ (seq : Byte) (f : AmendFields) (s : State), s.boot.startup = .ready →
    ((∀ e, s.byTag f.tag.toNat = some e → e.state ≠ .admitted) →
      exec (.amend seq f) s = .next (refuse seq .badTag s)) ∧
    (∀ e, s.byTag f.tag.toNat = some e → e.state = .admitted → f.keep = 251 →
      ∃ t e', exec (.amend seq f) s = .next t ∧ t.entry? e.entry = some e' ∧
        e' = { e with quantum := clampQuantum f.quantum.toNat, deficit := e'.deficit } ∧
        e'.deficit = (if t.inSomeRing e.entry then min e.deficit (4 * clampQuantum f.quantum.toNat) else 0) ∧
        (∀ n, n ≠ e.entry → t.entry? n = s.entry? n) ∧
        (∃ r, t.port = { s.port with holder := .unread r } ∧ r.seq = seq ∧
          r.result = (if clampQuantum f.quantum.toNat = f.quantum.toNat then ReplyResult.done else ReplyResult.clamped)) ∧
        t = { s with table := t.table, lanes := t.lanes, port := t.port }) ∧
    (∀ e, s.byTag f.tag.toNat = some e → e.state = .admitted →
      let kept := fun bit : Nat => f.keep.getLsbD bit
      let changed := !kept 1 && decide (modeOf f.classMode ≠ e.mode)
      let quantum := clampQuantum f.quantum.toNat
      (e.isSpread = true → kept 1 = false → modeOf f.classMode = .edge → exec (.amend seq f) s = .next (refuse seq .badMode s)) ∧
      (¬(e.isSpread = true ∧ kept 1 = false ∧ modeOf f.classMode = .edge) →
        ∃ t new, exec (.amend seq f) s = .next t ∧
          new = { e with
            mode := if kept 1 then e.mode else modeOf f.classMode, demand := if changed then 0 else e.demand,
            turns := if changed then e.turns.map fun x => { x with stale := false } else e.turns,
            quantum := if kept 2 then e.quantum else quantum,
            deficit := if changed then 0 else if kept 2 then e.deficit else min e.deficit (4 * quantum),
            cls := if kept 0 then e.cls else f.classMode.toNat % 8,
            pollInterval := if kept 3 ∨ e.isSpread = true then e.pollInterval else f.pollInterval.toNat,
            pollCountdown := if kept 3 ∨ e.isSpread = true then e.pollCountdown
              else if 0 < f.pollInterval.toNat ∨ e.quiet = true then
                some (if e.pollCountdown = none ∧ e.quiet = true then s.params.quietPoll else f.pollInterval.toNat)
              else none,
            profiles := new.profiles } ∧
          (∀ l : LaneNo, new.profile l =
            if l ∈ ownLanes s.boot.peerId e ∧ kept (4 + l.val) = false then min f.profiles[l.val].toNat 3 else e.profile l) ∧
          RingsFollow [e.entry] (modEntry e.entry (fun _ => new) s) t ∧
          (∀ k, t.lane k = { s.lane k with rings := (t.lane k).rings }) ∧
          t.port = { s.port with holder := .unread { seq := seq, note := .none, data := [], result :=
            if (kept 2 = false ∧ quantum ≠ f.quantum.toNat) ∨
                (∃ l ∈ ownLanes s.boot.peerId e, kept (4 + l.val) = false ∧ 3 < f.profiles[l.val].toNat) then ReplyResult.clamped
            else ReplyResult.done } } ∧
          t = { s with table := t.table, lanes := t.lanes, port := t.port }))

/-- R35, R36, R37, R111, R126: RETIRE of a CLOSING stream is DONE and changes nothing; of an unmapped tag or a PROVISIONAL station it is
refused with BAD_TAG; of a BASIC or ADMITTED stream it is DONE and the entry is CLOSING, or already FREE, afterwards. It is then retired
with its served children, as `Retired` says, in every state in which each entry is found under its tag and has its station: demand and
deficit 0, out of every ring and out of the station index, its view removed, its channels closed with CADENCE_ENDED(RETIRED), an ABORT
correction for a station. Of several children the messages stand in entry order: the model's choice (log 14). -/
def Obligations.RetireClosesStream : Prop :=
  ∀ (seq : Byte) (tag : BitVec 16) (s : State), s.boot.startup = .ready →
    (s.byTag tag.toNat = none → exec (.retire seq tag) s = .next (refuse seq .badTag s)) ∧
    (∀ e, s.byTag tag.toNat = some e →
      (e.state = .provisional → exec (.retire seq tag) s = .next (refuse seq .badTag s)) ∧
      (e.state = .closing → exec (.retire seq tag) s = .next (putReply seq .done .none [] s)) ∧
      (e.served = true → ∃ t, exec (.retire seq tag) s = .next t ∧
        (∀ e', t.entry? e.entry = some e' → e'.state = .closing) ∧
        t.port.holder = .unread { seq := seq, result := .done, note := .none, data := [] } ∧
        (s.tagsOk = true → s.familiesOk = true →
          ∃ u, Retired .order e s u ∧ t = putReply seq .done .none [] u) ∧
        t.bus = s.bus ∧ t.boot = s.boot ∧ t.nodeTime = s.nodeTime))

/-- R98, R99: a CADENCE OPEN is refused with the reason of the first check it fails; one that passes opens the channel RUNNING, or
STANDBY when a channel of the same tag and lane is RUNNING or DRAINING, and is DONE, with CLAMPED when period, payload or jitter is out of
range. A STANDBY channel has no next due; a RUNNING one has the first slice of its form that is not before the lane's horizon, which on a
DARK lane, without horizon, is the first due. The horizon is the next plan start, and the opening plan the plan number, but for a lane
whose build in flight has begun step 1: there each is one interval and one plan further on. -/
def Obligations.CadenceOpenOpensChannel : Prop :=
  ∀ (seq : Byte) (f : CadenceOpenFields) (s : State), s.boot.startup = .ready →
    (∀ why, s.openRefusal f = some why → exec (.cadenceOpen seq f) s = .next (refuse seq why s)) ∧
    (s.openRefusal f = none →
      ∃ t c l, exec (.cadenceOpen seq f) s = .next t ∧ s.fittedByte f.lane = some l ∧
        t.channel? f.channel.toNat = some c ∧ c.tag = f.tag.toNat ∧ c.lane = l ∧ c.firstDue = f.firstDue ∧
        c.initial = f.initialCount.toNat ∧ c.count = f.initialCount.toNat ∧ c.period = clamp 8 65535 f.period.toNat ∧
        c.payload = clamp 1 4096 f.payload.toNat ∧ c.jitter = min f.jitter.toNat 255 ∧ c.misses = 0 ∧ c.unused = 0 ∧
        c.carried = [] ∧ c.lastTurn = none ∧
        c.state = (if s.pairBusy f.tag.toNat l then ChannelState.standby else ChannelState.running) ∧
        c.endAction = (if f.endAction.getLsbD 0 then EndAction.reload else EndAction.stop) ∧ c.finalMark = none ∧
        (s.pairBusy f.tag.toNat l = true → c.nextDue = none) ∧
        (∃ horizon, (∀ b, s.builder = some b → b.lane = l → 1 ≤ b.step →
            horizon = some (sliceAdd b.start s.params.planLength) ∧ c.openingPlan = (s.lane l).planNo + 1) ∧
          ((∀ b, s.builder = some b → b.lane = l → b.step = 0) →
            horizon = (s.lane l).nextPlanStart ∧ c.openingPlan = (s.lane l).planNo) ∧
          (s.pairBusy f.tag.toNat l = false → ∃ due, c.nextDue = some due ∧ (horizon = none → due = f.firstDue) ∧
            ∀ h, horizon = some h → ∀ j < 2 ^ 24, countBefore (sliceAdd f.firstDue (j * c.period)) h = false →
              (∀ i < j, countBefore (sliceAdd f.firstDue (i * c.period)) h = true) →
              due = sliceAdd f.firstDue (j * c.period))) ∧
        (∀ k, k ≠ f.channel.toNat → t.channel? k = s.channel? k) ∧
        (∃ r, t.port = { s.port with holder := .unread r } ∧ r.seq = seq ∧ r.note = .none ∧ r.data = [] ∧
          r.result = (if f.period.toNat < 8 ∨ 65535 < f.period.toNat ∨ f.payload = 0 ∨ 4096 < f.payload.toNat ∨
            255 < f.jitter.toNat then ReplyResult.clamped else ReplyResult.done)) ∧
        t = { s with channels := t.channels, port := t.port })

/-- R100, R101: CADENCE CLOSE of a number above 511 is refused with BAD_CHANNEL, of an IDLE channel is DONE and changes nothing, and of
a STANDBY channel ends it alone with CADENCE_ENDED(CLOSED). Of a RUNNING or DRAINING channel it ends it with that message, and the first
STANDBY channel of the same tag and lane in the list (which the model keeps in number order) enters RUNNING; its next due is the first
slice of its form that is after the ended channel's last turn and not before the lane's horizon. With none, no channel follows. On a
DARK lane, which has no horizon, the due is judged by the last turn alone: the model's choice (log 19). Where no slice of the form meets
both conditions, the spec states no due, and it is the first due: the model's choice (log 39). -/
def Obligations.CadenceCloseEndsChannel : Prop :=
  ∀ (seq : Byte) (k : BitVec 16) (s : State), s.boot.startup = .ready →
    (511 < k.toNat → exec (.cadenceClose seq k) s = .next (refuse seq .badChannel s)) ∧
    (k.toNat ≤ 511 → s.channel? k.toNat = none → exec (.cadenceClose seq k) s = .next (putReply seq .done .none [] s)) ∧
    (∀ c, k.toNat ≤ 511 → s.channel? k.toNat = some c → c.state = .standby → s.port.statusQueue.length < 32 →
      exec (.cadenceClose seq k) s = .next { s with
        channels := s.channels.filter fun d => d.number != c.number,
        port := { s.port with
          statusQueue := s.port.statusQueue ++ [.cadenceEnded c.number c.tag .closed],
          holder := .unread { seq := seq, result := .done, note := .none, data := [] } } }) ∧
    (∀ c, k.toNat ≤ 511 → s.channel? k.toNat = some c → (c.state = .running ∨ c.state = .draining) →
      s.port.statusQueue.length < 32 →
      ∃ t, exec (.cadenceClose seq k) s = .next t ∧
        t.port = { s.port with
          statusQueue := s.port.statusQueue ++ [.cadenceEnded c.number c.tag .closed],
          holder := .unread { seq := seq, result := .done, note := .none, data := [] } } ∧
        t.channel? k.toNat = none ∧
        (let others := s.channels.filter fun d => d.number != c.number
         let next := others.find? fun d => d.state == .standby && d.tag == c.tag && d.lane == c.lane
         (next = none → t.channels = others) ∧
         (∀ d, next = some d →
            t.channels = others.map (fun x =>
              if x.number == d.number then { x with state := .running, nextDue := some (takeoverDue s c x) } else x) ∧
            (∀ j < 2 ^ 24,
              (∀ h, s.horizon c.lane = some h → countBefore (sliceAdd d.firstDue (j * d.period)) h = false) →
              (∀ x, c.lastTurn = some x → countAfter (sliceAdd d.firstDue (j * d.period)) x = true) →
              (∀ i < j, (∃ h, s.horizon c.lane = some h ∧ countBefore (sliceAdd d.firstDue (i * d.period)) h = true) ∨
                (∃ x, c.lastTurn = some x ∧ countAfter (sliceAdd d.firstDue (i * d.period)) x = false)) →
              takeoverDue s c d = sliceAdd d.firstDue (j * d.period)))) ∧
        t = { s with channels := t.channels, port := t.port })

/-- R179, R180, R181, R182, R183, R184: the reads in READY. READ STREAM selects an entry by number or by a mapped tag; a FREE entry is
reported as FREE with its number alone; an unmapped tag and a number above 4095 are refused with BAD_TAG, and READ LANE of a lane that is
not fitted with BAD_LANE. Each other read answers DONE with its report; READ STREAM and READ NEXT move the cursor
(a walk from the reset cursor, or after END, starts at entry 0, the model's reading of R181: log 34), READ LANE then clears the flags
of its clear set, and nothing else changes. The bytes of the reports are the model's reading of R196 where it leaves one open (logs 22
and 37). -/
def Obligations.ReadsReportAndMoveCursor : Prop :=
  ∀ (seq : Byte) (s : State), s.boot.startup = .ready →
    (∀ (v : BitVec 16) (e : Stream), v.toNat < 4096 → s.entry? v.toNat = some e →
      exec (.readStream seq 1 v) s = .next { s with port := { s.port with
        holder := .unread { seq := seq, result := .done, note := .none, data := s.entryReport e },
        cursor := v.toNat, walkStart := false } }) ∧
    (∀ v : BitVec 16, v.toNat < 4096 → s.entry? v.toNat = none →
      exec (.readStream seq 1 v) s = .next { s with port := { s.port with
        holder := .unread { seq := seq, result := .done, note := .none, data := bytesOf 2 v.toNat ++ [0] },
        cursor := v.toNat, walkStart := false } }) ∧
    (∀ v : BitVec 16, 4096 ≤ v.toNat → exec (.readStream seq 1 v) s = .next (refuse seq .badTag s)) ∧
    (∀ (v : BitVec 16) (n : Nat) (e : Stream), s.lookupTag v.toNat = some n → s.entry? n = some e →
      exec (.readStream seq 0 v) s = .next { s with port := { s.port with
        holder := .unread { seq := seq, result := .done, note := .none, data := s.entryReport e },
        cursor := n, walkStart := false } }) ∧
    (∀ v : BitVec 16, s.lookupTag v.toNat = none → exec (.readStream seq 0 v) s = .next (refuse seq .badTag s)) ∧
    (∀ e, s.table.find? (fun e => s.port.walkStart || decide (e.entry > s.port.cursor)) = some e → s.entry? e.entry = some e →
      exec (.readNext seq) s = .next { s with port := { s.port with
        holder := .unread { seq := seq, result := .done, note := .none, data := s.entryReport e },
        cursor := e.entry, walkStart := false } }) ∧
    ((∀ e ∈ s.table, s.port.walkStart = false ∧ e.entry ≤ s.port.cursor) →
      exec (.readNext seq) s = .next { s with port := { s.port with
        holder := .unread { seq := seq, result := .done, note := .endNote, data := [] }, cursor := 4095, walkStart := true } }) ∧
    (∀ k : BitVec 16, 511 < k.toNat → exec (.readCadence seq k) s = .next (refuse seq .badChannel s)) ∧
    (∀ k : BitVec 16, k.toNat ≤ 511 → s.channel? k.toNat = none →
      exec (.readCadence seq k) s = .next (putReply seq .done .none [0] s)) ∧
    (∀ (k : BitVec 16) (c : Channel), k.toNat ≤ 511 → s.channel? k.toNat = some c →
      exec (.readCadence seq k) s = .next (putReply seq .done .none c.report s)) ∧
    (∀ (lane : Byte) (l : LaneNo) (c : BitVec 16), s.fittedByte lane = some l →
      exec (.readLane seq lane c) s = .next (modHealth l (fun h => { h with flags := h.flags &&& ~~~(c.truncate 11) })
        (putReply seq .done .none (s.laneReport l) s))) ∧
    (∀ (lane : Byte) (c : BitVec 16), s.fittedByte lane = none →
      exec (.readLane seq lane c) s = .next (refuse seq .badLane s)) ∧
    exec (.readPeers seq) s = .next (putReply seq .done .none s.peersReport s)

/-- R188: FETCH STATUS in READY removes the oldest message and replies with it and the number still waiting; at an empty queue the
reply is DONE with EMPTY and no message. The message does not return when its reply is overwritten, and the place it frees takes the
next message queued. The bytes of the message in the reply are the model's reading of R196 (log 22). -/
def Obligations.FetchStatusRemovesOldest : Prop :=
  ∀ (seq : Byte) (s : State), s.boot.startup = .ready →
    (∀ m rest, s.port.statusQueue = m :: rest →
      ∃ t, exec (.fetchStatus seq) s = .next t ∧
        t = { s with port := { s.port with
          statusQueue := rest,
          holder := .unread { seq := seq, result := .done, note := .none,
                              data := m.bytes ++ [BitVec.ofNat 8 rest.length] } } } ∧
        (∀ q r n d, (putReply q r n d t).port.statusQueue = rest) ∧
        (∀ m', s.port.statusQueue.length ≤ 32 → (queueStatus m' t).port.statusQueue = rest ++ [m'])) ∧
    (s.port.statusQueue = [] → exec (.fetchStatus seq) s = .next (putReply seq .done .emptyNote [] s))

/-- R185: STATUS is taken in every start-up state; it reports (in the bytes of the model's reading of R196, log 22), clears OVERFLOW, and
clears the summary when its mark is set. -/
def Obligations.StatusReportsAndClears : Prop :=
  ∀ (seq mark : Byte) (s : State), exec (.status seq mark) s = .next { s with port := { s.port with
    holder := .unread { seq := seq, result := .done, note := .none, data := s.statusReport }, overflow := false,
    summary := if mark.getLsbD 0 then false else s.port.summary } }

/-- R178, R195, R196: a malformed order frame is refused with BAD_FORMAT and the sequence number as read; a whole reply transaction reads
an UNREAD reply out and marks it READ, one cut short leaves the holder; a READ reply is read out again with its repeat mark and stays
READ; an EMPTY holder reads out as an empty reply, result 3 with sequence number 0 and no data, and stays EMPTY. A transaction longer than
the reply reads zeros past its last byte. (The count of bits that reads a reply whole is the model's: log 23.) -/
def Obligations.BadFramesAndReplyTransactions : Prop :=
  (∀ (frame : List Byte) (s : State), orderMalformed frame = true →
    exec (.orderBadFormat frame) s = .next (refuse (frame.getD 1 0) .badFormat s)) ∧
  (∀ (n : Nat) (r : Reply) (s : State), s.port.holder = .unread r →
    (8 * (6 + r.data.length) ≤ n → ∃ t, exec (.replyTransaction n) s = .next t ∧
      t = { s with port := { s.port with holder := .read r, replyOut := t.port.replyOut } } ∧
      t.port.replyOut.take (8 * (6 + r.data.length)) = (r.bytes false).flatMap byteBits) ∧
    (n < 8 * (6 + r.data.length) → ∃ t, exec (.replyTransaction n) s = .next t ∧
      t = { s with port := { s.port with replyOut := t.port.replyOut } } ∧
      t.port.replyOut = ((r.bytes false).flatMap byteBits).take n)) ∧
  (∀ (n : Nat) (r : Reply) (s : State), s.port.holder = .read r →
    ∃ t, exec (.replyTransaction n) s = .next t ∧ t = { s with port := { s.port with replyOut := t.port.replyOut } } ∧
      t.port.replyOut = ((r.bytes true).flatMap byteBits ++ List.replicate (n - 8 * (6 + r.data.length)) false).take n) ∧
  (∀ (n : Nat) (s : State), s.port.holder = .empty →
    ∃ t, exec (.replyTransaction n) s = .next t ∧ t = { s with port := { s.port with replyOut := t.port.replyOut } } ∧
      t.port.replyOut = (([0, 3, 0, 0, 0, 0] : List Byte).flatMap byteBits ++ List.replicate (n - 48) false).take n) ∧
  (∀ (r : Reply) (again : Bool), ∃ result note, r.bytes again =
    [r.seq, result, note, if again then 1 else 0] ++ bytesOf 2 r.data.length ++ r.data)

/-! ### Turn arithmetic, encodings and invariants -/

/-- R63, R64, R67, R70: the capacity of a length is 0 up to the header, and above it the data of the full codewords that fit and what the
coded bytes left over hold beyond parity, a short codeword of fewer than K bytes; it is exact in both directions, and never above 65,408;
a whole turn is no longer than Lmax, its payload is at most the amount and at most the capacity of its length. -/
def Obligations.CapacityIsExactAndWholeTurnsFit : Prop :=
  (∀ (p : Profile) (len : Nat), let coded := (len - p.h) * p.s
    let left := coded % (p.k + 2 * p.t)
    (len ≤ p.h → capacity p len = 0) ∧
    (p.h < len → capacity p len = coded / (p.k + 2 * p.t) * p.k + (left - 2 * p.t)) ∧
    (16 ≤ p.k → 2 * p.t < left → left - 2 * p.t < p.k) ∧
    (p.s ≤ 64 → 1 ≤ p.h → len ≤ 1023 → coded ≤ 65408 ∧ capacity p len ≤ 65408)) ∧
  (∀ (p : Profile) (n len : Nat), 16 ≤ p.k → 1 ≤ p.s → 1 ≤ n → (slices p n ≤ len ↔ n ≤ capacity p len)) ∧
  (∀ (z : Sizing) (i n : Nat), 16 ≤ (z.profile i).k → 1 ≤ (z.profile i).s → 1 ≤ n →
    (wholeTurn z i n).1 ≤ z.lmax ∧ (wholeTurn z i n).2 ≤ n ∧
      (wholeTurn z i n).2 ≤ capacity (z.profile i) (wholeTurn z i n).1)

/-- 11.4, R195: the frame of every well-formed order decodes to the order, with every field at every value its bytes admit. -/
def Obligations.OrderFramesRoundTrip : Prop :=
  ∀ (i : Instr) (f : List Byte), WellFormed i → encodeOrder i = some f → decodeOrder f = some i

/-- R9, R19, R20, R22, R24, R27, R30, R31, R32, R33, R36, R37, R39, R73, R75, R95, R97, R98, R99, R104, R111, R114, R117, R134, R137,
R138, R139, R144, R145, R148, R168, R169, R186: every step from a safe state leads to a safe state. In a safe state the fixed-depth queues
are within their depths; a chip that is not ACTIVE holds no notice, the notice queue holds no two DEMAND of a tag, no two CLAIM of a tag,
epoch and lane and no two LANE of a lane, and a LANE owed mark stands at a full queue alone; floors and backoff pairs are in range; the
turns and gaps of a build lie in its interval and overlap neither each other nor one another, as do the turns of a plan; entries and tags
name each other, and the tags of the pool are not mapped; every service stream has its station, which is CLOSING only with it; the station
index holds each address once, just those of the stations that are not CLOSING; a correction queue holds at most one correction for a tag;
demand, turn lists and deficits are in range, the rings hold just the streams R30 gives them, spread ones by their allowances, each once,
and a stream in none has deficit 0; for each tag and lane at most one channel is RUNNING or DRAINING, and one is while one is in STANDBY;
every channel is bound to the tag of a BASIC or ADMITTED stream; every BASIC or ADMITTED spread stream has its view, and every view is
that of one; no lane of a view has claimed more than its share, and the shares sum to no more than the announced demand. -/
def Obligations.EveryStepKeepsSafety : Prop :=
  ∀ s t : State, s.safe = true → step s = .next t → t.safe = true

/-- The state after reset meets that invariant: it is safe. -/
def Obligations.ResetIsSafe : Prop := State.reset.safe = true

end
end

