-- ==== Sys2Proof/Laws/State.lean ====
section
/-! SUPPORT. What each named update of the state leaves as it is, field by field, and what it makes of its own part. All are
true by unfolding; no later proof unfolds a record update. -/

namespace Sys2Proof.Machine

@[simp] theorem modLane_boot (l : LaneNo) (f : Lane → Lane) (s : State) : (modLane l f s).boot = s.boot := rfl
@[simp] theorem modLane_nodeTime (l : LaneNo) (f : Lane → Lane) (s : State) : (modLane l f s).nodeTime = s.nodeTime := rfl
@[simp] theorem modLane_table (l : LaneNo) (f : Lane → Lane) (s : State) : (modLane l f s).table = s.table := rfl
@[simp] theorem modLane_tagMap (l : LaneNo) (f : Lane → Lane) (s : State) : (modLane l f s).tagMap = s.tagMap := rfl
@[simp] theorem modLane_stationIndex (l : LaneNo) (f : Lane → Lane) (s : State) : (modLane l f s).stationIndex = s.stationIndex := rfl
@[simp] theorem modLane_pool (l : LaneNo) (f : Lane → Lane) (s : State) : (modLane l f s).pool = s.pool := rfl
@[simp] theorem modLane_channels (l : LaneNo) (f : Lane → Lane) (s : State) : (modLane l f s).channels = s.channels := rfl
@[simp] theorem modLane_builder (l : LaneNo) (f : Lane → Lane) (s : State) : (modLane l f s).builder = s.builder := rfl
@[simp] theorem modLane_views (l : LaneNo) (f : Lane → Lane) (s : State) : (modLane l f s).views = s.views := rfl
@[simp] theorem modLane_releaseDue (l : LaneNo) (f : Lane → Lane) (s : State) : (modLane l f s).releaseDue = s.releaseDue := rfl
@[simp] theorem modLane_bus (l : LaneNo) (f : Lane → Lane) (s : State) : (modLane l f s).bus = s.bus := rfl
@[simp] theorem modLane_port (l : LaneNo) (f : Lane → Lane) (s : State) : (modLane l f s).port = s.port := rfl
@[simp] theorem modLane_pending (l : LaneNo) (f : Lane → Lane) (s : State) : (modLane l f s).pending = s.pending := rfl

@[simp] theorem modHealth_boot (l : LaneNo) (f : Health → Health) (s : State) : (modHealth l f s).boot = s.boot := rfl
@[simp] theorem modHealth_nodeTime (l : LaneNo) (f : Health → Health) (s : State) : (modHealth l f s).nodeTime = s.nodeTime := rfl
@[simp] theorem modHealth_table (l : LaneNo) (f : Health → Health) (s : State) : (modHealth l f s).table = s.table := rfl
@[simp] theorem modHealth_tagMap (l : LaneNo) (f : Health → Health) (s : State) : (modHealth l f s).tagMap = s.tagMap := rfl
@[simp] theorem modHealth_stationIndex (l : LaneNo) (f : Health → Health) (s : State) : (modHealth l f s).stationIndex = s.stationIndex := rfl
@[simp] theorem modHealth_pool (l : LaneNo) (f : Health → Health) (s : State) : (modHealth l f s).pool = s.pool := rfl
@[simp] theorem modHealth_channels (l : LaneNo) (f : Health → Health) (s : State) : (modHealth l f s).channels = s.channels := rfl
@[simp] theorem modHealth_builder (l : LaneNo) (f : Health → Health) (s : State) : (modHealth l f s).builder = s.builder := rfl
@[simp] theorem modHealth_views (l : LaneNo) (f : Health → Health) (s : State) : (modHealth l f s).views = s.views := rfl
@[simp] theorem modHealth_releaseDue (l : LaneNo) (f : Health → Health) (s : State) : (modHealth l f s).releaseDue = s.releaseDue := rfl
@[simp] theorem modHealth_bus (l : LaneNo) (f : Health → Health) (s : State) : (modHealth l f s).bus = s.bus := rfl
@[simp] theorem modHealth_port (l : LaneNo) (f : Health → Health) (s : State) : (modHealth l f s).port = s.port := rfl
@[simp] theorem modHealth_pending (l : LaneNo) (f : Health → Health) (s : State) : (modHealth l f s).pending = s.pending := rfl

@[simp] theorem modEntry_boot (n : Nat) (f : Stream → Stream) (s : State) : (modEntry n f s).boot = s.boot := rfl
@[simp] theorem modEntry_nodeTime (n : Nat) (f : Stream → Stream) (s : State) : (modEntry n f s).nodeTime = s.nodeTime := rfl
@[simp] theorem modEntry_lanes (n : Nat) (f : Stream → Stream) (s : State) : (modEntry n f s).lanes = s.lanes := rfl
@[simp] theorem modEntry_tagMap (n : Nat) (f : Stream → Stream) (s : State) : (modEntry n f s).tagMap = s.tagMap := rfl
@[simp] theorem modEntry_stationIndex (n : Nat) (f : Stream → Stream) (s : State) : (modEntry n f s).stationIndex = s.stationIndex := rfl
@[simp] theorem modEntry_pool (n : Nat) (f : Stream → Stream) (s : State) : (modEntry n f s).pool = s.pool := rfl
@[simp] theorem modEntry_channels (n : Nat) (f : Stream → Stream) (s : State) : (modEntry n f s).channels = s.channels := rfl
@[simp] theorem modEntry_builder (n : Nat) (f : Stream → Stream) (s : State) : (modEntry n f s).builder = s.builder := rfl
@[simp] theorem modEntry_views (n : Nat) (f : Stream → Stream) (s : State) : (modEntry n f s).views = s.views := rfl
@[simp] theorem modEntry_releaseDue (n : Nat) (f : Stream → Stream) (s : State) : (modEntry n f s).releaseDue = s.releaseDue := rfl
@[simp] theorem modEntry_bus (n : Nat) (f : Stream → Stream) (s : State) : (modEntry n f s).bus = s.bus := rfl
@[simp] theorem modEntry_port (n : Nat) (f : Stream → Stream) (s : State) : (modEntry n f s).port = s.port := rfl
@[simp] theorem modEntry_pending (n : Nat) (f : Stream → Stream) (s : State) : (modEntry n f s).pending = s.pending := rfl

@[simp] theorem modAlignment_boot (n : Nat) (f : Alignment → Alignment) (s : State) : (modAlignment n f s).boot = s.boot := rfl
@[simp] theorem modAlignment_nodeTime (n : Nat) (f : Alignment → Alignment) (s : State) : (modAlignment n f s).nodeTime = s.nodeTime := rfl
@[simp] theorem modAlignment_lanes (n : Nat) (f : Alignment → Alignment) (s : State) : (modAlignment n f s).lanes = s.lanes := rfl
@[simp] theorem modAlignment_tagMap (n : Nat) (f : Alignment → Alignment) (s : State) : (modAlignment n f s).tagMap = s.tagMap := rfl
@[simp] theorem modAlignment_stationIndex (n : Nat) (f : Alignment → Alignment) (s : State) : (modAlignment n f s).stationIndex = s.stationIndex := rfl
@[simp] theorem modAlignment_pool (n : Nat) (f : Alignment → Alignment) (s : State) : (modAlignment n f s).pool = s.pool := rfl
@[simp] theorem modAlignment_channels (n : Nat) (f : Alignment → Alignment) (s : State) : (modAlignment n f s).channels = s.channels := rfl
@[simp] theorem modAlignment_builder (n : Nat) (f : Alignment → Alignment) (s : State) : (modAlignment n f s).builder = s.builder := rfl
@[simp] theorem modAlignment_views (n : Nat) (f : Alignment → Alignment) (s : State) : (modAlignment n f s).views = s.views := rfl
@[simp] theorem modAlignment_releaseDue (n : Nat) (f : Alignment → Alignment) (s : State) : (modAlignment n f s).releaseDue = s.releaseDue := rfl
@[simp] theorem modAlignment_bus (n : Nat) (f : Alignment → Alignment) (s : State) : (modAlignment n f s).bus = s.bus := rfl
@[simp] theorem modAlignment_port (n : Nat) (f : Alignment → Alignment) (s : State) : (modAlignment n f s).port = s.port := rfl
@[simp] theorem modAlignment_pending (n : Nat) (f : Alignment → Alignment) (s : State) : (modAlignment n f s).pending = s.pending := rfl

@[simp] theorem dropTurn_boot (n : Nat) (l : LaneNo) (x : Slice) (s : State) : (dropTurn n l x s).boot = s.boot := rfl
@[simp] theorem dropTurn_nodeTime (n : Nat) (l : LaneNo) (x : Slice) (s : State) : (dropTurn n l x s).nodeTime = s.nodeTime := rfl
@[simp] theorem dropTurn_lanes (n : Nat) (l : LaneNo) (x : Slice) (s : State) : (dropTurn n l x s).lanes = s.lanes := rfl
@[simp] theorem dropTurn_tagMap (n : Nat) (l : LaneNo) (x : Slice) (s : State) : (dropTurn n l x s).tagMap = s.tagMap := rfl
@[simp] theorem dropTurn_stationIndex (n : Nat) (l : LaneNo) (x : Slice) (s : State) : (dropTurn n l x s).stationIndex = s.stationIndex := rfl
@[simp] theorem dropTurn_pool (n : Nat) (l : LaneNo) (x : Slice) (s : State) : (dropTurn n l x s).pool = s.pool := rfl
@[simp] theorem dropTurn_channels (n : Nat) (l : LaneNo) (x : Slice) (s : State) : (dropTurn n l x s).channels = s.channels := rfl
@[simp] theorem dropTurn_builder (n : Nat) (l : LaneNo) (x : Slice) (s : State) : (dropTurn n l x s).builder = s.builder := rfl
@[simp] theorem dropTurn_views (n : Nat) (l : LaneNo) (x : Slice) (s : State) : (dropTurn n l x s).views = s.views := rfl
@[simp] theorem dropTurn_releaseDue (n : Nat) (l : LaneNo) (x : Slice) (s : State) : (dropTurn n l x s).releaseDue = s.releaseDue := rfl
@[simp] theorem dropTurn_bus (n : Nat) (l : LaneNo) (x : Slice) (s : State) : (dropTurn n l x s).bus = s.bus := rfl
@[simp] theorem dropTurn_port (n : Nat) (l : LaneNo) (x : Slice) (s : State) : (dropTurn n l x s).port = s.port := rfl
@[simp] theorem dropTurn_pending (n : Nat) (l : LaneNo) (x : Slice) (s : State) : (dropTurn n l x s).pending = s.pending := rfl

@[simp] theorem appendTurn_boot (n : Nat) (t : Turn) (v : Bool) (s : State) : (appendTurn n t v s).boot = s.boot := rfl
@[simp] theorem appendTurn_nodeTime (n : Nat) (t : Turn) (v : Bool) (s : State) : (appendTurn n t v s).nodeTime = s.nodeTime := rfl
@[simp] theorem appendTurn_lanes (n : Nat) (t : Turn) (v : Bool) (s : State) : (appendTurn n t v s).lanes = s.lanes := rfl
@[simp] theorem appendTurn_tagMap (n : Nat) (t : Turn) (v : Bool) (s : State) : (appendTurn n t v s).tagMap = s.tagMap := rfl
@[simp] theorem appendTurn_stationIndex (n : Nat) (t : Turn) (v : Bool) (s : State) : (appendTurn n t v s).stationIndex = s.stationIndex := rfl
@[simp] theorem appendTurn_pool (n : Nat) (t : Turn) (v : Bool) (s : State) : (appendTurn n t v s).pool = s.pool := rfl
@[simp] theorem appendTurn_channels (n : Nat) (t : Turn) (v : Bool) (s : State) : (appendTurn n t v s).channels = s.channels := rfl
@[simp] theorem appendTurn_builder (n : Nat) (t : Turn) (v : Bool) (s : State) : (appendTurn n t v s).builder = s.builder := rfl
@[simp] theorem appendTurn_views (n : Nat) (t : Turn) (v : Bool) (s : State) : (appendTurn n t v s).views = s.views := rfl
@[simp] theorem appendTurn_releaseDue (n : Nat) (t : Turn) (v : Bool) (s : State) : (appendTurn n t v s).releaseDue = s.releaseDue := rfl
@[simp] theorem appendTurn_bus (n : Nat) (t : Turn) (v : Bool) (s : State) : (appendTurn n t v s).bus = s.bus := rfl
@[simp] theorem appendTurn_port (n : Nat) (t : Turn) (v : Bool) (s : State) : (appendTurn n t v s).port = s.port := rfl
@[simp] theorem appendTurn_pending (n : Nat) (t : Turn) (v : Bool) (s : State) : (appendTurn n t v s).pending = s.pending := rfl

@[simp] theorem modChannel_boot (k : Nat) (f : Channel → Channel) (s : State) : (modChannel k f s).boot = s.boot := rfl
@[simp] theorem modChannel_nodeTime (k : Nat) (f : Channel → Channel) (s : State) : (modChannel k f s).nodeTime = s.nodeTime := rfl
@[simp] theorem modChannel_lanes (k : Nat) (f : Channel → Channel) (s : State) : (modChannel k f s).lanes = s.lanes := rfl
@[simp] theorem modChannel_table (k : Nat) (f : Channel → Channel) (s : State) : (modChannel k f s).table = s.table := rfl
@[simp] theorem modChannel_tagMap (k : Nat) (f : Channel → Channel) (s : State) : (modChannel k f s).tagMap = s.tagMap := rfl
@[simp] theorem modChannel_stationIndex (k : Nat) (f : Channel → Channel) (s : State) : (modChannel k f s).stationIndex = s.stationIndex := rfl
@[simp] theorem modChannel_pool (k : Nat) (f : Channel → Channel) (s : State) : (modChannel k f s).pool = s.pool := rfl
@[simp] theorem modChannel_builder (k : Nat) (f : Channel → Channel) (s : State) : (modChannel k f s).builder = s.builder := rfl
@[simp] theorem modChannel_views (k : Nat) (f : Channel → Channel) (s : State) : (modChannel k f s).views = s.views := rfl
@[simp] theorem modChannel_releaseDue (k : Nat) (f : Channel → Channel) (s : State) : (modChannel k f s).releaseDue = s.releaseDue := rfl
@[simp] theorem modChannel_bus (k : Nat) (f : Channel → Channel) (s : State) : (modChannel k f s).bus = s.bus := rfl
@[simp] theorem modChannel_port (k : Nat) (f : Channel → Channel) (s : State) : (modChannel k f s).port = s.port := rfl
@[simp] theorem modChannel_pending (k : Nat) (f : Channel → Channel) (s : State) : (modChannel k f s).pending = s.pending := rfl

@[simp] theorem modBuild_boot (f : Build → Build) (s : State) : (modBuild f s).boot = s.boot := rfl
@[simp] theorem modBuild_nodeTime (f : Build → Build) (s : State) : (modBuild f s).nodeTime = s.nodeTime := rfl
@[simp] theorem modBuild_lanes (f : Build → Build) (s : State) : (modBuild f s).lanes = s.lanes := rfl
@[simp] theorem modBuild_table (f : Build → Build) (s : State) : (modBuild f s).table = s.table := rfl
@[simp] theorem modBuild_tagMap (f : Build → Build) (s : State) : (modBuild f s).tagMap = s.tagMap := rfl
@[simp] theorem modBuild_stationIndex (f : Build → Build) (s : State) : (modBuild f s).stationIndex = s.stationIndex := rfl
@[simp] theorem modBuild_pool (f : Build → Build) (s : State) : (modBuild f s).pool = s.pool := rfl
@[simp] theorem modBuild_channels (f : Build → Build) (s : State) : (modBuild f s).channels = s.channels := rfl
@[simp] theorem modBuild_views (f : Build → Build) (s : State) : (modBuild f s).views = s.views := rfl
@[simp] theorem modBuild_releaseDue (f : Build → Build) (s : State) : (modBuild f s).releaseDue = s.releaseDue := rfl
@[simp] theorem modBuild_bus (f : Build → Build) (s : State) : (modBuild f s).bus = s.bus := rfl
@[simp] theorem modBuild_port (f : Build → Build) (s : State) : (modBuild f s).port = s.port := rfl
@[simp] theorem modBuild_pending (f : Build → Build) (s : State) : (modBuild f s).pending = s.pending := rfl

@[simp] theorem modBus_boot (f : Bus → Bus) (s : State) : (modBus f s).boot = s.boot := rfl
@[simp] theorem modBus_nodeTime (f : Bus → Bus) (s : State) : (modBus f s).nodeTime = s.nodeTime := rfl
@[simp] theorem modBus_lanes (f : Bus → Bus) (s : State) : (modBus f s).lanes = s.lanes := rfl
@[simp] theorem modBus_table (f : Bus → Bus) (s : State) : (modBus f s).table = s.table := rfl
@[simp] theorem modBus_tagMap (f : Bus → Bus) (s : State) : (modBus f s).tagMap = s.tagMap := rfl
@[simp] theorem modBus_stationIndex (f : Bus → Bus) (s : State) : (modBus f s).stationIndex = s.stationIndex := rfl
@[simp] theorem modBus_pool (f : Bus → Bus) (s : State) : (modBus f s).pool = s.pool := rfl
@[simp] theorem modBus_channels (f : Bus → Bus) (s : State) : (modBus f s).channels = s.channels := rfl
@[simp] theorem modBus_builder (f : Bus → Bus) (s : State) : (modBus f s).builder = s.builder := rfl
@[simp] theorem modBus_views (f : Bus → Bus) (s : State) : (modBus f s).views = s.views := rfl
@[simp] theorem modBus_releaseDue (f : Bus → Bus) (s : State) : (modBus f s).releaseDue = s.releaseDue := rfl
@[simp] theorem modBus_port (f : Bus → Bus) (s : State) : (modBus f s).port = s.port := rfl
@[simp] theorem modBus_pending (f : Bus → Bus) (s : State) : (modBus f s).pending = s.pending := rfl

@[simp] theorem modPort_boot (f : OrderPort → OrderPort) (s : State) : (modPort f s).boot = s.boot := rfl
@[simp] theorem modPort_nodeTime (f : OrderPort → OrderPort) (s : State) : (modPort f s).nodeTime = s.nodeTime := rfl
@[simp] theorem modPort_lanes (f : OrderPort → OrderPort) (s : State) : (modPort f s).lanes = s.lanes := rfl
@[simp] theorem modPort_table (f : OrderPort → OrderPort) (s : State) : (modPort f s).table = s.table := rfl
@[simp] theorem modPort_tagMap (f : OrderPort → OrderPort) (s : State) : (modPort f s).tagMap = s.tagMap := rfl
@[simp] theorem modPort_stationIndex (f : OrderPort → OrderPort) (s : State) : (modPort f s).stationIndex = s.stationIndex := rfl
@[simp] theorem modPort_pool (f : OrderPort → OrderPort) (s : State) : (modPort f s).pool = s.pool := rfl
@[simp] theorem modPort_channels (f : OrderPort → OrderPort) (s : State) : (modPort f s).channels = s.channels := rfl
@[simp] theorem modPort_builder (f : OrderPort → OrderPort) (s : State) : (modPort f s).builder = s.builder := rfl
@[simp] theorem modPort_views (f : OrderPort → OrderPort) (s : State) : (modPort f s).views = s.views := rfl
@[simp] theorem modPort_releaseDue (f : OrderPort → OrderPort) (s : State) : (modPort f s).releaseDue = s.releaseDue := rfl
@[simp] theorem modPort_bus (f : OrderPort → OrderPort) (s : State) : (modPort f s).bus = s.bus := rfl
@[simp] theorem modPort_pending (f : OrderPort → OrderPort) (s : State) : (modPort f s).pending = s.pending := rfl

@[simp] theorem modBoot_nodeTime (f : Boot → Boot) (s : State) : (modBoot f s).nodeTime = s.nodeTime := rfl
@[simp] theorem modBoot_lanes (f : Boot → Boot) (s : State) : (modBoot f s).lanes = s.lanes := rfl
@[simp] theorem modBoot_table (f : Boot → Boot) (s : State) : (modBoot f s).table = s.table := rfl
@[simp] theorem modBoot_tagMap (f : Boot → Boot) (s : State) : (modBoot f s).tagMap = s.tagMap := rfl
@[simp] theorem modBoot_stationIndex (f : Boot → Boot) (s : State) : (modBoot f s).stationIndex = s.stationIndex := rfl
@[simp] theorem modBoot_pool (f : Boot → Boot) (s : State) : (modBoot f s).pool = s.pool := rfl
@[simp] theorem modBoot_channels (f : Boot → Boot) (s : State) : (modBoot f s).channels = s.channels := rfl
@[simp] theorem modBoot_builder (f : Boot → Boot) (s : State) : (modBoot f s).builder = s.builder := rfl
@[simp] theorem modBoot_views (f : Boot → Boot) (s : State) : (modBoot f s).views = s.views := rfl
@[simp] theorem modBoot_releaseDue (f : Boot → Boot) (s : State) : (modBoot f s).releaseDue = s.releaseDue := rfl
@[simp] theorem modBoot_bus (f : Boot → Boot) (s : State) : (modBoot f s).bus = s.bus := rfl
@[simp] theorem modBoot_port (f : Boot → Boot) (s : State) : (modBoot f s).port = s.port := rfl
@[simp] theorem modBoot_pending (f : Boot → Boot) (s : State) : (modBoot f s).pending = s.pending := rfl

@[simp] theorem modBus_self (f : Bus → Bus) (s : State) : (modBus f s).bus = f s.bus := rfl
@[simp] theorem modPort_self (f : OrderPort → OrderPort) (s : State) : (modPort f s).port = f s.port := rfl
@[simp] theorem modBoot_self (f : Boot → Boot) (s : State) : (modBoot f s).boot = f s.boot := rfl
@[simp] theorem modBuild_self (f : Build → Build) (s : State) : (modBuild f s).builder = s.builder.map f := rfl

/-- The lane a lane update names takes its new record. -/
@[simp] theorem modLane_lane_self (l : LaneNo) (f : Lane → Lane) (s : State) : (modLane l f s).lane l = f (s.lane l) := by
  simp [State.lane, modLane]

/-- Every other lane keeps its record. -/
theorem modLane_lane_other {l k : LaneNo} (h : k ≠ l) (f : Lane → Lane) (s : State) :
    (modLane l f s).lane k = s.lane k := by
  have : l.val ≠ k.val := fun e => h (Fin.ext e.symm)
  simp [State.lane, modLane, this]

/-- A lane's record after a lane update. -/
theorem modLane_lane (l k : LaneNo) (f : Lane → Lane) (s : State) :
    (modLane l f s).lane k = if k = l then f (s.lane l) else s.lane k := by
  by_cases h : k = l
  · subst h; simp
  · simp [h, modLane_lane_other h]

/-- A lane's record after a change of some lane's health. -/
theorem modHealth_lane (l k : LaneNo) (f : Health → Health) (s : State) :
    (modHealth l f s).lane k = if k = l then { s.lane l with health := f (s.lane l).health } else s.lane k := by
  simp [modHealth, modLane_lane]

/-- Two changes of one lane are one change. -/
theorem modLane_modLane (l : LaneNo) (f g : Lane → Lane) (s : State) :
    modLane l f (modLane l g s) = modLane l (fun L => f (g L)) s := by
  simp [modLane, State.lane]

@[simp] theorem modEntry_lane (n : Nat) (f : Stream → Stream) (s : State) (k : LaneNo) : (modEntry n f s).lane k = s.lane k := rfl
@[simp] theorem modAlignment_lane (n : Nat) (f : Alignment → Alignment) (s : State) (k : LaneNo) : (modAlignment n f s).lane k = s.lane k := rfl
@[simp] theorem dropTurn_lane (n : Nat) (l : LaneNo) (x : Slice) (s : State) (k : LaneNo) : (dropTurn n l x s).lane k = s.lane k := rfl
@[simp] theorem appendTurn_lane (n : Nat) (t : Turn) (v : Bool) (s : State) (k : LaneNo) : (appendTurn n t v s).lane k = s.lane k := rfl
@[simp] theorem modChannel_lane (k : Nat) (f : Channel → Channel) (s : State) (k : LaneNo) : (modChannel k f s).lane k = s.lane k := rfl
@[simp] theorem modBuild_lane (f : Build → Build) (s : State) (k : LaneNo) : (modBuild f s).lane k = s.lane k := rfl
@[simp] theorem modBus_lane (f : Bus → Bus) (s : State) (k : LaneNo) : (modBus f s).lane k = s.lane k := rfl
@[simp] theorem modPort_lane (f : OrderPort → OrderPort) (s : State) (k : LaneNo) : (modPort f s).lane k = s.lane k := rfl
@[simp] theorem modBoot_lane (f : Boot → Boot) (s : State) (k : LaneNo) : (modBoot f s).lane k = s.lane k := rfl

@[simp] theorem modLane_params (l : LaneNo) (f : Lane → Lane) (s : State) : (modLane l f s).params = s.params := rfl
@[simp] theorem modLane_fitted (l : LaneNo) (f : Lane → Lane) (s : State) (k : LaneNo) : (modLane l f s).fitted k = s.fitted k := rfl
@[simp] theorem modHealth_params (l : LaneNo) (f : Health → Health) (s : State) : (modHealth l f s).params = s.params := rfl
@[simp] theorem modHealth_fitted (l : LaneNo) (f : Health → Health) (s : State) (k : LaneNo) : (modHealth l f s).fitted k = s.fitted k := rfl
@[simp] theorem modEntry_params (n : Nat) (f : Stream → Stream) (s : State) : (modEntry n f s).params = s.params := rfl
@[simp] theorem modEntry_fitted (n : Nat) (f : Stream → Stream) (s : State) (k : LaneNo) : (modEntry n f s).fitted k = s.fitted k := rfl
@[simp] theorem modAlignment_params (n : Nat) (f : Alignment → Alignment) (s : State) : (modAlignment n f s).params = s.params := rfl
@[simp] theorem modAlignment_fitted (n : Nat) (f : Alignment → Alignment) (s : State) (k : LaneNo) : (modAlignment n f s).fitted k = s.fitted k := rfl
@[simp] theorem dropTurn_params (n : Nat) (l : LaneNo) (x : Slice) (s : State) : (dropTurn n l x s).params = s.params := rfl
@[simp] theorem dropTurn_fitted (n : Nat) (l : LaneNo) (x : Slice) (s : State) (k : LaneNo) : (dropTurn n l x s).fitted k = s.fitted k := rfl
@[simp] theorem appendTurn_params (n : Nat) (t : Turn) (v : Bool) (s : State) : (appendTurn n t v s).params = s.params := rfl
@[simp] theorem appendTurn_fitted (n : Nat) (t : Turn) (v : Bool) (s : State) (k : LaneNo) : (appendTurn n t v s).fitted k = s.fitted k := rfl
@[simp] theorem modChannel_params (k : Nat) (f : Channel → Channel) (s : State) : (modChannel k f s).params = s.params := rfl
@[simp] theorem modChannel_fitted (k : Nat) (f : Channel → Channel) (s : State) (k : LaneNo) : (modChannel k f s).fitted k = s.fitted k := rfl
@[simp] theorem modBuild_params (f : Build → Build) (s : State) : (modBuild f s).params = s.params := rfl
@[simp] theorem modBuild_fitted (f : Build → Build) (s : State) (k : LaneNo) : (modBuild f s).fitted k = s.fitted k := rfl
@[simp] theorem modBus_params (f : Bus → Bus) (s : State) : (modBus f s).params = s.params := rfl
@[simp] theorem modBus_fitted (f : Bus → Bus) (s : State) (k : LaneNo) : (modBus f s).fitted k = s.fitted k := rfl
@[simp] theorem modPort_params (f : OrderPort → OrderPort) (s : State) : (modPort f s).params = s.params := rfl
@[simp] theorem modPort_fitted (f : OrderPort → OrderPort) (s : State) (k : LaneNo) : (modPort f s).fitted k = s.fitted k := rfl

end Sys2Proof.Machine
end

