-- ==== Sys2Proof/Laws/Ops.lean ====
section
/-! SUPPORT. What each shared operation leaves as it is, and the lemmas that say once what the main ones do. -/

namespace Sys2Proof.Machine

/-! ### What each shared operation leaves as it is -/

/-- What every step of a fold keeps, the fold keeps. -/
theorem foldl_keeps {α β γ : Type} (g : β → γ) (f : β → α → β) (h : ∀ b a, g (f b a) = g b) (l : List α) (b : β) :
    g (l.foldl f b) = g b := by
  induction l generalizing b with
  | nil => rfl
  | cons a l ih => exact (ih (f b a)).trans (h b a)

@[simp] theorem queueStatus_boot (m : Message) (s : State) : (queueStatus m s).boot = s.boot := by
  unfold queueStatus; repeat' split
  all_goals simp
@[simp] theorem queueStatus_nodeTime (m : Message) (s : State) : (queueStatus m s).nodeTime = s.nodeTime := by
  unfold queueStatus; repeat' split
  all_goals simp
@[simp] theorem queueStatus_lanes (m : Message) (s : State) : (queueStatus m s).lanes = s.lanes := by
  unfold queueStatus; repeat' split
  all_goals simp
@[simp] theorem queueStatus_table (m : Message) (s : State) : (queueStatus m s).table = s.table := by
  unfold queueStatus; repeat' split
  all_goals simp
@[simp] theorem queueStatus_tagMap (m : Message) (s : State) : (queueStatus m s).tagMap = s.tagMap := by
  unfold queueStatus; repeat' split
  all_goals simp
@[simp] theorem queueStatus_stationIndex (m : Message) (s : State) : (queueStatus m s).stationIndex = s.stationIndex := by
  unfold queueStatus; repeat' split
  all_goals simp
@[simp] theorem queueStatus_pool (m : Message) (s : State) : (queueStatus m s).pool = s.pool := by
  unfold queueStatus; repeat' split
  all_goals simp
@[simp] theorem queueStatus_channels (m : Message) (s : State) : (queueStatus m s).channels = s.channels := by
  unfold queueStatus; repeat' split
  all_goals simp
@[simp] theorem queueStatus_builder (m : Message) (s : State) : (queueStatus m s).builder = s.builder := by
  unfold queueStatus; repeat' split
  all_goals simp
@[simp] theorem queueStatus_views (m : Message) (s : State) : (queueStatus m s).views = s.views := by
  unfold queueStatus; repeat' split
  all_goals simp
@[simp] theorem queueStatus_releaseDue (m : Message) (s : State) : (queueStatus m s).releaseDue = s.releaseDue := by
  unfold queueStatus; repeat' split
  all_goals simp
@[simp] theorem queueStatus_bus (m : Message) (s : State) : (queueStatus m s).bus = s.bus := by
  unfold queueStatus; repeat' split
  all_goals simp
@[simp] theorem queueStatus_pending (m : Message) (s : State) : (queueStatus m s).pending = s.pending := by
  unfold queueStatus; repeat' split
  all_goals simp

@[simp] theorem putReply_boot (q : Byte) (r : ReplyResult) (n : ReplyNote) (d : List Byte) (s : State) : (putReply q r n d s).boot = s.boot := rfl
@[simp] theorem putReply_nodeTime (q : Byte) (r : ReplyResult) (n : ReplyNote) (d : List Byte) (s : State) : (putReply q r n d s).nodeTime = s.nodeTime := rfl
@[simp] theorem putReply_lanes (q : Byte) (r : ReplyResult) (n : ReplyNote) (d : List Byte) (s : State) : (putReply q r n d s).lanes = s.lanes := rfl
@[simp] theorem putReply_table (q : Byte) (r : ReplyResult) (n : ReplyNote) (d : List Byte) (s : State) : (putReply q r n d s).table = s.table := rfl
@[simp] theorem putReply_tagMap (q : Byte) (r : ReplyResult) (n : ReplyNote) (d : List Byte) (s : State) : (putReply q r n d s).tagMap = s.tagMap := rfl
@[simp] theorem putReply_stationIndex (q : Byte) (r : ReplyResult) (n : ReplyNote) (d : List Byte) (s : State) : (putReply q r n d s).stationIndex = s.stationIndex := rfl
@[simp] theorem putReply_pool (q : Byte) (r : ReplyResult) (n : ReplyNote) (d : List Byte) (s : State) : (putReply q r n d s).pool = s.pool := rfl
@[simp] theorem putReply_channels (q : Byte) (r : ReplyResult) (n : ReplyNote) (d : List Byte) (s : State) : (putReply q r n d s).channels = s.channels := rfl
@[simp] theorem putReply_builder (q : Byte) (r : ReplyResult) (n : ReplyNote) (d : List Byte) (s : State) : (putReply q r n d s).builder = s.builder := rfl
@[simp] theorem putReply_views (q : Byte) (r : ReplyResult) (n : ReplyNote) (d : List Byte) (s : State) : (putReply q r n d s).views = s.views := rfl
@[simp] theorem putReply_releaseDue (q : Byte) (r : ReplyResult) (n : ReplyNote) (d : List Byte) (s : State) : (putReply q r n d s).releaseDue = s.releaseDue := rfl
@[simp] theorem putReply_bus (q : Byte) (r : ReplyResult) (n : ReplyNote) (d : List Byte) (s : State) : (putReply q r n d s).bus = s.bus := rfl
@[simp] theorem putReply_pending (q : Byte) (r : ReplyResult) (n : ReplyNote) (d : List Byte) (s : State) : (putReply q r n d s).pending = s.pending := rfl

@[simp] theorem refuse_boot (q : Byte) (n : ReplyNote) (s : State) : (refuse q n s).boot = s.boot := rfl
@[simp] theorem refuse_nodeTime (q : Byte) (n : ReplyNote) (s : State) : (refuse q n s).nodeTime = s.nodeTime := rfl
@[simp] theorem refuse_lanes (q : Byte) (n : ReplyNote) (s : State) : (refuse q n s).lanes = s.lanes := rfl
@[simp] theorem refuse_table (q : Byte) (n : ReplyNote) (s : State) : (refuse q n s).table = s.table := rfl
@[simp] theorem refuse_tagMap (q : Byte) (n : ReplyNote) (s : State) : (refuse q n s).tagMap = s.tagMap := rfl
@[simp] theorem refuse_stationIndex (q : Byte) (n : ReplyNote) (s : State) : (refuse q n s).stationIndex = s.stationIndex := rfl
@[simp] theorem refuse_pool (q : Byte) (n : ReplyNote) (s : State) : (refuse q n s).pool = s.pool := rfl
@[simp] theorem refuse_channels (q : Byte) (n : ReplyNote) (s : State) : (refuse q n s).channels = s.channels := rfl
@[simp] theorem refuse_builder (q : Byte) (n : ReplyNote) (s : State) : (refuse q n s).builder = s.builder := rfl
@[simp] theorem refuse_views (q : Byte) (n : ReplyNote) (s : State) : (refuse q n s).views = s.views := rfl
@[simp] theorem refuse_releaseDue (q : Byte) (n : ReplyNote) (s : State) : (refuse q n s).releaseDue = s.releaseDue := rfl
@[simp] theorem refuse_bus (q : Byte) (n : ReplyNote) (s : State) : (refuse q n s).bus = s.bus := rfl
@[simp] theorem refuse_pending (q : Byte) (n : ReplyNote) (s : State) : (refuse q n s).pending = s.pending := rfl

@[simp] theorem answerDone_boot (q : Byte) (c : Bool) (s : State) : (answerDone q c s).boot = s.boot := rfl
@[simp] theorem answerDone_nodeTime (q : Byte) (c : Bool) (s : State) : (answerDone q c s).nodeTime = s.nodeTime := rfl
@[simp] theorem answerDone_lanes (q : Byte) (c : Bool) (s : State) : (answerDone q c s).lanes = s.lanes := rfl
@[simp] theorem answerDone_table (q : Byte) (c : Bool) (s : State) : (answerDone q c s).table = s.table := rfl
@[simp] theorem answerDone_tagMap (q : Byte) (c : Bool) (s : State) : (answerDone q c s).tagMap = s.tagMap := rfl
@[simp] theorem answerDone_stationIndex (q : Byte) (c : Bool) (s : State) : (answerDone q c s).stationIndex = s.stationIndex := rfl
@[simp] theorem answerDone_pool (q : Byte) (c : Bool) (s : State) : (answerDone q c s).pool = s.pool := rfl
@[simp] theorem answerDone_channels (q : Byte) (c : Bool) (s : State) : (answerDone q c s).channels = s.channels := rfl
@[simp] theorem answerDone_builder (q : Byte) (c : Bool) (s : State) : (answerDone q c s).builder = s.builder := rfl
@[simp] theorem answerDone_views (q : Byte) (c : Bool) (s : State) : (answerDone q c s).views = s.views := rfl
@[simp] theorem answerDone_releaseDue (q : Byte) (c : Bool) (s : State) : (answerDone q c s).releaseDue = s.releaseDue := rfl
@[simp] theorem answerDone_bus (q : Byte) (c : Bool) (s : State) : (answerDone q c s).bus = s.bus := rfl
@[simp] theorem answerDone_pending (q : Byte) (c : Bool) (s : State) : (answerDone q c s).pending = s.pending := rfl

@[simp] theorem setFlag_boot (l : LaneNo) (g : Flag) (s : State) : (setFlag l g s).boot = s.boot := by
  unfold setFlag; repeat' split
  all_goals simp
@[simp] theorem setFlag_nodeTime (l : LaneNo) (g : Flag) (s : State) : (setFlag l g s).nodeTime = s.nodeTime := by
  unfold setFlag; repeat' split
  all_goals simp
@[simp] theorem setFlag_table (l : LaneNo) (g : Flag) (s : State) : (setFlag l g s).table = s.table := by
  unfold setFlag; repeat' split
  all_goals simp
@[simp] theorem setFlag_tagMap (l : LaneNo) (g : Flag) (s : State) : (setFlag l g s).tagMap = s.tagMap := by
  unfold setFlag; repeat' split
  all_goals simp
@[simp] theorem setFlag_stationIndex (l : LaneNo) (g : Flag) (s : State) : (setFlag l g s).stationIndex = s.stationIndex := by
  unfold setFlag; repeat' split
  all_goals simp
@[simp] theorem setFlag_pool (l : LaneNo) (g : Flag) (s : State) : (setFlag l g s).pool = s.pool := by
  unfold setFlag; repeat' split
  all_goals simp
@[simp] theorem setFlag_channels (l : LaneNo) (g : Flag) (s : State) : (setFlag l g s).channels = s.channels := by
  unfold setFlag; repeat' split
  all_goals simp
@[simp] theorem setFlag_builder (l : LaneNo) (g : Flag) (s : State) : (setFlag l g s).builder = s.builder := by
  unfold setFlag; repeat' split
  all_goals simp
@[simp] theorem setFlag_views (l : LaneNo) (g : Flag) (s : State) : (setFlag l g s).views = s.views := by
  unfold setFlag; repeat' split
  all_goals simp
@[simp] theorem setFlag_releaseDue (l : LaneNo) (g : Flag) (s : State) : (setFlag l g s).releaseDue = s.releaseDue := by
  unfold setFlag; repeat' split
  all_goals simp
@[simp] theorem setFlag_bus (l : LaneNo) (g : Flag) (s : State) : (setFlag l g s).bus = s.bus := by
  unfold setFlag; repeat' split
  all_goals simp
@[simp] theorem setFlag_pending (l : LaneNo) (g : Flag) (s : State) : (setFlag l g s).pending = s.pending := by
  unfold setFlag; repeat' split
  all_goals simp

@[simp] theorem pushNotice_boot (n : Notice) (s : State) : (pushNotice n s).boot = s.boot := rfl
@[simp] theorem pushNotice_nodeTime (n : Notice) (s : State) : (pushNotice n s).nodeTime = s.nodeTime := rfl
@[simp] theorem pushNotice_lanes (n : Notice) (s : State) : (pushNotice n s).lanes = s.lanes := rfl
@[simp] theorem pushNotice_table (n : Notice) (s : State) : (pushNotice n s).table = s.table := rfl
@[simp] theorem pushNotice_tagMap (n : Notice) (s : State) : (pushNotice n s).tagMap = s.tagMap := rfl
@[simp] theorem pushNotice_stationIndex (n : Notice) (s : State) : (pushNotice n s).stationIndex = s.stationIndex := rfl
@[simp] theorem pushNotice_pool (n : Notice) (s : State) : (pushNotice n s).pool = s.pool := rfl
@[simp] theorem pushNotice_channels (n : Notice) (s : State) : (pushNotice n s).channels = s.channels := rfl
@[simp] theorem pushNotice_builder (n : Notice) (s : State) : (pushNotice n s).builder = s.builder := rfl
@[simp] theorem pushNotice_views (n : Notice) (s : State) : (pushNotice n s).views = s.views := rfl
@[simp] theorem pushNotice_releaseDue (n : Notice) (s : State) : (pushNotice n s).releaseDue = s.releaseDue := rfl
@[simp] theorem pushNotice_port (n : Notice) (s : State) : (pushNotice n s).port = s.port := rfl
@[simp] theorem pushNotice_pending (n : Notice) (s : State) : (pushNotice n s).pending = s.pending := rfl

@[simp] theorem mapQueue_boot (f : Notice → Notice) (s : State) : (mapQueue f s).boot = s.boot := rfl
@[simp] theorem mapQueue_nodeTime (f : Notice → Notice) (s : State) : (mapQueue f s).nodeTime = s.nodeTime := rfl
@[simp] theorem mapQueue_lanes (f : Notice → Notice) (s : State) : (mapQueue f s).lanes = s.lanes := rfl
@[simp] theorem mapQueue_table (f : Notice → Notice) (s : State) : (mapQueue f s).table = s.table := rfl
@[simp] theorem mapQueue_tagMap (f : Notice → Notice) (s : State) : (mapQueue f s).tagMap = s.tagMap := rfl
@[simp] theorem mapQueue_stationIndex (f : Notice → Notice) (s : State) : (mapQueue f s).stationIndex = s.stationIndex := rfl
@[simp] theorem mapQueue_pool (f : Notice → Notice) (s : State) : (mapQueue f s).pool = s.pool := rfl
@[simp] theorem mapQueue_channels (f : Notice → Notice) (s : State) : (mapQueue f s).channels = s.channels := rfl
@[simp] theorem mapQueue_builder (f : Notice → Notice) (s : State) : (mapQueue f s).builder = s.builder := rfl
@[simp] theorem mapQueue_views (f : Notice → Notice) (s : State) : (mapQueue f s).views = s.views := rfl
@[simp] theorem mapQueue_releaseDue (f : Notice → Notice) (s : State) : (mapQueue f s).releaseDue = s.releaseDue := rfl
@[simp] theorem mapQueue_port (f : Notice → Notice) (s : State) : (mapQueue f s).port = s.port := rfl
@[simp] theorem mapQueue_pending (f : Notice → Notice) (s : State) : (mapQueue f s).pending = s.pending := rfl

@[simp] theorem serveOwed_boot (s : State) : (serveOwed s).boot = s.boot := by
  unfold serveOwed; repeat' split
  all_goals simp
@[simp] theorem serveOwed_nodeTime (s : State) : (serveOwed s).nodeTime = s.nodeTime := by
  unfold serveOwed; repeat' split
  all_goals simp
@[simp] theorem serveOwed_table (s : State) : (serveOwed s).table = s.table := by
  unfold serveOwed; repeat' split
  all_goals simp
@[simp] theorem serveOwed_tagMap (s : State) : (serveOwed s).tagMap = s.tagMap := by
  unfold serveOwed; repeat' split
  all_goals simp
@[simp] theorem serveOwed_stationIndex (s : State) : (serveOwed s).stationIndex = s.stationIndex := by
  unfold serveOwed; repeat' split
  all_goals simp
@[simp] theorem serveOwed_pool (s : State) : (serveOwed s).pool = s.pool := by
  unfold serveOwed; repeat' split
  all_goals simp
@[simp] theorem serveOwed_channels (s : State) : (serveOwed s).channels = s.channels := by
  unfold serveOwed; repeat' split
  all_goals simp
@[simp] theorem serveOwed_builder (s : State) : (serveOwed s).builder = s.builder := by
  unfold serveOwed; repeat' split
  all_goals simp
@[simp] theorem serveOwed_views (s : State) : (serveOwed s).views = s.views := by
  unfold serveOwed; repeat' split
  all_goals simp
@[simp] theorem serveOwed_releaseDue (s : State) : (serveOwed s).releaseDue = s.releaseDue := by
  unfold serveOwed; repeat' split
  all_goals simp
@[simp] theorem serveOwed_port (s : State) : (serveOwed s).port = s.port := by
  unfold serveOwed; repeat' split
  all_goals simp
@[simp] theorem serveOwed_pending (s : State) : (serveOwed s).pending = s.pending := by
  unfold serveOwed; repeat' split
  all_goals simp

@[simp] theorem pumpHolder_boot (s : State) : (pumpHolder s).boot = s.boot := by
  unfold pumpHolder; repeat' split
  all_goals simp
@[simp] theorem pumpHolder_nodeTime (s : State) : (pumpHolder s).nodeTime = s.nodeTime := by
  unfold pumpHolder; repeat' split
  all_goals simp
@[simp] theorem pumpHolder_table (s : State) : (pumpHolder s).table = s.table := by
  unfold pumpHolder; repeat' split
  all_goals simp
@[simp] theorem pumpHolder_tagMap (s : State) : (pumpHolder s).tagMap = s.tagMap := by
  unfold pumpHolder; repeat' split
  all_goals simp
@[simp] theorem pumpHolder_stationIndex (s : State) : (pumpHolder s).stationIndex = s.stationIndex := by
  unfold pumpHolder; repeat' split
  all_goals simp
@[simp] theorem pumpHolder_pool (s : State) : (pumpHolder s).pool = s.pool := by
  unfold pumpHolder; repeat' split
  all_goals simp
@[simp] theorem pumpHolder_channels (s : State) : (pumpHolder s).channels = s.channels := by
  unfold pumpHolder; repeat' split
  all_goals simp
@[simp] theorem pumpHolder_builder (s : State) : (pumpHolder s).builder = s.builder := by
  unfold pumpHolder; repeat' split
  all_goals simp
@[simp] theorem pumpHolder_views (s : State) : (pumpHolder s).views = s.views := by
  unfold pumpHolder; repeat' split
  all_goals simp
@[simp] theorem pumpHolder_releaseDue (s : State) : (pumpHolder s).releaseDue = s.releaseDue := by
  unfold pumpHolder; repeat' split
  all_goals simp
@[simp] theorem pumpHolder_port (s : State) : (pumpHolder s).port = s.port := by
  unfold pumpHolder; repeat' split
  all_goals simp
@[simp] theorem pumpHolder_pending (s : State) : (pumpHolder s).pending = s.pending := by
  unfold pumpHolder; repeat' split
  all_goals simp

@[simp] theorem offerLane_boot (l : LaneNo) (s : State) : (offerLane l s).boot = s.boot := by
  unfold offerLane; repeat' split
  all_goals simp
@[simp] theorem offerLane_nodeTime (l : LaneNo) (s : State) : (offerLane l s).nodeTime = s.nodeTime := by
  unfold offerLane; repeat' split
  all_goals simp
@[simp] theorem offerLane_table (l : LaneNo) (s : State) : (offerLane l s).table = s.table := by
  unfold offerLane; repeat' split
  all_goals simp
@[simp] theorem offerLane_tagMap (l : LaneNo) (s : State) : (offerLane l s).tagMap = s.tagMap := by
  unfold offerLane; repeat' split
  all_goals simp
@[simp] theorem offerLane_stationIndex (l : LaneNo) (s : State) : (offerLane l s).stationIndex = s.stationIndex := by
  unfold offerLane; repeat' split
  all_goals simp
@[simp] theorem offerLane_pool (l : LaneNo) (s : State) : (offerLane l s).pool = s.pool := by
  unfold offerLane; repeat' split
  all_goals simp
@[simp] theorem offerLane_channels (l : LaneNo) (s : State) : (offerLane l s).channels = s.channels := by
  unfold offerLane; repeat' split
  all_goals simp
@[simp] theorem offerLane_builder (l : LaneNo) (s : State) : (offerLane l s).builder = s.builder := by
  unfold offerLane; repeat' split
  all_goals simp
@[simp] theorem offerLane_views (l : LaneNo) (s : State) : (offerLane l s).views = s.views := by
  unfold offerLane; repeat' split
  all_goals simp
@[simp] theorem offerLane_releaseDue (l : LaneNo) (s : State) : (offerLane l s).releaseDue = s.releaseDue := by
  unfold offerLane; repeat' split
  all_goals simp
@[simp] theorem offerLane_port (l : LaneNo) (s : State) : (offerLane l s).port = s.port := by
  unfold offerLane; repeat' split
  all_goals simp
@[simp] theorem offerLane_pending (l : LaneNo) (s : State) : (offerLane l s).pending = s.pending := by
  unfold offerLane; repeat' split
  all_goals simp

@[simp] theorem offerDemand_boot (t : Nat) (e : BitVec 8) (a : Nat) (s : State) : (offerDemand t e a s).boot = s.boot := by
  unfold offerDemand; repeat' split
  all_goals simp
@[simp] theorem offerDemand_nodeTime (t : Nat) (e : BitVec 8) (a : Nat) (s : State) : (offerDemand t e a s).nodeTime = s.nodeTime := by
  unfold offerDemand; repeat' split
  all_goals simp
@[simp] theorem offerDemand_table (t : Nat) (e : BitVec 8) (a : Nat) (s : State) : (offerDemand t e a s).table = s.table := by
  unfold offerDemand; repeat' split
  all_goals simp
@[simp] theorem offerDemand_tagMap (t : Nat) (e : BitVec 8) (a : Nat) (s : State) : (offerDemand t e a s).tagMap = s.tagMap := by
  unfold offerDemand; repeat' split
  all_goals simp
@[simp] theorem offerDemand_stationIndex (t : Nat) (e : BitVec 8) (a : Nat) (s : State) : (offerDemand t e a s).stationIndex = s.stationIndex := by
  unfold offerDemand; repeat' split
  all_goals simp
@[simp] theorem offerDemand_pool (t : Nat) (e : BitVec 8) (a : Nat) (s : State) : (offerDemand t e a s).pool = s.pool := by
  unfold offerDemand; repeat' split
  all_goals simp
@[simp] theorem offerDemand_channels (t : Nat) (e : BitVec 8) (a : Nat) (s : State) : (offerDemand t e a s).channels = s.channels := by
  unfold offerDemand; repeat' split
  all_goals simp
@[simp] theorem offerDemand_builder (t : Nat) (e : BitVec 8) (a : Nat) (s : State) : (offerDemand t e a s).builder = s.builder := by
  unfold offerDemand; repeat' split
  all_goals simp
@[simp] theorem offerDemand_views (t : Nat) (e : BitVec 8) (a : Nat) (s : State) : (offerDemand t e a s).views = s.views := by
  unfold offerDemand; repeat' split
  all_goals simp
@[simp] theorem offerDemand_releaseDue (t : Nat) (e : BitVec 8) (a : Nat) (s : State) : (offerDemand t e a s).releaseDue = s.releaseDue := by
  unfold offerDemand; repeat' split
  all_goals simp
@[simp] theorem offerDemand_port (t : Nat) (e : BitVec 8) (a : Nat) (s : State) : (offerDemand t e a s).port = s.port := by
  unfold offerDemand; repeat' split
  all_goals simp
@[simp] theorem offerDemand_pending (t : Nat) (e : BitVec 8) (a : Nat) (s : State) : (offerDemand t e a s).pending = s.pending := by
  unfold offerDemand; repeat' split
  all_goals simp

@[simp] theorem offerClaim_boot (t : Nat) (e : BitVec 8) (n : NodeLane) (b : Nat) (k : Tick) (s : State) : (offerClaim t e n b k s).boot = s.boot := by
  unfold offerClaim; repeat' split
  all_goals simp
@[simp] theorem offerClaim_nodeTime (t : Nat) (e : BitVec 8) (n : NodeLane) (b : Nat) (k : Tick) (s : State) : (offerClaim t e n b k s).nodeTime = s.nodeTime := by
  unfold offerClaim; repeat' split
  all_goals simp
@[simp] theorem offerClaim_table (t : Nat) (e : BitVec 8) (n : NodeLane) (b : Nat) (k : Tick) (s : State) : (offerClaim t e n b k s).table = s.table := by
  unfold offerClaim; repeat' split
  all_goals simp
@[simp] theorem offerClaim_tagMap (t : Nat) (e : BitVec 8) (n : NodeLane) (b : Nat) (k : Tick) (s : State) : (offerClaim t e n b k s).tagMap = s.tagMap := by
  unfold offerClaim; repeat' split
  all_goals simp
@[simp] theorem offerClaim_stationIndex (t : Nat) (e : BitVec 8) (n : NodeLane) (b : Nat) (k : Tick) (s : State) : (offerClaim t e n b k s).stationIndex = s.stationIndex := by
  unfold offerClaim; repeat' split
  all_goals simp
@[simp] theorem offerClaim_pool (t : Nat) (e : BitVec 8) (n : NodeLane) (b : Nat) (k : Tick) (s : State) : (offerClaim t e n b k s).pool = s.pool := by
  unfold offerClaim; repeat' split
  all_goals simp
@[simp] theorem offerClaim_channels (t : Nat) (e : BitVec 8) (n : NodeLane) (b : Nat) (k : Tick) (s : State) : (offerClaim t e n b k s).channels = s.channels := by
  unfold offerClaim; repeat' split
  all_goals simp
@[simp] theorem offerClaim_builder (t : Nat) (e : BitVec 8) (n : NodeLane) (b : Nat) (k : Tick) (s : State) : (offerClaim t e n b k s).builder = s.builder := by
  unfold offerClaim; repeat' split
  all_goals simp
@[simp] theorem offerClaim_views (t : Nat) (e : BitVec 8) (n : NodeLane) (b : Nat) (k : Tick) (s : State) : (offerClaim t e n b k s).views = s.views := by
  unfold offerClaim; repeat' split
  all_goals simp
@[simp] theorem offerClaim_releaseDue (t : Nat) (e : BitVec 8) (n : NodeLane) (b : Nat) (k : Tick) (s : State) : (offerClaim t e n b k s).releaseDue = s.releaseDue := by
  unfold offerClaim; repeat' split
  all_goals simp
@[simp] theorem offerClaim_port (t : Nat) (e : BitVec 8) (n : NodeLane) (b : Nat) (k : Tick) (s : State) : (offerClaim t e n b k s).port = s.port := by
  unfold offerClaim; repeat' split
  all_goals simp
@[simp] theorem offerClaim_pending (t : Nat) (e : BitVec 8) (n : NodeLane) (b : Nat) (k : Tick) (s : State) : (offerClaim t e n b k s).pending = s.pending := by
  unfold offerClaim; repeat' split
  all_goals simp

@[simp] theorem setRing_boot (l : LaneNo) (i : Fin 6) (r : List Nat) (s : State) : (setRing l i r s).boot = s.boot := rfl
@[simp] theorem setRing_nodeTime (l : LaneNo) (i : Fin 6) (r : List Nat) (s : State) : (setRing l i r s).nodeTime = s.nodeTime := rfl
@[simp] theorem setRing_table (l : LaneNo) (i : Fin 6) (r : List Nat) (s : State) : (setRing l i r s).table = s.table := rfl
@[simp] theorem setRing_tagMap (l : LaneNo) (i : Fin 6) (r : List Nat) (s : State) : (setRing l i r s).tagMap = s.tagMap := rfl
@[simp] theorem setRing_stationIndex (l : LaneNo) (i : Fin 6) (r : List Nat) (s : State) : (setRing l i r s).stationIndex = s.stationIndex := rfl
@[simp] theorem setRing_pool (l : LaneNo) (i : Fin 6) (r : List Nat) (s : State) : (setRing l i r s).pool = s.pool := rfl
@[simp] theorem setRing_channels (l : LaneNo) (i : Fin 6) (r : List Nat) (s : State) : (setRing l i r s).channels = s.channels := rfl
@[simp] theorem setRing_builder (l : LaneNo) (i : Fin 6) (r : List Nat) (s : State) : (setRing l i r s).builder = s.builder := rfl
@[simp] theorem setRing_views (l : LaneNo) (i : Fin 6) (r : List Nat) (s : State) : (setRing l i r s).views = s.views := rfl
@[simp] theorem setRing_releaseDue (l : LaneNo) (i : Fin 6) (r : List Nat) (s : State) : (setRing l i r s).releaseDue = s.releaseDue := rfl
@[simp] theorem setRing_bus (l : LaneNo) (i : Fin 6) (r : List Nat) (s : State) : (setRing l i r s).bus = s.bus := rfl
@[simp] theorem setRing_port (l : LaneNo) (i : Fin 6) (r : List Nat) (s : State) : (setRing l i r s).port = s.port := rfl
@[simp] theorem setRing_pending (l : LaneNo) (i : Fin 6) (r : List Nat) (s : State) : (setRing l i r s).pending = s.pending := rfl

@[simp] theorem syncRing_boot (n : Nat) (l : LaneNo) (i : Fin 6) (s : State) : (syncRing n l i s).boot = s.boot := rfl
@[simp] theorem syncRing_nodeTime (n : Nat) (l : LaneNo) (i : Fin 6) (s : State) : (syncRing n l i s).nodeTime = s.nodeTime := rfl
@[simp] theorem syncRing_table (n : Nat) (l : LaneNo) (i : Fin 6) (s : State) : (syncRing n l i s).table = s.table := rfl
@[simp] theorem syncRing_tagMap (n : Nat) (l : LaneNo) (i : Fin 6) (s : State) : (syncRing n l i s).tagMap = s.tagMap := rfl
@[simp] theorem syncRing_stationIndex (n : Nat) (l : LaneNo) (i : Fin 6) (s : State) : (syncRing n l i s).stationIndex = s.stationIndex := rfl
@[simp] theorem syncRing_pool (n : Nat) (l : LaneNo) (i : Fin 6) (s : State) : (syncRing n l i s).pool = s.pool := rfl
@[simp] theorem syncRing_channels (n : Nat) (l : LaneNo) (i : Fin 6) (s : State) : (syncRing n l i s).channels = s.channels := rfl
@[simp] theorem syncRing_builder (n : Nat) (l : LaneNo) (i : Fin 6) (s : State) : (syncRing n l i s).builder = s.builder := rfl
@[simp] theorem syncRing_views (n : Nat) (l : LaneNo) (i : Fin 6) (s : State) : (syncRing n l i s).views = s.views := rfl
@[simp] theorem syncRing_releaseDue (n : Nat) (l : LaneNo) (i : Fin 6) (s : State) : (syncRing n l i s).releaseDue = s.releaseDue := rfl
@[simp] theorem syncRing_bus (n : Nat) (l : LaneNo) (i : Fin 6) (s : State) : (syncRing n l i s).bus = s.bus := rfl
@[simp] theorem syncRing_port (n : Nat) (l : LaneNo) (i : Fin 6) (s : State) : (syncRing n l i s).port = s.port := rfl
@[simp] theorem syncRing_pending (n : Nat) (l : LaneNo) (i : Fin 6) (s : State) : (syncRing n l i s).pending = s.pending := rfl

@[simp] theorem syncRings_boot (n : Nat) (s : State) : (syncRings n s).boot = s.boot := by
  simp only [syncRings, allLanes, ringIndexes, List.foldl]; split <;> simp
@[simp] theorem syncRings_nodeTime (n : Nat) (s : State) : (syncRings n s).nodeTime = s.nodeTime := by
  simp only [syncRings, allLanes, ringIndexes, List.foldl]; split <;> simp
@[simp] theorem syncRings_tagMap (n : Nat) (s : State) : (syncRings n s).tagMap = s.tagMap := by
  simp only [syncRings, allLanes, ringIndexes, List.foldl]; split <;> simp
@[simp] theorem syncRings_stationIndex (n : Nat) (s : State) : (syncRings n s).stationIndex = s.stationIndex := by
  simp only [syncRings, allLanes, ringIndexes, List.foldl]; split <;> simp
@[simp] theorem syncRings_pool (n : Nat) (s : State) : (syncRings n s).pool = s.pool := by
  simp only [syncRings, allLanes, ringIndexes, List.foldl]; split <;> simp
@[simp] theorem syncRings_channels (n : Nat) (s : State) : (syncRings n s).channels = s.channels := by
  simp only [syncRings, allLanes, ringIndexes, List.foldl]; split <;> simp
@[simp] theorem syncRings_builder (n : Nat) (s : State) : (syncRings n s).builder = s.builder := by
  simp only [syncRings, allLanes, ringIndexes, List.foldl]; split <;> simp
@[simp] theorem syncRings_views (n : Nat) (s : State) : (syncRings n s).views = s.views := by
  simp only [syncRings, allLanes, ringIndexes, List.foldl]; split <;> simp
@[simp] theorem syncRings_releaseDue (n : Nat) (s : State) : (syncRings n s).releaseDue = s.releaseDue := by
  simp only [syncRings, allLanes, ringIndexes, List.foldl]; split <;> simp
@[simp] theorem syncRings_bus (n : Nat) (s : State) : (syncRings n s).bus = s.bus := by
  simp only [syncRings, allLanes, ringIndexes, List.foldl]; split <;> simp
@[simp] theorem syncRings_port (n : Nat) (s : State) : (syncRings n s).port = s.port := by
  simp only [syncRings, allLanes, ringIndexes, List.foldl]; split <;> simp
@[simp] theorem syncRings_pending (n : Nat) (s : State) : (syncRings n s).pending = s.pending := by
  simp only [syncRings, allLanes, ringIndexes, List.foldl]; split <;> simp

@[simp] theorem updateEntry_boot (n : Nat) (f : Stream → Stream) (s : State) : (updateEntry n f s).boot = s.boot := by
  simp [updateEntry]
@[simp] theorem updateEntry_nodeTime (n : Nat) (f : Stream → Stream) (s : State) : (updateEntry n f s).nodeTime = s.nodeTime := by
  simp [updateEntry]
@[simp] theorem updateEntry_tagMap (n : Nat) (f : Stream → Stream) (s : State) : (updateEntry n f s).tagMap = s.tagMap := by
  simp [updateEntry]
@[simp] theorem updateEntry_stationIndex (n : Nat) (f : Stream → Stream) (s : State) : (updateEntry n f s).stationIndex = s.stationIndex := by
  simp [updateEntry]
@[simp] theorem updateEntry_pool (n : Nat) (f : Stream → Stream) (s : State) : (updateEntry n f s).pool = s.pool := by
  simp [updateEntry]
@[simp] theorem updateEntry_channels (n : Nat) (f : Stream → Stream) (s : State) : (updateEntry n f s).channels = s.channels := by
  simp [updateEntry]
@[simp] theorem updateEntry_builder (n : Nat) (f : Stream → Stream) (s : State) : (updateEntry n f s).builder = s.builder := by
  simp [updateEntry]
@[simp] theorem updateEntry_views (n : Nat) (f : Stream → Stream) (s : State) : (updateEntry n f s).views = s.views := by
  simp [updateEntry]
@[simp] theorem updateEntry_releaseDue (n : Nat) (f : Stream → Stream) (s : State) : (updateEntry n f s).releaseDue = s.releaseDue := by
  simp [updateEntry]
@[simp] theorem updateEntry_bus (n : Nat) (f : Stream → Stream) (s : State) : (updateEntry n f s).bus = s.bus := by
  simp [updateEntry]
@[simp] theorem updateEntry_port (n : Nat) (f : Stream → Stream) (s : State) : (updateEntry n f s).port = s.port := by
  simp [updateEntry]
@[simp] theorem updateEntry_pending (n : Nat) (f : Stream → Stream) (s : State) : (updateEntry n f s).pending = s.pending := by
  simp [updateEntry]

@[simp] theorem restore_boot (n p : Nat) (s : State) : (restore n p s).boot = s.boot := by
  unfold restore; repeat' split
  all_goals simp
@[simp] theorem restore_nodeTime (n p : Nat) (s : State) : (restore n p s).nodeTime = s.nodeTime := by
  unfold restore; repeat' split
  all_goals simp
@[simp] theorem restore_tagMap (n p : Nat) (s : State) : (restore n p s).tagMap = s.tagMap := by
  unfold restore; repeat' split
  all_goals simp
@[simp] theorem restore_stationIndex (n p : Nat) (s : State) : (restore n p s).stationIndex = s.stationIndex := by
  unfold restore; repeat' split
  all_goals simp
@[simp] theorem restore_pool (n p : Nat) (s : State) : (restore n p s).pool = s.pool := by
  unfold restore; repeat' split
  all_goals simp
@[simp] theorem restore_channels (n p : Nat) (s : State) : (restore n p s).channels = s.channels := by
  unfold restore; repeat' split
  all_goals simp
@[simp] theorem restore_builder (n p : Nat) (s : State) : (restore n p s).builder = s.builder := by
  unfold restore; repeat' split
  all_goals simp
@[simp] theorem restore_views (n p : Nat) (s : State) : (restore n p s).views = s.views := by
  unfold restore; repeat' split
  all_goals simp
@[simp] theorem restore_releaseDue (n p : Nat) (s : State) : (restore n p s).releaseDue = s.releaseDue := by
  unfold restore; repeat' split
  all_goals simp
@[simp] theorem restore_bus (n p : Nat) (s : State) : (restore n p s).bus = s.bus := by
  unfold restore; repeat' split
  all_goals simp
@[simp] theorem restore_port (n p : Nat) (s : State) : (restore n p s).port = s.port := by
  unfold restore; repeat' split
  all_goals simp
@[simp] theorem restore_pending (n p : Nat) (s : State) : (restore n p s).pending = s.pending := by
  unfold restore; repeat' split
  all_goals simp

@[simp] theorem modView_boot (t : Nat) (f : View → View) (s : State) : (modView t f s).boot = s.boot := by
  unfold modView; repeat' split
  all_goals simp
@[simp] theorem modView_nodeTime (t : Nat) (f : View → View) (s : State) : (modView t f s).nodeTime = s.nodeTime := by
  unfold modView; repeat' split
  all_goals simp
@[simp] theorem modView_tagMap (t : Nat) (f : View → View) (s : State) : (modView t f s).tagMap = s.tagMap := by
  unfold modView; repeat' split
  all_goals simp
@[simp] theorem modView_stationIndex (t : Nat) (f : View → View) (s : State) : (modView t f s).stationIndex = s.stationIndex := by
  unfold modView; repeat' split
  all_goals simp
@[simp] theorem modView_pool (t : Nat) (f : View → View) (s : State) : (modView t f s).pool = s.pool := by
  unfold modView; repeat' split
  all_goals simp
@[simp] theorem modView_channels (t : Nat) (f : View → View) (s : State) : (modView t f s).channels = s.channels := by
  unfold modView; repeat' split
  all_goals simp
@[simp] theorem modView_builder (t : Nat) (f : View → View) (s : State) : (modView t f s).builder = s.builder := by
  unfold modView; repeat' split
  all_goals simp
@[simp] theorem modView_releaseDue (t : Nat) (f : View → View) (s : State) : (modView t f s).releaseDue = s.releaseDue := by
  unfold modView; repeat' split
  all_goals simp
@[simp] theorem modView_bus (t : Nat) (f : View → View) (s : State) : (modView t f s).bus = s.bus := by
  unfold modView; repeat' split
  all_goals simp
@[simp] theorem modView_port (t : Nat) (f : View → View) (s : State) : (modView t f s).port = s.port := by
  unfold modView; repeat' split
  all_goals simp
@[simp] theorem modView_pending (t : Nat) (f : View → View) (s : State) : (modView t f s).pending = s.pending := by
  unfold modView; repeat' split
  all_goals simp

@[simp] theorem changeViews_boot (p : View → Bool) (f : View → View) (s : State) : (changeViews p f s).boot = s.boot :=
  foldl_keeps State.boot (fun s v => syncRings (View.entry v) s) (fun _ _ => by simp) _ _
@[simp] theorem changeViews_nodeTime (p : View → Bool) (f : View → View) (s : State) : (changeViews p f s).nodeTime = s.nodeTime :=
  foldl_keeps State.nodeTime (fun s v => syncRings (View.entry v) s) (fun _ _ => by simp) _ _
@[simp] theorem changeViews_tagMap (p : View → Bool) (f : View → View) (s : State) : (changeViews p f s).tagMap = s.tagMap :=
  foldl_keeps State.tagMap (fun s v => syncRings (View.entry v) s) (fun _ _ => by simp) _ _
@[simp] theorem changeViews_stationIndex (p : View → Bool) (f : View → View) (s : State) : (changeViews p f s).stationIndex = s.stationIndex :=
  foldl_keeps State.stationIndex (fun s v => syncRings (View.entry v) s) (fun _ _ => by simp) _ _
@[simp] theorem changeViews_pool (p : View → Bool) (f : View → View) (s : State) : (changeViews p f s).pool = s.pool :=
  foldl_keeps State.pool (fun s v => syncRings (View.entry v) s) (fun _ _ => by simp) _ _
@[simp] theorem changeViews_channels (p : View → Bool) (f : View → View) (s : State) : (changeViews p f s).channels = s.channels :=
  foldl_keeps State.channels (fun s v => syncRings (View.entry v) s) (fun _ _ => by simp) _ _
@[simp] theorem changeViews_builder (p : View → Bool) (f : View → View) (s : State) : (changeViews p f s).builder = s.builder :=
  foldl_keeps State.builder (fun s v => syncRings (View.entry v) s) (fun _ _ => by simp) _ _
@[simp] theorem changeViews_releaseDue (p : View → Bool) (f : View → View) (s : State) : (changeViews p f s).releaseDue = s.releaseDue :=
  foldl_keeps State.releaseDue (fun s v => syncRings (View.entry v) s) (fun _ _ => by simp) _ _
@[simp] theorem changeViews_bus (p : View → Bool) (f : View → View) (s : State) : (changeViews p f s).bus = s.bus :=
  foldl_keeps State.bus (fun s v => syncRings (View.entry v) s) (fun _ _ => by simp) _ _
@[simp] theorem changeViews_port (p : View → Bool) (f : View → View) (s : State) : (changeViews p f s).port = s.port :=
  foldl_keeps State.port (fun s v => syncRings (View.entry v) s) (fun _ _ => by simp) _ _
@[simp] theorem changeViews_pending (p : View → Bool) (f : View → View) (s : State) : (changeViews p f s).pending = s.pending :=
  foldl_keeps State.pending (fun s v => syncRings (View.entry v) s) (fun _ _ => by simp) _ _

@[simp] theorem rebaseViews_boot (x : List NodeLane) (s : State) : (rebaseViews x s).boot = s.boot := by
  simp [rebaseViews]
@[simp] theorem rebaseViews_nodeTime (x : List NodeLane) (s : State) : (rebaseViews x s).nodeTime = s.nodeTime := by
  simp [rebaseViews]
@[simp] theorem rebaseViews_tagMap (x : List NodeLane) (s : State) : (rebaseViews x s).tagMap = s.tagMap := by
  simp [rebaseViews]
@[simp] theorem rebaseViews_stationIndex (x : List NodeLane) (s : State) : (rebaseViews x s).stationIndex = s.stationIndex := by
  simp [rebaseViews]
@[simp] theorem rebaseViews_pool (x : List NodeLane) (s : State) : (rebaseViews x s).pool = s.pool := by
  simp [rebaseViews]
@[simp] theorem rebaseViews_channels (x : List NodeLane) (s : State) : (rebaseViews x s).channels = s.channels := by
  simp [rebaseViews]
@[simp] theorem rebaseViews_builder (x : List NodeLane) (s : State) : (rebaseViews x s).builder = s.builder := by
  simp [rebaseViews]
@[simp] theorem rebaseViews_releaseDue (x : List NodeLane) (s : State) : (rebaseViews x s).releaseDue = s.releaseDue := by
  simp [rebaseViews]
@[simp] theorem rebaseViews_bus (x : List NodeLane) (s : State) : (rebaseViews x s).bus = s.bus := by
  simp [rebaseViews]
@[simp] theorem rebaseViews_port (x : List NodeLane) (s : State) : (rebaseViews x s).port = s.port := by
  simp [rebaseViews]
@[simp] theorem rebaseViews_pending (x : List NodeLane) (s : State) : (rebaseViews x s).pending = s.pending := by
  simp [rebaseViews]

@[simp] theorem clearViews_boot (s : State) : (clearViews s).boot = s.boot := by
  simp [clearViews]
@[simp] theorem clearViews_nodeTime (s : State) : (clearViews s).nodeTime = s.nodeTime := by
  simp [clearViews]
@[simp] theorem clearViews_tagMap (s : State) : (clearViews s).tagMap = s.tagMap := by
  simp [clearViews]
@[simp] theorem clearViews_stationIndex (s : State) : (clearViews s).stationIndex = s.stationIndex := by
  simp [clearViews]
@[simp] theorem clearViews_pool (s : State) : (clearViews s).pool = s.pool := by
  simp [clearViews]
@[simp] theorem clearViews_channels (s : State) : (clearViews s).channels = s.channels := by
  simp [clearViews]
@[simp] theorem clearViews_builder (s : State) : (clearViews s).builder = s.builder := by
  simp [clearViews]
@[simp] theorem clearViews_releaseDue (s : State) : (clearViews s).releaseDue = s.releaseDue := by
  simp [clearViews]
@[simp] theorem clearViews_bus (s : State) : (clearViews s).bus = s.bus := by
  simp [clearViews]
@[simp] theorem clearViews_port (s : State) : (clearViews s).port = s.port := by
  simp [clearViews]
@[simp] theorem clearViews_pending (s : State) : (clearViews s).pending = s.pending := by
  simp [clearViews]

@[simp] theorem setReader_boot (r : BusReader) (s : State) : (setReader r s).boot = s.boot := rfl
@[simp] theorem setReader_nodeTime (r : BusReader) (s : State) : (setReader r s).nodeTime = s.nodeTime := rfl
@[simp] theorem setReader_lanes (r : BusReader) (s : State) : (setReader r s).lanes = s.lanes := rfl
@[simp] theorem setReader_table (r : BusReader) (s : State) : (setReader r s).table = s.table := rfl
@[simp] theorem setReader_tagMap (r : BusReader) (s : State) : (setReader r s).tagMap = s.tagMap := rfl
@[simp] theorem setReader_stationIndex (r : BusReader) (s : State) : (setReader r s).stationIndex = s.stationIndex := rfl
@[simp] theorem setReader_pool (r : BusReader) (s : State) : (setReader r s).pool = s.pool := rfl
@[simp] theorem setReader_channels (r : BusReader) (s : State) : (setReader r s).channels = s.channels := rfl
@[simp] theorem setReader_builder (r : BusReader) (s : State) : (setReader r s).builder = s.builder := rfl
@[simp] theorem setReader_views (r : BusReader) (s : State) : (setReader r s).views = s.views := rfl
@[simp] theorem setReader_releaseDue (r : BusReader) (s : State) : (setReader r s).releaseDue = s.releaseDue := rfl
@[simp] theorem setReader_port (r : BusReader) (s : State) : (setReader r s).port = s.port := rfl
@[simp] theorem setReader_pending (r : BusReader) (s : State) : (setReader r s).pending = s.pending := rfl

@[simp] theorem frameEnds_boot (s : State) : (frameEnds s).boot = s.boot := rfl
@[simp] theorem frameEnds_nodeTime (s : State) : (frameEnds s).nodeTime = s.nodeTime := rfl
@[simp] theorem frameEnds_lanes (s : State) : (frameEnds s).lanes = s.lanes := rfl
@[simp] theorem frameEnds_table (s : State) : (frameEnds s).table = s.table := rfl
@[simp] theorem frameEnds_tagMap (s : State) : (frameEnds s).tagMap = s.tagMap := rfl
@[simp] theorem frameEnds_stationIndex (s : State) : (frameEnds s).stationIndex = s.stationIndex := rfl
@[simp] theorem frameEnds_pool (s : State) : (frameEnds s).pool = s.pool := rfl
@[simp] theorem frameEnds_channels (s : State) : (frameEnds s).channels = s.channels := rfl
@[simp] theorem frameEnds_builder (s : State) : (frameEnds s).builder = s.builder := rfl
@[simp] theorem frameEnds_views (s : State) : (frameEnds s).views = s.views := rfl
@[simp] theorem frameEnds_releaseDue (s : State) : (frameEnds s).releaseDue = s.releaseDue := rfl
@[simp] theorem frameEnds_port (s : State) : (frameEnds s).port = s.port := rfl
@[simp] theorem frameEnds_pending (s : State) : (frameEnds s).pending = s.pending := rfl

@[simp] theorem addEntry_boot (e : Stream) (s : State) : (addEntry e s).boot = s.boot := rfl
@[simp] theorem addEntry_nodeTime (e : Stream) (s : State) : (addEntry e s).nodeTime = s.nodeTime := rfl
@[simp] theorem addEntry_lanes (e : Stream) (s : State) : (addEntry e s).lanes = s.lanes := rfl
@[simp] theorem addEntry_stationIndex (e : Stream) (s : State) : (addEntry e s).stationIndex = s.stationIndex := rfl
@[simp] theorem addEntry_pool (e : Stream) (s : State) : (addEntry e s).pool = s.pool := rfl
@[simp] theorem addEntry_channels (e : Stream) (s : State) : (addEntry e s).channels = s.channels := rfl
@[simp] theorem addEntry_builder (e : Stream) (s : State) : (addEntry e s).builder = s.builder := rfl
@[simp] theorem addEntry_views (e : Stream) (s : State) : (addEntry e s).views = s.views := rfl
@[simp] theorem addEntry_releaseDue (e : Stream) (s : State) : (addEntry e s).releaseDue = s.releaseDue := rfl
@[simp] theorem addEntry_bus (e : Stream) (s : State) : (addEntry e s).bus = s.bus := rfl
@[simp] theorem addEntry_port (e : Stream) (s : State) : (addEntry e s).port = s.port := rfl
@[simp] theorem addEntry_pending (e : Stream) (s : State) : (addEntry e s).pending = s.pending := rfl

@[simp] theorem idleChannel_boot (k : Nat) (s : State) : (idleChannel k s).boot = s.boot := rfl
@[simp] theorem idleChannel_nodeTime (k : Nat) (s : State) : (idleChannel k s).nodeTime = s.nodeTime := rfl
@[simp] theorem idleChannel_lanes (k : Nat) (s : State) : (idleChannel k s).lanes = s.lanes := rfl
@[simp] theorem idleChannel_table (k : Nat) (s : State) : (idleChannel k s).table = s.table := rfl
@[simp] theorem idleChannel_tagMap (k : Nat) (s : State) : (idleChannel k s).tagMap = s.tagMap := rfl
@[simp] theorem idleChannel_stationIndex (k : Nat) (s : State) : (idleChannel k s).stationIndex = s.stationIndex := rfl
@[simp] theorem idleChannel_pool (k : Nat) (s : State) : (idleChannel k s).pool = s.pool := rfl
@[simp] theorem idleChannel_builder (k : Nat) (s : State) : (idleChannel k s).builder = s.builder := rfl
@[simp] theorem idleChannel_views (k : Nat) (s : State) : (idleChannel k s).views = s.views := rfl
@[simp] theorem idleChannel_releaseDue (k : Nat) (s : State) : (idleChannel k s).releaseDue = s.releaseDue := rfl
@[simp] theorem idleChannel_bus (k : Nat) (s : State) : (idleChannel k s).bus = s.bus := rfl
@[simp] theorem idleChannel_port (k : Nat) (s : State) : (idleChannel k s).port = s.port := rfl
@[simp] theorem idleChannel_pending (k : Nat) (s : State) : (idleChannel k s).pending = s.pending := rfl

@[simp] theorem handover_boot (c : Channel) (s : State) : (handover c s).boot = s.boot := by
  unfold handover; repeat' split
  all_goals simp
@[simp] theorem handover_nodeTime (c : Channel) (s : State) : (handover c s).nodeTime = s.nodeTime := by
  unfold handover; repeat' split
  all_goals simp
@[simp] theorem handover_lanes (c : Channel) (s : State) : (handover c s).lanes = s.lanes := by
  unfold handover; repeat' split
  all_goals simp
@[simp] theorem handover_table (c : Channel) (s : State) : (handover c s).table = s.table := by
  unfold handover; repeat' split
  all_goals simp
@[simp] theorem handover_tagMap (c : Channel) (s : State) : (handover c s).tagMap = s.tagMap := by
  unfold handover; repeat' split
  all_goals simp
@[simp] theorem handover_stationIndex (c : Channel) (s : State) : (handover c s).stationIndex = s.stationIndex := by
  unfold handover; repeat' split
  all_goals simp
@[simp] theorem handover_pool (c : Channel) (s : State) : (handover c s).pool = s.pool := by
  unfold handover; repeat' split
  all_goals simp
@[simp] theorem handover_builder (c : Channel) (s : State) : (handover c s).builder = s.builder := by
  unfold handover; repeat' split
  all_goals simp
@[simp] theorem handover_views (c : Channel) (s : State) : (handover c s).views = s.views := by
  unfold handover; repeat' split
  all_goals simp
@[simp] theorem handover_releaseDue (c : Channel) (s : State) : (handover c s).releaseDue = s.releaseDue := by
  unfold handover; repeat' split
  all_goals simp
@[simp] theorem handover_bus (c : Channel) (s : State) : (handover c s).bus = s.bus := by
  unfold handover; repeat' split
  all_goals simp
@[simp] theorem handover_port (c : Channel) (s : State) : (handover c s).port = s.port := by
  unfold handover; repeat' split
  all_goals simp
@[simp] theorem handover_pending (c : Channel) (s : State) : (handover c s).pending = s.pending := by
  unfold handover; repeat' split
  all_goals simp

@[simp] theorem missInterval_boot (l : LaneNo) (x : Slice) (s : State) : (missInterval l x s).boot = s.boot := rfl
@[simp] theorem missInterval_nodeTime (l : LaneNo) (x : Slice) (s : State) : (missInterval l x s).nodeTime = s.nodeTime := rfl
@[simp] theorem missInterval_lanes (l : LaneNo) (x : Slice) (s : State) : (missInterval l x s).lanes = s.lanes := rfl
@[simp] theorem missInterval_table (l : LaneNo) (x : Slice) (s : State) : (missInterval l x s).table = s.table := rfl
@[simp] theorem missInterval_tagMap (l : LaneNo) (x : Slice) (s : State) : (missInterval l x s).tagMap = s.tagMap := rfl
@[simp] theorem missInterval_stationIndex (l : LaneNo) (x : Slice) (s : State) : (missInterval l x s).stationIndex = s.stationIndex := rfl
@[simp] theorem missInterval_pool (l : LaneNo) (x : Slice) (s : State) : (missInterval l x s).pool = s.pool := rfl
@[simp] theorem missInterval_builder (l : LaneNo) (x : Slice) (s : State) : (missInterval l x s).builder = s.builder := rfl
@[simp] theorem missInterval_views (l : LaneNo) (x : Slice) (s : State) : (missInterval l x s).views = s.views := rfl
@[simp] theorem missInterval_releaseDue (l : LaneNo) (x : Slice) (s : State) : (missInterval l x s).releaseDue = s.releaseDue := rfl
@[simp] theorem missInterval_bus (l : LaneNo) (x : Slice) (s : State) : (missInterval l x s).bus = s.bus := rfl
@[simp] theorem missInterval_port (l : LaneNo) (x : Slice) (s : State) : (missInterval l x s).port = s.port := rfl
@[simp] theorem missInterval_pending (l : LaneNo) (x : Slice) (s : State) : (missInterval l x s).pending = s.pending := rfl

@[simp] theorem queueCorrection_boot (l : LaneNo) (c : Correction) (s : State) : (queueCorrection l c s).boot = s.boot := rfl
@[simp] theorem queueCorrection_nodeTime (l : LaneNo) (c : Correction) (s : State) : (queueCorrection l c s).nodeTime = s.nodeTime := rfl
@[simp] theorem queueCorrection_table (l : LaneNo) (c : Correction) (s : State) : (queueCorrection l c s).table = s.table := rfl
@[simp] theorem queueCorrection_tagMap (l : LaneNo) (c : Correction) (s : State) : (queueCorrection l c s).tagMap = s.tagMap := rfl
@[simp] theorem queueCorrection_stationIndex (l : LaneNo) (c : Correction) (s : State) : (queueCorrection l c s).stationIndex = s.stationIndex := rfl
@[simp] theorem queueCorrection_pool (l : LaneNo) (c : Correction) (s : State) : (queueCorrection l c s).pool = s.pool := rfl
@[simp] theorem queueCorrection_channels (l : LaneNo) (c : Correction) (s : State) : (queueCorrection l c s).channels = s.channels := rfl
@[simp] theorem queueCorrection_builder (l : LaneNo) (c : Correction) (s : State) : (queueCorrection l c s).builder = s.builder := rfl
@[simp] theorem queueCorrection_views (l : LaneNo) (c : Correction) (s : State) : (queueCorrection l c s).views = s.views := rfl
@[simp] theorem queueCorrection_releaseDue (l : LaneNo) (c : Correction) (s : State) : (queueCorrection l c s).releaseDue = s.releaseDue := rfl
@[simp] theorem queueCorrection_bus (l : LaneNo) (c : Correction) (s : State) : (queueCorrection l c s).bus = s.bus := rfl
@[simp] theorem queueCorrection_port (l : LaneNo) (c : Correction) (s : State) : (queueCorrection l c s).port = s.port := rfl
@[simp] theorem queueCorrection_pending (l : LaneNo) (c : Correction) (s : State) : (queueCorrection l c s).pending = s.pending := rfl

@[simp] theorem dropCorrection_boot (l : LaneNo) (t : Nat) (s : State) : (dropCorrection l t s).boot = s.boot := rfl
@[simp] theorem dropCorrection_nodeTime (l : LaneNo) (t : Nat) (s : State) : (dropCorrection l t s).nodeTime = s.nodeTime := rfl
@[simp] theorem dropCorrection_table (l : LaneNo) (t : Nat) (s : State) : (dropCorrection l t s).table = s.table := rfl
@[simp] theorem dropCorrection_tagMap (l : LaneNo) (t : Nat) (s : State) : (dropCorrection l t s).tagMap = s.tagMap := rfl
@[simp] theorem dropCorrection_stationIndex (l : LaneNo) (t : Nat) (s : State) : (dropCorrection l t s).stationIndex = s.stationIndex := rfl
@[simp] theorem dropCorrection_pool (l : LaneNo) (t : Nat) (s : State) : (dropCorrection l t s).pool = s.pool := rfl
@[simp] theorem dropCorrection_channels (l : LaneNo) (t : Nat) (s : State) : (dropCorrection l t s).channels = s.channels := rfl
@[simp] theorem dropCorrection_builder (l : LaneNo) (t : Nat) (s : State) : (dropCorrection l t s).builder = s.builder := rfl
@[simp] theorem dropCorrection_views (l : LaneNo) (t : Nat) (s : State) : (dropCorrection l t s).views = s.views := rfl
@[simp] theorem dropCorrection_releaseDue (l : LaneNo) (t : Nat) (s : State) : (dropCorrection l t s).releaseDue = s.releaseDue := rfl
@[simp] theorem dropCorrection_bus (l : LaneNo) (t : Nat) (s : State) : (dropCorrection l t s).bus = s.bus := rfl
@[simp] theorem dropCorrection_port (l : LaneNo) (t : Nat) (s : State) : (dropCorrection l t s).port = s.port := rfl
@[simp] theorem dropCorrection_pending (l : LaneNo) (t : Nat) (s : State) : (dropCorrection l t s).pending = s.pending := rfl

@[simp] theorem placeRegion_boot (t : PlanTurn) (s : State) : (placeRegion t s).boot = s.boot := rfl
@[simp] theorem placeRegion_nodeTime (t : PlanTurn) (s : State) : (placeRegion t s).nodeTime = s.nodeTime := rfl
@[simp] theorem placeRegion_lanes (t : PlanTurn) (s : State) : (placeRegion t s).lanes = s.lanes := rfl
@[simp] theorem placeRegion_table (t : PlanTurn) (s : State) : (placeRegion t s).table = s.table := rfl
@[simp] theorem placeRegion_tagMap (t : PlanTurn) (s : State) : (placeRegion t s).tagMap = s.tagMap := rfl
@[simp] theorem placeRegion_stationIndex (t : PlanTurn) (s : State) : (placeRegion t s).stationIndex = s.stationIndex := rfl
@[simp] theorem placeRegion_pool (t : PlanTurn) (s : State) : (placeRegion t s).pool = s.pool := rfl
@[simp] theorem placeRegion_channels (t : PlanTurn) (s : State) : (placeRegion t s).channels = s.channels := rfl
@[simp] theorem placeRegion_views (t : PlanTurn) (s : State) : (placeRegion t s).views = s.views := rfl
@[simp] theorem placeRegion_releaseDue (t : PlanTurn) (s : State) : (placeRegion t s).releaseDue = s.releaseDue := rfl
@[simp] theorem placeRegion_bus (t : PlanTurn) (s : State) : (placeRegion t s).bus = s.bus := rfl
@[simp] theorem placeRegion_port (t : PlanTurn) (s : State) : (placeRegion t s).port = s.port := rfl
@[simp] theorem placeRegion_pending (t : PlanTurn) (s : State) : (placeRegion t s).pending = s.pending := rfl

@[simp] theorem placeTurn_boot (b : Build) (n : Nat) (t : PlanTurn) (c : Option Nat) (v : Bool) (s : State) : (placeTurn b n t c v s).boot = s.boot := rfl
@[simp] theorem placeTurn_nodeTime (b : Build) (n : Nat) (t : PlanTurn) (c : Option Nat) (v : Bool) (s : State) : (placeTurn b n t c v s).nodeTime = s.nodeTime := rfl
@[simp] theorem placeTurn_lanes (b : Build) (n : Nat) (t : PlanTurn) (c : Option Nat) (v : Bool) (s : State) : (placeTurn b n t c v s).lanes = s.lanes := rfl
@[simp] theorem placeTurn_tagMap (b : Build) (n : Nat) (t : PlanTurn) (c : Option Nat) (v : Bool) (s : State) : (placeTurn b n t c v s).tagMap = s.tagMap := rfl
@[simp] theorem placeTurn_stationIndex (b : Build) (n : Nat) (t : PlanTurn) (c : Option Nat) (v : Bool) (s : State) : (placeTurn b n t c v s).stationIndex = s.stationIndex := rfl
@[simp] theorem placeTurn_pool (b : Build) (n : Nat) (t : PlanTurn) (c : Option Nat) (v : Bool) (s : State) : (placeTurn b n t c v s).pool = s.pool := rfl
@[simp] theorem placeTurn_channels (b : Build) (n : Nat) (t : PlanTurn) (c : Option Nat) (v : Bool) (s : State) : (placeTurn b n t c v s).channels = s.channels := rfl
@[simp] theorem placeTurn_views (b : Build) (n : Nat) (t : PlanTurn) (c : Option Nat) (v : Bool) (s : State) : (placeTurn b n t c v s).views = s.views := rfl
@[simp] theorem placeTurn_releaseDue (b : Build) (n : Nat) (t : PlanTurn) (c : Option Nat) (v : Bool) (s : State) : (placeTurn b n t c v s).releaseDue = s.releaseDue := rfl
@[simp] theorem placeTurn_bus (b : Build) (n : Nat) (t : PlanTurn) (c : Option Nat) (v : Bool) (s : State) : (placeTurn b n t c v s).bus = s.bus := rfl
@[simp] theorem placeTurn_port (b : Build) (n : Nat) (t : PlanTurn) (c : Option Nat) (v : Bool) (s : State) : (placeTurn b n t c v s).port = s.port := rfl
@[simp] theorem placeTurn_pending (b : Build) (n : Nat) (t : PlanTurn) (c : Option Nat) (v : Bool) (s : State) : (placeTurn b n t c v s).pending = s.pending := rfl

/-! ### The status queue, replies and flags -/

/-- Everything queueStatus can do: the message joins the tail, or it is dropped and OVERFLOW is set (R186, R187). -/
theorem queueStatus_cases (m : Message) (s : State) :
    (s.port.statusQueue.length < Config.statusDepth ∧
      queueStatus m s = { s with port := { s.port with statusQueue := s.port.statusQueue ++ [m] } }) ∨
    (Config.statusDepth ≤ s.port.statusQueue.length ∧
      queueStatus m s = { s with port := { s.port with overflow := true } }) := by
  by_cases h : s.port.statusQueue.length < Config.statusDepth
  · exact .inl ⟨h, by simp [queueStatus, h, modPort]⟩
  · exact .inr ⟨Nat.le_of_not_lt h, by simp [queueStatus, h, modPort]⟩

/-- The status queue stays within its depth. -/
theorem queueStatus_bound (m : Message) (s : State) (h : s.port.statusQueue.length ≤ Config.statusDepth) :
    (queueStatus m s).port.statusQueue.length ≤ Config.statusDepth := by
  rcases queueStatus_cases m s with ⟨hl, e⟩ | ⟨_, e⟩ <;> rw [e]
  · simp; omega
  · exact h

/-- Lane records are not changed by a status message. -/
@[simp] theorem queueStatus_lane (m : Message) (s : State) (k : LaneNo) : (queueStatus m s).lane k = s.lane k := by
  simp [State.lane]

/-- Everything setFlag can do: nothing when the flag is suppressed, else the flag and the summary are set (R171, R172). -/
theorem setFlag_cases (l : LaneNo) (g : Flag) (s : State) :
    (s.suppressed l g = true ∧ setFlag l g s = s) ∨
    (s.suppressed l g = false ∧ setFlag l g s =
      modPort (fun p => { p with summary := true }) (modHealth l (fun h => { h with flags := h.flags ||| g.mask }) s)) := by
  cases h : s.suppressed l g <;> simp [setFlag, h]

/-- A flag leaves the status queue as it is. -/
@[simp] theorem setFlag_statusQueue (l : LaneNo) (g : Flag) (s : State) :
    (setFlag l g s).port.statusQueue = s.port.statusQueue := by
  rcases setFlag_cases l g s with ⟨_, e⟩ | ⟨_, e⟩ <;> rw [e]; rfl

/-! ### The notice queue -/

/-- Everything pumpHolder can do: nothing, or the head of the queue moves into the empty holder and an owed mark is served
(R137, R139). -/
theorem pumpHolder_cases (s : State) :
    pumpHolder s = s ∨
    ∃ n rest, s.bus.state = .active ∧ s.bus.holder = none ∧ s.bus.queue = n :: rest ∧
      pumpHolder s = serveOwed (modBus (fun b => { b with holder := some n, voidCount := 0, queue := rest }) s) := by
  unfold pumpHolder
  split
  · rename_i ha
    split
    · rename_i n rest hh hq
      exact .inr ⟨n, rest, ha, hh, hq, rfl⟩
    · exact .inl rfl
  · exact .inl rfl

/-- Everything serveOwed can do: nothing, or one LANE notice joins a queue with room (R139). -/
theorem serveOwed_cases (s : State) :
    serveOwed s = s ∨
    ∃ l, s.takesNotice = true ∧
      serveOwed s = modLane l (fun L => { L with owed := false }) (pushNotice (s.laneNotice l) s) := by
  unfold serveOwed
  split
  · rename_i l _
    by_cases h : s.takesNotice = true
    · exact .inr ⟨l, h, by simp [h]⟩
    · exact .inl (by simp [h])
  · exact .inl rfl

/-- The bus state is not changed by the movement of notices. -/
@[simp] theorem serveOwed_busState (s : State) : (serveOwed s).bus.state = s.bus.state := by
  rcases serveOwed_cases s with e | ⟨l, _, e⟩ <;> rw [e]; rfl

/-- The bus state is not changed by the movement of notices. -/
@[simp] theorem pumpHolder_busState (s : State) : (pumpHolder s).bus.state = s.bus.state := by
  rcases pumpHolder_cases s with e | ⟨n, rest, _, _, _, e⟩ <;> rw [e]; simp

/-! ### Rings -/

/-- One ring after it is brought up to date: the entry is in it exactly when it is to be a member (R30). -/
theorem ringFor_mem (n : Nat) (member : Bool) (r : List Nat) : n ∈ ringFor n member r ↔ member = true := by
  cases member <;> simp [ringFor]
  split <;> simp_all

/-- The others keep their places in it, in order. -/
theorem ringFor_others (n : Nat) (member : Bool) (r : List Nat) :
    (ringFor n member r).filter (fun m => m != n) = r.filter (fun m => m != n) := by
  unfold ringFor
  repeat' split
  all_goals simp [List.filter_append]

/-! ### The views and the bus -/

/-- The views after a change of those that meet `p` (R145): the rings follow, the views themselves are what `f` makes of them. -/
theorem changeViews_views (p : View → Bool) (f : View → View) (s : State) :
    (changeViews p f s).views = s.views.map fun v => if p v then f v else v :=
  foldl_keeps State.views (fun s v => syncRings (View.entry v) s) (fun _ _ => by simp) _ _

/-- The view of a tag after a change of it (R145). -/
theorem modView_viewOf {tag : Nat} {s : State} {v : View} (f : View → View) (hf : ∀ v, (f v).tag = v.tag)
    (h : s.viewOf tag = some v) : (modView tag f s).viewOf tag = some (f v) := by
  have e : ((fun w : View => w.tag == tag) ∘ fun w : View => if (w.tag == tag) = true then f w else w) =
      fun w => w.tag == tag := by
    funext w; simp only [Function.comp]; split <;> simp_all
  have ht : (v.tag == tag) = true := by simpa using List.find?_some h
  unfold modView
  rw [h]
  simp only [State.viewOf, syncRings_views, List.find?_map, e]
  rw [show s.views.find? (fun w => w.tag == tag) = some v from h]
  simp only [Option.map_some, ht, if_true]

/-- Every other view stays as it is. -/
theorem modView_viewOf_other {tag m : Nat} (f : View → View) (hf : ∀ v, (f v).tag = v.tag) (hm : m ≠ tag) (s : State) :
    (modView tag f s).viewOf m = s.viewOf m := by
  have e : ((fun w : View => w.tag == m) ∘ fun w : View => if (w.tag == tag) = true then f w else w) =
      fun w => w.tag == m := by
    funext w; simp only [Function.comp]; split <;> simp_all
  unfold modView
  split
  · simp only [State.viewOf, syncRings_views, List.find?_map, e]
    cases h : s.views.find? fun w => w.tag == m with
    | none => rfl
    | some v =>
      have hv : v.tag = m := by simpa using List.find?_some h
      simp [hv, hm]
  · rfl

/-- Everything a start can do (R128, R129): nothing while the chip is sending or follows no bus; else it reads the bits that passed,
and begins its frame when it is ACTIVE, holds a notice and then finds the bus idle. -/
theorem transmitStartStep_cases (before : List Bool) (rivals : List Rival) (s : State) :
    ((s.followsBus = false ∨ s.bus.sending = true) ∧ transmitStartStep before rivals s = s) ∨
    (s.followsBus = true ∧ s.bus.sending = false ∧
      ((∃ n, s.bus.holder = some n ∧ s.bus.state = .active ∧ (s.bus.reader.readAll before).idle = true ∧
          transmitStartStep before rivals s = beginFrame n rivals (setReader (s.bus.reader.readAll before) s)) ∨
        transmitStartStep before rivals s = setReader (s.bus.reader.readAll before) s)) := by
  unfold transmitStartStep
  cases hf : s.followsBus <;> cases hs : s.bus.sending <;> simp
  split
  · rename_i n hn
    split
    · rename_i hc
      exact .inl ⟨n, hn, hc.1, hc.2, rfl⟩
    · exact .inr rfl
  · exact .inr rfl

/-- A chip on the bus with the notice in its holder is the sender of that notice's frame (R129). -/
theorem State.sends_frameBits {s : State} {n : Notice} (hn : s.bus.holder = some n) :
    s.sends (frameBits s.boot.peerId n) = s.bus.sending := by
  have h : readBits (frameBits s.boot.peerId n) 5 = arbitration s.boot.peerId n := by
    simp [readBits, frameBits, arbitration, bitsOf, List.range_succ]
  simp [State.sends, hn, h]

/-- A station that follows a frame reads its next bit: short of the frame's T5 it goes on following (R128). -/
theorem BusReader.read_following {bits : List Bool} {b : Bool} (h : (bits ++ [b]).length < frameLength (bits ++ [b])) :
    (BusReader.following bits).read b = .following (bits ++ [b]) := by
  simp only [BusReader.read, Nat.not_le.mpr h, if_false]

/-- Everything RAMP_TIMEOUT can do (R163): nothing, or the completion of the lane's build in flight, which ends its ramp. -/
theorem rampTimeoutStep_cases (l : LaneNo) (s : State) :
    rampTimeoutStep l s = s ∨
    ∃ b, s.builder = some b ∧ b.lane = l ∧ s.mayEnter b 8 = true ∧ s.endsRamp b = true ∧
      rampTimeoutStep l s = completeBuild b s := by
  unfold rampTimeoutStep
  split
  · rename_i b hb
    have h := Option.filter_eq_some_iff.mp hb
    split
    · rename_i hc
      exact .inr ⟨b, h.1, by simpa using h.2, by simp_all, by simp_all, rfl⟩
    · exact .inl rfl
  · exact .inl rfl

/-- A due is before a plan start exactly when its offset is negative (R102; 00, "Wrapping counts"). -/
theorem dueOffset_neg (planStart due : Slice) : dueOffset planStart due < 0 ↔ countBefore due planStart = true := by
  unfold dueOffset
  split
  · rename_i h
    simp only [h, iff_true]
    simp only [countBefore, countAfter, Bool.and_eq_true, decide_eq_true_eq] at h
    omega
  · rename_i h
    exact ⟨fun h' => absurd h' (by omega), fun h' => absurd h' h⟩

/-! ### The free map -/

/-- The first gap holds what is asked of it and is a gap of the map (R73). -/
theorem firstGap_spec {gaps : List Gap} {n : Nat} {g : Gap} (h : firstGap gaps n = some g) : g ∈ gaps ∧ n ≤ g.length := by
  exact ⟨List.mem_of_find?_eq_some h, by simpa using List.find?_some h⟩

/-- A window position that fits lies in the window and its turn lies in the gap (R78). -/
theorem Gap.fit_spec {due : Int} {jitter len off : Nat} {g : Gap} (h : Gap.fit due jitter len g = some off) :
    g.start ≤ off ∧ off + len ≤ g.start + g.length ∧ due ≤ off ∧ (off : Int) ≤ due + jitter := by
  unfold Gap.fit at h
  simp only at h
  split at h
  · rename_i hc
    cases h
    omega
  · cases h

end Sys2Proof.Machine
end

