-- ==== Sys2Proof/Laws/Streams.lean ====
section
/-! SUPPORT. What the shared operations on entries of the Stream Table, on rings and on the evaluation of a lane can do. -/

namespace Sys2Proof.Machine

/-! ### Entries -/

/-- The entry found under a number carries it. -/
theorem entry?_number {s : State} {n : Nat} {e : Stream} (h : s.entry? n = some e) : e.entry = n := by
  simpa using List.find?_some h

/-- The stream a tag names is the one found under its entry number (R21). -/
theorem byTag_entry {s : State} {tag : Nat} {e : Stream} (h : s.byTag tag = some e) : s.entry? e.entry = some e := by
  cases hn : s.lookupTag tag with
  | none => simp [State.byTag, hn] at h
  | some n =>
    have h' : s.entry? n = some e := by simpa [State.byTag, hn] using h
    rw [entry?_number h']; exact h'

/-- An entry after a change of one that keeps its number. -/
theorem modEntry_entry (n m : Nat) (f : Stream → Stream) (hf : ∀ e, (f e).entry = e.entry) (s : State) :
    (modEntry n f s).entry? m = (s.entry? m).map fun e => if m = n then f e else e := by
  have e : ((fun e : Stream => e.entry == m) ∘ fun e : Stream => if (e.entry == n) = true then f e else e) =
      fun e => e.entry == m := by
    funext e; simp only [Function.comp]; split <;> simp [hf]
  simp only [State.entry?, modEntry, List.find?_map, e]
  cases h : s.table.find? fun e => e.entry == m with
  | none => rfl
  | some e =>
    have : e.entry = m := by simpa using List.find?_some h
    simp [this]

/-- An entry after a turn list entry of one stream is dropped. -/
theorem dropTurn_entry (n m : Nat) (l : LaneNo) (x : Slice) (s : State) :
    (dropTurn n l x s).entry? m = (s.entry? m).map fun e =>
      if m = n then { e with turns := e.turns.filter fun t => !(t.lane == l && t.start == x) } else e := by
  exact modEntry_entry _ _ _ (by intro e; rfl) _

/-- An entry after a change of one alignment record. -/
theorem modAlignment_entry (n m : Nat) (f : Alignment → Alignment) (s : State) :
    (modAlignment n f s).entry? m = (s.entry? m).map fun e =>
      if m = n then { e with alignment := e.alignment.map f } else e := by
  exact modEntry_entry _ _ _ (by intro e; rfl) _

/-! ### Freeing entries (R37) -/

/-- A stream that is not CLOSING is not freed. -/
theorem tryFree_not_closing {s : State} {n : Nat} {e : Stream} (h : s.entry? n = some e) (hc : e.state ≠ .closing) :
    tryFree n s = s := by simp [tryFree, h, State.mayFree, hc]

/-- No entry is found under the number of an entry that became FREE; every other stays. -/
theorem freeEntry_entry (e : Stream) (s : State) (m : Nat) :
    (freeEntry e s).entry? m = if m = e.entry then none else s.entry? m := by
  simp only [freeEntry, State.entry?, queueStatus_table, modBuild, List.find?_filter]
  split
  · rename_i hm; subst hm; rw [List.find?_eq_none]; simp
  · rename_i hm; congr 1; funext q
    by_cases hq : q.entry = m
    · subst hq; simp [hm]
    · simp [hq]

/-- An entry once FREE stays FREE while another is examined. -/
theorem freeOne_none {s : State} {m : Nat} (p : Nat) (h : s.entry? m = none) : (freeOne p s).entry? m = none := by
  unfold freeOne
  split
  · split
    · rw [freeEntry_entry]; split <;> simp [h]
    · exact h
  · exact h

/-- Everything tryFree can do: nothing, or the entry becomes FREE and its station is examined too. -/
theorem tryFree_cases (n : Nat) (s : State) :
    tryFree n s = s ∨ ∃ e, s.entry? n = some e ∧ s.mayFree e = true ∧ tryFree n s = freeOne e.parent (freeEntry e s) ∧
      (tryFree n s).entry? n = none := by
  unfold tryFree
  cases h : s.entry? n with
  | none => exact .inl rfl
  | some e =>
    cases hm : s.mayFree e with
    | false => exact .inl (by simp [hm])
    | true =>
      refine .inr ⟨e, rfl, hm, by simp [hm], ?_⟩
      simp only [if_true, hm]
      exact freeOne_none _ (by rw [freeEntry_entry, if_pos (entry?_number h).symm])

/-- A second examination finds nothing more to free. -/
theorem tryFree_twice (n : Nat) (s : State) : tryFree n (tryFree n s) = tryFree n s := by
  rcases tryFree_cases n s with h | ⟨e, _, _, _, h⟩
  · rw [h, h]
  · generalize tryFree n s = t at *
    simp [tryFree, h]

/-! ### Rings (R30, R31) -/

/-- Membership as R30 asks for it does not depend on the rings. -/
theorem syncRing_meetsRing (n : Nat) (l k : LaneNo) (i : Fin 6) (c : Nat) (e : Stream) (s : State) :
    (syncRing n l i s).meetsRing e k c = s.meetsRing e k c := rfl

/-- A ring after one ring of entry `n` is brought up to date. -/
theorem syncRing_ring (n : Nat) (l k : LaneNo) (i j : Fin 6) (s : State) :
    ((syncRing n l i s).lane k).ring j =
      if k = l ∧ j = i then
        ringFor n ((s.entry? n).any fun e => s.meetsRing e l (i.val + 1)) ((s.lane l).ring i)
      else (s.lane k).ring j := by
  have hm : (match s.entry? n with
      | some e => s.meetsRing e l (i.val + 1)
      | none => false) = (s.entry? n).any fun e => s.meetsRing e l (i.val + 1) := by
    cases s.entry? n <;> rfl
  simp only [syncRing, setRing, modLane_lane]
  by_cases h : k = l
  · subst h
    simp only [if_true, Lane.ring, Vector.getElem_set]
    by_cases g : j = i
    · subst g; simp only [and_self, if_true]; exact congrArg (fun b => ringFor n b _) hm
    · have : i.val ≠ j.val := fun h' => g (Fin.ext h'.symm)
      simp [g, this]
  · simp [h]

/-- A lane after one ring is brought up to date. -/
theorem syncRing_lane (n : Nat) (l k : LaneNo) (i : Fin 6) (s : State) :
    (syncRing n l i s).lane k = { s.lane k with rings := ((syncRing n l i s).lane k).rings } := by
  simp only [syncRing, setRing, modLane_lane]; split <;> simp_all

/-- The rings of entry `n` on the lanes given, brought up to date one after another. -/
theorem syncLanes_spec (n : Nat) (L : List LaneNo) (s : State) :
    let t := L.foldl (fun s l => ringIndexes.foldl (fun s i => syncRing n l i s) s) s
    t = { s with lanes := t.lanes } ∧ (∀ k, t.lane k = { s.lane k with rings := (t.lane k).rings }) ∧
      ∀ k j, (t.lane k).ring j =
        if k ∈ L then ringFor n ((s.entry? n).any fun e => s.meetsRing e k (j.val + 1)) ((s.lane k).ring j)
        else (s.lane k).ring j := by
  have twice : ∀ b r, ringFor n b (ringFor n b r) = ringFor n b r := by
    intro b r
    cases b
    · simp [ringFor]
    · have : n ∈ ringFor n true r := (ringFor_mem n true r).2 rfl
      generalize ringFor n true r = q at *
      simp [ringFor, this]
  have inner : ∀ (I : List (Fin 6)) (l : LaneNo) (s : State),
      let t := I.foldl (fun s i => syncRing n l i s) s
      t = { s with lanes := t.lanes } ∧ (∀ k, t.lane k = { s.lane k with rings := (t.lane k).rings }) ∧
        ∀ k j, (t.lane k).ring j =
          if k = l ∧ j ∈ I then ringFor n ((s.entry? n).any fun e => s.meetsRing e k (j.val + 1)) ((s.lane k).ring j)
          else (s.lane k).ring j := by
    intro I
    induction I with
    | nil => intro l s; exact ⟨rfl, fun _ => rfl, fun _ _ => by simp⟩
    | cons i I ih =>
      intro l s
      obtain ⟨h1, h2, h3⟩ := ih l (syncRing n l i s)
      refine ⟨by rw [List.foldl_cons, h1]; rfl, fun k => ?_, fun k j => ?_⟩
      · rw [List.foldl_cons, h2, syncRing_lane]
      · rw [List.foldl_cons, h3]
        have hm : (((syncRing n l i s).entry? n).any fun e => (syncRing n l i s).meetsRing e k (j.val + 1)) =
            (s.entry? n).any fun e => s.meetsRing e k (j.val + 1) := rfl
        rw [hm, syncRing_ring]
        by_cases hk : k = l
        · subst hk
          by_cases hj : j = i
          · subst hj; by_cases hI : j ∈ I <;> simp [hI, twice]
          · by_cases hI : j ∈ I <;> simp [hI, hj]
        · simp [hk]
  induction L generalizing s with
  | nil => exact ⟨rfl, fun _ => rfl, fun _ _ => by simp⟩
  | cons l L ih =>
    obtain ⟨h1, h2, h3⟩ := ih (ringIndexes.foldl (fun s i => syncRing n l i s) s)
    obtain ⟨g1, g2, g3⟩ := inner ringIndexes l s
    have all : ∀ j : Fin 6, j ∈ ringIndexes := by decide
    refine ⟨by rw [List.foldl_cons, h1, g1], fun k => by rw [List.foldl_cons, h2, g2], fun k j => ?_⟩
    rw [List.foldl_cons, h3]
    have hm : (((ringIndexes.foldl (fun s i => syncRing n l i s) s).entry? n).any fun e =>
        (ringIndexes.foldl (fun s i => syncRing n l i s) s).meetsRing e k (j.val + 1)) =
          (s.entry? n).any fun e => s.meetsRing e k (j.val + 1) := by rw [g1]; rfl
    rw [hm, g3]
    by_cases hk : k = l
    · subst hk; by_cases hI : k ∈ L <;> simp [hI, all, twice]
    · by_cases hI : k ∈ L <;> simp [hI, hk]

/-- Everything syncRings can do: each ring holds the entry as R30 asks, the others keeping their places; in no ring, its deficit is 0
(R31), and nothing else changes. -/
theorem syncRings_spec (n : Nat) (s : State) :
    (∀ k j, ((syncRings n s).lane k).ring j =
      ringFor n ((s.entry? n).any fun e => s.meetsRing e k (j.val + 1)) ((s.lane k).ring j)) ∧
    (∀ k, (syncRings n s).lane k = { s.lane k with rings := ((syncRings n s).lane k).rings }) ∧
    (∀ m, (syncRings n s).entry? m = (s.entry? m).map fun e =>
      if m = n ∧ (syncRings n s).inSomeRing n = false then { e with deficit := 0 } else e) ∧
    syncRings n s = { s with table := (syncRings n s).table, lanes := (syncRings n s).lanes } := by
  obtain ⟨h1, h2, h3⟩ := syncLanes_spec n allLanes s
  have all : ∀ k : LaneNo, k ∈ allLanes := by decide
  simp only [all, if_true] at h3
  unfold syncRings
  generalize allLanes.foldl (fun s l => ringIndexes.foldl (fun s i => syncRing n l i s) s) s = t at *
  have ht : ∀ m, t.entry? m = s.entry? m := by intro m; rw [h1]; rfl
  by_cases hr : t.inSomeRing n = true
  · simp only [hr, if_true]
    exact ⟨h3, h2, fun m => by simp [ht], by rw [h1]⟩
  · have hf : t.inSomeRing n = false := by simpa using hr
    have hg : (modEntry n (fun e => { e with deficit := 0 }) t).inSomeRing n = false := hf
    simp only [hf, hg, Bool.false_eq_true, if_false, and_true]
    exact ⟨h3, h2, fun m => by rw [← ht]; exact modEntry_entry _ _ _ (by intro e; rfl) _, by rw [h1]; rfl⟩

/-- An entry is in some ring exactly when it meets R30 for one of them, after its rings are brought up to date. -/
theorem syncRings_inSomeRing (n : Nat) (s : State) :
    (syncRings n s).inSomeRing n = true ↔
      ∃ k, ∃ j : Fin 6, ((s.entry? n).any fun e => s.meetsRing e k (j.val + 1)) = true := by
  have all : ∀ k : LaneNo, k ∈ allLanes := by decide
  have six : ∀ j : Fin 6, j ∈ ringIndexes := by decide
  simp only [State.inSomeRing, List.any_eq_true, (syncRings_spec n s).1, List.contains_iff_mem, ringFor_mem]
  simp [all, six]

/-! ### The evaluation of a lane (R167 to R170) -/

/-- A flag set on a condition, on a lane that is not DARK. -/
theorem setFlagIf_eq (p : Bool) (l : LaneNo) (f : Flag) (s : State) (h : s.laneState l ≠ .dark) :
    setFlagIf p l f s = modPort (fun q => { q with summary := q.summary || p })
      (modHealth l (fun h => { h with flags := h.flags ||| (if p then f.mask else 0) }) s) := by
  cases p
  · cases s; simp [setFlagIf, modPort, modHealth, modLane, State.lane]
    exact (Vector.set_getElem_self _).symm
  · simp [setFlagIf, setFlag, State.suppressed, h, modPort, modHealth]

/-- A flag leaves the lane states as they are. -/
theorem setFlagIf_laneState (p : Bool) (k l : LaneNo) (f : Flag) (s : State) :
    (setFlagIf p k f s).laneState l = s.laneState l := by
  unfold setFlagIf
  split
  · rcases setFlag_cases k f s with ⟨_, e⟩ | ⟨_, e⟩ <;> rw [e]
    simp only [State.laneState, modPort_lane, modHealth_lane]
    split <;> simp_all
  · rfl

/-- Everything the evaluation of a RAMP or LIVE lane does: the record of `Health.evaluated`, and the five flags and the summary, each
by its own condition. -/
theorem evaluateLane_eq (l : LaneNo) (s : State) (h : s.laneState l ≠ .dark) :
    evaluateLane l s =
      (let o := (s.lane l).health
       let lim := s.params.health
       let b := s.backlogReading l
       modPort (fun q => { q with
          summary := q.summary || decide (b > lim.backlogHigh) || decide (o.openCount ≥ lim.openHigh) ||
            decide (o.joinCount ≥ lim.joinHigh) || decide (o.damageCount > lim.damageLimit) ||
            decide (o.emptyCount > lim.emptyLimit) })
        (modHealth l (fun h => { h.evaluated lim b with
          flags := h.flags ||| (if b > lim.backlogHigh then 1024 else 0) ||| (if h.openCount ≥ lim.openHigh then 512 else 0) |||
            (if h.joinCount ≥ lim.joinHigh then 256 else 0) ||| (if h.damageCount > lim.damageLimit then 128 else 0) |||
            (if h.emptyCount > lim.emptyLimit then 64 else 0) }) s)) := by
  have state : ∀ f : Health → Health, (modHealth l f s).laneState l = (f (s.lane l).health).state := by
    intro f; simp [State.laneState, modHealth_lane]
  have port : ∀ f (s : State), (modPort f s).laneState l = s.laneState l := fun f s => rfl
  simp only [evaluateLane]
  rw [setFlagIf_eq (s := modHealth l _ _), setFlagIf_eq, setFlagIf_eq, setFlagIf_eq, setFlagIf_eq]
  · simp only [modPort, modHealth, modLane, State.lane, Health.evaluated, Flag.mask, Flag.bit]
    simp [Bool.or_assoc]
  all_goals
    simp only [setFlagIf_laneState, port, state, Health.evaluated]
    first
    | exact h
    | simp only [State.laneState, modHealth_lane, if_true]; exact h

end Sys2Proof.Machine
end

