-- ==== Sys2Proof/Laws/Events.lean ====
section
/-! SUPPORT. What one event does, in the words of `Sys2Proof.Safety`: rings that follow, lanes that are re-based, notices that are
offered, intervals that are missed, lanes that enter RAMP, claims that join, the entries to HALTED, MUTE and
READY. -/

namespace Sys2Proof.Machine

/-! ### Rings that follow (R30, R31, R145) -/

/-- The ring of a served class. -/
theorem State.ring_index (s : State) (k : LaneNo) (j : Fin 6) : s.ring k (j.val + 1) = (s.lane k).ring j := by
  have h : 1 ≤ j.val + 1 ∧ j.val + 1 ≤ 6 := by omega
  simp [State.ring, ringIndex, h]

/-- A served class has an index. -/
theorem class_index {c : Nat} (h : 1 ≤ c) (h' : c ≤ 6) : ∃ j : Fin 6, c = j.val + 1 := ⟨⟨c - 1, by omega⟩, by simp; omega⟩

/-- An entry is in some ring when it is in the ring of a lane and a class. -/
theorem State.inSomeRing_iff (s : State) (n : Nat) : s.inSomeRing n = true ↔ ∃ k, ∃ j : Fin 6, n ∈ (s.lane k).ring j := by
  have all : ∀ k : LaneNo, k ∈ allLanes := by decide
  have six : ∀ j : Fin 6, j ∈ ringIndexes := by decide
  simp [State.inSomeRing, List.any_eq_true, all, six]

/-- Membership as R30 asks for it, for the entry found. -/
def State.meets (s : State) (n : Nat) (k : LaneNo) (j : Fin 6) : Bool := (s.entry? n).any fun e => s.meetsRing e k (j.val + 1)

theorem State.meets_iff (s : State) (n : Nat) (k : LaneNo) (j : Fin 6) :
    s.meets n k j = true ↔ ∃ e, s.entry? n = some e ∧ e.served = true ∧ e.cls = j.val + 1 ∧ 0 < s.available e k := by
  cases h : s.entry? n <;> simp [State.meets, h, State.meetsRing, and_assoc]

/-- It does not change with the rings and the deficits. -/
theorem syncRings_meets (n m : Nat) (k : LaneNo) (j : Fin 6) (s : State) : (syncRings n s).meets m k j = s.meets m k j := by
  obtain ⟨_, _, h, e⟩ := syncRings_spec n s
  generalize syncRings n s = u at *
  have hr : ∀ x c, u.meetsRing x k c = s.meetsRing x k c := by intro x c; rw [e]; rfl
  simp only [State.meets, h, hr]
  cases s.entry? m with
  | none => rfl
  | some x => simp only [Option.map_some, Option.any_some]; split <;> rfl

theorem syncs_meets (ns : List Nat) (m : Nat) (k : LaneNo) (j : Fin 6) (s : State) :
    (ns.foldl (fun s n => syncRings n s) s).meets m k j = s.meets m k j := by
  induction ns generalizing s with
  | nil => rfl
  | cons n ns ih => rw [List.foldl_cons, ih, syncRings_meets]

/-- Several entries brought up to date one after another change nothing but the table and the rings. -/
theorem syncs_frame (ns : List Nat) (s : State) :
    let t := ns.foldl (fun s n => syncRings n s) s
    t = { s with table := t.table, lanes := t.lanes } ∧ ∀ k, t.lane k = { s.lane k with rings := (t.lane k).rings } := by
  induction ns generalizing s with
  | nil => exact ⟨rfl, fun _ => rfl⟩
  | cons n ns ih =>
    obtain ⟨h1, h2⟩ := ih (syncRings n s)
    obtain ⟨_, g2, _, g1⟩ := syncRings_spec n s
    exact ⟨by rw [List.foldl_cons, h1, g1], fun k => by rw [List.foldl_cons, h2, g2]⟩

/-- A ring `q` that several entries have been brought up to date in, after one entry before them was. -/
theorem ringFor_joined {n : Nat} {b : Bool} {ns r q joined : List Nat} (hs : joined.Sublist ns) (hd : joined.Nodup)
    (hf : ∀ m ∈ joined, m ∉ ringFor n b r)
    (hq : q = (ringFor n b r).filter (fun m => decide (m ∉ ns ∨ m ∈ q)) ++ joined) (hn : n ∈ q ↔ b = true) :
    ∃ joined', joined'.Sublist (n :: ns) ∧ joined'.Nodup ∧ (∀ m ∈ joined', m ∉ r) ∧
      q = r.filter (fun m => decide (m ∉ n :: ns ∨ m ∈ q)) ++ joined' := by
  have other : ∀ m, m ≠ n → decide (m ∉ ns ∨ m ∈ q) = decide (m ∉ n :: ns ∨ m ∈ q) := by intro m h; simp [h]
  cases b with
  | false =>
    have hn' : n ∉ q := by simpa using hn
    refine ⟨joined, hs.cons _, hd, fun m hj hc => hf m hj ?_, ?_⟩
    · have : m ≠ n := by rintro rfl; exact hn' (by rw [hq]; simp [hj])
      simp [ringFor, hc, this]
    · refine hq.trans (congrArg (· ++ joined) ?_)
      simp only [ringFor, Bool.false_eq_true, if_false, List.filter_filter]
      refine List.filter_congr fun m _ => ?_
      by_cases e : m = n
      · subst e; simp [hn']
      · simp [e]
  | true =>
    have hn' : n ∈ q := hn.2 rfl
    by_cases hin : n ∈ r
    · have hu : ringFor n true r = r := by simp [ringFor, hin]
      rw [hu] at hf hq
      refine ⟨joined, hs.cons _, hd, hf, hq.trans (congrArg (· ++ joined) (List.filter_congr fun m _ => ?_))⟩
      by_cases e : m = n
      · subst e; simp [hn']
      · exact other m e
    · have hu : ringFor n true r = r ++ [n] := by simp [ringFor, hin]
      rw [hu] at hf hq
      refine ⟨n :: joined, hs.cons_cons _, List.nodup_cons.2 ⟨fun hj => hf n hj (by simp), hd⟩, fun m hj hc => ?_, ?_⟩
      · rcases List.mem_cons.1 hj with rfl | hj
        · exact hin hc
        · exact hf m hj (by simp [hc])
      · refine hq.trans ?_
        simp only [List.filter_append, List.append_assoc]
        refine congrArg₂ (· ++ ·) (List.filter_congr fun m hm => other m fun e => hin (e ▸ hm)) ?_
        simp [hn']

/-- The rings and the entries after several entries are brought up to date one after another. -/
theorem syncs_rings (ns : List Nat) (s : State) :
    let t := ns.foldl (fun s n => syncRings n s) s
    (∀ k j, (∀ n ∈ ns, n ∈ (t.lane k).ring j ↔ s.meets n k j = true) ∧
      ∃ joined, joined.Sublist ns ∧ joined.Nodup ∧ (∀ n ∈ joined, n ∉ (s.lane k).ring j) ∧
        (t.lane k).ring j = ((s.lane k).ring j).filter (fun m => decide (m ∉ ns ∨ m ∈ (t.lane k).ring j)) ++ joined) ∧
    ∀ m, t.entry? m = (s.entry? m).map fun e =>
      if m ∈ ns ∧ t.inSomeRing m = false then { e with deficit := 0 } else e := by
  induction ns generalizing s with
  | nil => exact ⟨fun k j => ⟨by simp, [], by simp⟩, fun m => by simp⟩
  | cons n ns ih =>
    obtain ⟨h, he⟩ := ih (syncRings n s)
    obtain ⟨gr, _, ge, _⟩ := syncRings_spec n s
    have hm := fun m k j => syncRings_meets n m k j s
    simp only [hm] at h
    rw [List.foldl_cons]
    generalize ns.foldl (fun s n => syncRings n s) (syncRings n s) = t at *
    generalize syncRings n s = u at *
    have gr : ∀ k j, (u.lane k).ring j = ringFor n (s.meets n k j) ((s.lane k).ring j) := gr
    have meets : ∀ k j, ∀ m ∈ n :: ns, (m ∈ (t.lane k).ring j ↔ s.meets m k j = true) := by
      intro k j m hm
      by_cases hn : m ∈ ns
      · exact (h k j).1 m hn
      · have : m = n := by simpa [hn] using hm
        subst this
        obtain ⟨joined, hs, _, _, hr⟩ := (h k j).2
        have hj : m ∉ joined := fun x => hn (hs.subset x)
        rw [hr]
        simp only [List.mem_append, hj, or_false, List.mem_filter, hn, not_false_eq_true, true_or, decide_true, and_true]
        rw [gr, ringFor_mem]
    refine ⟨fun k j => ⟨meets k j, ?_⟩, fun m => ?_⟩
    · obtain ⟨joined, hs, hd, hf, hr⟩ := (h k j).2
      rw [gr] at hf hr
      exact ringFor_joined hs hd hf hr (meets k j n (by simp))
    · rw [he, ge]
      cases s.entry? m with
      | none => rfl
      | some e =>
        simp only [Option.map_some, Option.some.injEq, List.mem_cons]
        have same : u.inSomeRing n = t.inSomeRing n := by
          rw [Bool.eq_iff_iff, State.inSomeRing_iff, State.inSomeRing_iff]
          refine exists_congr fun k => exists_congr fun j => ?_
          rw [meets k j n (by simp), gr, ringFor_mem]
        by_cases hmn : m = n
        · subst hmn
          simp only [true_and, true_or, same]
          cases t.inSomeRing m <;> simp
        · simp [hmn]

/-- The rings follow: several entries brought up to date. -/
theorem syncs_follow (ns : List Nat) (s : State) : RingsFollow ns s (ns.foldl (fun s n => syncRings n s) s) := by
  have hm := fun m k j => syncs_meets ns m k j s
  obtain ⟨h, he⟩ := syncs_rings ns s
  generalize ns.foldl (fun s n => syncRings n s) s = t at *
  refine ⟨fun k c h1 h6 => ?_, he⟩
  obtain ⟨j, rfl⟩ := class_index h1 h6
  rw [State.ring_index, State.ring_index]
  exact ⟨fun n hn => by rw [(h k j).1 n hn, ← hm, State.meets_iff], (h k j).2⟩

/-- The rings follow: one entry brought up to date. -/
theorem syncRings_follow (n : Nat) (s : State) : RingsFollow [n] s (syncRings n s) := by
  have h := syncs_follow [n] s
  rwa [List.foldl_cons, List.foldl_nil] at h

/-- What the rings follow from and lead to may differ in what they do not read. -/
theorem RingsFollow.congr {ns : List Nat} {s t s' t' : State} (h : RingsFollow ns s t) (hs : ∀ k, (s'.lane k).rings = (s.lane k).rings)
    (ht : ∀ k, (t'.lane k).rings = (t.lane k).rings) (es : s'.table = s.table) (et : t'.table = t.table)
    (hv : t'.views = t.views) (hp : t'.boot = t.boot) : RingsFollow ns s' t' := by
  have r : ∀ {a b : State}, (∀ k, (a.lane k).rings = (b.lane k).rings) → ∀ k c, a.ring k c = b.ring k c := by
    intro a b h k c; simp only [State.ring, Lane.ring, h]
  have i : ∀ n, t'.inSomeRing n = t.inSomeRing n := by intro n; simp only [State.inSomeRing, Lane.ring, ht]
  have a : ∀ e k, t'.available e k = t.available e k := by
    intro e k; simp only [State.available, State.allowanceOf, State.viewOf, hv, hp]
  have x : ∀ m, t'.entry? m = t.entry? m := by intro m; simp only [State.entry?, et]
  have y : ∀ m, s'.entry? m = s.entry? m := by intro m; simp only [State.entry?, es]
  obtain ⟨h1, h2⟩ := h
  refine ⟨fun k c hc hc' => ?_, fun m => by rw [x, y, h2, i]⟩
  obtain ⟨g1, g2⟩ := h1 k c hc hc'
  rw [r hs, r ht]
  exact ⟨fun n hn => by rw [g1 n hn, x]; simp only [a], g2⟩

/-! ### Views that change (R143, R145, R151) -/

/-- Everything a change of the view of a tag does: the view, and the rings that follow its allowance. -/
theorem modView_spec {tag : Nat} {s : State} {v : View} (f : View → View) (h : s.viewOf tag = some v) :
    RingsFollow [v.entry] s (modView tag f s) ∧
      (modView tag f s).views = (s.views.map fun w => if w.tag == tag then f w else w) ∧
      (∀ k, (modView tag f s).lane k = { s.lane k with rings := ((modView tag f s).lane k).rings }) ∧
      modView tag f s = { s with
        table := (modView tag f s).table, lanes := (modView tag f s).lanes, views := (modView tag f s).views } := by
  unfold modView
  rw [h]
  generalize hu : ({ s with views := s.views.map fun w => if (w.tag == tag) = true then f w else w } : State) = u
  have hr := syncRings_follow v.entry u
  obtain ⟨_, g2, _, g1⟩ := syncRings_spec v.entry u
  simp only [] at *
  generalize syncRings v.entry u = t at *
  have hv : t.views = u.views := by rw [g1]
  subst hu
  exact ⟨hr.congr (fun _ => rfl) (fun _ => rfl) rfl rfl rfl rfl, hv, g2, g1.trans (by rw [hv])⟩

/-- Everything a change of several views as one event does. -/
theorem changeViews_spec (p : View → Bool) (f : View → View) (s : State) :
    RingsFollow ((s.views.filter p).map (·.entry)) s (changeViews p f s) ∧
      (changeViews p f s).views = (s.views.map fun v => if p v then f v else v) ∧
      (∀ k, (changeViews p f s).lane k = { s.lane k with rings := ((changeViews p f s).lane k).rings }) ∧
      changeViews p f s = { s with
        table := (changeViews p f s).table, lanes := (changeViews p f s).lanes, views := (changeViews p f s).views } := by
  have e : changeViews p f s = ((s.views.filter p).map (·.entry)).foldl (fun s n => syncRings n s)
      { s with views := s.views.map fun v => if p v then f v else v } := by
    rw [List.foldl_map]; rfl
  rw [e]
  generalize hu : ({ s with views := s.views.map fun v => if p v = true then f v else v } : State) = u
  have hr := syncs_follow ((s.views.filter p).map (·.entry)) u
  obtain ⟨g1, g2⟩ := syncs_frame ((s.views.filter p).map (·.entry)) u
  generalize ((s.views.filter p).map (·.entry)).foldl (fun s n => syncRings n s) u = t at *
  have hv : t.views = u.views := by rw [g1]
  subst hu
  exact ⟨hr.congr (fun _ => rfl) (fun _ => rfl) rfl rfl rfl rfl, hv, g2, g1.trans (by rw [hv])⟩

/-- Everything a re-base does (R143, R151). -/
theorem rebaseViews_spec (leaving : List NodeLane) (s : State) :
    LanesRebased leaving s (rebaseViews leaving s) ∧
      (∀ k, (rebaseViews leaving s).lane k = { s.lane k with rings := ((rebaseViews leaving s).lane k).rings }) ∧
      rebaseViews leaving s = { s with
        table := (rebaseViews leaving s).table, lanes := (rebaseViews leaving s).lanes,
        views := (rebaseViews leaving s).views } := by
  obtain ⟨h1, h2, h3, h4⟩ := changeViews_spec (fun v => v.live.any fun x => leaving.contains x.lane) (View.rebase s leaving) s
  rw [show rebaseViews leaving s = changeViews (fun v => v.live.any fun x => leaving.contains x.lane) (View.rebase s leaving) s
    from rfl]
  generalize changeViews (fun v => v.live.any fun x => leaving.contains x.lane) (View.rebase s leaving) s = t at *
  have hw : t.weightOf = s.weightOf := by funext n; rw [h4]; rfl
  refine ⟨⟨?_, h1⟩, h3, h4⟩
  rw [h2, hw]
  rfl

/-! ### Notices that are offered (R137, R138, R139) -/

/-- The lowest lane whose LANE owed mark is set. -/
theorem lowestOwed_some {s : State} {l : LaneNo} (h : s.lowestOwed = some l) :
    (s.lane l).owed = true ∧ ∀ k, k < l → (s.lane k).owed = false := by
  have four : allLanes = [0, 1, 2, 3] := by decide
  simp only [State.lowestOwed, four, List.find?] at h
  split at h
  · cases h; exact ⟨‹_›, fun k hk => absurd hk ((by decide : ∀ k : LaneNo, ¬k < 0) k)⟩
  · split at h
    · cases h; exact ⟨‹_›, fun k hk => by obtain rfl := (by decide : ∀ k : LaneNo, k < 1 → k = 0) k hk; assumption⟩
    · split at h
      · cases h
        refine ⟨‹_›, fun k hk => ?_⟩
        rcases (by decide : ∀ k : LaneNo, k < 2 → k = 0 ∨ k = 1) k hk with rfl | rfl <;> assumption
      · split at h
        · cases h
          refine ⟨‹_›, fun k hk => ?_⟩
          rcases (by decide : ∀ k : LaneNo, k < 3 → k = 0 ∨ k = 1 ∨ k = 2) k hk with rfl | rfl | rfl <;> assumption
        · cases h

/-- The head of the queue moves into the empty holder, and an owed LANE notice takes the place that frees. -/
theorem pumpHolder_filled {s : State} (ha : s.bus.state = .active) (hh : s.bus.holder = none) (hq : s.bus.queue ≠ [])
    (hl : s.bus.queue.length ≤ 64) : HolderFilled s.bus s.bus.queue s (pumpHolder s) := by
  obtain ⟨n, rest, e⟩ : ∃ n rest, s.bus.queue = n :: rest := List.exists_cons_of_ne_nil hq
  have hr : rest.length < 64 := by have : (n :: rest).length ≤ 64 := e ▸ hl; simpa using this
  unfold pumpHolder
  rw [if_pos ha, hh, e]
  simp only [serveOwed]
  generalize hu : modBus (fun b => { b with holder := some n, voidCount := 0, queue := rest }) s = u
  have lane : ∀ k, u.lane k = s.lane k := by subst hu; intro k; rfl
  have takes : u.takesNotice = true := by subst hu; simp [State.takesNotice, modBus, ha, Config.noticeDepth, hr]
  have bus : u.bus = { s.bus with holder := some n, voidCount := 0, queue := rest } := by subst hu; rfl
  cases ho : u.lowestOwed with
  | none =>
    have no : ∀ k, (s.lane k).owed = false := by
      intro k
      have := List.find?_eq_none.1 ho k (by revert k; decide)
      simpa [lane] using this
    refine ⟨[], by simp [bus], fun _ => ⟨rfl, fun k => by rw [lane]; exact no k⟩, fun l hl => ?_⟩
    rw [no l] at hl; cases hl
  | some l =>
    obtain ⟨mark, low⟩ := lowestOwed_some ho
    simp only [lane] at mark low
    refine ⟨[u.laneNotice l], ?_, fun h => ?_, fun m hm hlow => ?_⟩
    · simp only [takes, if_true]
      simp [pushNotice, modBus, modLane, bus]
    · rw [h l] at mark; cases mark
    · have : m = l := by
        rcases Nat.lt_trichotomy m.val l.val with h | h | h
        · rw [low m h] at hm; cases hm
        · exact Fin.ext h
        · rw [hlow l h] at mark; cases mark
      subst this
      simp only [takes, if_true]
      refine ⟨?_, ?_, fun k hk => ?_⟩
      · simp [State.laneNotice, State.laneState, lane]
      · simp
      · rw [modLane_lane, if_neg hk]; exact congrArg Lane.owed (lane k)

/-- What becomes of a notice that is pushed onto a queue with room. -/
theorem pushed_offered {s : State} {same : Notice → Bool} {note : Notice} (owes : Option LaneNo) (ha : s.bus.state = .active)
    (hl : s.bus.queue.length < 64) (hs : ∀ x ∈ s.bus.queue, same x = false) :
    NoticeOffered same owes note s (pumpHolder (pushNotice note s)) := by
  have filled : s.bus.holder = none → HolderFilled s.bus (s.bus.queue ++ [note]) s (pumpHolder (pushNotice note s)) := by
    intro hh
    have := pumpHolder_filled (s := pushNotice note s) ha hh (by simp [pushNotice, modBus]) (by simp [pushNotice, modBus]; omega)
    obtain ⟨owed, h1, h2, h3⟩ := this
    exact ⟨owed, h1.trans (by simp [pushNotice, modBus]), h2, h3⟩
  refine ⟨fun h => absurd ha h, fun _ => ⟨fun h => ?_, fun _ => ⟨fun h => absurd hl (by omega), fun _ => ⟨fun h => ?_, filled⟩⟩⟩⟩
  · obtain ⟨x, hx, h⟩ := h; rw [hs x hx] at h; cases h
  · obtain ⟨n, hn⟩ := Option.isSome_iff_exists.1 h
    have : pumpHolder (pushNotice note s) = pushNotice note s := by
      unfold pumpHolder
      have : (pushNotice note s).bus.holder = some n := hn
      rw [this]; split <;> rfl
    rw [this]
    exact ⟨rfl, fun _ => rfl⟩

/-- Everything an offer of a LANE notice does (R139). -/
theorem offerLane_offered (l : LaneNo) (s : State) :
    NoticeOffered (Notice.forLane l) (some l) (s.laneNotice l) s (offerLane l s) := by
  unfold offerLane
  split
  · rename_i ha
    split
    · rename_i hq
      obtain ⟨x, hx, hf⟩ := List.any_eq_true.1 hq
      exact ⟨fun h => absurd ha h, fun _ => ⟨fun _ => ⟨rfl, fun _ => rfl⟩, fun h => by rw [h x hx] at hf; cases hf⟩⟩
    · rename_i hq
      have no : ∀ x ∈ s.bus.queue, x.forLane l = false := by simpa using hq
      split
      · rename_i hl
        exact pushed_offered (some l) ha hl no
      · rename_i hl
        refine ⟨fun h => absurd ha h, fun _ => ⟨fun h => ?_, fun _ => ⟨fun _ => ⟨rfl, fun k => ?_⟩, fun h => absurd h hl⟩⟩⟩
        · obtain ⟨x, hx, hf⟩ := h; rw [no x hx] at hf; cases hf
        · rw [modLane_lane]
          by_cases hk : k = l
          · subst hk; simp
          · have : l ≠ k := fun e => hk e.symm
            simp [hk, this]
  · rename_i ha
    exact ⟨fun _ => ⟨rfl, fun _ => rfl⟩, fun h => absurd h ha⟩

/-- Everything an offer of a DEMAND does (R49, R138). -/
theorem offerDemand_offered (tag : Nat) (epoch : BitVec 8) (amount : Nat) (s : State) :
    NoticeOffered (Notice.demandFor tag) none (.demand tag epoch amount) s (offerDemand tag epoch amount s) := by
  unfold offerDemand
  split
  · rename_i ha
    split
    · rename_i hq
      obtain ⟨x, hx, hf⟩ := List.any_eq_true.1 hq
      exact ⟨fun h => absurd ha h, fun _ => ⟨fun _ => ⟨rfl, fun _ => rfl⟩, fun h => by rw [h x hx] at hf; cases hf⟩⟩
    · rename_i hq
      have no : ∀ x ∈ s.bus.queue, x.demandFor tag = false := by simpa using hq
      split
      · rename_i hl
        exact pushed_offered none ha hl no
      · rename_i hl
        refine ⟨fun h => absurd ha h, fun _ => ⟨fun h => ?_, fun _ => ⟨fun _ => ⟨rfl, fun k => by simp⟩, fun h => absurd h hl⟩⟩⟩
        obtain ⟨x, hx, hf⟩ := h; rw [no x hx] at hf; cases hf
  · rename_i ha
    exact ⟨fun _ => ⟨rfl, fun _ => rfl⟩, fun h => absurd h ha⟩

/-- The movement of notices changes the bus and the LANE owed marks, and nothing else. -/
theorem pumpHolder_frame (s : State) :
    (∀ k, (pumpHolder s).lane k = { s.lane k with owed := ((pumpHolder s).lane k).owed }) ∧
      pumpHolder s = { s with bus := (pumpHolder s).bus, lanes := (pumpHolder s).lanes } := by
  rcases pumpHolder_cases s with e | ⟨n, rest, _, _, _, e⟩
  · rw [e]; exact ⟨fun _ => rfl, rfl⟩
  · rcases serveOwed_cases (modBus (fun b => { b with holder := some n, voidCount := 0, queue := rest }) s) with f | ⟨l, _, f⟩
    · rw [e, f]; exact ⟨fun _ => rfl, rfl⟩
    · rw [e, f]
      refine ⟨fun k => ?_, rfl⟩
      rw [modLane_lane]; split
      · rename_i h; subst h; rfl
      · rfl

/-- An offer of a LANE notice changes the bus and the LANE owed marks, and nothing else. -/
theorem offerLane_frame (l : LaneNo) (s : State) :
    (∀ k, (offerLane l s).lane k = { s.lane k with owed := ((offerLane l s).lane k).owed }) ∧
      offerLane l s = { s with bus := (offerLane l s).bus, lanes := (offerLane l s).lanes } := by
  unfold offerLane
  split
  · split
    · exact ⟨fun _ => rfl, rfl⟩
    · split
      · obtain ⟨h1, h2⟩ := pumpHolder_frame (pushNotice (s.laneNotice l) s)
        exact ⟨h1, h2⟩
      · refine ⟨fun k => ?_, rfl⟩
        rw [modLane_lane]; split
        · rename_i h; subst h; rfl
        · rfl
  · exact ⟨fun _ => rfl, rfl⟩

/-- An offer of a DEMAND changes the bus and the LANE owed marks, and nothing else. -/
theorem offerDemand_frame (tag : Nat) (epoch : BitVec 8) (amount : Nat) (s : State) :
    (∀ k, (offerDemand tag epoch amount s).lane k =
      { s.lane k with owed := ((offerDemand tag epoch amount s).lane k).owed }) ∧
      offerDemand tag epoch amount s = { s with
        bus := (offerDemand tag epoch amount s).bus, lanes := (offerDemand tag epoch amount s).lanes } := by
  unfold offerDemand
  split
  · split
    · exact ⟨fun _ => rfl, rfl⟩
    · split
      · obtain ⟨h1, h2⟩ := pumpHolder_frame (pushNotice (.demand tag epoch amount) s)
        exact ⟨h1, h2⟩
      · exact ⟨fun _ => rfl, rfl⟩
  · exact ⟨fun _ => rfl, rfl⟩

/-! ### Cadence turns of a skipped interval (R8, R105) -/

/-- Two moves of a slice are one. -/
theorem sliceAdd_sliceAdd (x : Slice) (a b : Nat) : sliceAdd (sliceAdd x a) b = sliceAdd x (a + b) := by
  simp [sliceAdd, BitVec.add_assoc, BitVec.ofNat_add]

/-- No move of a slice. -/
@[simp] theorem sliceAdd_zero (x : Slice) : sliceAdd x 0 = x := by simp [sliceAdd]

/-- The dues that a channel without carried dues misses in an interval: `j` of them, one miss and one period each, and no more than it may
request there. -/
theorem missDues_spec (start : Slice) (planLength : Nat) : ∀ (fuel : Nat) (c : Channel), c.carried = [] → c.misses ≤ 65535 →
    ∃ j ≤ fuel, missDues start planLength fuel c = { c with
        misses := min (c.misses + j) 65535, nextDue := c.nextDue.map fun x => sliceAdd x (j * c.period) } ∧
      (c.nextDue = none → j = 0) ∧
      ∀ x, c.nextDue = some x →
        (∀ i < j, (c.initial = 0 ∨ 0 < c.count) ∧ dueOffset start (sliceAdd x (i * c.period)) < planLength) ∧
        (j < fuel → ¬((c.initial = 0 ∨ 0 < c.count) ∧ dueOffset start (sliceAdd x (j * c.period)) < planLength)) := by
  intro fuel
  induction fuel with
  | zero =>
    intro c _ hm
    refine ⟨0, Nat.le_refl 0, ?_, fun _ => rfl, fun x _ => ⟨fun i hi => absurd hi (Nat.not_lt_zero i), fun h => absurd h (Nat.not_lt_zero 0)⟩⟩
    cases c; simp_all [missDues]
  | succ fuel ih =>
    intro c hc hm
    have stay : missDues start planLength (fuel + 1) c = c →
        missDues start planLength (fuel + 1) c = { c with
          misses := min (c.misses + 0) 65535, nextDue := c.nextDue.map fun x => sliceAdd x (0 * c.period) } := by
      intro h; rw [h]; cases c; simp_all
    cases hd : c.nextDue with
    | none => exact ⟨0, Nat.zero_le _, hd ▸ stay (by simp [missDues, hd]), fun _ => rfl, fun x hx => by simp at hx⟩
    | some d =>
      have may : c.mayRequest = decide (c.initial = 0 ∨ 0 < c.count) := by
        rw [Bool.eq_iff_iff]; simp [Channel.mayRequest, hc]
      by_cases hg : (c.initial = 0 ∨ 0 < c.count) ∧ dueOffset start d < planLength
      · obtain ⟨j, hj, he, -, hx⟩ := ih c.miss.moveOn hc (by simp only [Channel.moveOn, Channel.miss, satAdd]; omega)
        obtain ⟨hx1, hx2⟩ := hx (sliceAdd d c.period) (by simp [Channel.moveOn, Channel.miss, hd])
        have step : missDues start planLength (fuel + 1) c = missDues start planLength fuel c.miss.moveOn := by
          simp only [missDues, hd, may]; rw [if_pos]; simpa using hg
        have shift : ∀ i, sliceAdd (sliceAdd d c.period) (i * c.period) = sliceAdd d ((i + 1) * c.period) := fun i => by
          rw [sliceAdd_sliceAdd]; congr 1; rw [Nat.add_mul]; omega
        refine ⟨j + 1, by omega, ?_, fun h => by simp at h, ?_⟩
        · rw [step, he]
          simp only [Channel.moveOn, Channel.miss, satAdd, hd, Option.map_some, shift]
          congr 1; omega
        · intro x hx'; obtain rfl : d = x := by simpa using hx'
          refine ⟨fun i hi => ?_, fun hlt => ?_⟩
          · cases i with
            | zero => simpa using hg
            | succ i => have := hx1 i (by omega); rw [← shift]; exact this
          · have := hx2 (by omega); rw [← shift]; exact this
      · refine ⟨0, Nat.zero_le _, hd ▸ stay ?_, fun _ => rfl, ?_⟩
        · simp only [missDues, hd, may]; rw [if_neg]; simpa using hg
        · intro x hx'; obtain rfl : d = x := by simpa using hx'
          exact ⟨fun i hi => absurd hi (Nat.not_lt_zero i), fun _ => by simpa using hg⟩

/-- A skipped interval misses, channel by channel (R8, R105). -/
theorem missInterval_missed (l : LaneNo) (start : Slice) (s : State) :
    ∃ f, (missInterval l start s).channels = s.channels.map f ∧
      ∀ c, IntervalMissed l start s.params.planLength c (f c) := by
  refine ⟨_, rfl, fun c => ⟨fun h => if_neg (by rintro ⟨h1, h2⟩; cases h <;> contradiction), fun h1 h2 => ?_⟩⟩
  rw [if_pos ⟨h1, h2⟩]
  obtain ⟨j, hj, he, hn, hx⟩ := missDues_spec start s.params.planLength dueFuel c.missCarried rfl (by
    simp only [Channel.missCarried, satAdd]; omega)
  refine ⟨j, hj, ?_, hn, hx⟩
  rw [he]; simp only [Channel.missCarried, satAdd]; congr 1; omega

/-! ### A lane that enters RAMP (R110, R127, R164) -/

/-- An offer reads and changes no more than the bus, the LANE owed marks, and each lane's state and weight. -/
theorem NoticeOffered.congr {same : Notice → Bool} {owes : Option LaneNo} {note : Notice} {s t s' t' : State}
    (h : NoticeOffered same owes note s t) (hb : s'.bus = s.bus) (ho : ∀ k, (s'.lane k).owed = (s.lane k).owed)
    (hs : ∀ k, s'.laneState k = s.laneState k) (hw : ∀ k, (s'.lane k).health.weight = (s.lane k).health.weight)
    (tb : t'.bus = t.bus) (tw : ∀ k, (t'.lane k).owed = (t.lane k).owed) : NoticeOffered same owes note s' t' := by
  simpa only [NoticeOffered, HolderFilled, hb, ho, hs, hw, tb, tw] using h

/-- A search for a due ends at the first one that meets the condition. -/
theorem firstDueWhere_first (ok : Slice → Bool) (period : Nat) : ∀ (fuel : Nat) (x : Slice) (j : Nat), j < fuel →
    ok (sliceAdd x (j * period)) = true → (∀ i < j, ok (sliceAdd x (i * period)) = false) →
    firstDueWhere ok period fuel x = sliceAdd x (j * period) := by
  intro fuel
  induction fuel with
  | zero => intro _ j hj; exact absurd hj (Nat.not_lt_zero j)
  | succ fuel ih =>
    intro x j hj hok hno
    cases j with
    | zero => simp only [Nat.zero_mul, sliceAdd_zero] at hok ⊢; rw [firstDueWhere, if_pos hok]
    | succ j =>
      have shift : ∀ i, sliceAdd (sliceAdd x period) (i * period) = sliceAdd x ((i + 1) * period) := fun i => by
        rw [sliceAdd_sliceAdd, Nat.succ_mul, Nat.add_comm]
      have h0 : ok x = false := by simpa using hno 0 (Nat.succ_pos j)
      rw [firstDueWhere, if_neg (by simp [h0]),
        ih (sliceAdd x period) j (by omega) (by rwa [shift]) (fun i hi => by rw [shift]; exact hno (i + 1) (by omega)), shift]

/-- Maintenance countdowns are no part of a lane. -/
@[simp] theorem rampMaintenance_lane (l k : LaneNo) (s : State) : (rampMaintenance l s).lane k = s.lane k := rfl

/-- The dues of the RUNNING channels of a lane move to its new next plan start (R110). -/
theorem rampChannels_moved (l : LaneNo) (start : Slice) (s : State) (h : (s.lane l).nextPlanStart = some start) :
    ∃ f, (rampChannels l s).channels = s.channels.map f ∧ ∀ c, DuesMoved l start c (f c) := by
  refine ⟨_, rfl, fun c => ⟨fun hc => if_neg (by rintro ⟨h1, h2⟩; cases hc <;> contradiction), fun h1 h2 => ?_⟩⟩
  rw [if_pos ⟨h2, h1⟩]
  refine ⟨rfl, fun hn => by simp [hn], fun x hx j hj hb hi => ?_⟩
  simp only [hx, Option.map_some, h, firstDueFrom]
  rw [firstDueWhere_first _ _ dueFuel _ j hj (by simp [notBeforeHorizon, hb]) (fun i h => by simp [notBeforeHorizon, hi i h])]

/-- What one message does to the port. -/
theorem queueStatus_port (m : Message) (s : State) : (queueStatus m s).port = { s.port with
    statusQueue := s.port.statusQueue ++ [m].take (32 - s.port.statusQueue.length),
    overflow := s.port.overflow || decide (32 ≤ s.port.statusQueue.length) } := by
  rcases queueStatus_cases m s with ⟨h, e⟩ | ⟨h, e⟩ <;> simp only [Config.statusDepth] at h <;> rw [e]
  · obtain ⟨n, hn⟩ : ∃ n, 32 - s.port.statusQueue.length = n + 1 := ⟨31 - s.port.statusQueue.length, by omega⟩
    simp [hn, Nat.not_le.2 h]
  · simp [h, Nat.sub_eq_zero_of_le h]

/-- Everything the entry of a lane to RAMP does. -/
theorem enterRamp_entered (l : LaneNo) (cause : LaneCause) (s : State) : RampEntered l cause s (enterRamp l cause s) := by
  generalize hu : modHealth l (fun h => { h with state := .ramp, floor := 0, goodProbes := 0, rampBuilds := 0 }) s = u
  generalize hv : queueStatus (.laneState l (u.laneState l) cause) u = v
  obtain ⟨fl, fe⟩ := offerLane_frame l v
  have off := offerLane_offered l v
  have vl : ∀ k, v.lane k = u.lane k := by subst hv; exact fun k => queueStatus_lane _ u k
  have ul : ∀ k, k ≠ l → u.lane k = s.lane k := by subst hu; exact fun k hk => by rw [modHealth_lane, if_neg hk]
  have us : u.lane l = { s.lane l with
      health := { (s.lane l).health with state := .ramp, floor := 0, goodProbes := 0, rampBuilds := 0 } } := by
    subst hu; rw [modHealth_lane, if_pos rfl]
  have ramp : u.laneState l = .ramp := by rw [State.laneState, us]
  have vp : v.port = _ := hv ▸ queueStatus_port _ u
  have up : u.port = s.port := by subst hu; rfl
  have ve : v = { u with port := v.port } := by
    subst hv; rcases queueStatus_cases (.laneState l (u.laneState l) cause) u with ⟨_, e⟩ | ⟨_, e⟩ <;> rw [e]
  have e : enterRamp l cause s = rampChannels l (rampMaintenance l (modLane l (fun L =>
      { L with nextPlanStart := some (sliceAdd L.slice (offerLane l v).params.lead), buildState := .pending, deferred := false,
               joinCountdown := 0 }) (offerLane l v))) := by
    subst hv hu; rfl
  have lanes : ∀ k, (enterRamp l cause s).lane k = (modLane l (fun L =>
      { L with nextPlanStart := some (sliceAdd L.slice (offerLane l v).params.lead), buildState := .pending, deferred := false,
               joinCountdown := 0 }) (offerLane l v)).lane k := fun k => by rw [e]; rfl
  have params : (offerLane l v).params = s.params := by rw [fe, ve]; subst hu; rfl
  have owed : ∀ k, ((enterRamp l cause s).lane k).owed = ((offerLane l v).lane k).owed := fun k => by
    rw [lanes, modLane_lane]; split
    · rename_i h; rw [h]
    · rfl
  have slice : ((offerLane l v).lane l).slice = (s.lane l).slice := by rw [fl, vl, us]
  refine ⟨?_, fun k hk => ?_, ?_, ?_, ?_, ?_, ?_⟩
  · rw [owed, lanes, modLane_lane, if_pos rfl, slice, params, fl, vl, us]
  · rw [owed, lanes, modLane_lane, if_neg hk, fl, vl, ul k hk]
  · have : (enterRamp l cause s).port = (offerLane l v).port := by rw [e]; rfl
    rw [this, fe, ← up, ← ramp]; exact vp
  · have n : v.laneNotice l = .lane l .ramp (s.lane l).health.weight := by simp [State.laneNotice, vl, us]
    rw [← n]
    refine off.congr (by rw [ve]; subst hu; rfl) (fun k => ?_) (fun k => ?_) (fun k => ?_) (by rw [e]; rfl) owed <;>
      simp only [State.laneState, vl, modHealth_lane] <;> by_cases hk : k = l
    all_goals first
      | (subst hk; simp [us])
      | simp [hk, ul k hk]
  · have : (enterRamp l cause s).table = (rampMaintenance l (offerLane l v)).table := by rw [e]; rfl
    have st : (offerLane l v).table = s.table := by rw [fe, ve]; subst hu; rfl
    rw [this, rampMaintenance, st]
    refine List.map_congr_left fun x _ => ?_
    have home : x.homedOn l = decide (x.place = .home l) := by
      rw [Bool.eq_iff_iff]; cases h : x.place <;> simp [Stream.homedOn, Stream.homeLane, h]
    simp [home, and_assoc]
  · have sc : (offerLane l v).channels = s.channels := by rw [fe, ve]; subst hu; rfl
    obtain ⟨f, hf, hd⟩ := rampChannels_moved l (sliceAdd (s.lane l).slice s.params.lead)
      (rampMaintenance l (modLane l (fun L =>
        { L with nextPlanStart := some (sliceAdd L.slice (offerLane l v).params.lead), buildState := .pending, deferred := false,
                 joinCountdown := 0 }) (offerLane l v))) (by
        rw [rampMaintenance_lane, modLane_lane, if_pos rfl, slice, params])
    exact ⟨f, by rw [e, hf, ← sc]; rfl, fun c _ => hd c⟩
  · have : enterRamp l cause s = { offerLane l v with
        lanes := (enterRamp l cause s).lanes, table := (enterRamp l cause s).table, channels := (enterRamp l cause s).channels } := by
      rw [e]; rfl
    rw [this, fe, ve]; subst hu; rfl

/-! ### HALTED (R41, R175) -/

/-- Everything an unreadable image does: HALTED, and no carrier state on any lane. -/
theorem bootHalted_spec (s : State) :
    (bootHalted s).boot = { s.boot with startup := .halted } ∧
      (∀ l, (bootHalted s).lane l = { s.lane l with carrier := .absent }) ∧
      bootHalted s = { s with boot := (bootHalted s).boot, lanes := (bootHalted s).lanes } := by
  have four : allLanes = [0, 1, 2, 3] := by decide
  refine ⟨by simp only [bootHalted, four, List.foldl]; rfl, fun l => ?_, by simp only [bootHalted, four, List.foldl]; rfl⟩
  have h : ∀ k, (modBoot (fun b => { b with startup := .halted }) s).lane k = s.lane k := fun _ => rfl
  simp only [bootHalted, four, List.foldl, modLane_lane, h]
  rcases (by decide : ∀ k : LaneNo, k = 0 ∨ k = 1 ∨ k = 2 ∨ k = 3) l with rfl | rfl | rfl | rfl <;> simp

/-! ### Claims that join a list (R148) -/

/-- The least element splits its list: before it every key is greater, after it none is less. -/
theorem leastBy_split {α : Type} (key : α → Int) : ∀ (as : List α) (a : α), leastBy key as = some a →
    ∃ older newer, as = older ++ a :: newer ∧ (∀ x ∈ older, key a < key x) ∧ ∀ x ∈ newer, key a ≤ key x
  | [], a, h => by cases h
  | b :: bs, a, h => by
    cases e : leastBy key bs with
    | none =>
      have : bs = [] := by
        cases bs with
        | nil => rfl
        | cons c cs => simp only [leastBy] at e; split at e <;> first | cases e | (split at e <;> cases e)
      subst this
      simp only [leastBy, Option.some.injEq] at h; subst h
      exact ⟨[], [], rfl, by simp, by simp⟩
    | some c =>
      obtain ⟨older, newer, rfl, h1, h2⟩ := leastBy_split key bs c e
      simp only [leastBy, e] at h
      split at h <;> cases h
      · rename_i hbc
        refine ⟨[], older ++ c :: newer, rfl, by simp, fun x hx => ?_⟩
        rcases List.mem_append.1 hx with hx | hx
        · have := h1 x hx; omega
        · rcases List.mem_cons.1 hx with rfl | hx
          · exact hbc
          · have := h2 x hx; omega
      · rename_i hbc
        refine ⟨b :: older, newer, rfl, fun x hx => ?_, h2⟩
        rcases List.mem_cons.1 hx with rfl | hx
        · omega
        · exact h1 x hx

/-- A full list loses its claim of earliest end tick, the oldest among equals; one with room loses none. -/
theorem dropEarliest_split (now : Tick) (kept : List Claim) :
    (kept.length < 16 → dropEarliest now kept = kept) ∧
      (16 ≤ kept.length → ∃ older old newer, kept = older ++ old :: newer ∧ dropEarliest now kept = older ++ newer ∧
        (∀ c ∈ older, (old.endTick - now).toNat < (c.endTick - now).toNat) ∧
        ∀ c ∈ newer, (old.endTick - now).toNat ≤ (c.endTick - now).toNat) := by
  unfold dropEarliest
  refine ⟨fun h => if_pos h, fun h => ?_⟩
  rw [if_neg (show ¬kept.length < Config.claimDepth from Nat.not_lt.2 h)]
  cases e : leastBy (fun c : Claim => ((c.endTick - now).toNat : Int)) kept with
  | none =>
    cases kept with
    | nil => simp at h
    | cons c cs => simp only [leastBy] at e; split at e <;> first | cases e | (split at e <;> cases e)
  | some c =>
    obtain ⟨older, newer, rfl, h1, h2⟩ := leastBy_split _ _ _ e
    have no : c ∉ older := fun hc => by have := h1 c hc; omega
    exact ⟨older, c, newer, rfl, by simp [List.erase_append_right _ no], fun x hx => by exact_mod_cast h1 x hx,
      fun x hx => by exact_mod_cast h2 x hx⟩

/-- A heard CLAIM joins the claim list of the view. -/
theorem heardClaim_joined (s : State) (epoch : BitVec 8) (n : NodeLane) (bytes : Nat) (endTick : Tick) (v : View) :
    ClaimJoined s.nodeTime { lane := n, bytes := bytes, endTick := endTick } v.claims
      (v.heardClaim s epoch n bytes endTick).claims := by
  obtain ⟨h1, h2⟩ := dropEarliest_split s.nodeTime (v.claims.filter fun c => countAfter c.endTick s.nodeTime)
  refine ⟨fun h => ?_, fun h => ?_⟩
  · simp only [View.heardClaim, View.unexpired, h1 h]
  · obtain ⟨older, old, newer, e, d, lt, le⟩ := h2 h
    exact ⟨older, old, newer, e, by simp only [View.heardClaim, View.unexpired, d], lt, le⟩

/-! ### The entry to READY (R41, R134, R177) -/

/-- Carriers handed over to lanes whose enable is off: the Lane Health Unit's copy of each that is PRESENT, and nothing else. -/
theorem handCarriers_spec (ls : List LaneNo) (s : State) (h : ∀ l, (s.lane l).health.enable = false) :
    (∀ l, (ls.foldl handCarrier s).lane l = { s.lane l with health := { (s.lane l).health with
        carrier := if l ∈ ls ∧ (s.lane l).carrier = .present then .present else (s.lane l).health.carrier } }) ∧
      ls.foldl handCarrier s = { s with lanes := (ls.foldl handCarrier s).lanes } := by
  induction ls generalizing s with
  | nil => exact ⟨fun l => by simp, rfl⟩
  | cons k ls ih =>
    have one : (∀ l, (handCarrier s k).lane l = { s.lane l with health := { (s.lane l).health with
        carrier := if l = k ∧ (s.lane l).carrier = .present then .present else (s.lane l).health.carrier } }) ∧
        handCarrier s k = { s with lanes := (handCarrier s k).lanes } := by
      unfold handCarrier
      split
      · rename_i hp
        have e : carrierChange k .present s = modHealth k (fun h => { h with carrier := .present }) s := by
          cases hs : (modHealth k (fun h => { h with carrier := .present }) s).laneState k <;>
            simp [carrierChange, hs, modHealth_lane, h]
        rw [e]
        refine ⟨fun l => ?_, rfl⟩
        rw [modHealth_lane]
        by_cases hl : l = k
        · subst hl; simp [hp]
        · simp [hl]
      · rename_i hp
        refine ⟨fun l => ?_, rfl⟩
        by_cases hl : l = k
        · subst hl; simp [hp]
        · simp [hl]
    obtain ⟨i1, i2⟩ := ih (handCarrier s k) (fun l => by rw [one.1]; exact h l)
    refine ⟨fun l => ?_, by rw [List.foldl_cons, i2, one.2]⟩
    rw [List.foldl_cons, i1, one.1]
    have c : (if l ∈ ls ∧ (s.lane l).carrier = .present then Carrier.present else
        if l = k ∧ (s.lane l).carrier = .present then .present else (s.lane l).health.carrier) =
        if l ∈ k :: ls ∧ (s.lane l).carrier = .present then .present else (s.lane l).health.carrier := by
      simp only [List.mem_cons]
      split_ifs <;> first | rfl | (exfalso; tauto)
    exact congrArg (fun c : Carrier => ({ s.lane l with health := { (s.lane l).health with carrier := c } } : Lane)) c

/-- Everything the entry to MUTE does. -/
theorem enterMute_spec (cause : MuteCause) (s : State) :
    let t := enterMute cause s
    t.bus = { s.bus with state := .mute cause, holder := none, queue := [], voidCount := 0, sending := false,
                         clashSeen := false, mutedAt := s.nodeTime } ∧
      (∀ l, t.lane l = { s.lane l with rings := (t.lane l).rings, owed := false }) ∧
      t.views = s.views.map View.muted ∧ t.port = (queueStatus (.busState (some cause)) s).port ∧
      RingsFollow (s.views.map (·.entry)) s t ∧
      t = { s with bus := t.bus, port := t.port, views := t.views, table := t.table, lanes := t.lanes } := by
  have four : allLanes = [0, 1, 2, 3] := by decide
  generalize hw : allLanes.foldl (fun s l => modLane l (fun L => { L with owed := false }) s)
    (modBus (fun b => { b with state := .mute cause, holder := none, voidCount := 0, sending := false,
                               clashSeen := false, queue := [], mutedAt := s.nodeTime }) s) = w
  generalize hu : queueStatus (.busState (some cause)) w = u
  have e : enterMute cause s = changeViews (fun _ => true) View.muted u := by subst hu hw; rfl
  simp only [four, List.foldl] at hw
  have lane : ∀ k, u.lane k = { s.lane k with owed := false } := by
    subst hu hw
    intro k
    simp only [queueStatus_lane, modLane_lane, modBus_lane]
    rcases (by decide : ∀ k : LaneNo, k = 0 ∨ k = 1 ∨ k = 2 ∨ k = 3) k with rfl | rfl | rfl | rfl <;> simp
  have only : w = { s with bus := w.bus, lanes := w.lanes } := by subst hw; rfl
  have wb : w.bus = { s.bus with
      state := .mute cause, holder := none, queue := [], voidCount := 0, sending := false, clashSeen := false,
      mutedAt := s.nodeTime } := by subst hw; rfl
  have rest : u = { s with bus := w.bus, port := u.port, lanes := u.lanes } := by
    subst hu
    rcases queueStatus_cases (.busState (some cause)) w with ⟨_, f⟩ | ⟨_, f⟩ <;> rw [f] <;> simp only [] <;> rw [only]
  have bus : u.bus = w.bus := by rw [rest]
  rw [wb] at bus
  have port : u.port = (queueStatus (.busState (some cause)) s).port := by
    subst hu; rw [queueStatus_port, queueStatus_port, only]
  obtain ⟨h1, h2, h3, h4⟩ := changeViews_spec (fun _ => true) View.muted u
  simp only [e]
  generalize changeViews (fun _ => true) View.muted u = t at *
  have hv : u.views = s.views := by rw [rest]
  refine ⟨by rw [h4]; exact bus, fun l => by rw [h3, lane], by rw [h2, hv]; simp, by rw [h4]; exact port, ?_, by rw [h4, rest]⟩
  have f : (u.views.filter fun _ => true) = s.views := by rw [hv]; simp
  rw [f] at h1
  exact h1.congr (fun k => by rw [lane]) (fun _ => rfl) (by rw [rest]) rfl rfl rfl

end Sys2Proof.Machine
end

