-- ==== Sys2Proof/Laws/PerInstr.lean ====
section
/-! SUPPORT. A statement about each command as syntax: the frame of a well-formed order begins with a byte that is not 0, so it is
never taken for a reply transaction (11.4, R196). A command that is not an order has no frame. -/

namespace Sys2Proof.Laws.OrderFrames

/-- The frame of the command, when it has one and the command is well-formed, begins with a byte other than 0. -/
def Statement (i : Instr) : Prop := ∀ f, encodeOrder i = some f → WellFormed i → ∃ c rest, f = c :: rest ∧ c ≠ 0

theorem fullReset (a0 : PeerNo) : Statement (.fullReset a0) := by
  intro f h _
  cases h

theorem bootReadComplete (a0 : Option (List Byte)) : Statement (.bootReadComplete a0) := by
  intro f h _
  cases h

theorem ready : Statement .ready := by
  intro f h _
  cases h

theorem nodeTimeChange (a0 : Tick) : Statement (.nodeTimeChange a0) := by
  intro f h _
  cases h

theorem buildPoint (a0 : LaneNo) : Statement (.buildPoint a0) := by
  intro f h _
  cases h

theorem cutDeadline (a0 : LaneNo) : Statement (.cutDeadline a0) := by
  intro f h _
  cases h

theorem buildStart : Statement .buildStart := by
  intro f h _
  cases h

theorem cadenceRequest : Statement .cadenceRequest := by
  intro f h _
  cases h

theorem probePlacement : Statement .probePlacement := by
  intro f h _
  cases h

theorem joinRegion : Statement .joinRegion := by
  intro f h _
  cases h

theorem minimumOpenRegion : Statement .minimumOpenRegion := by
  intro f h _
  cases h

theorem poll : Statement .poll := by
  intro f h _
  cases h

theorem drrVisit : Statement .drrVisit := by
  intro f h _
  cases h

theorem leftoverOpenRegion : Statement .leftoverOpenRegion := by
  intro f h _
  cases h

theorem buildCompletion : Statement .buildCompletion := by
  intro f h _
  cases h

theorem admitCountdownExpiry (a0 : Nat) : Statement (.admitCountdownExpiry a0) := by
  intro f h _
  cases h

theorem rampTimeout (a0 : LaneNo) : Statement (.rampTimeout a0) := by
  intro f h _
  cases h

theorem releaseWait (a0 : Nat) (a1 : LaneNo) : Statement (.releaseWait a0 a1) := by
  intro f h _
  cases h

theorem take : Statement .take := by
  intro f h _
  cases h

theorem marginPoint (a0 : LaneNo) : Statement (.marginPoint a0) := by
  intro f h _
  cases h

theorem recordArrival (a0 : LaneNo) (a1 : LaneRecord) : Statement (.recordArrival a0 a1) := by
  intro f h _
  cases h

theorem carrierRecord (a0 : LaneNo) (a1 : LaneRecord) : Statement (.carrierRecord a0 a1) := by
  intro f h _
  cases h

theorem demandReport (a0 : LaneNo) : Statement (.demandReport a0) := by
  intro f h _
  cases h

theorem burstOutcome (a0 : LaneNo) : Statement (.burstOutcome a0) := by
  intro f h _
  cases h

theorem unknownRecordType (a0 : LaneNo) : Statement (.unknownRecordType a0) := by
  intro f h _
  cases h

theorem joinArrival (a0 : LaneNo) : Statement (.joinArrival a0) := by
  intro f h _
  cases h

theorem outcomeWaitExpiry (a0 : Nat) (a1 : LaneNo) (a2 : Slice) : Statement (.outcomeWaitExpiry a0 a1 a2) := by
  intro f h _
  cases h

theorem probeDeadline (a0 : Nat) : Statement (.probeDeadline a0) := by
  intro f h _
  cases h

theorem frameTransmitStart (a0 : List Bool) (a1 : List Rival) : Statement (.frameTransmitStart a0 a1) := by
  intro f h _
  cases h

theorem frameDelivery (a0 : List Bool) : Statement (.frameDelivery a0) := by
  intro f h _
  cases h

theorem frameVoided (a0 : List Bool) : Statement (.frameVoided a0) := by
  intro f h _
  cases h

theorem peerSilence (a0 : PeerNo) : Statement (.peerSilence a0) := by
  intro f h _
  cases h

theorem muteRecovery : Statement .muteRecovery := by
  intro f h _
  cases h

theorem refresh : Statement .refresh := by
  intro f h _
  cases h

theorem admitOrder (a0 : Byte) (a1 : AdmitFields) : Statement (.admitOrder a0 a1) := by
  intro f h _
  cases h
  exact ⟨_, _, rfl, by decide⟩

theorem amend (a0 : Byte) (a1 : AmendFields) : Statement (.amend a0 a1) := by
  intro f h _
  cases h
  exact ⟨_, _, rfl, by decide⟩

theorem retire (a0 : Byte) (a1 : BitVec 16) : Statement (.retire a0 a1) := by
  intro f h _
  cases h
  exact ⟨_, _, rfl, by decide⟩

theorem cadenceOpen (a0 : Byte) (a1 : CadenceOpenFields) : Statement (.cadenceOpen a0 a1) := by
  intro f h _
  cases h
  exact ⟨_, _, rfl, by decide⟩

theorem cadenceClose (a0 : Byte) (a1 : BitVec 16) : Statement (.cadenceClose a0 a1) := by
  intro f h _
  cases h
  exact ⟨_, _, rfl, by decide⟩

theorem laneUp (a0 : Byte) (a1 : Byte) (a2 : Byte) : Statement (.laneUp a0 a1 a2) := by
  intro f h _
  cases h
  exact ⟨_, _, rfl, by decide⟩

theorem laneDown (a0 : Byte) (a1 : Byte) : Statement (.laneDown a0 a1) := by
  intro f h _
  cases h
  exact ⟨_, _, rfl, by decide⟩

theorem readStream (a0 : Byte) (a1 : Byte) (a2 : BitVec 16) : Statement (.readStream a0 a1 a2) := by
  intro f h _
  cases h
  exact ⟨_, _, rfl, by decide⟩

theorem readNext (a0 : Byte) : Statement (.readNext a0) := by
  intro f h _
  cases h
  exact ⟨_, _, rfl, by decide⟩

theorem readCadence (a0 : Byte) (a1 : BitVec 16) : Statement (.readCadence a0 a1) := by
  intro f h _
  cases h
  exact ⟨_, _, rfl, by decide⟩

theorem readLane (a0 : Byte) (a1 : Byte) (a2 : BitVec 16) : Statement (.readLane a0 a1 a2) := by
  intro f h _
  cases h
  exact ⟨_, _, rfl, by decide⟩

theorem readPeers (a0 : Byte) : Statement (.readPeers a0) := by
  intro f h _
  cases h
  exact ⟨_, _, rfl, by decide⟩

theorem fetchStatus (a0 : Byte) : Statement (.fetchStatus a0) := by
  intro f h _
  cases h
  exact ⟨_, _, rfl, by decide⟩

theorem status (a0 : Byte) (a1 : Byte) : Statement (.status a0 a1) := by
  intro f h _
  cases h
  exact ⟨_, _, rfl, by decide⟩

theorem orderBadFormat (a0 : List Byte) : Statement (.orderBadFormat a0) := by
  intro f h hw
  cases h
  have hm : Machine.orderMalformed a0 = true := hw
  cases a0 with
  | nil => simp [Machine.orderMalformed] at hm
  | cons c rest =>
    refine ⟨c, rest, rfl, ?_⟩
    rintro rfl
    simp [Machine.orderMalformed] at hm

theorem replyTransaction (a0 : Nat) : Statement (.replyTransaction a0) := by
  intro f h _
  cases h

end Sys2Proof.Laws.OrderFrames
end

