-- ==== Sys2Proof/Laws/Retirement.lean ====
section
/-! SUPPORT. Everything the retirement of a stream can do, and the freeing of entries that follows it (R36, R37, R126). -/

namespace Sys2Proof.Machine

/-! ### Status messages one after another (R186, R187) -/

/-- The Order Port after some messages: those that find room join the tail, and one that finds none sets OVERFLOW. -/
def OrderPort.after (ms : List Message) (p : OrderPort) : OrderPort :=
  { p with
    statusQueue := p.statusQueue ++ ms.take (32 - p.statusQueue.length),
    overflow := p.overflow || decide (32 - p.statusQueue.length < ms.length) }

@[simp] theorem OrderPort.after_nil (p : OrderPort) : p.after [] = p := by simp [OrderPort.after]

/-- Messages after messages. -/
theorem OrderPort.after_append (a b : List Message) (p : OrderPort) : p.after (a ++ b) = (p.after a).after b := by
  simp only [OrderPort.after, OrderPort.mk.injEq, true_and, and_true, List.length_append, List.append_assoc, List.take_append,
    List.length_take, List.append_cancel_left_eq]
  refine ⟨?_, ?_⟩
  · congr 1; omega
  · rw [Bool.or_assoc]; congr 1
    rw [Bool.eq_iff_iff]; simp; omega

/-- One message. -/
theorem queueStatus_after (m : Message) (s : State) : queueStatus m s = { s with port := s.port.after [m] } := by
  rcases queueStatus_cases m s with ⟨h, e⟩ | ⟨h, e⟩ <;> rw [e] <;> simp only [Config.statusDepth] at h <;>
    simp only [OrderPort.after, List.length_singleton]
  · rw [List.take_of_length_le (by simp; omega), decide_eq_false (by omega), Bool.or_false]
  · rw [show 32 - s.port.statusQueue.length = 0 by omega]; simp

/-- Some messages, one for each of a list. -/
theorem queueAll_after {α : Type} (m : α → Message) (L : List α) (s : State) :
    L.foldl (fun s a => queueStatus (m a) s) s = { s with port := s.port.after (L.map m) } := by
  induction L generalizing s with
  | nil => simp
  | cons a L ih =>
    rw [List.foldl_cons, ih, queueStatus_after, List.map_cons, show m a :: L.map m = [m a] ++ L.map m from rfl, OrderPort.after_append]

/-! ### One entry retired (R36, R111, R126) -/

/-- The CADENCE_ENDED(RETIRED) messages of a tag's channels (R111). -/
def State.endedFor (s : State) (tag : Nat) : List Message :=
  (s.channels.filter fun c => c.tag == tag).map fun c => .cadenceEnded c.number c.tag .retired

/-- The channels of a tag are closed, with their messages and with no handover (R111). -/
theorem retireChannels_eq (tag : Nat) (s : State) :
    retireChannels tag s = { s with
      port := s.port.after (s.endedFor tag), channels := s.channels.filter fun c => c.tag != tag } := by
  simp only [retireChannels, queueAll_after, State.endedFor]

/-- The record of `e` after its retirement. -/
def Stream.retired (e x : Stream) : Stream :=
  { x.closed with alignment :=
      if e.isStation && !e.isSpread then x.alignment.map fun a => { a with probeOut := none, maintenance := none } else x.alignment }

/-- The correction queue of the home lane of a retired station (R126). -/
def retiredCorrections (cause : RetireCause) (tag : Nat) (waiting : List Correction) : List Correction :=
  let abort : Correction := { tag := tag, status := .abort, timing := 0, power := 0 }
  match cause with
  | .rejoin => waiting.filter fun c => c.tag != tag
  | .failure | .laneDown => waiting
  | .order | .admitExpiry | .parent =>
    if ∃ c ∈ waiting, c.tag = tag then waiting.map fun c => if c.tag = tag then abort else c else waiting ++ [abort]

/-- Rings put right for an entry with deficit 0 leave the table as it is (R30, R31). -/
theorem syncRings_table_closed (n : Nat) (s : State) (h : ∀ e ∈ s.table, e.entry = n → e.deficit = 0) :
    (syncRings n s).table = s.table := by
  have hl : ∀ (L : List LaneNo) (s : State),
      (L.foldl (fun s l => ringIndexes.foldl (fun s i => syncRing n l i s) s) s).table = s.table := by
    intro L s
    exact foldl_keeps State.table (fun s l => ringIndexes.foldl (fun s i => syncRing n l i s) s)
      (fun s l => foldl_keeps State.table (fun s i => syncRing n l i s) (fun _ _ => rfl) _ _) _ _
  simp only [syncRings]
  generalize ht : allLanes.foldl (fun s l => ringIndexes.foldl (fun s i => syncRing n l i s) s) s = t
  have : t.table = s.table := by rw [← ht, hl]
  split
  · exact this
  · simp only [modEntry, this]
    conv => rhs; rw [← List.map_id s.table]
    apply List.map_congr_left
    intro e he
    by_cases hn : e.entry = n
    · have := h e he hn; cases e; simp_all
    · simp [hn]


/-- The correction a retirement queues or discards, on the home lane of the station (R126). -/
theorem retireCorrection_eq (cause : RetireCause) (l : LaneNo) (tag : Nat) (s : State) :
    (∀ k, (retireCorrection cause l tag s).lane k =
      if k = l then { s.lane k with corrections := retiredCorrections cause tag (s.lane k).corrections } else s.lane k) ∧
      retireCorrection cause l tag s = { s with lanes := (retireCorrection cause l tag s).lanes } := by
  have queued : ∀ k, (queueCorrection l (abortFor tag) s).lane k =
      if k = l then { s.lane k with corrections := retiredCorrections .order tag (s.lane k).corrections } else s.lane k := by
    intro k
    simp only [queueCorrection, modLane_lane]
    by_cases hk : k = l
    · subst hk
      simp only [if_true, retiredCorrections, abortFor, List.any_eq_true, beq_iff_eq]
      split <;> rfl
    · simp only [hk, if_false]
  cases cause
  case rejoin =>
    refine ⟨fun k => ?_, rfl⟩
    simp only [retireCorrection, dropCorrection, modLane_lane, retiredCorrections]
    split
    · rename_i hk; subst hk; rfl
    · rfl
  case failure => exact ⟨fun k => by simp [retireCorrection, retiredCorrections], rfl⟩
  case laneDown => exact ⟨fun k => by simp [retireCorrection, retiredCorrections], rfl⟩
  all_goals exact ⟨queued, rfl⟩

/-- The Joining and Alignment Unit's share of a retirement (R126). -/
theorem retireStation_spec (cause : RetireCause) (e : Stream) (s : State) :
    (retireStation cause e s).table = s.table.map (fun x => if x.entry == e.entry then
      { x with alignment := if !e.isSpread then x.alignment.map fun a => { a with probeOut := none, maintenance := none }
        else x.alignment } else x) ∧
    (∀ k, (retireStation cause e s).lane k = { s.lane k with
      provisional := if e.homedOn k then (s.lane k).provisional.filter fun x => x != e.tag else (s.lane k).provisional,
      corrections := if e.homedOn k then retiredCorrections cause e.tag (s.lane k).corrections else (s.lane k).corrections }) ∧
    retireStation cause e s =
      { s with table := (retireStation cause e s).table, lanes := (retireStation cause e s).lanes } := by
  unfold retireStation Stream.isSpread Stream.homedOn
  cases hl : e.homeLane with
  | none =>
    refine ⟨?_, fun k => by simp, rfl⟩
    conv => lhs; rw [← List.map_id s.table]
    exact List.map_congr_left fun x _ => by cases x; simp
  | some l =>
    simp only [Option.isNone_some, Bool.not_false, if_true]
    obtain ⟨h1, h2⟩ := retireCorrection_eq cause l e.tag (modAlignment e.entry (fun a => { a with probeOut := none, maintenance := none })
      (modLane l (fun L => { L with provisional := L.provisional.filter fun t => t != e.tag }) s))
    refine ⟨by rw [h2]; rfl, fun k => ?_, by rw [h2]; rfl⟩
    rw [h1]
    have hm : ∀ u : State, (modAlignment e.entry (fun a => { a with probeOut := none, maintenance := none }) u).lane k = u.lane k :=
      fun u => rfl
    rw [hm, modLane_lane]
    by_cases hk : k = l
    · subst hk; simp
    · have : ¬l = k := fun h => hk h.symm
      simp [hk, this]

/-- A view leaves the views, and its mark the build (R36, R144). -/
theorem removeView_spec (tag : Nat) (s : State) :
    (removeView tag s).views = s.views.filter (fun v => v.tag != tag) ∧
    ((removeView tag s).builder.map fun b => { b with marks := [], reloaded := [] }) =
      (s.builder.map fun b => { b with marks := [], reloaded := [] }) ∧
    removeView tag s = { s with views := (removeView tag s).views, builder := (removeView tag s).builder } := by
  unfold removeView
  split
  · refine ⟨rfl, ?_, rfl⟩
    simp only [modBuild, Option.map_map]; rfl
  · rename_i h
    refine ⟨(List.filter_eq_self.2 fun v hv => ?_).symm, rfl, rfl⟩
    simp only [State.viewOf, List.find?_eq_none] at h
    simpa using h v hv


/-- Everything the retirement of one entry does (R36, R111, R126). -/
theorem retireEntry_spec (cause : RetireCause) {n : Nat} {e : Stream} {s : State} (h : s.entry? n = some e) :
    let t := retireEntry cause n s
    t.table = s.table.map (fun x => if x.entry == n then e.retired x else x) ∧
    (∀ k (j : Fin 6), (t.lane k).ring j = ((s.lane k).ring j).filter fun m => m != n) ∧
    (∀ k, t.lane k = { s.lane k with
      rings := (t.lane k).rings,
      provisional := if e.isStation && e.homedOn k then (s.lane k).provisional.filter fun x => x != e.tag else (s.lane k).provisional,
      corrections := if e.isStation && e.homedOn k then retiredCorrections cause e.tag (s.lane k).corrections
        else (s.lane k).corrections }) ∧
    t.stationIndex = (if e.isStation then s.stationIndex.filter fun p => p.2 != n else s.stationIndex) ∧
    t.views = (if e.isSpread then s.views.filter fun v => v.tag != e.tag else s.views) ∧
    t.channels = (s.channels.filter fun c => c.tag != e.tag) ∧ t.port = s.port.after (s.endedFor e.tag) ∧
    ((t.builder.map fun b => { b with marks := [], reloaded := [] }) = s.builder.map fun b => { b with marks := [], reloaded := [] }) ∧
    t = { s with table := t.table, stationIndex := t.stationIndex, channels := t.channels, builder := t.builder, views := t.views,
                 lanes := t.lanes, port := t.port } := by
  have hn := entry?_number h
  obtain ⟨u1, u2, u3, u4⟩ := syncRings_spec n (modEntry n Stream.closed s)
  have u5 : (syncRings n (modEntry n Stream.closed s)).table = (modEntry n Stream.closed s).table := by
    apply syncRings_table_closed
    intro x hx hxn
    simp only [modEntry, List.mem_map] at hx
    obtain ⟨y, -, rfl⟩ := hx
    by_cases hy : y.entry = n
    · simp [hy, Stream.closed]
    · simp [hy] at hxn
  have u6 : ∀ k (j : Fin 6), ((modEntry n Stream.closed s).entry? n).any (fun e =>
      (modEntry n Stream.closed s).meetsRing e k (j.val + 1)) = false := by
    intro k j
    rw [modEntry_entry _ _ _ (by intro e; rfl), h]
    simp [State.meetsRing, Stream.served, Stream.closed]
  have low : ∀ r : List Nat, ringFor n false r = r.filter fun m => m != n := fun r => rfl
  simp only [u6, low] at u1
  have base : updateEntry n Stream.closed s = syncRings n (modEntry n Stream.closed s) := rfl
  simp only [retireEntry, h, base]
  have g1 : ∀ k, (modEntry n Stream.closed s).lane k = s.lane k := fun k => rfl
  simp only [g1] at u1 u2
  generalize syncRings n (modEntry n Stream.closed s) = u at *
  -- the station's share
  obtain ⟨w, hw⟩ : ∃ w, w = (if e.isStation = true then
      retireStation cause e { u with stationIndex := u.stationIndex.filter fun p => p.2 != n } else u) := ⟨_, rfl⟩
  rw [← hw]
  have w1 : w.table = s.table.map (fun x => if x.entry == n then e.retired x else x) ∧
      (∀ k, w.lane k = { u.lane k with
        provisional := if e.isStation && e.homedOn k then (u.lane k).provisional.filter fun x => x != e.tag else (u.lane k).provisional,
        corrections := if e.isStation && e.homedOn k then retiredCorrections cause e.tag (u.lane k).corrections
          else (u.lane k).corrections }) ∧
      w.stationIndex = (if e.isStation then s.stationIndex.filter fun p => p.2 != n else s.stationIndex) ∧
      w = { s with table := w.table, stationIndex := w.stationIndex, lanes := w.lanes } := by
    cases hs : e.isStation with
    | false =>
      simp only [hs, Bool.false_eq_true, if_false, Bool.false_and] at hw ⊢
      subst hw
      refine ⟨?_, fun k => rfl, by rw [u4]; rfl, by rw [u4]; rfl⟩
      rw [u5]
      simp only [modEntry, Stream.retired, hs, Bool.false_and, Bool.false_eq_true, if_false]
      apply List.map_congr_left; intro x _; split <;> rfl
    | true =>
      simp only [hs, if_true, Bool.true_and] at hw ⊢
      obtain ⟨v1, v2, v3⟩ := retireStation_spec cause e { u with stationIndex := u.stationIndex.filter fun p => p.2 != n }
      rw [← hw] at v1 v2 v3
      refine ⟨?_, v2, by rw [v3, u4]; rfl, by rw [v3, u4]; rfl⟩
      rw [v1]; simp only [u5]
      simp only [modEntry, List.map_map]
      apply List.map_congr_left; intro x _
      simp only [Function.comp, hn]
      by_cases hx : x.entry = n
      · simp only [hx, beq_self_eq_true, if_true, Stream.closed, Stream.retired, hs, Bool.true_and]
      · simp [hx]
  clear hw
  obtain ⟨w1, w2, w3, w4⟩ := w1
  obtain ⟨x, hx⟩ : ∃ x, x = (if e.isSpread = true then removeView e.tag w else w) := ⟨_, rfl⟩
  rw [← hx]
  have x1 : x.views = (if e.isSpread then s.views.filter fun v => v.tag != e.tag else s.views) ∧
      ((x.builder.map fun b => { b with marks := [], reloaded := [] }) = s.builder.map fun b => { b with marks := [], reloaded := [] }) ∧
      x = { w with views := x.views, builder := x.builder } := by
    cases hs : e.isSpread with
    | false =>
      simp only [hs, Bool.false_eq_true, if_false] at hx ⊢
      subst hx; exact ⟨by rw [w4], by rw [w4], rfl⟩
    | true =>
      simp only [hs, if_true] at hx ⊢
      obtain ⟨v1, v2, v3⟩ := removeView_spec e.tag w
      rw [← hx] at v1 v2 v3
      exact ⟨by rw [v1, w4], by rw [v2, w4], v3⟩
  clear hx
  obtain ⟨x1, x2, x3⟩ := x1
  have lanes : ∀ k, x.lane k = w.lane k := fun k => by rw [x3]; rfl
  simp only [retireChannels_eq]
  refine ⟨by rw [x3]; exact w1, fun k j => ?_, fun k => ?_, by rw [x3]; exact w3, x1, ?_, ?_, x2, ?_⟩
  · show (x.lane k).ring j = _
    rw [lanes, w2]; exact u1 k j
  · have key : x.lane k = { s.lane k with
        rings := (x.lane k).rings,
        provisional := if e.isStation && e.homedOn k then (s.lane k).provisional.filter fun x => x != e.tag
          else (s.lane k).provisional,
        corrections := if e.isStation && e.homedOn k then retiredCorrections cause e.tag (s.lane k).corrections
          else (s.lane k).corrections } := by rw [lanes, w2, u2]
    exact key
  · rw [x3, w4]
  · show x.port.after (x.endedFor e.tag) = s.port.after (s.endedFor e.tag)
    rw [x3, w4]; rfl
  · rw [x3, w4]


/-- An entry found in a table that a change of one entry leaves. -/
theorem entry?_of_table {s t : State} {n : Nat} {f : Stream → Stream} (hf : ∀ e, (f e).entry = e.entry)
    (h : t.table = s.table.map (fun x => if x.entry == n then f x else x)) (m : Nat) :
    t.entry? m = (s.entry? m).map fun e => if m = n then f e else e := by
  rw [← modEntry_entry n m f hf s]
  simp only [State.entry?, h, modEntry]

/-- The children retired with a station, one after another (R36). -/
theorem retireChildren_spec (L : List Stream) (s : State) (hc : ∀ c ∈ L, s.entry? c.entry = some c ∧ c.isStation = false)
    (he : (L.map Stream.entry).Nodup) (ht : (L.map Stream.tag).Nodup) :
    let t := L.foldl (fun s c => retireEntry .parent c.entry s) s
    t.table = s.table.map (fun x => if L.any (fun c => c.entry == x.entry) then x.closed else x) ∧
    (∀ k (j : Fin 6), (t.lane k).ring j = ((s.lane k).ring j).filter fun m => !L.any fun c => c.entry == m) ∧
    (∀ k, t.lane k = { s.lane k with rings := (t.lane k).rings }) ∧
    t.views = (s.views.filter fun v => !L.any fun c => c.isSpread && c.tag == v.tag) ∧
    t.channels = (s.channels.filter fun x => !L.any fun c => c.tag == x.tag) ∧
    t.port = s.port.after (L.flatMap fun c => s.endedFor c.tag) ∧
    ((t.builder.map fun b => { b with marks := [], reloaded := [] }) = s.builder.map fun b => { b with marks := [], reloaded := [] }) ∧
    t = { s with table := t.table, channels := t.channels, builder := t.builder, views := t.views, lanes := t.lanes, port := t.port } := by
  have apart : ∀ a b : Nat, (a != b) = !(b == a) := fun a b => by rw [bne, Bool.beq_comm]
  induction L generalizing s with
  | nil =>
    refine ⟨by simp, by simp, fun k => rfl, by simp, by simp, by simp, rfl, rfl⟩
  | cons c L ih =>
    simp only [List.foldl_cons]
    obtain ⟨hs, hstation⟩ := hc c (List.mem_cons_self ..)
    obtain ⟨r1, r2, r3, r4, r5, r6, r7, r8, r9⟩ := retireEntry_spec .parent hs
    simp only [List.map_cons, List.nodup_cons] at he ht
    have hret : ∀ x, c.retired x = x.closed := fun x => by simp [Stream.retired, hstation, Stream.closed]
    simp only [hret] at r1
    simp only [hstation, Bool.false_and, Bool.false_eq_true, if_false] at r3 r4
    generalize retireEntry .parent c.entry s = u at *
    have other : ∀ d ∈ L, d.entry ≠ c.entry := fun d hd h => he.1 (h ▸ List.mem_map_of_mem hd)
    have tags : ∀ d ∈ L, d.tag ≠ c.tag := fun d hd h => ht.1 (h ▸ List.mem_map_of_mem hd)
    obtain ⟨q1, q2, q3, q4, q5, q6, q7, q8⟩ := ih u (fun d hd => by
      obtain ⟨h1, h2⟩ := hc d (List.mem_cons_of_mem _ hd)
      exact ⟨by rw [entry?_of_table (by intro e; rfl) r1, h1]; simp [other d hd], h2⟩) he.2 ht.2
    generalize L.foldl (fun s c => retireEntry .parent c.entry s) u = t at *
    refine ⟨?_, fun k j => ?_, fun k => by rw [q3, r3], ?_, ?_, ?_, q7.trans r8, ?_⟩
    · rw [q1, r1, List.map_map]
      apply List.map_congr_left; intro x _
      by_cases hx : x.entry = c.entry
      · simp only [Function.comp, hx, beq_self_eq_true, if_true, List.any_cons, Bool.true_or]
        split <;> rfl
      · have : ¬c.entry = x.entry := fun h => hx h.symm
        simp [hx, this]
    · rw [q2, r2, List.filter_filter]
      apply List.filter_congr; intro m _
      rw [apart, List.any_cons, Bool.not_or, Bool.and_comm]
    · rw [q4, r5]
      cases hsp : c.isSpread
      · simp [hsp]
      · simp only [if_true, List.filter_filter, hsp, Bool.true_and, List.any_cons]
        apply List.filter_congr; intro v _
        rw [apart, Bool.not_or, Bool.and_comm]
    · rw [q5, r6, List.filter_filter]
      apply List.filter_congr; intro v _
      rw [apart, List.any_cons, Bool.not_or, Bool.and_comm]
    · rw [q6, r7, ← OrderPort.after_append, List.flatMap_cons]
      congr 2
      apply List.flatMap_congr
      intro d hd
      simp only [State.endedFor, r6, List.filter_filter]
      congr 1
      apply List.filter_congr; intro x _
      by_cases h : x.tag = d.tag
      · have := tags d hd
        rw [h]; simpa using this
      · simp [h]
    · rw [q8, r9, r4]


/-! ### Entries freed (R37) -/

/-- One entry becomes FREE. -/
theorem freeEntry_eq (e : Stream) (s : State) :
    freeEntry e s = { s with
      table := s.table.filter fun c => c.entry != e.entry, tagMap := s.tagMap.filter fun p => p.1 != e.tag,
      pool := if e.isStation then insertBy id e.tag s.pool else s.pool,
      builder := s.builder.map fun b => { b with reloaded := b.reloaded.filter fun m => m != e.entry },
      port := s.port.after [.retired e.tag] } := by
  simp only [freeEntry, queueStatus_after, modBuild]

/-- Some entries become FREE, one after another. -/
def freeAll (L : List Stream) (s : State) : State := L.foldl (fun s e => freeEntry e s) s

/-- Everything that freeing some entries does. -/
theorem freeAll_spec (L : List Stream) (s : State) :
    let t := freeAll L s
    t.table = (s.table.filter fun x => !L.any fun e => e.entry == x.entry) ∧
    t.tagMap = (s.tagMap.filter fun p => !L.any fun e => e.tag == p.1) ∧
    t.pool = L.foldl (fun pool e => if e.isStation then insertBy id e.tag pool else pool) s.pool ∧
    t.port = s.port.after (L.map fun e => .retired e.tag) ∧
    ((t.builder.map fun b => { b with marks := [], reloaded := [] }) = s.builder.map fun b => { b with marks := [], reloaded := [] }) ∧
    t = { s with table := t.table, tagMap := t.tagMap, pool := t.pool, builder := t.builder, port := t.port } := by
  have apart : ∀ a b : Nat, (a != b) = !(b == a) := fun a b => by rw [bne, Bool.beq_comm]
  unfold freeAll
  induction L generalizing s with
  | nil => exact ⟨by simp, by simp, rfl, by simp, rfl, rfl⟩
  | cons e L ih =>
    obtain ⟨h1, h2, h3, h4, h5, h6⟩ := ih (freeEntry e s)
    simp only [List.foldl_cons]
    generalize L.foldl (fun s e => freeEntry e s) (freeEntry e s) = t at *
    simp only [freeEntry_eq] at h1 h2 h3 h4 h5 h6
    refine ⟨?_, ?_, h3, ?_, ?_, h6⟩
    · rw [h1, List.filter_filter]
      apply List.filter_congr; intro x _
      rw [apart, List.any_cons, Bool.not_or, Bool.and_comm]
    · rw [h2, List.filter_filter]
      apply List.filter_congr; intro x _
      rw [apart, List.any_cons, Bool.not_or, Bool.and_comm]
    · rw [h4, ← OrderPort.after_append]; rfl
    · rw [h5, Option.map_map]; rfl

/-- The entry found under its number is the only one of that number. -/
theorem entry?_mem {s : State} (hu : (s.table.map Stream.entry).Nodup) {e : Stream} (he : e ∈ s.table) : s.entry? e.entry = some e := by
  unfold State.entry?
  generalize s.table = L at *
  induction L with
  | nil => cases he
  | cons a L ih =>
    simp only [List.map_cons, List.nodup_cons] at hu
    rcases List.mem_cons.1 he with rfl | h
    · simp
    · have : a.entry ≠ e.entry := fun h' => hu.1 (h' ▸ List.mem_map_of_mem h)
      rw [List.find?_cons, beq_eq_false_iff_ne.2 this]; exact ih hu.2 h

/-- An entry found is in the table. -/
theorem mem_of_entry? {s : State} {n : Nat} {e : Stream} (h : s.entry? n = some e) : e ∈ s.table := List.mem_of_find?_eq_some h

/-- A station and its children, CLOSING, examined in the order child before station: the children with an empty turn list become FREE,
and the station when its own list is empty and they were all its children. -/
theorem tryFree_family (cs : List Stream) (e : Stream) (s : State) (hu : (s.table.map Stream.entry).Nodup)
    (he : s.entry? e.entry = some e) (hst : e.isStation = true) (hcl : e.state = .closing)
    (hc : ∀ c ∈ cs, s.entry? c.entry = some c ∧ c.isStation = false ∧ c.state = .closing ∧ c.parent = e.entry)
    (hd : (cs.map Stream.entry).Nodup) :
    ∃ more, (more = if e.turns = [] ∧ ∀ x ∈ s.table, x.parent = e.entry → x.entry ≠ e.entry → x ∈ cs ∧ x.turns = [] then [e] else []) ∧
      tryFree e.entry (cs.foldl (fun s c => tryFree c.entry s) s) = freeAll (cs.filter (·.turns.isEmpty) ++ more) s := by
  have hpar : e.parent = e.entry := by simpa [Stream.isStation] using hst
  induction cs generalizing s with
  | nil =>
    refine ⟨_, rfl, ?_⟩
    have hm : s.mayFree e = decide (e.turns = [] ∧ ∀ x ∈ s.table, x.parent = e.entry → x.entry ≠ e.entry → x ∈ [] ∧ x.turns = []) := by
      rw [Bool.eq_iff_iff]
      simp only [State.mayFree, hcl, hst, beq_self_eq_true, Bool.true_and, Bool.not_true, Bool.false_or, Bool.and_eq_true,
        List.isEmpty_iff, Bool.not_eq_true', List.any_eq_false, decide_eq_true_eq]
      refine and_congr_right fun _ => ⟨fun h x hx h1 h2 => absurd (h x hx) (by simp [h1, h2]), fun h x hx => ?_⟩
      simp only [beq_iff_eq, bne_iff_ne, not_and, ne_eq]
      intro h1 h2; exact absurd (h x hx h1 h2).1 (by simp)
    simp only [List.foldl_nil, tryFree, he, hm, hpar]
    by_cases hq : e.turns = [] ∧ ∀ x ∈ s.table, x.parent = e.entry → x.entry ≠ e.entry → x ∈ ([] : List Stream) ∧ x.turns = []
    · have : (freeEntry e s).entry? e.entry = none := by rw [freeEntry_entry, if_pos rfl]
      simp only [decide_eq_true hq, if_true, if_pos hq, freeOne, this, List.filter_nil, List.nil_append, freeAll, List.foldl_cons, List.foldl_nil]
    · simp only [decide_eq_false hq, Bool.false_eq_true, if_false, if_neg hq, List.filter_nil, List.nil_append, freeAll, List.foldl_nil]
  | cons c cs ih =>
    obtain ⟨c1, c2, c3, c4⟩ := hc c (List.mem_cons_self ..)
    simp only [List.map_cons, List.nodup_cons] at hd
    have cne : c.entry ≠ e.entry := by
      intro h; simp [Stream.isStation, c4, h] at c2
    have hmay : s.mayFree c = c.turns.isEmpty := by simp [State.mayFree, c2, c3]
    by_cases ht : c.turns = []
    · have hstep : tryFree c.entry s = freeOne e.entry (freeEntry c s) := by
        simp [tryFree, c1, hmay, ht, c4]
      have s1 : ∀ m, m ≠ c.entry → (freeEntry c s).entry? m = s.entry? m := fun m hm => by rw [freeEntry_entry, if_neg hm]
      have tab : (freeEntry c s).table = s.table.filter fun x => x.entry != c.entry := by rw [freeEntry_eq]
      have hu1 : ((freeEntry c s).table.map Stream.entry).Nodup := by
        rw [tab]; exact hu.sublist (List.filter_sublist.map _)
      have inj : ∀ x ∈ s.table, x.entry = c.entry → x = c := by
        intro x hx h
        have h1 := entry?_mem hu hx
        rw [h, c1] at h1; exact (Option.some.inj h1).symm
      have cond : (e.turns = [] ∧ ∀ x ∈ (freeEntry c s).table, x.parent = e.entry → x.entry ≠ e.entry → x ∈ cs ∧ x.turns = []) ↔
          (e.turns = [] ∧ ∀ x ∈ s.table, x.parent = e.entry → x.entry ≠ e.entry → x ∈ c :: cs ∧ x.turns = []) := by
        refine and_congr_right fun _ => ⟨fun h x hx h1 h2 => ?_, fun h x hx h1 h2 => ?_⟩
        · by_cases hxc : x.entry = c.entry
          · rw [inj x hx hxc]; exact ⟨List.mem_cons_self .., ht⟩
          · obtain ⟨h3, h4⟩ := h x (by rw [tab]; exact List.mem_filter.2 ⟨hx, by simpa using hxc⟩) h1 h2
            exact ⟨List.mem_cons_of_mem _ h3, h4⟩
        · rw [tab] at hx
          obtain ⟨hx1, hx2⟩ := List.mem_filter.1 hx
          obtain ⟨h3, h4⟩ := h x hx1 h1 h2
          rcases List.mem_cons.1 h3 with rfl | h3
          · simp at hx2
          · exact ⟨h3, h4⟩
      have hmem : ∀ d ∈ cs, d ∈ (freeEntry c s).table := by
        intro d hd'
        have h1 := (hc d (List.mem_cons_of_mem _ hd')).1
        exact mem_of_entry? (by rw [s1 d.entry (fun h => hd.1 (h ▸ List.mem_map_of_mem hd'))]; exact h1)
      have he1 : (freeEntry c s).entry? e.entry = some e := by rw [s1 _ (Ne.symm cne)]; exact he
      obtain ⟨more, hm1, hm2⟩ := ih (freeEntry c s) hu1 he1 (fun d hd' => by
        obtain ⟨d1, d2⟩ := hc d (List.mem_cons_of_mem _ hd')
        exact ⟨by rw [s1 d.entry (fun h => hd.1 (h ▸ List.mem_map_of_mem hd'))]; exact d1, d2⟩) hd.2
      refine ⟨more, by rw [hm1]; exact if_congr cond rfl rfl, ?_⟩
      have fin : ((c :: cs).filter (·.turns.isEmpty) ++ more) = c :: (cs.filter (·.turns.isEmpty) ++ more) := by simp [ht]
      rw [fin, show freeAll (c :: (cs.filter (·.turns.isEmpty) ++ more)) s = freeAll (cs.filter (·.turns.isEmpty) ++ more) (freeEntry c s) from rfl,
        ← hm2, List.foldl_cons, hstep]
      cases hmf : (freeEntry c s).mayFree e with
      | false => simp [freeOne, he1, hmf]
      | true =>
        -- no child is left, so none follows
        have : cs = [] := by
          cases cs with
          | nil => rfl
          | cons d ds =>
            have h1 := hmem d (List.mem_cons_self ..)
            obtain ⟨_, d2, _, d4⟩ := hc d (by simp)
            simp only [State.mayFree, hst, Bool.not_true, Bool.false_or, Bool.and_eq_true, Bool.not_eq_true', List.any_eq_false] at hmf
            have := hmf.2 d h1
            have dne : d.entry ≠ e.entry := by intro h; simp [Stream.isStation, d4, h] at d2
            simp [d4, dne] at this
        subst this
        have gone : (freeEntry e (freeEntry c s)).entry? e.entry = none := by rw [freeEntry_entry, if_pos rfl]
        simp only [List.foldl_nil, freeOne, he1, hmf, if_true, tryFree, gone, hpar]
    · have hstep : tryFree c.entry s = s := by simp [tryFree, c1, hmay, ht]
      obtain ⟨more, hm1, hm2⟩ := ih s hu he (fun d hd' => hc d (List.mem_cons_of_mem _ hd')) hd.2
      have hcmem := mem_of_entry? c1
      refine ⟨more, ?_, ?_⟩
      · rw [hm1]
        apply if_congr _ rfl rfl
        refine ⟨fun h => absurd (h.2 c hcmem c4 cne).2 ht, fun h => absurd (h.2 c hcmem c4 cne).2 ht⟩
      · rw [List.foldl_cons, hstep, hm2]
        simp [ht]


/-- An element found by its key in a list from which some keys have been taken out. -/
theorem find_filter_key {α β : Type} (k : α → Nat) (q : β → Nat) (L : List α) (F : List β) (n : Nat) :
    (L.filter fun x => !F.any fun d => q d == k x).find? (fun x => k x == n) =
      if F.any (fun d => q d == n) then none else L.find? fun x => k x == n := by
  rw [List.find?_filter]
  split
  · rename_i h
    rw [List.find?_eq_none]
    intro x _
    by_cases hx : k x = n
    · simp [hx, h]
    · simp [hx]
  · rename_i h
    congr 1; funext x
    by_cases hx : k x = n
    · subst hx; simp [h]
    · simp [hx]

/-! ### A retirement as a whole (R36, R37) -/

/-- In a state whose entries and tags name each other, entry numbers are unequal, and so are tags. -/
theorem State.tagsOk_spec {s : State} (h : s.tagsOk = true) :
    (s.table.map Stream.entry).Nodup ∧ (∀ a ∈ s.table, ∀ b ∈ s.table, a.tag = b.tag → a = b) ∧
      ∀ a ∈ s.table, ∀ b ∈ s.table, a.entry = b.entry → a = b := by
  simp only [State.tagsOk, Bool.and_eq_true, decide_eq_true_eq, List.all_eq_true, beq_iff_eq] at h
  have hu : (s.table.map Stream.entry).Nodup := by
    rw [List.nodup_iff_pairwise_ne, List.pairwise_map]
    exact h.1.1.imp fun h => Nat.ne_of_lt h
  refine ⟨hu, fun a ha b hb hab => ?_, fun a ha b hb hab => ?_⟩
  · have h1 := h.1.2 a ha
    have h2 := h.1.2 b hb
    rw [hab, h2] at h1; exact (Option.some.inj h1).symm
  · have h1 := entry?_mem hu ha
    have h2 := entry?_mem hu hb
    rw [hab, h2] at h1; exact (Option.some.inj h1).symm

/-- A stream that is BASIC or ADMITTED, if it is no station, has no children, and its station is not CLOSING (R32, R36). -/
theorem State.familiesOk_child {s : State} (h : s.familiesOk = true) (ht : s.tagsOk = true) {e : Stream} (he : e ∈ s.table)
    (hst : e.isStation = false) :
    (∀ c ∈ s.table, c.parent = e.entry → c.entry = e.entry) ∧
      (e.served = true → ∀ p, s.entry? e.parent = some p → p.state ≠ .closing) := by
  obtain ⟨hu, -, inj⟩ := s.tagsOk_spec ht
  simp only [State.familiesOk, Bool.and_eq_true, List.all_eq_true] at h
  have parent : ∀ c ∈ s.table, c.isStation = false → ∃ p ∈ s.table, p.entry = c.parent ∧ p.isStation = true ∧
      (p.served = true ∨ p.state = .closing ∧ c.state = .closing) := by
    intro c hc hcs
    have := (h.1 c hc).2
    simp only [hcs, Bool.false_or, Bool.and_eq_true, List.any_eq_true, beq_iff_eq, Bool.or_eq_true] at this
    obtain ⟨p, hp, hp1, hp2⟩ := this.2
    exact ⟨p, hp, hp1.1, hp1.2, hp2⟩
  refine ⟨fun c hc hcp => ?_, fun hs p hp => ?_⟩
  · by_cases hcs : c.isStation = true
    · have : c.parent = c.entry := by simpa [Stream.isStation] using hcs
      exact this.symm.trans hcp
    · obtain ⟨p, hp, hp1, hp2, -⟩ := parent c hc (by simpa using hcs)
      rw [inj p hp e he (hp1.trans hcp), hst] at hp2; cases hp2
  · obtain ⟨q, hq, hq1, -, hq3⟩ := parent e he hst
    have hqp : q = p := by
      have := entry?_mem hu hq
      rw [hq1, hp] at this; exact (Option.some.inj this).symm
    subst hqp
    rcases hq3 with h3 | ⟨-, h3⟩
    · intro hcl; simp [Stream.served, hcl] at h3
    · simp [Stream.served, h3] at hs

/-- Everything a retirement does, in a state in which each entry is found under its tag and has its station (R36, R37, R111, R126). -/
theorem retireWithChildren_retired (cause : RetireCause) {e : Stream} {s : State} (htags : s.tagsOk = true) (hfam : s.familiesOk = true)
    (he : s.entry? e.entry = some e) (hserved : e.isStation = true ∨ e.served = true) :
    Retired cause e s (retireWithChildren cause e.entry s) := by
  have apart : ∀ a b : Nat, (a != b) = !(b == a) := fun a b => by rw [bne, Bool.beq_comm]
  obtain ⟨hu, injTag, inj⟩ := s.tagsOk_spec htags
  have hem := mem_of_entry? he
  -- the children retired with it
  obtain ⟨cs, hcs⟩ : ∃ cs, cs = s.table.filter fun c => c.parent == e.entry && c.entry != e.entry && c.served := ⟨_, rfl⟩
  have hret : s.retiring e = e :: cs := by rw [hcs]; rfl
  have hsc : s.servedChildren e.entry = cs.map Stream.entry := by rw [hcs]; rfl
  have csMem : ∀ c, c ∈ cs ↔ c ∈ s.table ∧ c.parent = e.entry ∧ c.entry ≠ e.entry ∧ c.served = true := by
    intro c; rw [hcs]; simp [and_assoc]
  have csStation : ∀ c ∈ cs, c.isStation = false := by
    intro c hc
    obtain ⟨-, h1, h2, -⟩ := (csMem c).1 hc
    simpa [Stream.isStation, h1] using Ne.symm h2
  have csNodup : (cs.map Stream.entry).Nodup := by rw [hcs]; exact hu.sublist (List.filter_sublist.map _)
  have csTags : (cs.map Stream.tag).Nodup := by
    rw [List.nodup_iff_pairwise_ne, List.pairwise_map]
    rw [List.nodup_iff_pairwise_ne, List.pairwise_map] at csNodup
    refine csNodup.imp_of_mem fun ha hb hne h => hne ?_
    rw [injTag _ ((csMem _).1 ha).1 _ ((csMem _).1 hb).1 h]
  have tagNe : ∀ c ∈ cs, c.tag ≠ e.tag := by
    intro c hc h
    exact ((csMem c).1 hc).2.2.1 (by rw [injTag _ ((csMem c).1 hc).1 _ hem h])
  clear hcs
  -- the records after the retirement
  obtain ⟨r1, r2, r3, r4, r5, r6, r7, r8, r9⟩ := retireEntry_spec cause he
  have goal : retireWithChildren cause e.entry s = tryFree e.entry
      (cs.foldl (fun s c => tryFree c.entry s) (cs.foldl (fun s c => retireEntry .parent c.entry s) (retireEntry cause e.entry s))) := by
    simp only [retireWithChildren, hsc, List.foldl_map]
  rw [goal]; clear goal
  generalize retireEntry cause e.entry s = u at *
  obtain ⟨q1, q2, q3, q4, q5, q6, q7, q8⟩ := retireChildren_spec cs u (fun c hc => ⟨by
    rw [entry?_of_table (by intro e; rfl) r1, entry?_mem hu ((csMem c).1 hc).1]; simp [((csMem c).1 hc).2.2.1], csStation c hc⟩) csNodup csTags
  generalize cs.foldl (fun s c => retireEntry .parent c.entry s) u = v at *
  let after : Stream → Stream := fun x =>
    if x.entry = e.entry then e.retired x else if cs.any (fun c => c.entry == x.entry) then x.closed else x
  have afterEntry : ∀ x, (after x).entry = x.entry := by intro x; simp only [after]; split <;> [rfl; (split <;> rfl)]
  have afterTag : ∀ x, (after x).tag = x.tag := by intro x; simp only [after]; split <;> [rfl; (split <;> rfl)]
  have afterTurns : ∀ x, (after x).turns = x.turns := by intro x; simp only [after]; split <;> [rfl; (split <;> rfl)]
  have afterParent : ∀ x, (after x).parent = x.parent := by intro x; simp only [after]; split <;> [rfl; (split <;> rfl)]
  have afterSelf : after e = e.retired e := by simp [after]
  have afterChild : ∀ c ∈ cs, after c = c.closed := by
    intro c hc
    have : (cs.any fun d => d.entry == c.entry) = true := List.any_eq_true.2 ⟨c, hc, by simp⟩
    simp only [after]
    rw [if_neg ((csMem c).1 hc).2.2.1, if_pos this]
  have vtab : v.table = s.table.map after := by
    rw [q1, r1, List.map_map]
    apply List.map_congr_left; intro x _
    simp only [Function.comp, after, beq_iff_eq]
    by_cases hx : x.entry = e.entry
    · rw [if_pos hx, if_pos hx]
      have : (cs.any fun c => c.entry == (e.retired x).entry) = false := by
        rw [List.any_eq_false]; intro c hc
        have : (e.retired x).entry = e.entry := hx
        simpa [this] using ((csMem c).1 hc).2.2.1
      rw [this, if_neg (by simp)]
    · rw [if_neg hx, if_neg hx]
  have ventry : ∀ m, v.entry? m = (s.entry? m).map after := by
    intro m
    simp only [State.entry?, vtab, List.find?_map]
    have : ((fun x : Stream => x.entry == m) ∘ after) = fun x => x.entry == m := by funext x; simp [afterEntry]
    rw [this]
  have vu : (v.table.map Stream.entry).Nodup := by
    rw [vtab, List.map_map, show (Stream.entry ∘ after) = Stream.entry from funext afterEntry]; exact hu
  -- what becomes FREE
  let C : Prop := e.turns = [] ∧ (e.isStation = true → ∀ c ∈ s.table, c.parent = e.entry → c.entry ≠ e.entry → c.served = true ∧ c.turns = [])
  have freed : ∃ more, (more = if C then [after e] else []) ∧
      tryFree e.entry (cs.foldl (fun s c => tryFree c.entry s) v) = freeAll ((cs.map after).filter (·.turns.isEmpty) ++ more) v := by
    rcases Bool.eq_false_or_eq_true e.isStation with hst | hst
    ·
      obtain ⟨more, hm1, hm2⟩ := tryFree_family (cs.map after) (after e) v vu
        (by rw [afterEntry, ventry, he]; rfl) (by rw [afterSelf]; exact hst) (by rw [afterSelf]; rfl)
        (by
          intro d hd
          obtain ⟨c, hc, rfl⟩ := List.mem_map.1 hd
          refine ⟨by rw [afterEntry, ventry, entry?_mem hu ((csMem c).1 hc).1]; rfl, ?_, ?_, ?_⟩
          · rw [afterChild c hc]; exact csStation c hc
          · rw [afterChild c hc]; rfl
          · rw [afterParent, afterEntry]; exact ((csMem c).1 hc).2.1)
        (by rw [List.map_map, show (Stream.entry ∘ after) = Stream.entry from funext afterEntry]; exact csNodup)
      rw [List.foldl_map] at hm2
      simp only [afterEntry] at hm2
      refine ⟨more, ?_, hm2⟩
      rw [hm1]
      refine if_congr ?_ rfl rfl
      simp only [C, hst, true_implies, afterTurns, afterEntry]
      refine and_congr_right fun _ => ⟨fun h c hc h1 h2 => ?_, fun h x hx h1 h2 => ?_⟩
      · obtain ⟨h3, h4⟩ := h (after c) (by rw [vtab]; exact List.mem_map_of_mem hc) (by rw [afterParent]; exact h1)
          (by rw [afterEntry]; exact h2)
        obtain ⟨d, hd, hdc⟩ := List.mem_map.1 h3
        have : d = c := inj d ((csMem d).1 hd).1 c hc (by rw [← afterEntry d, hdc, afterEntry])
        rw [this] at hd
        exact ⟨((csMem c).1 hd).2.2.2, by rw [← afterTurns]; exact h4⟩
      · rw [vtab] at hx
        obtain ⟨c, hc, rfl⟩ := List.mem_map.1 hx
        rw [afterParent] at h1; rw [afterEntry] at h2
        obtain ⟨h3, h4⟩ := h c hc h1 h2
        exact ⟨List.mem_map_of_mem ((csMem c).2 ⟨hc, h1, h2, h3⟩), by rw [afterTurns]; exact h4⟩
    · obtain ⟨f1, f2⟩ := s.familiesOk_child hfam htags hem hst
      have hsv : e.served = true := hserved.resolve_left (by simp [hst])
      have hnil : cs = [] := by
        cases cs with
        | nil => rfl
        | cons c cs => exact absurd (f1 c ((csMem c).1 (by simp)).1 ((csMem c).1 (by simp)).2.1) ((csMem c).1 (by simp)).2.2.1
      refine ⟨_, rfl, ?_⟩
      subst hnil
      have hC : C ↔ e.turns = [] := by simp [C, hst]
      have hve : v.entry? e.entry = some (after e) := by rw [ventry, he]; rfl
      have hmay : v.mayFree (after e) = e.turns.isEmpty := by
        rw [afterSelf]; simp [State.mayFree, Stream.retired, Stream.closed, Stream.isStation] at hst ⊢
        simp [hst]
      simp only [List.foldl_nil, List.map_nil, List.filter_nil, List.nil_append, tryFree, hve, hmay]
      by_cases ht : e.turns = []
      · have hpne : e.parent ≠ e.entry := by simpa [Stream.isStation] using hst
        have : freeOne (after e).parent (freeEntry (after e) v) = freeEntry (after e) v := by
          unfold freeOne
          rw [afterParent, freeEntry_entry, afterEntry, if_neg hpne, ventry]
          cases hp : s.entry? e.parent with
          | none => rfl
          | some p =>
            have hpe : p.entry ≠ e.entry := by rw [entry?_number hp]; exact hpne
            have hst' : (after p).state ≠ .closing := by
              simpa [after, hpe] using f2 hsv p hp
            simp [State.mayFree, hst']
        simp [ht, this, hC, freeAll]
      · simp [ht, hC, freeAll]
  obtain ⟨more, hmore, hgoal⟩ := freed
  rw [hgoal]; clear hgoal
  obtain ⟨F, hF⟩ : ∃ F, F = (cs.map after).filter (·.turns.isEmpty) ++ more := ⟨_, rfl⟩
  rw [← hF]
  obtain ⟨g1, g2, g3, g4, g5, g6⟩ := freeAll_spec F v
  generalize freeAll F v = t at *
  -- which entries are freed
  have memF : ∀ d, d ∈ F ↔ (∃ c ∈ cs, after c = d ∧ c.turns = []) ∨ C ∧ d = after e := by
    intro d
    rw [hF, hmore, List.mem_append, List.mem_filter, List.mem_map]
    refine or_congr ⟨?_, ?_⟩ (by split <;> simp [*])
    · rintro ⟨⟨c, hc, rfl⟩, h⟩; exact ⟨c, hc, rfl, by simpa [afterTurns] using h⟩
    · rintro ⟨c, hc, rfl, h⟩; exact ⟨⟨c, hc, rfl⟩, by simpa [afterTurns] using h⟩
  have tentry : ∀ m, t.entry? m = if F.any (fun d => d.entry == m) then none else (s.entry? m).map after := by
    intro m
    rw [← ventry, State.entry?, g1, State.entry?, find_filter_key]
  have member : ∀ c ∈ e :: cs, c ∈ s.table := by
    intro c hc; rcases List.mem_cons.1 hc with rfl | hc; exacts [hem, ((csMem c).1 hc).1]
  have tnone : ∀ c ∈ e :: cs, (t.entry? c.entry = none ↔ after c ∈ F) := by
    intro c hc
    rw [tentry, entry?_mem hu (member c hc)]
    refine ⟨fun h => ?_, fun h => by rw [if_pos (List.any_eq_true.2 ⟨_, h, by simp [afterEntry]⟩)]⟩
    split at h
    · rename_i hany
      obtain ⟨d, hd, hde⟩ := List.any_eq_true.1 hany
      have : ∃ b ∈ e :: cs, after b = d := by
        rcases (memF d).1 hd with ⟨b, hb, rfl, -⟩ | ⟨-, rfl⟩
        exacts [⟨b, List.mem_cons_of_mem _ hb, rfl⟩, ⟨e, List.mem_cons_self .., rfl⟩]
      obtain ⟨b, hb, rfl⟩ := this
      have hbc : b = c := inj b (member b hb) c (member c hc) (by simpa [afterEntry] using hde)
      rwa [hbc] at hd
    · simp at h
  have childF : ∀ c ∈ cs, (after c ∈ F ↔ c.turns = []) := by
    intro c hc
    rw [memF]
    refine ⟨?_, fun h => .inl ⟨c, hc, rfl, h⟩⟩
    rintro (⟨b, hb, h, h'⟩ | ⟨-, h⟩)
    · rw [← afterTurns c, ← h, afterTurns, h']
    · exact absurd (by rw [← afterEntry c, h, afterEntry]) ((csMem c).1 hc).2.2.1
  have selfF : after e ∈ F ↔ C := by
    rw [memF]
    refine ⟨?_, fun h => .inr ⟨h, rfl⟩⟩
    rintro (⟨b, hb, h, -⟩ | ⟨h, -⟩)
    · exact absurd (by rw [← afterEntry b, h, afterEntry]) ((csMem b).1 hb).2.2.1
    · exact h
  have inF : ∀ d ∈ F, ∃ c ∈ e :: cs, after c = d := by
    intro d hd
    rcases (memF d).1 hd with ⟨b, hb, rfl, -⟩ | ⟨-, rfl⟩
    exacts [⟨b, List.mem_cons_of_mem _ hb, rfl⟩, ⟨e, List.mem_cons_self .., rfl⟩]
  have lanes : ∀ k, t.lane k = v.lane k := fun k => by rw [g6]; rfl
  have viewsU : u.views = s.views.filter fun x => !(e.isSpread && e.tag == x.tag) := by
    rw [r5]
    cases e.isSpread
    · simp
    · simp only [if_true, Bool.true_and]
      apply List.filter_congr; intro x _; rw [apart]
  have tagF : ∀ d ∈ F, ∃ c ∈ e :: cs, c.tag = d.tag ∧ t.entry? c.entry = none := by
    intro d hd
    obtain ⟨c, hc, rfl⟩ := inF d hd
    exact ⟨c, hc, (afterTag c).symm, (tnone c hc).2 hd⟩
  have poolCs : ∀ (L : List Stream) p, (∀ c ∈ L, c.isStation = false) →
      L.foldl (fun pool e => if e.isStation then insertBy id e.tag pool else pool) p = p := by
    intro L
    induction L with
    | nil => intro p _; rfl
    | cons c L ih =>
      intro p hL
      rw [List.foldl_cons, hL c (List.mem_cons_self ..), if_neg (by simp)]
      exact ih p fun d hd => hL d (List.mem_cons_of_mem _ hd)
  have childrenStation : ∀ d ∈ (cs.map after).filter (·.turns.isEmpty), d.isStation = false := by
    intro d hd
    obtain ⟨c, hc, rfl⟩ := List.mem_map.1 (List.mem_filter.1 hd).1
    rw [afterChild c hc]; exact csStation c hc
  have vpool : v.pool = s.pool := by rw [q8, r9]
  have tpool : t.pool = if C then (if e.isStation then insertBy id e.tag s.pool else s.pool) else s.pool := by
    rw [g3, hF, List.foldl_append, poolCs _ _ childrenStation, hmore, vpool]
    by_cases hC : C
    · rw [if_pos hC, if_pos hC, List.foldl_cons, List.foldl_nil, afterTag, afterSelf]; rfl
    · rw [if_neg hC, if_neg hC]; rfl
  have vmap : v.tagMap = s.tagMap := by rw [q8, r9]
  constructor
  case closed =>
    rw [hret]
    intro c hc d hd
    rw [tentry, entry?_mem hu (member c hc)] at hd
    split at hd
    · cases hd
    · rw [← Option.some.inj hd]
      rcases List.mem_cons.1 hc with rfl | hc
      · rw [afterSelf]; rfl
      · rw [afterChild c hc, Stream.closed, csStation c hc]; rfl
  case freed =>
    rw [hret]
    refine ⟨fun c hc hce => ?_, ?_⟩
    · rcases List.mem_cons.1 hc with rfl | hc'
      · exact absurd rfl hce
      · rw [tnone c hc, childF c hc']
    · rw [tnone e (List.mem_cons_self ..), selfF]
  case others =>
    rw [hret]
    intro m hm
    have h1 : F.any (fun d => d.entry == m) = false := by
      rw [List.any_eq_false]; intro d hd
      obtain ⟨c, hc, rfl⟩ := inF d hd
      simpa [afterEntry] using hm c hc
    rw [tentry, h1, if_neg (by simp)]
    cases hx : s.entry? m with
    | none => rfl
    | some x =>
      have hxm := entry?_number hx
      have h2 : (cs.any fun c => c.entry == x.entry) = false := by
        rw [List.any_eq_false]; intro c hc; simpa [hxm] using hm c (List.mem_cons_of_mem _ hc)
      have h3 : x.entry ≠ e.entry := by rw [hxm]; exact (hm e (List.mem_cons_self ..)).symm
      simp only [Option.map_some, after]
      rw [if_neg h3, h2, if_neg (by simp)]
  case rings =>
    rw [hret]
    intro k c
    simp only [State.ring]
    split
    · rw [lanes, q2, r2, List.filter_filter]
      apply List.filter_congr; intro m _
      rw [apart, List.any_cons, Bool.not_or, Bool.and_comm]
    · rfl
  case tags =>
    rw [hret]
    refine ⟨fun c hc h => ?_, fun tag h => ?_, fun h1 h2 => ?_, fun h => ?_⟩
    · have : t.tagMap.find? (fun p => p.1 == c.tag) = none := by
        rw [g2, find_filter_key, if_pos]
        exact List.any_eq_true.2 ⟨_, (tnone c hc).1 h, by simp [afterTag]⟩
      rw [State.lookupTag, this]; rfl
    · have hno : F.any (fun d => d.tag == tag) = false := by
        rw [List.any_eq_false]; intro d hd
        obtain ⟨c, hc, h1, h2⟩ := tagF d hd
        intro hdt
        exact h c hc (h1.trans (by simpa using hdt)) h2
      rw [State.lookupTag, g2, find_filter_key, hno, if_neg (by simp), vmap]; rfl
    · rw [tpool, if_pos (selfF.1 ((tnone e (List.mem_cons_self ..)).1 h1)), if_pos h2]
    · rw [tpool]
      rcases h with h | h
      · rw [if_neg fun hC => h ((tnone e (List.mem_cons_self ..)).2 (selfF.2 hC))]
      · simp [h]
  case address => rw [g6]; show v.stationIndex = _; rw [q8]; exact r4
  case views =>
    rw [hret, g6]; show v.views = _
    rw [q4, viewsU, List.filter_filter]
    apply List.filter_congr; intro x _
    rw [List.any_cons, Bool.not_or, Bool.and_comm]
  case channels =>
    rw [hret, g6]; show v.channels = _
    rw [q5, r6, List.filter_filter]
    apply List.filter_congr; intro x _
    rw [apart, List.any_cons, Bool.not_or, Bool.and_comm]
  case messages =>
    have endedU : cs.flatMap (fun c => u.endedFor c.tag) = cs.flatMap fun c => s.endedFor c.tag := by
      apply List.flatMap_congr; intro c hc
      simp only [State.endedFor, r6, List.filter_filter]
      congr 1
      apply List.filter_congr; intro x _
      by_cases h : x.tag = c.tag
      · have := tagNe c hc
        rw [h]; simpa using this
      · simp [h]
    have freedOnes : F.map (fun d => Message.retired d.tag) =
        (((s.retiring e).drop 1 ++ [e]).filter fun c => (t.entry? c.entry).isNone).map fun c => Message.retired c.tag := by
      have hF' : F = ((cs ++ [e]).filter fun c => (t.entry? c.entry).isNone).map after := by
        rw [hF, List.filter_append, List.map_append, hmore]
        congr 1
        · rw [List.filter_map]
          congr 1
          apply List.filter_congr; intro c hc
          rw [Bool.eq_iff_iff]
          simp only [Function.comp, List.isEmpty_iff, Option.isNone_iff_eq_none, afterTurns]
          rw [tnone c (List.mem_cons_of_mem _ hc), childF c hc]
        · have := (tnone e (List.mem_cons_self ..)).trans selfF
          by_cases hC : C
          · rw [if_pos hC, List.filter_cons_of_pos (by simpa using this.2 hC)]; rfl
          · rw [if_neg hC, List.filter_cons_of_neg (by simpa using fun h => hC (this.1 h))]; rfl
      rw [hret, List.drop_one, List.tail_cons, hF', List.map_map]
      apply List.map_congr_left; intro c _
      simp only [Function.comp, afterTag]
    have ended : ∀ tag, s.endedFor tag = (s.channels.filter fun x => x.tag == tag).map fun x => .cadenceEnded x.number tag .retired := by
      intro tag
      apply List.map_congr_left; intro x hx
      rw [beq_iff_eq.1 (List.mem_filter.1 hx).2]
    rw [g4, q6, r7, ← OrderPort.after_append, ← OrderPort.after_append, endedU, freedOnes, hret]
    simp only [OrderPort.after, ended, List.flatMap_cons, List.append_assoc]
  case lanes => intro k; rw [lanes, q3, r3]; rfl
  case build => rw [g5, q7, r8]
  case frame => rw [g6, q8, r9]

end Sys2Proof.Machine
end

