-- ==== Sys2Proof/Tests/Slice0.lean ====
section
/-! SUPPORT. The model's own tests. The values come from the worked examples and tables of the spec, named at each test; a `witness_`
theorem gives a concrete state that meets every hypothesis of the statement it names, and what the step then answers. -/

namespace Sys2Proof.Tests

open Sys2Proof Sys2Proof.Machine

set_option Elab.async false

/-! ### Small states -/

/-- The state after one command. -/
def after (i : Instr) (s : State) : State :=
  match exec i s with
  | .next t => t
  | .fault _ => s
  | .refused _ => s

/-- The state after some commands. -/
def afterAll (cs : List Instr) (s : State) : State := cs.foldl (fun s c => after c s) s

/-- A chip in READY and ACTIVE, every lane DARK. -/
def chip (p : Params) : State :=
  { State.reset with
    boot := { State.reset.boot with startup := .ready, params := p }, bus := { State.reset.bus with state := .active } }

/-- The plain chip. -/
def plain : State := chip Params.default

/-- A PENDING LIVE lane, one lead before its next plan start. -/
def liveLane (p : Params) (lmax start planNo : Nat) : Lane :=
  { Lane.reset with
    slice := sliceSub (BitVec.ofNat 24 start) p.lead, planNo := BitVec.ofNat 16 planNo,
    nextPlanStart := some (BitVec.ofNat 24 start), buildState := .pending, carrier := .present,
    sizing := some (sizingOf lmax p.planLength p.minFragment LaneParams.default.profiles),
    health := { Lane.reset.health with state := .live, enable := true, carrier := .present } }

/-- Put a lane record in place. -/
def setLane (l : LaneNo) (L : Lane) (s : State) : State := modLane l (fun _ => L) s

/-- An ADMITTED EDGE stream homed on a lane. -/
def stream (l : LaneNo) (entry tag cls quantum demand : Nat) : Stream :=
  { entry := entry, tag := tag, state := .admitted, parent := 4000, address := none, cls := cls, mode := .edge,
    quantum := quantum, deficit := 0, demand := demand, place := .home l, profiles := Vector.replicate 4 0, pollInterval := 0,
    pollCountdown := none, hold := Vector.replicate 4 none, noShow := 0, quiet := false, retry := 0, admitCountdown := none,
    turns := [], alignment := none }

/-- Enter a stream in the table, the tag map and the rings. -/
def put (s : State) (e : Stream) : State := syncRings e.entry (addEntry e s)

/-- A DATA turn list entry. -/
def dataTurn (l : LaneNo) (planNo start payload : Nat) : Turn :=
  { lane := l, planNo := BitVec.ofNat 16 planNo, kind := .data, start := BitVec.ofNat 24 start, length := 10, payload := payload,
    stale := false, channel := none }

/-- A record from its fields, most significant first (11.1). -/
def record (fields : List (Nat × Nat)) : LaneRecord :=
  BitVec.ofNat 128 (natOfBits ((fields.flatMap fun f => bitsOf f.1 f.2) ++
    List.replicate (128 - (fields.map (·.1)).sum) false))

/-- A demand record (11.1). -/
def demandRecord (kind tag amount carrying : Nat) : LaneRecord :=
  record [(3, 1), (2, kind), (14, tag), (24, amount), (24, carrying)]

/-- An outcome record (11.1). -/
def outcomeRecord (result tag start timing power : Nat) : LaneRecord :=
  record [(3, 2), (2, result), (14, tag), (24, start), (20, timing), (10, power)]

/-- A join record (11.1): address, 24 bits between, timing, power. -/
def joinRecord (address timing power : Nat) : LaneRecord := record [(3, 3), (48, address), (24, 0), (20, timing), (10, power)]

/-- A carrier record (11.1). -/
def carrierRec (present : Nat) : LaneRecord := record [(3, 4), (1, present)]

/-- Put a lane's slice number. -/
def atSlice (l : LaneNo) (n : Nat) (s : State) : State := modLane l (fun L => { L with slice := BitVec.ofNat 24 n, sub := 0 }) s

/-- The build in flight of a state, or one that is never used. -/
def theBuild (s : State) : Build := s.builder.getD (s.newBuild 0 0)

/-- Some steps of the builder. -/
def fills : Nat → State → State
  | 0, s => s
  | n + 1, s => fills n (builderNext s)

/-- A status queue with `n` messages. -/
def withMessages (n : Nat) (s : State) : State :=
  modPort (fun p => { p with statusQueue := List.replicate n (.retired 7) }) s

/-! ### The worked build of 5.11 -/

/-- Its parameters. -/
def params511 : Params := { Params.default with longTurn := 64, holdGap := 200 }

/-- A RUNNING endless channel on lane 1. -/
def channel (number tag due jitter payload : Nat) : Channel :=
  { number := number, state := .running, tag := tag, lane := 1, period := 5000, payload := payload, jitter := jitter, initial := 0,
    count := 0, endAction := .stop, firstDue := BitVec.ofNat 24 due, nextDue := some (BitVec.ofNat 24 due), openingPlan := 0,
    carried := [], finalMark := none, lastTurn := none, misses := 0, unused := 0 }

/-- The lane and its streams. -/
def s511 : State :=
  let lane := { liveLane params511 64 60000 310 with provisional := [8200, 8201] }
  let polled := fun e : Stream => { e with pollInterval := 9, pollCountdown := some 0 }
  let streams := [stream 1 0 400 3 1024 0, stream 1 1 401 3 1024 0, stream 1 2 402 3 1024 0, stream 1 3 403 3 1024 0,
    polled (stream 1 10 410 3 1024 0), polled (stream 1 11 411 1 1024 700), stream 1 20 420 5 1024 172,
    stream 1 25 425 4 2048 1500, stream 1 30 430 3 512 3000, stream 1 31 431 3 1024 400, stream 1 40 440 1 1024 5000,
    Stream.newStation 50 8200 1024 0 1 0 0, Stream.newStation 51 8201 1024 0 1 0 0]
  let s := streams.foldl put (modHealth 1 (fun h => { h with floor := 1 }) (setLane 1 lane (chip params511)))
  { s with channels := [channel 5 400 60100 10 160, channel 9 401 60100 4 80,
      { channel 12 402 64990 20 80 with carried := [59990] }, channel 20 403 62040 16 160] }

/-- The build at its start. -/
def b511 : State := after .buildStart s511

/-- The build after some of its steps. -/
def at511 (n : Nat) : State := fills n b511

/-- 5.11, first lines of the table: the carried request of channel 12 at 60,000, a miss for channel 9, channel 20 carried on. -/
theorem test_cadence_answers :
    (at511 4).channels.map (fun c => (c.number, c.misses, c.carried, c.lastTurn)) =
      [(5, 0, [], some 60100), (9, 1, [], none), (12, 0, [], some 60000), (20, 0, [62040], none)] := by decide +kernel

/-- 5.11, steps 2 to 5: two probes, the JOIN region, the minimum OPEN region, one poll. -/
theorem test_first_seven_turns :
    (theBuild (at511 10)).placed.map (fun t => (t.tag, t.offset, t.length, t.payload)) =
      [(402, 0, 8, 80), (400, 100, 12, 160), (8200, 8, 8, 0), (8201, 16, 8, 0), (16382, 24, 32, 0), (16383, 56, 16, 0),
       (410, 72, 5, 8)] := by decide +kernel

/-- 5.11, steps 6 of class 5 and 4: lengths, hold-until, deficit. -/
theorem test_long_turn_and_hold :
    ((theBuild (at511 13)).placed.drop 7).map (fun t => (t.tag, t.offset, t.length, t.payload))
      = [(420, 77, 12, 172), (425, 112, 64, 1328), (425, 376, 12, 172)] := by decide +kernel

/-- 11.2: the first words of plan 310; word 19 is beyond it. -/
theorem test_plan_words :
    let s := at511 22
    (s.planPortWord 0 = packWord [(5, 1), (2, 1), (16, 310), (24, 60000), (13, 2048), (1, 1), (3, 0)] ∧
      s.planPortWord 1 = packWord [(4, 2), (4, 2), (4, 2), (4, 2), (5, 0), (8, 17), (35, 0)] ∧
      s.planPortWord 2 = packWord [(14, 402), (3, 2), (12, 0), (13, 8), (2, 0), (16, 80), (4, 0)] ∧
      s.planPortWord 5 = packWord [(14, 16382), (3, 5), (12, 24), (13, 32), (2, 0), (16, 0), (4, 0)] ∧
      s.planPortWord 19 = 0) := by decide +kernel

/-! ### Tables and examples of the spec on one operation -/

/-- 4.2: the capacity along K = 200, T = 8, S = 24, H = 4. -/
theorem test_capacity_table :
    [4, 5, 6, 12, 13, 28, 40, 64].map (capacity Profile.default) = [0, 8, 32, 176, 200, 528, 800, 1328] := by decide +kernel

/-- R63: the largest length, and the two lengths of 4.2 at 40. -/
theorem test_slices :
    slices { k := 16, t := 16, s := 1, h := 31 } 1048575 = 3145758 ∧ slices Profile.default 800 = 40 ∧
      slices Profile.default 801 = 41 := by decide +kernel

/-- 8.5: the example of splits, weights 96, 96 and 48. -/
theorem test_splits :
    let w : NodeLane → Nat := fun n => if n = 8 then 48 else 96
    [0, 1, 8].map (splitPart w 10000 [0, 1, 8]) = [4000, 4000, 2000] ∧ [0, 1, 8].map (splitPart w 1001 [0, 1, 8]) = [401, 400, 200] ∧
      [0, 1].map (splitPart w 300 [0, 1]) = [150, 150] := by decide +kernel

/-- 8.1: three senders. -/
theorem test_three_senders :
    let field := fun (p : PeerNo) (k : Nat) => bitsOf 2 k ++ bitsOf 3 p.val
    let wins := fun own rivals => (arbitrate own (rivals.map Rival.begins)).1
    (wins (field 1 2) [field 2 2, field 5 3] = true ∧ wins (field 2 2) [field 1 2, field 5 3] = false ∧
      wins (field 5 3) [field 1 2, field 2 2] = false) := by decide +kernel

/-- R193: a register of all ones and the places 12, 5 and 0; the known check of the nine bytes "123456789" under that rule is
hexadecimal 29B1 (from outside the spec). -/
theorem test_crc : crc16 ([49, 50, 51, 52, 53, 54, 55, 56, 57].flatMap fun b : Byte => byteBits b) = 0x29B1#16 := by decide +kernel

/-- 9.5: the four evaluations of a busy lane, on the pairs. -/
theorem test_backoff_example :
    let m := HealthLimits.default
    let o := Backoff.moved m.openHigh m.openLow m.openMin
    let j := Backoff.moved m.joinHigh m.joinLow m.joinMin
    let p : Backoff := { first := 2, last := 2 }
    (o 20 p = { first := 3, last := 3 } ∧ o 9 (o 20 p) = { first := 3, last := 3 } ∧ o 1 (o 20 p) = p ∧ j 9 p = { first := 3, last := 3 } ∧
      j 0 (j 9 p) = p ∧ j 0 p = p) := by decide +kernel

/-- 9.5: the floor after each of the four builds. -/
theorem test_floor_example :
    let f := movedFloor HealthLimits.default .live
    (f (70000 / 1024) 0 = 1 ∧ f (52000 / 1024) 1 = 2 ∧ f (30000 / 1024) 2 = 2 ∧ f (15000 / 1024) 2 = 1) := by decide +kernel

/-- 11.1: an outcome record's fields, with negative offsets; a timing below -32768 is taken into range. -/
theorem test_record_fields :
    let w := outcomeRecord 2 8200 60008 (2 ^ 20 - 100) (2 ^ 10 - 5)
    (recordType w = 2 ∧ outcomeResult w = .damaged ∧ recordTag w = 8200 ∧ outcomeStart w = 60008 ∧ outcomeTiming w = -100 ∧
      outcomePower w = -5 ∧ outcomeTiming (outcomeRecord 0 0 0 (2 ^ 19) 0) = -32768) := by decide +kernel

/-- 11.1: a demand record's amount above 1,048,575 saturates, and its carrying slice. -/
theorem test_demand_fields :
    let w := demandRecord 1 77 (2 ^ 24 - 1) 81000
    (recordType w = 1 ∧ demandKind w = 1 ∧ recordTag w = 77 ∧ demandAmount w = 1048575 ∧ demandCarrying w = 81000) := by decide +kernel

/-! ### WellFormed: one ill-formed command for each check -/

theorem test_wf_entry : ¬WellFormed (.admitCountdownExpiry 4096) ∧ ¬WellFormed (.outcomeWaitExpiry 4096 0 0) ∧
    ¬WellFormed (.probeDeadline 4096) ∧ WellFormed (.probeDeadline 4095) := by decide +kernel
theorem test_wf_view : ¬WellFormed (.releaseWait 512 0) ∧ WellFormed (.releaseWait 511 0) := by decide +kernel
theorem test_wf_image : ¬WellFormed (.bootReadComplete (some [0])) ∧ WellFormed (.bootReadComplete none) := by decide +kernel
theorem test_wf_record : ¬WellFormed (.recordArrival 0 (carrierRec 1)) ∧ ¬WellFormed (.carrierRecord 0 (joinRecord 1 0 0)) := by
  decide +kernel
theorem test_wf_frame : ¬WellFormed (.frameDelivery [true]) ∧ ¬WellFormed (.frameVoided (List.replicate 39 false)) ∧
    WellFormed (.frameVoided (List.replicate 40 false)) := by decide +kernel
theorem test_wf_rivals : ¬WellFormed (.frameTransmitStart [] (List.replicate 8 (.begins (List.replicate 5 true)))) ∧
    ¬WellFormed (.frameTransmitStart [] [.begins [true]]) ∧ WellFormed (.frameTransmitStart [] [.midFrame [true]]) := by decide +kernel
theorem test_wf_admit :
    let f : AdmitFields := ⟨1, 8192, 1, 1024, 0, 0, #v[0, 0, 0, 0, 0, 0, 0, 32], #v[0, 0, 0, 0]⟩
    WellFormed (.admitOrder 0 f) ∧ ¬WellFormed (.admitOrder 0 { f with laneCount := 9 }) ∧
    ¬WellFormed (.admitOrder 0 { f with laneCount := 8 }) := by
  decide +kernel
theorem test_wf_selector : ¬WellFormed (.readStream 0 2 0) ∧ WellFormed (.readStream 0 1 0) := by decide +kernel
theorem test_wf_bad_format : ¬WellFormed (.orderBadFormat [13, 1]) ∧ ¬WellFormed (.orderBadFormat [0, 1]) ∧
    WellFormed (.orderBadFormat [13]) := by decide +kernel

/-! ### Witnesses: the queue, start-up and time -/

theorem witness_StepRunsFrontCommand :
    let s : State := { plain with pending := [.status 7 0, .take] }
    s.pending = .status 7 0 :: [.take] ∧ plain.pending = [] := by decide +kernel

/-- An image of blank fields (R197). -/
def blankImage : List Byte :=
  let body : List Byte := [0x74, 0x16] ++ List.replicate 336 0xFF
  body ++ bytesOf 2 (crc16 (body.flatMap byteBits)).toNat

set_option maxRecDepth 100000 in
/-- Blank fields take their defaults, and the boot-clamped mark stays clear (R173, R174). -/
theorem witness_BootReadListensOrHalts :
    State.reset.boot.startup = .loading ∧ imageReadable blankImage = true ∧ (bootParams blankImage).fitted[3] = true ∧
      bootParams blankImage = Params.default ∧ imageClamped blankImage = false ∧
      imageReadable (blankImage.set 339 (blankImage.getD 339 0 + 1)) = false := by decide +kernel

/-- A chip in LISTENING at the tick at which one silence limit of 20 ms has passed. -/
def listening (clash : Bool) : State :=
  withMessages 31 { State.reset with
    boot := { State.reset.boot with startup := .listening, listenStart := 7 }, nodeTime := 400007,
    bus := { State.reset.bus with clash := clash } }

theorem witness_ReadyActivatesOrMutes :
    ∀ clash, (listening clash).boot.startup = .listening ∧
      countReached (tickAdd (listening clash).boot.listenStart ((listening clash).params.silenceMs * 20000))
        (listening clash).nodeTime = true ∧ (listening clash).port.statusQueue.length < 32 ∧
      (after .ready (listening clash)).bus.state = (if clash then BusState.mute .idClash else BusState.active) ∧
      after .ready { listening clash with nodeTime := 400006 } = { listening clash with nodeTime := 400006 } := by decide +kernel

theorem witness_NodeTimeChangeAdvancesOrJumps :
    dueStep plain = none ∧ (dueStep (listening false)).isSome = true ∧
      ((after (.nodeTimeChange 64) plain).lane 2).slice = 1 ∧ ((after (.nodeTimeChange 65) plain).lane 2).sub = 1 ∧
      ¬(1 ≤ ((2147483648 : Tick) - plain.nodeTime).toNat ∧ ((2147483648 : Tick) - plain.nodeTime).toNat ≤ 2 ^ 31 - 1) ∧
      after (.nodeTimeChange 2147483648) plain = { plain with nodeTime := 2147483648 } ∧
      (after (.nodeTimeChange 400008) (listening false)).boot.startup = .ready ∧
      after (.nodeTimeChange 7) (listening false) = { listening false with nodeTime := 7 } := by decide +kernel

/-! ### Witnesses: builds and plans -/

/-- Lane 1 of 5.11, IDLE at the build point of the interval at 60,000. -/
def idle511 : State := modLane 1 (fun L => { L with buildState := .idle }) s511

theorem witness_BuildPointQueuesOrDefers :
    let s := atSlice 1 61024 b511
    (idle511.lane 1).nextPlanStart = some 60000 ∧ idle511.laneState 1 ≠ .dark ∧ (idle511.lane 1).buildState = .idle ∧
      countReached (sliceSub 60000 idle511.params.lead) (idle511.lane 1).slice = true ∧
      ((after (.buildPoint 1) idle511).lane 1).buildState = .pending ∧
      ((after (.buildPoint 1) (atSlice 1 58975 idle511)).lane 1).buildState = .idle ∧
      (s.lane 1).nextPlanStart = some 60000 ∧ (s.lane 1).buildState = .building ∧ (s.lane 1).deferred = false ∧
      countReached (sliceSub (sliceAdd 60000 s.params.planLength) s.params.lead) (s.lane 1).slice = true ∧
      ((after (.buildPoint 1) s).lane 1).deferred = true := by decide +kernel

/-- The interval of 5.11 skipped: channel 5 loses one turn, channel 12 its carried one. -/
theorem witness_CutDeadlineSkipsInterval :
    let s := atSlice 1 59872 s511
    let t := after (.cutDeadline 1) s
    (s.lane 1).buildState = .pending ∧ (s.lane 1).nextPlanStart = some 60000 ∧
      countReached (sliceSub 60000 s.params.cut) (s.lane 1).slice = true ∧ (t.lane 1).nextPlanStart = some 62048 ∧
      t.flag 1 .planSkipped = true ∧ t.channels.map (fun c => (c.number, c.misses, c.carried)) = [(5, 1, []), (9, 1, []), (12, 1, []), (20, 1, [])] ∧
      after (.cutDeadline 1) (atSlice 1 59871 s511) = atSlice 1 59871 s511 := by decide +kernel

theorem witness_BuildStartTakesEarliestLane :
    s511.builder = none ∧ s511.followUps = false ∧ s511.arbiterChoice = some 1 ∧ (s511.lane 1).nextPlanStart = some 60000 ∧
      s511.laneState 1 ≠ .ramp ∧ (theBuild b511).planNo = 310 := by decide +kernel

/-- The entry limit: 240 turns placed. -/
def full511 : State := modBuild (fun b => { b with placed := List.replicate 240 (openRegionTurn 0 16) }) b511

theorem witness_CadenceRequestPlacedOrMissed :
    let r : CadenceReq := { channel := { channel 12 402 64990 20 80 with carried := [59990] }, due := 59990, carried := true }
    let b := theBuild b511
    b511.builder = some b ∧ b511.mayEnter b 1 = true ∧ b511.nextCadence b = some r ∧ b.placed.length < 240 ∧
      b511.cadenceStream b r.channel = some (stream 1 2 402 3 1024 0) ∧
      b.gaps.findSome? (Gap.fit (dueOffset b.start r.due) r.channel.jitter (wholeTurn (b511.lane 1).table 0 r.channel.payload).1) = some 0 ∧
      full511.builder = some (theBuild full511) ∧ full511.mayEnter (theBuild full511) 1 = true ∧
      full511.nextCadence (theBuild full511) = some r ∧ (theBuild full511).placed.length ≥ 240 ∧
      (after .cadenceRequest full511).channels.map (·.misses) = [0, 0, 1, 0] := by decide +kernel

/-- A build whose free map is empty. -/
def noGaps (s : State) : State := modBuild (fun b => { b with gaps := [] }) s

theorem witness_ProbePlacedOrStepStops :
    let s := at511 4
    let b := theBuild s
    s.builder = some b ∧ s.mayEnter b 2 = true ∧ s.nextProbe b = some 8200 ∧ (s.byTag 8200).isSome = true ∧
      b.probeTotal + s.params.probeLength ≤ s.params.planLength / 4 ∧
      b.room s.params.probeLength = some { start := 8, length := 92 } ∧
      (noGaps s).mayEnter (theBuild (noGaps s)) 2 = true ∧ (noGaps s).nextProbe (theBuild (noGaps s)) = some 8200 ∧
      (theBuild (noGaps s)).room s.params.probeLength = none ∧
      (theBuild (after .probePlacement (noGaps s))).probeStopped = true := by decide +kernel

/-- R28: a PROBE placed into a list of 8 pushes the oldest entry out. -/
theorem test_probe_evicts :
    let s := modEntry 50 (fun e => { e with turns := (List.range 8).map fun k => dataTurn 1 4 k 0 }) (at511 4)
    ((after .probePlacement s).entry? 50).map (·.turns.map fun t => (t.kind, t.start.toNat)) =
      some ((List.range 7).map (fun k => (.data, k + 1)) ++ [(.probe, 60008)]) := by decide +kernel

theorem witness_JoinRegionPlacedOrTriedAgain :
    let s := at511 6
    let b := theBuild s
    s.builder = some b ∧ s.mayEnter b 3 = true ∧ (s.lane b.lane).joinCountdown = 0 ∧ b.joinTried = false ∧
      b.room s.params.joinLength = some { start := 24, length := 76 } ∧ ((after .joinRegion s).lane 1).joinCountdown = 4 ∧
      (theBuild (noGaps s)).room s.params.joinLength = none ∧
      ((after .joinRegion (noGaps s)).lane 1).joinCountdown = 0 := by decide +kernel

theorem witness_MinimumOpenPlacedOrSqueezed :
    let s := at511 7
    let b := theBuild s
    s.builder = some b ∧ s.mayEnter b 4 = true ∧ b.openTried = false ∧ s.laneState b.lane ≠ .dark ∧
      b.room s.params.omin = some { start := 56, length := 44 } ∧ (theBuild (noGaps s)).room s.params.omin = none ∧
      (after .minimumOpenRegion (noGaps s)).flag 1 .openSqueezed = true := by decide +kernel

theorem witness_PollSkippedOrPlaced :
    let s := at511 8
    let t := at511 9
    s.builder = some (theBuild s) ∧ s.mayEnter (theBuild s) 5 = true ∧ (s.nextPoll (theBuild s)).map (·.tag) = some 410 ∧
      (s.nextPoll (theBuild s)).map (fun e => (e.demand, e.listHasRoom)) = some (0, true) ∧
      (theBuild s).room 5 = some { start := 72, length := 28 } ∧ t.mayEnter (theBuild t) 5 = true ∧
      (t.nextPoll (theBuild t)).map (fun e => (e.tag, e.demand, e.quiet)) = some (411, 700, false) ∧
      (theBuild t).placed.length < 240 := by decide +kernel

/-- The first visit of 5.11, to 420 alone in its ring, and the same with 420 quiet. -/
theorem witness_VisitRotatesOrPlacesData :
    let s := at511 10
    let b := theBuild s
    let e := stream 1 20 420 5 1024 172
    let q := modEntry 20 (fun e => { e with quiet := true }) s
    s.builder = some b ∧ s.mayEnter b 6 = true ∧ s.nextVisit b = some { floor := 1, cls := 5, visits := 0 } ∧
      (s.lane b.lane).ring 4 = [20] ∧ s.entry? 20 = some e ∧ s.eligible e b.lane = true ∧
      mayPlace (min e.withQuantum e.demand) ((s.lane b.lane).table.fragment 0) e.demand = true ∧
      dataPlace (s.lane b.lane).table 0 (min e.withQuantum e.demand) (b.gaps.filterMap (Gap.after (searchFrom b e))) =
        some (77, 12, 172) ∧
      q.mayEnter b 6 = true ∧ q.nextVisit b = some { floor := 1, cls := 5, visits := 0 } ∧
      q.eligible { e with quiet := true } b.lane = false ∧ ((after .drrVisit s).lane 1).ring 4 = [] ∧
      ((after .drrVisit q).lane 1).ring 4 = [20] := by decide +kernel

theorem witness_LeftoverRegionFillsGap :
    let s := at511 19
    s.builder = some (theBuild s) ∧ s.mayEnter (theBuild s) 7 = true ∧
      ((theBuild s).room s.params.omin).isSome = true := by decide +kernel

theorem witness_CompletionQueuesPlan :
    let s := at511 21
    s.builder = some (theBuild s) ∧ s.mayEnter (theBuild s) 8 = true ∧ s.completesLate (theBuild s) = false ∧
      s.endsRamp (theBuild s) = false ∧ (after .buildCompletion s).planReady = true ∧
      ((after .buildCompletion s).lane 1).planNo = 311 := by decide +kernel

/-- The same build with unequal counts, a BASIC station with countdowns and a hold, and two views with an allowance. -/
def counted511 : State :=
  let station := { stream 1 60 600 2 512 0 with
    state := .basic, parent := 60, admitCountdown := some 1, pollInterval := 9, pollCountdown := some 5,
    hold := (Vector.replicate 4 none).set 1 (some 60400), alignment := some { Alignment.new 0 0 with maintenance := some 7 } }
  let view : View := {
    index := 0, tag := 77, entry := 3, set := [1], epoch := 4, announced := 500, claims := [],
    live := [{ lane := 1, share := 300, claimed := 0, excluded := false }], own := [{ lane := 1, pending := 10, waits := 2, sent := false }] }
  let s := put (modHealth 1 (fun h => { h with openCount := 20, joinCount := 1, damageCount := 9 }) (at511 21)) station
  modBuild (fun b => { b with marks := [1] }) { s with views := [view, { view with index := 1 }] }

/-- R168 to R170: backlog 7 lowers the floor, 20 open collisions move the open pair up and set OPEN_CROWDED alone, and 1 join collision
moves the join pair (already at its minimum) nowhere; of a DARK lane nothing is evaluated. -/
theorem witness_CompletionQueuesPlan_evaluates :
    let s := counted511
    let dark := modHealth 1 (fun h => { h with state := .dark }) s
    let h := ((after .buildCompletion s).lane 1).health
    s.builder = some (theBuild s) ∧ s.mayEnter (theBuild s) 8 = true ∧ s.completesLate (theBuild s) = false ∧
      s.endsRamp (theBuild s) = false ∧ (s.lane 1).health.floor = 1 ∧ h.floor = 0 ∧
      h.readings = { backlog := 7, openCollisions := 20, joinCollisions := 1, damage := 9, empty := 0 } ∧
      h.openPair = { first := 3, last := 3 } ∧ h.joinPair = { first := 2, last := 2 } ∧ h.flags = 512 ∧ h.openCount = 0 ∧
      (after .buildCompletion s).port.summary = true ∧ dark.mayEnter (theBuild dark) 8 = true ∧
      dark.completesLate (theBuild dark) = false ∧ dark.endsRamp (theBuild dark) = false ∧
      ((after .buildCompletion dark).lane 1).health = (dark.lane 1).health := by decide +kernel

/-- R26, R81, R124, R154: the countdowns, the hold that goes, and the release waits; nothing is announced (log 9). -/
theorem witness_CompletionQueuesPlan_countsDown :
    let s := counted511
    let t := after .buildCompletion s
    let tried := modBuild (fun b => { b with joinSet := false }) s
    (t.entry? 60).map (fun e => (e.state, e.admitCountdown, e.pollCountdown, e.hold[1])) = some (.basic, some 0, some 4, none) ∧
      ((t.entry? 60).bind (·.alignment)).bind (·.maintenance) = some 6 ∧ (t.entry? 10).map (·.pollCountdown) = some (some 9) ∧
      (s.lane 1).joinCountdown = 4 ∧ (t.lane 1).joinCountdown = 4 ∧ ((after .buildCompletion tried).lane 1).joinCountdown = 3 ∧
      t.views.map (fun v => v.own.map (·.waits)) = [[3], [0]] ∧ t.releaseDue = [(0, 1)] ∧ t.port.statusQueue = [] ∧
      t.bus = s.bus := by decide +kernel

theorem witness_TakeRemovesOfferedPlan :
    let s := at511 22
    plain.offered = none ∧ s.offered = some 1 ∧ (s.lane 1).outQueue.isSome = true ∧
      (∀ c ∈ s.channels, c.finalIn 1 310 = false) ∧ (after .take s).offered = none := by decide +kernel

/-- The lapse of plan 310 gives every payload back, clears its probes out and misses its CADENCE turns. -/
theorem witness_MarginPointLapsesPlan :
    let s := atSlice 1 59968 (at511 22)
    let t := after (.marginPoint 1) s
    (s.lane 1).outQueue.map (fun p => countReached (sliceSub p.start s.params.margin) (s.lane 1).slice) = some true ∧
      t.flag 1 .planLapsed = true ∧ (t.entry? 25).map (·.demand) = some 1500 ∧ (t.entry? 25).map (·.turns) = some [] ∧
      25 ∈ t.ring 1 4 ∧ (s.probeOut 50).isSome = true ∧ t.probeOut 50 = none ∧ (t.channel? 12).map (·.misses) = some 1 ∧
      after (.marginPoint 1) (atSlice 1 59967 (at511 22)) = atSlice 1 59967 (at511 22) := by decide +kernel

/-- At the lapse of plan 310 its turns of a CLOSING entry 25 leave the list, and the entry is FREE (R16, R37). -/
theorem test_lapse_frees_closing :
    ((after (.marginPoint 1) (modEntry 25 Stream.closed (atSlice 1 59968 (at511 22)))).entry? 25).isNone = true := by decide +kernel

/-- Channel 12 DRAINING on plan 310, whose final turn stands at 60,000. -/
def draining511 : State :=
  modChannel 12 (fun c => { c with state := .draining, finalMark := some { planNo := 310, start := 60000, due := 59990 } })
    (atSlice 1 59968 (at511 22))

/-- The lapse brings it back to RUNNING with count 1 and a miss, also when its final entry was evicted (R108). -/
theorem test_lapse_ends_draining :
    let ended := fun s : State => ((after (.marginPoint 1) s).channel? 12).map fun c => (c.state, c.count, c.misses)
    ended draining511 = some (.running, 1, 1) ∧
      ended (modEntry 2 (fun e => { e with turns := [] }) draining511) = some (.running, 1, 1) := by decide +kernel

/-- A BASIC station whose admit wait is over. -/
def waited : State :=
  withMessages 31 (put plain { stream 1 3 8200 1 1024 0 with
    state := .basic, parent := 3, address := some 5, admitCountdown := some 0, alignment := some (Alignment.new 0 0) })

theorem witness_AdmitExpiryRetiresStation :
    (waited.entry? 3).map (fun e => (e.state, e.admitCountdown)) = some (.basic, some 0) ∧ waited.port.statusQueue.length < 32 ∧
      (after (.admitCountdownExpiry 3) waited).port.statusQueue.drop 31 = [.stationLost 8200 .notAdmitted] ∧
      (after (.admitCountdownExpiry 3) waited).table = [] := by decide +kernel

/-- A stream with one turn from 1000 to 1010: it expires at 1266. -/
def inFlight : State := put (setLane 1 (liveLane Params.default 255 60000 5) plain) { stream 1 3 77 2 512 90 with turns := [dataTurn 1 4 1000 300] }

theorem witness_ExpiryRemovesEntryOnly :
    let s := atSlice 1 1266 inFlight
    let t := after (.outcomeWaitExpiry 3 1 1000) s
    (s.entry? 3).bind (fun e => e.turnAt 1 1000) = some (dataTurn 1 4 1000 300) ∧
      countReached (sliceAdd (dataTurn 1 4 1000 300).stop s.params.outcomeWait) (s.lane 1).slice = true ∧
      (t.entry? 3).map (fun e => (e.demand, e.turns)) = some (90, []) ∧
      after (.outcomeWaitExpiry 3 1 1000) (atSlice 1 1265 inFlight) = atSlice 1 1265 inFlight := by decide +kernel

/-- A PROVISIONAL station with a probe out at 1000 to 1008. -/
def probing : State :=
  put (setLane 1 (liveLane Params.default 255 60000 5) plain) { Stream.newStation 3 8200 1024 9 1 0 0 with
    alignment := some { Alignment.new 0 0 with
      attempts := 14, emptyRun := 2, probeOut := some { planNo := 4, lane := 1, start := 1000, stop := 1008 } } }

theorem witness_ProbeDeadlineCountsEmpty :
    let s := atSlice 1 1264 probing
    (s.entry? 3).map (fun e => (e.state, e.place)) = some (.provisional, .home 1) ∧
      ((s.entry? 3).bind (·.alignment)).map (fun a => (a.attempts, a.emptyRun, a.probeOut.isSome)) = some (14, 2, true) ∧
      countReached (sliceAdd 1008 s.params.outcomeWait) (s.lane 1).slice = true ∧
      (((after (.probeDeadline 3) s).entry? 3).bind (·.alignment)).map (fun a => (a.attempts, a.emptyRun, a.probeOut)) =
        some (15, 3, none) := by decide +kernel

/-! ### Witnesses: lane health -/

/-- A RAMP lane's build ready to complete, after `n` completed builds of a ramp with timeout 64. -/
def rampBuilt (n : Nat) : State :=
  fills 3 (after .buildStart (modHealth 1 (fun h => { h with state := .ramp, rampBuilds := n })
    (withMessages 31 (setLane 1 (liveLane Params.default 255 60000 5) plain))))

/-- The sixty-fourth completed build ends the ramp, the sixty-third does not; there RAMP_TIMEOUT has no effect. -/
theorem witness_RampTimeoutGoesDark :
    let s := rampBuilt 63
    let t := after .buildCompletion s
    s.builder = some (theBuild s) ∧ (theBuild s).lane = 1 ∧ s.mayEnter (theBuild s) 8 = true ∧ s.laneState 1 = .ramp ∧
      s.params.health.rampTimeout ≤ min ((s.lane 1).health.rampBuilds + 1) 255 ∧ s.completesLate (theBuild s) = false ∧
      s.port.statusQueue.length < 32 ∧ plain.builder = none ∧ t.flag 1 .rampFail = true ∧ t.laneState 1 = .dark ∧
      after (.rampTimeout 1) s = t ∧ t.port.statusQueue.drop 31 = [.laneState 1 .dark .rampTimeout] ∧
      after (.rampTimeout 1) (rampBuilt 62) = rampBuilt 62 ∧
      ((after .buildCompletion (rampBuilt 62)).lane 1).health.rampBuilds = 63 := by decide +kernel

/-- A DARK lane 2 with carrier. -/
def carried : State :=
  withMessages 31 (modLane 2 (fun L => { L with carrier := .present, health := { L.health with carrier := .present } }) plain)

theorem witness_LaneUpEnablesOrRamps :
    let muted : State := { plain with bus := { plain.bus with state := .mute .idClash } }
    carried.boot.startup = .ready ∧ carried.fittedByte 4 = none ∧ muted.fittedByte 2 = some 2 ∧ muted.boot.startup = .ready ∧
      (muted.lane 2).health.carrier = .absent ∧ muted.bus.state ≠ .active ∧ carried.fittedByte 2 = some 2 ∧
      (carried.lane 2).health.carrier = .present ∧ (carried.lane 2).health.enable = false ∧ carried.port.statusQueue.length < 32 ∧
      (after (.laneUp 9 2 0) carried).laneState 2 = .ramp ∧ ((after (.laneUp 9 2 7) carried).lane 2).health.weight = 7 := by
  decide +kernel

theorem witness_LaneDownDisablesLane :
    let s := withMessages 31 (setLane 1 (liveLane Params.default 255 60000 5) plain)
    s.boot.startup = .ready ∧ s.fittedByte 9 = none ∧ s.fittedByte 0 = some 0 ∧ s.laneState 0 = .dark ∧ s.fittedByte 1 = some 1 ∧
      s.laneState 1 ≠ .dark ∧ s.port.statusQueue.length < 32 ∧ (after (.laneDown 3 1) s).laneState 1 = .dark ∧
      (after (.carrierRecord 1 (carrierRec 1)) (after (.laneDown 3 1) s)).laneState 1 = .dark := by decide +kernel

theorem witness_BackoffPairStaysInRange :
    let b : Backoff := { first := 2, last := 10 }
    2 < 16 ∧ 2 ≤ b.first ∧ b.first ≤ b.last ∧ b.last ≤ 10 ∧ b.moved 16 2 2 16 = { first := 3, last := 10 } ∧
      b.moved 16 2 2 2 = { first := 2, last := 9 } ∧ b.moved 16 2 2 3 = b ∧ 16 ≤ 16 ∧ 2 < 15 ∧ 15 < 16 ∧
      b.moved 16 2 2 15 = b := by decide +kernel

/-! ### Witnesses: records -/

/-- Lane 1 LIVE with a FIFO. -/
def withFifo (fifo : List LaneRecord) (s : State) : State := modLane 1 (fun L => { L with fifo := fifo }) s

/-- Lane 1 LIVE. -/
def live1 : State := setLane 1 (liveLane Params.default 255 60000 5) plain

theorem witness_RecordArrivalQueuesDropsOrDiscards :
    let w := demandRecord 0 77 10 0
    let short := withFifo (List.replicate 63 w) live1
    let full := withFifo (List.replicate 64 w) live1
    recordType w ≠ 4 ∧ short.fitted 1 = true ∧ short.boot.startup = .ready ∧ short.laneState 1 ≠ .dark ∧
      (short.lane 1).fifo.length < 64 ∧ 64 ≤ (full.lane 1).fifo.length ∧ full.laneState 1 ≠ .dark ∧ live1.laneState 0 = .dark ∧
      ((after (.recordArrival 1 w) short).lane 1).fifo.length = 64 ∧ (after (.recordArrival 1 w) full).flag 1 .intakeOverrun = true := by
  decide +kernel

theorem witness_CarrierRecordRecordsChange :
    let listen := { listening false with nodeTime := 8 }
    recordType (carrierRec 1) = 4 ∧ recordType (carrierRec 0) = 4 ∧ plain.fitted 2 = true ∧ plain.boot.startup ≠ .halted ∧
      (plain.lane 2).carrier = carrierValue (carrierRec 0) ∧ (listen.lane 2).carrier ≠ carrierValue (carrierRec 1) ∧
      listen.boot.startup ≠ .ready ∧ listen.fitted 2 = true ∧ (plain.lane 2).carrier ≠ carrierValue (carrierRec 1) ∧
      plain.boot.startup = .ready ∧ plain.laneState 2 = .dark ∧ (plain.lane 2).health.enable = false := by decide +kernel

/-- The clauses of R161: a DARK lane 2 with enable on, without and with carrier, and a LIVE lane 1. -/
theorem witness_CarrierRecordRecordsChange_enabled :
    let dark := after (.laneUp 1 2 0) plain
    let live := withMessages 31 live1
    dark.laneState 2 = .dark ∧ (dark.lane 2).health.enable = true ∧ (dark.lane 2).carrier = .absent ∧
      carrierValue (carrierRec 1) = .present ∧ carrierValue (carrierRec 0) = .absent ∧
      (after (.carrierRecord 2 (carrierRec 1)) dark).port.statusQueue = [.laneState 2 .ramp .carrierFound] ∧
      (carried.lane 2).carrier = .present ∧ carried.laneState 2 = .dark ∧ carried.boot.startup = .ready ∧
      (live.lane 1).carrier = .present ∧ live.laneState 1 ≠ .dark ∧ live.port.statusQueue.length < 32 ∧
      (after (.carrierRecord 1 (carrierRec 0)) live).port.statusQueue.drop 31 = [.laneState 1 .dark .carrierLost] ∧
      ((after (.carrierRecord 1 (carrierRec 0)) live).lane 1).health.enable = true := by decide +kernel

theorem witness_EdgeReportAddsDemand :
    let w := demandRecord 0 77 1048500 0
    let s := withFifo [w] inFlight
    let e := { stream 1 3 77 2 512 90 with turns := [dataTurn 1 4 1000 300] }
    (s.lane 1).fifo = w :: [] ∧ recordType w = 1 ∧ demandKind w ≠ 3 ∧ s.byTag (recordTag w) = some e ∧ e.served = true ∧
      e.place = .home 1 ∧ e.mode = .edge ∧ e.quiet = false ∧
      ((after (.demandReport 1) s).entry? 3).map (·.demand) = some 1048575 := by decide +kernel

/-- 3.2: the LEVEL stream of the example. -/
def level : Stream :=
  { stream 1 3 77 2 512 0 with
    mode := .level,
    turns := [dataTurn 1 40 81000 1328, dataTurn 1 41 82300 512, { dataTurn 1 41 83010 8 with kind := .poll },
              dataTurn 1 41 83400 600] }

/-- 3.2: reports of 3000, 1500, and 200 carried in the first entry's turn. -/
theorem test_level_example :
    (level.levelReport 1 none 3000).demand = 560 ∧ (level.levelReport 1 none 1500).demand = 0 ∧
      (level.levelReport 1 none 1500).turns.map (·.stale) = [false, true, false, true] ∧
      ({ level with turns := (level.levelReport 1 none 1500).turns.take 3 }.levelReport 1 (some 81000) 200).demand = 200 := by
  decide +kernel

theorem witness_StrayRecordsSetStray :
    let bad := demandRecord 3 77 10 0
    let unmapped := demandRecord 0 78 10 0
    let s := inFlight
    s.laneState 1 ≠ .dark ∧ recordType bad = 1 ∧ demandKind bad = 3 ∧ s.byTag (recordTag unmapped) = none ∧
      recordType (record [(3, 0)]) = 0 ∧ recordType (record [(3, 5)]) ≥ 5 ∧
      (after (.demandReport 1) (withFifo [unmapped] s)).flag 1 .stray = true ∧
      (after (.unknownRecordType 1) (withFifo [record [(3, 7)]] s)).flag 1 .stray = true := by decide +kernel

/-- R50: a COLLIDED outcome of a turn, one that matches no entry, and one of an unmapped tag. -/
theorem witness_StrayRecordsSetStray_outcomes :
    let lands := fun w => (after (.burstOutcome 1) (withFifo [w] inFlight)).flag 1 .stray
    recordTag (outcomeRecord 3 77 1000 0 0) = 77 ∧ outcomeResult (outcomeRecord 3 77 1000 0 0) = .collided ∧
      ((inFlight.byTag 77).map fun e => e.turnAt 1 (outcomeStart (outcomeRecord 0 77 1001 0 0))) = some none ∧
      inFlight.byTag 78 = none ∧ lands (outcomeRecord 3 77 1000 0 0) = true ∧ lands (outcomeRecord 0 77 1001 0 0) = true ∧
      lands (outcomeRecord 0 78 1000 0 0) = true ∧ lands (outcomeRecord 0 77 1000 0 0) = false := by decide +kernel

theorem witness_RegionOutcomesRaiseCounts :
    let w := fun r tag => outcomeRecord r tag 0 0 0
    recordType (w 3 16383) = 2 ∧ recordTag (w 3 16383) = 16383 ∧ outcomeResult (w 3 16383) = .collided ∧
      recordTag (w 3 16382) = 16382 ∧ outcomeResult (w 2 16382) = .damaged ∧ outcomeResult (w 1 16383) = .empty ∧
      ((after (.burstOutcome 1) (withFifo [w 3 16383] live1)).lane 1).health.openCount = 1 ∧
      ((after (.burstOutcome 1) (withFifo [w 3 16382] live1)).lane 1).health.joinCount = 1 ∧
      ((after (.burstOutcome 1) (withFifo [w 2 16382] live1)).lane 1).health.damageCount = 1 := by decide +kernel

theorem witness_GoodOutcomeResolvesTurn :
    let w := outcomeRecord 0 77 1000 0 0
    let s := withFifo [w] inFlight
    let e := { stream 1 3 77 2 512 90 with turns := [dataTurn 1 4 1000 300] }
    (s.lane 1).fifo = w :: [] ∧ recordType w = 2 ∧ recordTag w < 16382 ∧ outcomeResult w = .good ∧ s.byTag (recordTag w) = some e ∧
      e.state ≠ .closing ∧ e.turnAt 1 (outcomeStart w) = some (dataTurn 1 4 1000 300) ∧
      ((after (.burstOutcome 1) s).entry? 3).map (fun e => (e.demand, e.turns)) = some (90, []) := by decide +kernel

/-- R54: a DAMAGED outcome within the retry limit gives the payload back. -/
theorem test_damaged_restores :
    let s := after (.burstOutcome 1) (withFifo [outcomeRecord 2 77 1000 0 0] inFlight)
    (s.entry? 3).map (fun e => (e.demand, e.retry)) = some (390, 1) ∧ (s.lane 1).health.damageCount = 1 := by decide +kernel

/-- The stream in flight with a no-show and a retry run, its turn of some kind and staleness, and an outcome of it. -/
def resolving (result : Nat) (noShow retry : Nat) (f : Turn → Turn) : State :=
  withFifo [outcomeRecord result 77 1000 0 0]
    (modEntry 3 (fun e => { e with noShow := noShow, retry := retry, turns := e.turns.map f }) inFlight)

/-- EMPTY below, at and past the no-show limit, of a stale entry; DAMAGED at and below the retry limit and of a POLL. -/
theorem witness_GoodOutcomeResolvesTurn_missed :
    let run := fun r n k f => after (.burstOutcome 1) (resolving r n k f)
    let seen := fun s : State => ((s.entry? 3).map fun e => [e.demand, e.noShow, e.quiet.toNat, e.pollCountdown.getD 0, e.retry,
      e.turns.length, (s.lane 1).health.emptyCount, (s.lane 1).health.damageCount]).getD []
    live1.params.noShowLimit = 4 ∧ live1.params.retryLimit = 1 ∧
      [run 1 2 0 id, run 1 3 0 id, run 1 15 0 id, run 1 3 0 fun u => { u with stale := true }].map seen =
        [[90, 3, 0, 0, 0, 0, 1, 0], [90, 4, 1, 8, 0, 0, 1, 0], [90, 15, 1, 8, 0, 0, 1, 0], [90, 3, 0, 0, 0, 0, 0, 0]] ∧
      [run 2 3 0 id, run 2 3 1 id, run 2 3 0 fun u => { u with kind := .poll }].map seen =
        [[390, 3, 0, 0, 1, 0, 0, 1], [90, 3, 0, 0, 1, 0, 0, 1], [90, 3, 0, 0, 0, 0, 0, 1]] ∧
      (run 2 3 0 id).ring 1 2 = [3] := by decide +kernel

/-- The stream in flight with a CADENCE turn of channel 5 and a STANDBY channel 6 behind it; the unused limit is 3. -/
def cadenceOutcome (result unused opening : Nat) : State :=
  let s := resolving result 2 1 fun u => { u with kind := .cadence, channel := some 5 }
  { s with
    boot := { s.boot with params := { s.boot.params with unusedLimit := 3 } },
    channels := [{ channel 5 77 70000 4 80 with unused := unused, openingPlan := BitVec.ofNat 16 opening },
      { channel 6 77 71000 4 80 with state := .standby, nextDue := none }] }

/-- A turn of plan 4: EMPTY below and at the unused limit, GOOD, DAMAGED, and of a channel opened after it. -/
theorem witness_GoodOutcomeResolvesTurn_cadence :
    let run := fun r n o => after (.burstOutcome 1) (cadenceOutcome r n o)
    let seen := fun s : State => (s.channels.map fun c => (c.number, c.state, c.unused), s.port.statusQueue)
    let both := fun n => ([(5, ChannelState.running, n), (6, ChannelState.standby, 0)], ([] : List Message))
    (cadenceOutcome 1 1 4).params.unusedLimit = 3 ∧
      [run 1 1 4, run 0 2 4, run 2 2 4, run 1 2 5].map seen = [both 2, both 0, both 2, both 2] ∧
      seen (run 1 2 4) = ([(6, .running, 0)], [.cadenceEnded 5 77 .unused]) ∧
      [run 0 2 4, run 1 2 4].map (fun s => (s.entry? 3).map fun e => (e.noShow, e.retry, e.turns)) =
        [some (0, 0, []), some (2, 1, [])] := by decide +kernel

/-- A CLOSING stream with another entry left, and without. -/
theorem witness_GoodOutcomeResolvesTurn_closing :
    let s := modEntry 3 Stream.closed (resolving 2 0 0 id)
    let more := modEntry 3 (fun e => { e with turns := e.turns ++ [dataTurn 1 5 1100 0] }) s
    (s.entry? 3).map (·.state) = some .closing ∧ (after (.burstOutcome 1) s).table = [] ∧
      (after (.burstOutcome 1) s).port.statusQueue = [.retired 77] ∧ ((after (.burstOutcome 1) s).lane 1).health.damageCount = 1 ∧
      ((after (.burstOutcome 1) more).entry? 3).map (·.turns) = some [dataTurn 1 5 1100 0] := by decide +kernel

/-- Its station with some fields of its alignment record, an entry for the probe, and a record at lane 1. -/
def probed (attempts emptyRun : Nat) (w : LaneRecord) : State :=
  withFifo [w] (modEntry 3 (fun e => { e with
    turns := [{ dataTurn 1 4 1000 0 with kind := .probe, length := 8 }],
    alignment := e.alignment.map fun a => { a with attempts := attempts, emptyRun := emptyRun } })
    (modLane 1 (fun L => { L with provisional := [8200] }) probing))

/-- The outcome of its probe with result, timing and power. -/
def probeOutcome (result timing power : Nat) : LaneRecord := outcomeRecord result 8200 1000 timing power

/-- What became of a station: the lane's corrections and messages, its state, and its counts with what is left of probe out and list. -/
def probeReport (s : State) : List Correction × List Message × Option StreamState × List Nat :=
  ((s.lane 1).corrections, s.port.statusQueue, (s.entry? 3).map (·.state),
    (((s.entry? 3).bind fun e => e.alignment.map fun a =>
      [a.attempts, a.emptyRun, a.probeOut.isSome.toNat, e.turns.length, a.maintenanceEmpty]).getD []))

/-- A correction of the station. -/
def correction (status : CorrectionStatus) (timing power : Int) : Correction :=
  { tag := 8200, status := status, timing := timing, power := power }

/-- Before the deadline nothing; an outcome that matches no probe out leaves it out; GOOD at both tolerances aligns, one past it goes on. -/
theorem witness_ProbeDeadlineCountsEmpty_good :
    let s := probed 14 2 (probeOutcome 0 64 4)
    let other := modAlignment 3 (fun a => { a with probeOut := a.probeOut.map fun p => { p with start := 999 } }) s
    ((s.byTag 8200).bind fun e => e.turnAt 1 (outcomeStart (probeOutcome 0 64 4))).map (·.kind) = some .probe ∧
      [other, s, probed 14 2 (probeOutcome 0 65 0)].map (fun s => probeReport (after (.burstOutcome 1) s)) =
        [([], [], some .provisional, [14, 2, 1, 0, 0]),
          ([correction .done (-64) (-4)], [.joined 8200 9 1], some .basic, [15, 0, 0, 0, 0]),
          ([correction .cont (-65) 0], [], some .provisional, [15, 0, 0, 0, 0])] := by decide +kernel

/-- The deadline not reached; and the list and the ring of lane 1 once aligned. -/
theorem witness_ProbeDeadlineCountsEmpty_aligned :
    let t := after (.burstOutcome 1) (probed 14 2 (probeOutcome 0 64 4))
    countReached (sliceAdd 1008 probing.params.outcomeWait) ((atSlice 1 1263 probing).lane 1).slice = false ∧
      after (.probeDeadline 3) (atSlice 1 1263 probing) = atSlice 1 1263 probing ∧ (t.lane 1).provisional = [] ∧
      t.ring 1 1 = [] := by decide +kernel

/-- The sixteenth attempt and the fourth EMPTY in a row fail the join, the EMPTY below both and the DAMAGED below its one do not. -/
theorem witness_ProbeDeadlineCountsEmpty_fails :
    let run := fun attempts empties w => probeReport (after (.burstOutcome 1) (probed attempts empties w))
    let failed := fun cause => ([correction .abort 0 0], [Message.joinFailed 9 1 cause, .retired 8200], none, [])
    [run 15 0 (probeOutcome 0 0 5), run 15 3 (probeOutcome 1 0 0), run 15 2 (probeOutcome 1 0 0), run 15 3 (probeOutcome 2 0 0),
        run 14 2 (probeOutcome 1 0 0), run 14 3 (probeOutcome 2 0 0)] =
      [failed .noConverge, failed .silent, failed .noConverge, failed .noConverge,
        ([], [], some .provisional, [15, 3, 0, 0, 0]), ([], [], some .provisional, [15, 0, 0, 0, 0])] := by decide +kernel

/-- An ADMITTED station with a count of EMPTY maintenance results. -/
def maintained (n : Nat) : State :=
  put live1 { stream 1 3 8200 1 1024 0 with
    parent := 3, address := some 5, alignment := some { Alignment.new 0 0 with maintenanceEmpty := n } }

/-- R125: GOOD at and past the tolerances, DAMAGED, and the seventh and eighth EMPTY. -/
theorem witness_ProbeDeadlineCountsEmpty_maintenance :
    let run := fun n r timing power => probeReport (applyProbe 3 r timing power (maintained n))
    let kept := fun cs n => (cs, ([] : List Message), some StreamState.admitted, [0, 0, 0, 0, n])
    [run 6 .good 64 (-4), run 6 .good 10 (-5), run 6 .damaged 0 0, run 6 .empty 0 0, run 7 .empty 0 0] =
      [kept [] 0, kept [correction .cont (-10) 5] 0, kept [] 0, kept [] 7,
        ([correction .abort 0 0], [.stationLost 8200 .silent, .retired 8200], none, [])] := by decide +kernel

/-- Lane 1 in a RAMP with `n` good probes, the bus ACTIVE with no holder. -/
def ramping (n : Nat) : State := modHealth 1 (fun h => { h with state := .ramp, goodProbes := n }) live1

/-- R162, R164: the good probe that reaches the ramp limit takes the lane LIVE, with its notice held, in the queue, owed, or not given. -/
theorem witness_ProbeDeadlineCountsEmpty_live :
    let note := Notice.lane 1 .live 64
    let bus := fun f => let s := ramping 7; reportProbe 1 { s with bus := f s.bus }
    let full := bus fun b => { b with holder := some note, queue := List.replicate 64 (.lane 2 .dark 64) }
    let seen := fun t : State => (t.laneState 1, [(t.lane 1).health.goodProbes, (t.lane 1).owed.toNat, t.bus.queue.length], t.bus.holder)
    (ramping 7).params.health.rampLimit = 8 ∧ (ramping 7).bus.state = .active ∧ reportProbe 1 live1 = live1 ∧
      [reportProbe 1 (ramping 6), reportProbe 1 (ramping 7), full, bus fun b => { b with state := .mute .idClash }].map seen =
        [(.ramp, [7, 0, 0], none), (.live, [8, 0, 0], some note), (.live, [8, 1, 64], some note), (.live, [8, 0, 0], none)] ∧
      (bus fun b => { b with holder := some note, queue := [.lane 1 .ramp 64, .lane 2 .dark 64] }).bus.queue =
        [note, .lane 2 .dark 64] ∧ full.port.statusQueue = [.laneState 1 .live .rampDone] := by decide +kernel

theorem witness_JoinArrivalMakesStationOrFails :
    let w := joinRecord 0xA1 100 5
    let s := withFifo [w] live1
    let dry := { s with pool := [] }
    (s.lane 1).fifo = w :: [] ∧ recordType w = 3 ∧ joinAddress w = 0xA1 ∧ s.lookupAddress (joinAddress w) = none ∧
      s.qualifyingTag none = some 8192 ∧ s.lowestFree = some 0 ∧ dry.qualifyingTag none = none ∧
      ((after (.joinArrival 1) s).lane 1).corrections = [{ tag := 8192, status := .cont, timing := -100, power := -5 }] ∧
      (after (.joinArrival 1) dry).port.statusQueue = [.joinFailed 0xA1 1 .noRoom] ∧
      (after (.joinArrival 1) (withMessages 32 dry)).port.overflow = true := by decide +kernel

/-! ### Witnesses: the peer bus and the views -/

/-- A chip with a LANE notice in its holder. -/
def holding : State := { plain with bus := { plain.bus with holder := some (.lane 1 .live 64) } }

/-- The same, on the bus with it. -/
def sending : State := { holding with bus := { holding.bus with sending := true } }

theorem witness_TransmitStartArbitrates :
    let idle := List.replicate 7 true
    let lane := (frameBits 5 (.lane 2 .live 255)).take 39
    holding.boot.startup = .ready ∧ holding.bus.state = .active ∧ holding.bus.holder = some (.lane 1 .live 64) ∧
      holding.bus.sending = false ∧ (holding.bus.reader.readAll idle).idle = true ∧
      (holding.bus.reader.readAll (idle.take 6)).idle = false ∧ lane.length < 24 + bodyLength (framePriority lane) ∧
      (frameBits 5 (.lane 2 .live 255)).length = 24 + bodyLength (framePriority (frameBits 5 (.lane 2 .live 255))) ∧
      (after (.frameTransmitStart idle []) holding).bus.sending = true := by
  decide +kernel

/-- R128: the 8 recessive bits of weight 255 inside a followed LANE frame are not idle, and a dominant bit in the end phase puts idle
off by 7 more bits. -/
theorem test_bus_idle :
    let start := List.replicate 7 true ++ [false]
    let frame := frameBits 5 (.lane 2 .live 255)
    let idleAfter := fun bits : List Bool => ((BusReader.counting 0).readAll bits).idle
    (idleAfter (start ++ frame.take 17) = false ∧ (frame.take 17).drop 10 = List.replicate 7 true ∧
      idleAfter (start ++ frame ++ List.replicate 6 true) = false ∧ idleAfter (start ++ frame ++ List.replicate 7 true) = true ∧
      idleAfter (start ++ frame ++ [true, false] ++ List.replicate 6 true) = false ∧
      (after (.frameTransmitStart (start ++ frame.take 17) []) holding).bus.sending = false ∧
      (after (.frameTransmitStart (start ++ frame ++ List.replicate 7 true) []) holding).bus.sending = true) := by decide +kernel

/-- 8.1: of three senders peer 2 loses to peer 1, keeps its notice and follows the frame. -/
theorem test_lost_start :
    let s := after (.frameTransmitStart (List.replicate 7 true) [.begins (bitsOf 2 0 ++ bitsOf 3 0)]) { holding with
      boot := { holding.boot with peerId := 2 } }
    (s.bus.sending = false ∧ s.bus.holder = some (.lane 1 .live 64) ∧ s.bus.reader = .following [] ∧
      (after (.frameTransmitStart (List.replicate 7 true) []) s).bus.sending = false) := by decide +kernel

/-- R129: peer 5 starts a LANE frame, 00 101, beside a station in the middle of a frame: a dominant level at its third bit makes it lose,
where a rival that began with it would have dropped out at the first; dominant levels behind the arbitration field are a clash. -/
theorem test_mid_frame_station :
    let five := { holding with boot := { holding.boot with peerId := 5 } }
    let start := fun mid : List Bool => after (.frameTransmitStart (List.replicate 7 true) [.midFrame mid]) five
    ((start [true, true, false]).bus.sending = false ∧ (start [true, false, true, false]).bus.sending = true ∧
      (start (List.replicate 5 true ++ List.replicate 5 false)).bus.sending = true ∧
      (start (List.replicate 5 true ++ List.replicate 5 false)).bus.clashSeen = true ∧
      (arbitrate [false, false, true] [.begins [true, true, false]]).1 = true ∧
      (arbitrate [false, false, true] [.midFrame [true, true, false]]).1 = false) := by decide +kernel

/-- R129: bits whose arbitration field is another's show a lost arbitration: the chip is a receiver of that frame and keeps its
notice. -/
theorem test_lost_in_frame :
    let bits := frameBits 3 (.lane 2 .live 9)
    (sending.sends bits = false ∧ (after (.frameDelivery bits) sending).bus.sending = false ∧
      (after (.frameDelivery bits) sending).bus.holder = sending.bus.holder ∧
      (after (.frameVoided (bits.take 38 ++ [false, false])) sending).bus.voidCount = 0) := by decide +kernel

theorem witness_LowestArbitrationWins :
    (Rival.begins [true, false, true] ∈ [Rival.begins [true, false, true], .midFrame [true]]) ∧
      [true, false, true].length ≥ [true, false].length ∧ readsDominant [true, false] [true] = false := by decide +kernel

/-- 11.3: the body of a LANE notice, lane 2, LIVE, weight 255, from peer 5, written out. -/
theorem test_lane_frame :
    (frameBits 5 (.lane 2 .live 255)).take 21 =
      [false, false, true, false, true] ++ [true, false] ++ [true, false] ++ List.replicate 8 true ++ List.replicate 4 false := by
  decide +kernel

theorem witness_FrameCarriesItsNotice :
    1 ≤ 255 ∧ 255 ≤ 255 ∧ 16383 < 2 ^ 14 ∧ 1048575 < 2 ^ 20 ∧
      heardNotice (frameBits 7 (.claim 16383 255 (nodeLaneOf 7 3) 1048575 4294967295)) =
        some (.claim 16383 255 (nodeLaneOf 7 3) 1048575 4294967295) := by decide +kernel

theorem witness_LaneNoticeHeardSetsDirectories :
    let s := withMessages 31 plain
    (3 : PeerNo) ≠ s.boot.peerId ∧ s.boot.startup = .ready ∧ s.port.statusQueue.length < 32 ∧
      (after (.frameDelivery (frameBits 3 (.lane 1 .live 64))) s).bus.lanes[13] = some { state := .live, weight := 64 } := by
  decide +kernel

/-- 8.5, "one view through an epoch": peer 0 with the view of stream 3100 over node lanes 0, 1 and 8. -/
def spread3100 : State :=
  let e := { stream 0 3 3100 2 8192 0 with mode := .level, place := .spread [0, 1, 8] 0 }
  let ad : Nat → Option LaneAd := fun w => some { state := .live, weight := w }
  let s := addView (View.new 0 0 e) (put (setLane 0 (liveLane Params.default 255 90000 5) live1) e)
  modBus (fun b => { b with lanes := ((b.lanes.set 0 (ad 96)).set 1 (ad 96)).set 8 (ad 48) }) s

/-- The same after DEMAND(3100, 5, 1001), heard from peer 2. -/
def epoch5 : State := after (.frameDelivery (frameBits 2 (.demand 3100 5 1001))) spread3100

/-- The same after this chip's CLAIM of 401 on node lane 0 is on the bus: its own pending is 401. -/
def claiming : State :=
  let s := modView 3100 (fun v => { v with own := v.own.map fun o => { o with pending := if o.lane = 0 then 401 else 0 } }) epoch5
  { s with bus := { s.bus with holder := some (.claim 3100 5 0 401 900), sending := true } }

/-- The row of the example: epoch and A, live lanes, excluded lanes, shares, claimed bytes, own pending, allowances. -/
def row (s : State) : List (List Nat) :=
  s.views.flatMap fun v => [[v.epoch.toNat, v.announced], v.live.map (·.lane.val),
    (v.live.filter (·.excluded)).map (·.lane.val), v.live.map (·.share), v.live.map (·.claimed), v.own.map (·.pending),
    [allowance 0 v 0, allowance 0 v 1]]

/-- 8.5: the rows of the example, each notice through the frame that carries it; the stream's rings follow its allowances. -/
theorem test_view_through_an_epoch :
    let s1 := after (.frameDelivery (frameBits 0 (.claim 3100 5 0 401 900))) claiming
    let s2 := after (.frameDelivery (frameBits 2 (.release 3100 5 8 200))) s1
    let s3 := after (.frameDelivery (frameBits 0 (.lane 1 .dark 96)))
      { s2 with bus := { s2.bus with holder := some (.lane 1 .dark 96), sending := true } }
    (row epoch5 = [[5, 1001], [0, 1, 8], [], [401, 400, 200], [0, 0, 0], [0, 0], [401, 400]] ∧
      row claiming = [[5, 1001], [0, 1, 8], [], [401, 400, 200], [0, 0, 0], [401, 0], [0, 400]] ∧
      row s1 = [[5, 1001], [0, 1, 8], [], [401, 400, 200], [401, 0, 0], [0, 0], [0, 400]] ∧
      row s2 = [[5, 1001], [0, 1, 8], [8], [501, 500, 0], [401, 0, 0], [0, 0], [100, 500]] ∧
      row s3 = [[5, 600], [0, 8], [8], [600, 0], [0, 0], [0, 0], [600, 0]] ∧
      (s3.lane 0).ring 1 = [3] ∧ (s3.lane 1).ring 1 = []) := by decide +kernel

/-- The view of 3100 with a claim list of 16, of which the second ends first. -/
def fullClaims : State :=
  modView 3100 (fun v => { v with claims := (List.range 16).map fun i =>
    { lane := 8, bytes := 1, endTick := if i = 1 then 500 else 600 } }) epoch5

theorem witness_LaneNoticeHeardSetsDirectories_views :
    (2 : PeerNo) ≠ epoch5.boot.peerId ∧ epoch5.boot.startup = .ready ∧ epoch5.directoryLive (nodeLaneOf 2 0) = true ∧
      epoch5.directoryLive (nodeLaneOf 2 1) = false ∧ (spread3100.viewOf 3100).isSome = true ∧ 3100 < 2 ^ 14 ∧ 1001 < 2 ^ 20 ∧
      (epoch5.viewOf 3100).bind (fun v => v.share? (nodeLaneOf 2 0)) =
        some { lane := 8, share := 200, claimed := 0, excluded := false } ∧
      (fullClaims.viewOf 3100).map (fun v => (v.unexpired fullClaims.nodeTime).length) = some 16 ∧
      ((after (.frameDelivery (frameBits 2 (.claim 3100 5 8 7 700))) fullClaims).viewOf 3100).map (fun v =>
        v.claims.map (·.endTick.toNat) ++ v.live.map (·.claimed)) = some (List.replicate 15 600 ++ [700, 0, 0, 7]) ∧
      row (after (.frameDelivery (frameBits 2 (.release 3100 4 8 200))) epoch5) = row epoch5 ∧
      row (after (.frameDelivery (frameBits 2 (.lane 0 .ramp 48))) epoch5) =
        [[5, 1001], [0, 1], [], [501, 500], [0, 0], [0, 0], [501, 500]] := by decide +kernel

/-- The visit of stream 3100 on lane 0, its allowance there 401, with an empty queue and with a matching CLAIM queued. -/
theorem witness_VisitRotatesOrPlacesData_spread :
    let s := fills 2 (after .buildStart epoch5)
    let q := modBus (fun b => { b with holder := some (.lane 0 .live 96), queue := [.claim 3100 5 0 100 7] }) s
    let b := theBuild s
    let t := after .drrVisit s
    s.builder = some b ∧ b.lane = 0 ∧ s.mayEnter b 6 = true ∧ s.nextVisit b = some { floor := 0, cls := 2, visits := 0 } ∧
      (s.lane 0).ring 1 = [3] ∧ ((s.entry? 3).map fun e => decide (e.entry = 3) && s.eligible e 0 && q.eligible e 0) = some true ∧
      ((s.entry? 3).map (·.place)) = some (.spread [0, 1, 8] 0) ∧ ((s.entry? 3).map (·.withQuantum)) = some 8192 ∧
      ((s.viewOf 3100).map fun v => allowance s.boot.peerId v 0) = some 401 ∧
      mayPlace (min 8192 401) ((s.lane 0).table.fragment 0) 401 = true ∧
      dataPlace (s.lane 0).table 0 (min 8192 401) (b.gaps.filterMap (Gap.after 0)) = some (48, 23, 401) ∧
      q.builder = some b ∧ q.mayEnter b 6 = true ∧ q.nextVisit b = some { floor := 0, cls := 2, visits := 0 } ∧
      row t = row claiming ∧ (theBuild t).marks = [0] ∧ ((t.entry? 3).map (·.deficit)) = some 7791 ∧
      t.bus.holder = some (.claim 3100 5 0 401 (tickOfSlice 0 (s.lane 0) (90071 + 256))) ∧
      (after .drrVisit q).bus.queue = [.claim 3100 5 0 501 (tickOfSlice 0 (s.lane 0) (90071 + 256))] := by decide +kernel

/-- The echo of a CLAIM moves 401 bytes from own pending into claimed. -/
theorem witness_EchoEndsAttempt_claim :
    claiming.boot.startup = .ready ∧ claiming.bus.state = .active ∧
      claiming.bus.holder = some (.claim 3100 5 (claiming.nodeLane 0) 401 900) ∧ claiming.bus.sending = true ∧
      claiming.bus.clashSeen = false ∧ claiming.bus.queue = [] ∧ (claiming.viewOf 3100).isSome = true ∧ 401 < 2 ^ 20 := by
  decide +kernel

theorem witness_EchoEndsAttempt :
    sending.boot.startup = .ready ∧ sending.bus.state = .active ∧ sending.bus.holder = some (.lane 1 .live 64) ∧
      sending.bus.sending = true ∧ sending.bus.clashSeen = false ∧ sending.bus.queue = [] ∧
      (after (.frameDelivery (frameBits 0 (.lane 1 .live 64))) sending).bus.holder = none := by decide +kernel

/-- A frame read back as driven, whose void slot some station drove dominant. -/
def voided : List Bool := (frameBits 0 (.lane 1 .live 64)).take 38 ++ [false, false]

/-- The frame of a rival with the same identity, read where this sender drove recessive; and a frame of another peer, discarded. -/
theorem witness_VoidedFrameRetriesOrMutes_clash :
    let rival := (frameBits 0 (.lane 0 .live 64)).take 38 ++ [false, false]
    holding.bus.sending = false ∧ frameWellFormed voided = false ∧ sending.bus.state = .active ∧ sending.bus.sending = true ∧
      readBits rival 5 = arbitration 0 (.lane 1 .live 64) ∧ sending.readBack rival = true ∧ sending.port.statusQueue.length < 32 ∧
      sending.drivesVoid (frameBits 0 (.lane 0 .live 64)) = true ∧
      (after (.frameVoided rival) sending).bus.state = .mute .idClash ∧
      after (.frameVoided voided) holding = holding := by decide +kernel

theorem witness_VoidedFrameRetriesOrMutes :
    let seven := withMessages 31 { sending with bus := { sending.bus with voidCount := 7 } }
    readBits voided 5 = arbitration 0 (.lane 1 .live 64) ∧ sending.readBack voided = false ∧ frameWellFormed voided = false ∧
    sending.bus.voidCount < 7 ∧ 7 ≤ seven.bus.voidCount ∧
      seven.readBack voided = false ∧ seven.port.statusQueue.length < 32 ∧
      (after (.frameVoided voided) sending).bus.voidCount = 1 ∧
      (after (.frameVoided voided) seven).bus.state = .mute .voidLimit := by decide +kernel

/-- Peer 3 heard at tick 5, one silence limit ago. -/
def quietPeer : State :=
  withMessages 31 { plain with
    nodeTime := 400005, bus := { plain.bus with peers := plain.bus.peers.set 3 (.present 5), lanes := plain.bus.lanes.set 13 (some { state := .live, weight := 9 }) } }

theorem witness_SilentPeerBecomesAbsent :
    quietPeer.boot.startup = .ready ∧ quietPeer.bus.peers[3] = .present 5 ∧
      countReached (tickAdd 5 (quietPeer.params.silenceMs * 20000)) quietPeer.nodeTime = true ∧
      quietPeer.port.statusQueue.length < 32 ∧ (after (.peerSilence 3) quietPeer).bus.lanes[13] = none ∧
      after (.peerSilence 3) { quietPeer with nodeTime := 400004 } = { quietPeer with nodeTime := 400004 } := by decide +kernel

/-- A chip muted at tick 5 by the void limit, two silence limits later. -/
def mutedChip : State :=
  withMessages 31 { plain with nodeTime := 800005, bus := { plain.bus with state := .mute .voidLimit, mutedAt := 5 } }

theorem witness_MuteRecoveryReactivates :
    mutedChip.bus.state = .mute .voidLimit ∧
      countReached (tickAdd mutedChip.bus.mutedAt (2 * (mutedChip.params.silenceMs * 20000))) mutedChip.nodeTime = true ∧
      mutedChip.port.statusQueue.length < 32 ∧ (after .muteRecovery mutedChip).bus.holder = some (.lane 0 .dark 64) := by
  decide +kernel

theorem witness_RefreshQueuesLaneNotice :
    let s := { plain with nodeTime := 200000 }
    s.bus.state = .active ∧ s.bus.holder = none ∧ s.bus.queue = [] ∧ s.fittedLanes ≠ [] ∧ (∀ l, (s.lane l).owed = false) ∧
      countReached (tickAdd s.bus.refreshAt (s.params.silenceMs * 20000 / 2)) s.nodeTime = true ∧
      (after .refresh s).bus.holder = some (.lane 0 .dark 64) ∧ (after .refresh s).bus.refreshNext = 1 := by decide +kernel

theorem witness_SplitIsProportional :
    ([0, 1, 8] : List NodeLane).Nodup ∧ (∃ m ∈ ([0, 1, 8] : List NodeLane), m < 1) ∧ (∀ m ∈ ([0, 1, 8] : List NodeLane), 0 ≤ m) ∧
      0 < (([0, 1, 8] : List NodeLane).map fun _ => 96).sum ∧ (2 : NodeLane) ∉ ([0, 1, 8] : List NodeLane) ∧
      spread3100.bus.lanes[8] = some { state := .live, weight := 48 } ∧ spread3100.weightOf 8 = 48 := by decide +kernel

/-- A view whose allowance on lane 1 has waited three builds. -/
def waitingView : View :=
  { index := 0, tag := 77, entry := 3, set := [1, 8], epoch := 4, announced := 500,
    live := [{ lane := 1, share := 300, claimed := 50, excluded := false }, { lane := 8, share := 200, claimed := 0, excluded := false }],
    own := [{ lane := 1, pending := 10, waits := 3, sent := false }], claims := [] }

/-- The chip that holds it, with its wait reached. -/
def releasing : State := { live1 with views := [waitingView], releaseDue := [(0, 1)] }

theorem witness_ReleaseWaitOffersRelease :
    (0, 1) ∈ releasing.releaseDue ∧ releasing.view? 0 = some waitingView ∧ releasing.viewOf 77 = some waitingView ∧
      releaseReached releasing.params releasing.boot.peerId waitingView 1 = true ∧ releasing.bus.state = .active ∧
      releasing.bus.queue.length < 64 ∧ (after (.releaseWait 0 1) releasing).bus.holder = some (.release 77 4 1 240) := by
  decide +kernel

/-! ### Witnesses: orders and replies -/

theorem witness_OrdersRefusedBeforeReady :
    State.reset.boot.startup ≠ .ready ∧ admitMalformed ⟨1, 2, 1, 64, 0, 0, #v[0, 0, 0, 0, 0, 0, 0, 0], #v[0, 0, 0, 0]⟩ = false ∧
      selectorMalformed 1 = false ∧ (after (.readPeers 5) State.reset).port.holder.bytes = [5, 2, 10, 0, 0, 0] := by decide +kernel

/-- An ADMITTED station under tag 8200, entry 0. -/
def station : State := put plain { stream 2 0 8200 1 1024 0 with parent := 0, address := some 5, alignment := some (Alignment.new 0 0) }

/-- The ADMIT of the example of 11.4: home lane 2, LEVEL, class 2, quantum 1000. -/
def admit42 : AdmitFields := ⟨2300, 8200, 130, 1000, 0, 0, #v[2, 0, 0, 0, 0, 0, 0, 0], #v[0, 0, 0, 0]⟩

theorem witness_AdmitCreatesStreamOrRefuses :
    station.boot.startup = .ready ∧ admitMalformed admit42 = false ∧ station.admitRefusal admit42 = none ∧ admit42.laneCount = 0 ∧
      station.lowestFree = some 1 ∧ station.lookupTag 2300 = none ∧
      station.admitRefusal { admit42 with parent := 8201 } = some .badParent ∧
      ((after (.admitOrder 42 admit42) station).entry? 1).map (fun e => (e.quantum, e.cls, e.mode, e.place)) =
        some (960, 2, .level, .home 2) := by decide +kernel

/-- 11.4: the two replies of the example, and the repeat. -/
theorem test_reply_example :
    let bad := after (.orderBadFormat [1, 41, 8, 252, 32, 8, 130, 3, 232, 0, 9, 2, 0, 0, 0, 0, 0, 0, 0, 0, 0, 0, 0]) station
    let good := after (.admitOrder 42 admit42) station
    (bad.port.holder.bytes = [41, 2, 11, 0, 0, 0] ∧ good.port.holder.bytes = [42, 1, 0, 0, 0, 0] ∧
      (after (.replyTransaction 48) good).port.holder.bytes = [42, 1, 0, 1, 0, 0]) := by decide +kernel

theorem witness_AmendReplacesQuantum :
    let f : AmendFields := ⟨77, 251, 0, 100, 0, #v[0, 0, 0, 0]⟩
    let e := { stream 1 3 77 2 512 90 with turns := [dataTurn 1 4 1000 300] }
    inFlight.boot.startup = .ready ∧ inFlight.byTag f.tag.toNat = some e ∧ e.state = .admitted ∧ f.keep = 251 ∧
      inFlight.byTag 78 = none ∧ ((after (.amend 1 f) inFlight).entry? 3).map (·.quantum) = some 64 := by decide +kernel

theorem witness_RetireClosesStream :
    let closing := modEntry 3 Stream.closed inFlight
    let provisional := probing
    inFlight.boot.startup = .ready ∧ inFlight.byTag 78 = none ∧ (inFlight.byTag 77).map Stream.served = some true ∧
      (closing.byTag 77).map (·.state) = some .closing ∧ (provisional.byTag 8200).map (·.state) = some .provisional ∧
      ((after (.retire 1 77) inFlight).entry? 3).map (fun e => (e.state, e.turns.length)) = some (.closing, 1) ∧
      (after (.retire 1 2300) (after (.admitOrder 42 admit42) station)).port.statusQueue = [.retired 2300] := by decide +kernel

/-- The CADENCE OPEN of channel 41 of 12.4: first due 310,000, period 2000. -/
def open41 : CadenceOpenFields := ⟨41, 77, 1, 310000, 2000, 80, 4, 10, 0⟩

theorem witness_CadenceOpenOpensChannel :
    let s := after (.cadenceOpen 1 open41) inFlight
    inFlight.boot.startup = .ready ∧ inFlight.openRefusal open41 = none ∧
      inFlight.openRefusal { open41 with channel := 512 } = some .badChannel ∧
      (s.channel? 41).map (fun c => (c.state, c.nextDue)) = some (.running, some 310000) ∧
      s.openRefusal { open41 with channel := 511 } = none ∧
      ((after (.cadenceOpen 1 { open41 with channel := 511 }) s).channel? 511).map (·.state) = some .standby := by decide +kernel

theorem witness_CadenceCloseEndsChannel :
    let one := after (.cadenceOpen 1 open41) inFlight
    let two := withMessages 31 (after (.cadenceOpen 1 { open41 with channel := 511 }) one)
    511 < (512 : BitVec 16).toNat ∧ inFlight.channel? 511 = none ∧ two.boot.startup = .ready ∧
      (two.channel? 511).map (·.state) = some .standby ∧ two.port.statusQueue.length < 32 ∧
      (after (.cadenceClose 2 41) (withMessages 0 two)).port.statusQueue = [.cadenceEnded 41 77 .closed] ∧
      ((after (.cadenceClose 2 41) two).channel? 511).map (·.state) = some .running := by decide +kernel

/-- 6.10 by a close in place of the take: channel 44, first due 200,000 and period 500, takes over from channel 30, last turn 205,300,
at a horizon of 206,144; the close of a channel with no other on its tag and lane leaves none. -/
theorem witness_CadenceCloseEndsChannel_handover :
    let c := { channel 30 512 205300 8 160 with lastTurn := some 205300 }
    let d := { channel 44 512 200000 8 160 with state := .standby, period := 500, nextDue := none }
    let s := { modLane 1 (fun L => { L with nextPlanStart := some 206144 }) live1 with channels := [c, d] }
    let t := after (.cadenceClose 2 30) s
    s.boot.startup = .ready ∧ s.channel? 30 = some c ∧ c.state = .running ∧ s.port.statusQueue.length < 32 ∧
      s.horizon 1 = some 206144 ∧ sliceAdd 200000 (13 * 500) = 206500 ∧ countBefore (206500 : Slice) 206144 = false ∧
      countAfter (206500 : Slice) 205300 = true ∧ countBefore (sliceAdd 200000 (12 * 500)) 206144 = true ∧
      t.channels = [{ d with state := .running, nextDue := some 206500 }] ∧
      (after (.cadenceClose 2 44) { s with channels := [{ d with state := .draining }] }).channels = [] := by decide +kernel

theorem witness_ReadsReportAndMoveCursor :
    let s := after (.cadenceOpen 1 open41) inFlight
    s.boot.startup = .ready ∧ (s.entry? 3).isSome = true ∧ s.lookupTag 78 = none ∧ s.port.cursor = 4095 ∧
      s.port.walkStart = true ∧ (after (.readNext 4) s).port.cursor = 3 ∧
      (∀ e ∈ s.table, (setCursor 4095 s).port.walkStart = false ∧ e.entry ≤ (setCursor 4095 s).port.cursor) ∧ s.channel? 511 = none ∧
      (s.channel? 41).isSome = true ∧ s.fittedByte 3 = some 3 ∧
      ((setCursor 2 s).table.find? fun e => decide (e.entry > 2)).map (·.entry) = some 3 ∧
      (after (.readNext 4) (setCursor 2 s)).port.cursor = 3 ∧ (after (.readNext 4) (setCursor 3 s)).port.cursor = 4095 ∧
      (after (.readNext 5) (after (.readNext 4) (setCursor 3 s))).port.cursor = 3 ∧
      (after (.readStream 4 1 9) s).port.holder.bytes = [4, 0, 0, 0, 0, 3, 0, 9, 0] := by decide +kernel

theorem witness_FetchStatusRemovesOldest :
    let s := withMessages 32 plain
    s.boot.startup = .ready ∧ s.port.statusQueue = .retired 7 :: List.replicate 31 (.retired 7) ∧ plain.port.statusQueue = [] ∧
      (after (.fetchStatus 6) s).port.holder.bytes = [6, 0, 0, 0, 0, 4, 4, 0, 7, 31] ∧
      (after (.fetchStatus 6) plain).port.holder.bytes = [6, 0, 17, 0, 0, 0] := by decide +kernel

/-- R185: the STATUS reply after reset, on peer 0 with every lane fitted by default (log 4). -/
theorem test_status_reply : (after (.status 9 0) State.reset).port.holder.bytes = [9, 0, 0, 0, 0, 9, 0, 0, 15, 0, 0, 0, 0, 0, 0] := by
  decide +kernel

theorem witness_BadFramesAndReplyTransactions :
    let s := after (.status 9 0) plain
    let r : Reply := { seq := 9, result := .done, note := .none, data := plain.statusReport }
    orderMalformed [13] = true ∧ orderMalformed [15, 4] = true ∧ s.port.holder = .unread r ∧ 8 * (6 + r.data.length) = 120 ∧
      (after (.replyTransaction 119) s).port.holder = .unread r ∧ (after (.replyTransaction 120) s).port.holder = .read r ∧
      (after (.orderBadFormat [13]) s).port.holder.bytes = [0, 2, 11, 0, 0, 0] := by decide +kernel

/-! ### Witnesses: encodings and invariants; whole commands from the spec's chapters -/

theorem witness_CapacityIsExactAndWholeTurnsFit :
    let z := sizingOf 64 2048 64 LaneParams.default.profiles
    16 ≤ (z.profile 0).k ∧ 1 ≤ (z.profile 0).s ∧ wholeTurn z 0 1500 = (64, 1328) := by decide +kernel

/-- 11.4: frames written out byte by byte, and the orders they stand for. -/
theorem test_decode_frames :
    decodeOrder [3, 5, 0x08, 0xFC] = some (.retire 5 2300) ∧ decodeOrder [6, 1, 2, 64] = some (.laneUp 1 2 64) ∧
      decodeOrder [8, 1, 1, 0x0F, 0xFF] = some (.readStream 1 1 4095) ∧ decodeOrder [11, 1, 2, 0x07, 0xFF] = some (.readLane 1 2 2047) ∧
      decodeOrder [14, 1, 1] = some (.status 1 1) ∧ decodeOrder [0, 0, 0] = some (.replyTransaction 24) ∧
      decodeOrder [9, 1, 0] = some (.orderBadFormat [9, 1, 0]) ∧
      decodeOrder [4, 1, 0, 41, 0, 77, 1, 0x04, 0xBA, 0xF0, 0, 0x07, 0xD0, 0, 80, 0, 4, 0, 10, 0] = some (.cadenceOpen 1 open41) := by
  decide +kernel

theorem witness_OrderFramesRoundTrip : WellFormed (.cadenceOpen 1 open41) ∧ (encodeOrder (.cadenceOpen 1 open41)).isSome = true := by
  decide +kernel

/-- 00, "Wrapping counts": a next due half the slice count after the plan start is not before it, so nothing is missed; one more is
before it. -/
theorem test_due_half_way :
    let at_ := fun d : Slice => missDues 60000 2048 3 { channel 5 400 60100 10 160 with nextDue := some d }
    ((at_ (60000 + 8388608)).misses = 0 ∧ (at_ (60000 + 8388609)).misses = 3 ∧
      dueOffset 60000 (60000 + 8388608) = 8388608) := by decide +kernel

/-- 6.10: the final turn of a STOP program rides in plan 310; its take ends the channel. -/
theorem test_take_ends_round :
    let s := after .take { at511 22 with channels :=
      [{ channel 5 400 60100 10 160 with state := .draining, initial := 1, finalMark := some { planNo := 310, start := 60100, due := 60100 } }] }
    (s.channels = [] ∧ s.port.statusQueue = [.cadenceEnded 5 400 .count]) := by decide +kernel

/-- 12.1, the first steps: a spread report offers DEMAND of epoch 1, and its echo splits it by weight. -/
theorem test_spread_demand :
    let e := { stream 0 3 77 2 8192 0 with mode := .level, place := .spread [0, 1, 8] 0 }
    let ad : Nat → Option LaneAd := fun w => some { state := .live, weight := w }
    let s := addView (View.new 0 0 e) (put (setLane 0 (liveLane Params.default 255 90000 5) live1) e)
    let s := modBus (fun b => { b with lanes := ((b.lanes.set 0 (ad 96)).set 1 (ad 96)).set 8 (ad 48) }) s
    let s := afterAll [.recordArrival 0 (demandRecord 0 77 10000 0), .demandReport 0] s
    let t := afterAll [.frameTransmitStart (List.replicate 7 true) [], .frameDelivery (frameBits 0 (.demand 77 1 10000))] s
    (s.bus.holder = some (.demand 77 1 10000) ∧ t.bus.holder = none ∧
      t.views.map (fun v => v.live.map (·.share)) = [[4000, 4000, 2000]] ∧ (t.lane 0).ring 1 = [3] ∧ (t.lane 1).ring 1 = [3]) := by
  decide +kernel

/-- R132: a frame of its own identity that it did not send mutes an ACTIVE chip. -/
theorem test_foreign_frame_clash :
    (after (.frameDelivery (frameBits 0 (.demand 9 0 5))) plain).bus.state = .mute .idClash := by decide +kernel

/-! ### Witnesses: the further clauses, and the safe states -/

/-- A state with a station 8300 in entry 60, the parent of every stream that is none, the tags above it in the pool, and the entry number
of each station for its address, in the station index too. -/
def kin (s : State) : State :=
  let t := put s { stream 3 60 8300 1 1024 0 with parent := 60, address := some 60, alignment := some (Alignment.new 0 0) }
  { t with
    table := t.table.map fun e => if e.isStation then { e with address := some (BitVec.ofNat 48 e.entry) } else { e with parent := 60 },
    pool := t.pool.filter fun tag => decide (8300 < tag),
    stationIndex := (t.table.filter Stream.isStation).map fun e => (BitVec.ofNat 48 e.entry, e.entry) }

/-- The safe states of the worked build, at its start and at its completion, and of the view of 8.5; one step keeps each safe. -/
theorem witness_EveryStepKeepsSafety :
    let keeps := fun (c : Instr) (s : State) =>
      s.safe && match step { s with pending := [c] } with | .next t => t.safe | .fault _ => false | .refused _ => false
    keeps .buildStart (kin s511) = true ∧ keeps .buildCompletion (kin (at511 21)) = true ∧
      keeps (.peerSilence 2) (kin { epoch5 with nodeTime := 400000 }) = true := by decide +kernel

/-- A station 8200 in entry 0 with a child 2300. -/
def family : State := after (.admitOrder 42 admit42) station

/-- Each retires in a state in which each entry is found under its tag and has its station; what a retirement leaves. -/
theorem witness_Retired :
    let t := after (.retire 1 8200) family
    family.tagsOk = true ∧ family.familiesOk = true ∧ waited.tagsOk = true ∧ waited.familiesOk = true ∧ probing.tagsOk = true ∧
      probing.familiesOk = true ∧ (family.byTag 8200).map Stream.served = some true ∧ t.table = [] ∧
      t.port.statusQueue = [.retired 2300, .retired 8200] ∧ (t.lane 2).corrections = [abortFor 8200] := by decide +kernel

theorem witness_ReadyActivatesOrMutes_notices :
    let s := listening false
    let t := after .ready s
    s.bus.clash = false ∧ s.bus.holder = none ∧ s.bus.queue = [] ∧
      (∀ l, (s.lane l).owed = false ∧ (s.lane l).health.enable = false) ∧
      t.bus.holder = some (.lane 0 .dark 64) ∧ t.bus.queue = [.lane 1 .dark 64, .lane 2 .dark 64, .lane 3 .dark 64] := by decide +kernel

/-- R105: the same build on a RAMP lane counts as past step 1 and misses every due of its interval. -/
theorem witness_BuildStartTakesEarliestLane_ramp :
    let s := modHealth 1 (fun h => { h with state := .ramp }) s511
    let t := after .buildStart s
    s.builder = none ∧ s.followUps = false ∧ s.arbiterChoice = some 1 ∧ s.laneState 1 = .ramp ∧ (theBuild t).step = 1 ∧
      t.channels.map (fun c => (c.misses, c.carried.length, c.nextDue.map (·.toNat))) =
        [(1, 0, some 65100), (1, 0, some 65100), (1, 0, some 64990), (1, 0, some 67040)] := by decide +kernel

/-- 5.11: channel 20's due at 62,040 is carried; a due before the plan start is missed; a last turn makes its channel DRAINING. -/
theorem witness_CadenceRequestPlacedOrMissed_answers :
    let late := modChannel 5 (fun c => { c with nextDue := some 59990 }) (at511 1)
    let last := modChannel 5 (fun c => { c with initial := 4, count := 1 }) (at511 1)
    let seen := fun s : State => (s.nextCadence (theBuild s)).map fun r => (r.channel.number, dueOffset 60000 r.due, r.carried)
    [at511 3, late, last].map seen = [some (20, 2040, false), some (5, -10, false), some (5, 100, false)] ∧
      (theBuild (at511 3)).gaps.findSome? (Gap.fit 2040 16 12) = none ∧ 2048 < 2040 + 16 + 12 ∧
      ((after .cadenceRequest (at511 3)).channel? 20).map (fun c => (c.carried, c.misses)) = some ([62040], 0) ∧
      ((after .cadenceRequest late).channel? 5).map (fun c => (c.misses, c.nextDue)) = some (1, some 64990) ∧
      ((after .cadenceRequest last).channel? 5).map (fun c => (c.state, c.count, c.finalMark)) =
        some (.draining, 0, some { planNo := 310, start := 60100, due := 60100 }) := by decide +kernel

/-- A poll with no gap stays due. -/
theorem witness_PollSkippedOrPlaced_noGap :
    let s := noGaps (at511 8)
    s.mayEnter (theBuild s) 5 = true ∧ (s.nextPoll (theBuild s)).map (·.entry) = some 10 ∧ (theBuild s).room 5 = none ∧
      (theBuild (after .poll s)).pollFrom = 11 ∧ ((after .poll s).entry? 10).map (·.pollCountdown) = some (some 0) := by decide +kernel

/-- One gap of 5 slices: the eligible stream 420 finds no place and takes its quantum; and the long turn of 425 sets its hold-until. -/
theorem witness_VisitRotatesOrPlacesData_unplaced :
    let s := modBuild (fun b => { b with gaps := [{ start := 77, length := 5 }] }) (at511 10)
    let e := stream 1 20 420 5 1024 172
    let t := after .drrVisit s
    s.mayEnter (theBuild s) 6 = true ∧ s.nextVisit (theBuild s) = some { floor := 1, cls := 5, visits := 0 } ∧ s.entry? 20 = some e ∧
      s.eligible e 1 = true ∧ dataPlace (s.lane 1).table 0 (min e.withQuantum 172)
        ((theBuild s).gaps.filterMap (Gap.after (searchFrom (theBuild s) e))) = none ∧
      t.entry? 20 = some { e with deficit := 1024 } ∧ t.ring 1 5 = [20] ∧
      ((at511 12).entry? 25).map (fun e => (e.hold[1], e.demand, e.deficit)) = some (some 60376, 172, 720) ∧
      (at511 12).ring 1 4 = [25] := by decide +kernel

/-- R10: the build of 5.11 completed one slice after its margin point: the plan is numbered and lapses at once. -/
theorem witness_CompletionQueuesPlan_late :
    let s := atSlice 1 59969 (at511 21)
    let t := after .buildCompletion s
    s.builder = some (theBuild s) ∧ s.mayEnter (theBuild s) 8 = true ∧ s.endsRamp (theBuild s) = false ∧
      s.completesLate (theBuild s) = true ∧ t.flag 1 .planLapsed = true ∧ (t.lane 1).outQueue = none ∧ (t.lane 1).planNo = 311 ∧
      (t.lane 1).nextPlanStart = some 62048 ∧ (t.entry? 25).map (fun e => (e.demand, e.turns)) = some (1500, []) := by decide +kernel

/-- Channel 5 DRAINING on plan 310, with a STANDBY channel behind it. -/
def roundEnds (action : EndAction) : State :=
  let c := { channel 5 400 60100 10 160 with
    state := .draining, initial := 2, endAction := action, nextDue := none, lastTurn := some 60100,
    finalMark := some { planNo := 310, start := 60100, due := 60100 } }
  { at511 22 with channels := [c, { channel 6 400 60050 10 160 with state := .standby, nextDue := none }] }

/-- R106: the take ends the round: STOP hands over, RELOAD goes on a period after the final due. -/
theorem witness_TakeRemovesOfferedPlan_rounds :
    let seen : State → List (Nat × ChannelState × Nat × Option Nat) := fun s =>
      s.channels.map fun c => (c.number, c.state, c.count, c.nextDue.map (·.toNat))
    (at511 22).offered = some 1 ∧ (at511 22).horizon 1 = some 62048 ∧ ((at511 22).lane 1).outQueue.map (·.planNo) = some 310 ∧
      (roundEnds .stop).channelsOk = true ∧ (roundEnds .reload).channelsOk = true ∧
      seen (after .take (roundEnds .stop)) = [(6, .running, 0, some 65050)] ∧
      seen (after .take (roundEnds .reload)) = [(5, .running, 2, some 65100), (6, .standby, 0, none)] ∧
      (after .take (roundEnds .reload)).port.statusQueue = [.cadenceEnded 5 400 .count] := by decide +kernel

/-- R159: on a lane already enabled a changed weight goes out in a LANE notice, the same weight does not. -/
theorem witness_LaneUpEnablesOrRamps_weight :
    let seen := fun w : Byte => let t := after (.laneUp 9 1 w) live1; (t.bus.holder, (t.lane 1).health.weight, t.laneState 1)
    live1.boot.startup = .ready ∧ live1.fittedByte 1 = some 1 ∧ (live1.lane 1).health.enable = true ∧ live1.bus.state = .active ∧
      [7, 64].map seen = [(some (.lane 1 .live 7), 7, .live), (none, 64, .live)] := by decide +kernel

/-- R38, R110, R127: the LIVE lane of 5.11 goes DARK in the middle of its build, and with its plan queued. -/
theorem witness_LaneDownDisablesLane_effects :
    let t := after (.laneDown 3 1) (at511 16)
    let u := after (.laneDown 3 1) (at511 22)
    (at511 16).tagsOk = true ∧ (at511 22).tagsOk = true ∧ (theBuild (at511 16)).lane = 1 ∧ t.builder = none ∧
      (t.entry? 25).map (fun e => (e.demand, e.turns, e.hold[1])) = some (1500, [], none) ∧
      (u.lane 1).outQueue = none ∧ (u.entry? 25).map (fun e => (e.demand, e.turns)) = some (1500, []) ∧ (u.entry? 50).isNone = true ∧
      u.channels.map (fun c => (c.misses, c.carried)) = [(1, []), (1, []), (1, []), (1, [])] ∧
      u.port.statusQueue = [.laneState 1 .dark .disabled, .joinFailed 0 1 .laneDown, .retired 8200, .joinFailed 0 1 .laneDown,
        .retired 8201] := by decide +kernel

/-- R44 to R48: a report finds the quiet mark; LEVEL reports of 3.2 join the ring and leave it; a spread one is offered as DEMAND. -/
theorem witness_EdgeReportAddsDemand_forms :
    let report := fun (amount tag : Nat) (s : State) => after (.demandReport 1) (withFifo [demandRecord 0 tag amount 0] s)
    let quiet := modEntry 3 (fun e => { e with quiet := true, noShow := 4, pollInterval := 9, pollCountdown := some 2 }) inFlight
    let leaves := put live1 { level with demand := 9, deficit := 5 }
    let t := report 3000 3100 claiming
    ((report 10 77 quiet).entry? 3).map (fun e => (e.demand, e.quiet, e.noShow, e.pollCountdown)) = some (100, false, 0, some 9) ∧
      ((report 3000 77 (put live1 level)).entry? 3).map (·.demand) = some 560 ∧ (report 3000 77 (put live1 level)).ring 1 2 = [3] ∧
      leaves.ring 1 2 = [3] ∧ ((report 1500 77 leaves).entry? 3).map (fun e => (e.demand, e.deficit)) = some (0, 0) ∧
      (report 1500 77 leaves).ring 1 2 = [] ∧ ((claiming.byTag 3100).map (·.place)) = some (.spread [0, 1, 8] 0) ∧
      claiming.nodeLane 1 ∈ ([0, 1, 8] : List NodeLane) ∧ t.bus.queue = [.demand 3100 6 2599] := by decide +kernel

/-- Every entry of the Stream Table in use. -/
def crowded : State := { live1 with table := (List.range 4096).map fun n => stream 2 n n 1 512 0 }

theorem firstUnder_none (p : Nat → Bool) : ∀ fuel start, (∀ k, k < start + fuel → p k = false) → firstUnder p fuel start = none
  | 0, _, _ => rfl
  | fuel + 1, start, h => by
    simp only [firstUnder, h start (by omega)]
    exact firstUnder_none p fuel (start + 1) fun k hk => h k (by omega)

/-- R115: with a tag free, a full Stream Table leaves no room. -/
theorem witness_JoinArrivalMakesStationOrFails_full :
    crowded.qualifyingTag none = some 8192 ∧ crowded.lowestFree = none := by
  refine ⟨by decide +kernel, firstUnder_none _ _ _ fun k hk => ?_⟩
  have h : (crowded.entry? k).isSome = true := by
    rw [Nat.zero_add] at hk
    simp only [State.entry?, crowded, List.find?_isSome, List.mem_map, List.mem_range]
    exact ⟨_, ⟨k, hk, rfl⟩, by simp [stream]⟩
  simpa using h

/-- R116: the address of the station with a child joins again on lane 1: both go, and it comes back under another tag. -/
theorem witness_JoinArrivalMakesStationOrFails_rejoin :
    let s := withFifo [joinRecord 5 100 5] { setLane 1 (liveLane Params.default 255 60000 5) family with stationIndex := [(5, 0)] }
    let t := after (.joinArrival 1) s
    s.lookupAddress (joinAddress (joinRecord 5 100 5)) = some 0 ∧ (s.entry? 0).isSome = true ∧ s.tagsOk = true ∧
      s.familiesOk = true ∧ t.port.statusQueue = [.stationLost 8200 .rejoin, .retired 2300, .retired 8200] ∧
      t.table.map (fun e => (e.entry, e.tag, e.state)) = [(0, 8192, .provisional)] ∧ t.stationIndex = [(5, 0)] ∧
      (t.lane 2).corrections = [] ∧ (t.lane 1).corrections.map (·.tag) = [8192] := by decide +kernel

/-- The next notice moves into the holder, the owed LANE notice into the place it leaves, and the directory takes the echoed one. -/
theorem witness_EchoEndsAttempt_queue :
    let s := modLane 2 (fun L => { L with owed := true }) { sending with bus := { sending.bus with queue := [.demand 9 1 5] } }
    let t := after (.frameDelivery (frameBits 0 (.lane 1 .live 64))) s
    s.bus.holder = some (.lane 1 .live 64) ∧ s.bus.queue ≠ [] ∧ (s.lane 2).owed = true ∧ t.bus.holder = some (.demand 9 1 5) ∧
      t.bus.queue = [.lane 2 .dark 64] ∧ (t.lane 2).owed = false ∧
      t.bus.lanes[1] = some { state := .live, weight := 64 } := by decide +kernel

/-- R134, R145: the eighth void of the CLAIM of 8.5 clears the view, and stream 3100 leaves the ring of lane 1. -/
theorem witness_VoidedFrameRetriesOrMutes_views :
    let s := { claiming with bus := { claiming.bus with voidCount := 7 } }
    let bits := (frameBits 0 (.claim 3100 5 0 401 900)).dropLast.dropLast ++ [false, false]
    let t := after (.frameVoided bits) s
    readBits bits 5 = arbitration 0 (.claim 3100 5 0 401 900) ∧ s.readBack bits = false ∧ frameWellFormed bits = false ∧
      row t = [[5, 1001], [], [], [], [], [0, 0], [0, 0]] ∧ s.ring 1 2 = [3] ∧ t.ring 1 2 = [] := by decide +kernel

/-- R143: peer 2 falls silent, and the view of 8.5 is re-based over the lanes that stay. -/
theorem witness_SilentPeerBecomesAbsent_rebase :
    let s := { epoch5 with nodeTime := 400000 }
    s.bus.peers[2] = .present 0 ∧ countReached (tickAdd 0 (s.params.silenceMs * 20000)) s.nodeTime = true ∧
      s.directoryLive 8 = true ∧
      row (after (.peerSilence 2) s) = [[5, 1001], [0, 1], [], [501, 500], [0, 0], [0, 0], [501, 500]] := by decide +kernel

theorem witness_MuteRecoveryReactivates_notices :
    mutedChip.bus.holder = none ∧ mutedChip.bus.queue = [] ∧ (∀ l, (mutedChip.lane l).owed = false) ∧
      (after .muteRecovery mutedChip).bus.queue = [.lane 1 .dark 64, .lane 2 .dark 64, .lane 3 .dark 64] := by decide +kernel

/-- A RELEASE declined on a muted bus. -/
theorem witness_ReleaseWaitOffersRelease_declined :
    let s := { releasing with bus := { releasing.bus with state := .mute .idClash } }
    (0, 1) ∈ s.releaseDue ∧ s.view? 0 = some waitingView ∧ s.bus.state ≠ .active ∧
      after (.releaseWait 0 1) s = { s with releaseDue := [] } := by decide +kernel

/-- The spread ADMIT over node lanes 0 and 9, and the upgrade of a BASIC station, whose profile 5 is clamped; log 32: its lane byte 9. -/
theorem witness_AdmitCreatesStreamOrRefuses_forms :
    let f := { admit42 with tag := 2301, laneCount := 2, lanes := #v[0, 9, 0, 0, 0, 0, 0, 0] }
    let g := { admit42 with tag := 8200, parent := 8200, profiles := #v[0, 5, 0, 0] }
    let t := after (.admitOrder 1 f) station
    let u := after (.admitOrder 1 g) waited
    station.admitRefusal f = none ∧ admitMalformed f = false ∧ station.lowestView = some 0 ∧ station.viewOf 2301 = none ∧
      t.views.map (fun v => (v.index, v.tag, v.set, v.own.map (·.lane))) = [(0, 2301, [0, 9], [0])] ∧
      (t.entry? 1).map (·.place) = some (.spread [0, 9] 0) ∧ waited.admitRefusal g = none ∧
      waited.admitRefusal { g with lanes := #v[9, 0, 0, 0, 0, 0, 0, 0] } = some .badLane ∧
      (u.entry? 3).map (fun e => (e.state, e.admitCountdown)) = some (.admitted, none) ∧
      (u.entry? 3).map (fun e => (e.place, e.cls, e.profiles.toList)) = some (.home 1, 2, [0, 3, 0, 0]) ∧
      u.port.holder.bytes = [1, 1, 0, 0, 0, 0] := by decide +kernel

/-- R34: every field of an AMEND at once; the class alone; and EDGE for a spread stream. -/
theorem witness_AmendReplacesQuantum_fields :
    let t := after (.amend 1 ⟨77, 0, 0x85, 1000, 6, #v[0, 5, 0, 0]⟩) inFlight
    let u := after (.amend 1 ⟨77, 0xFE, 5, 1000, 6, #v[0, 5, 0, 0]⟩) inFlight
    (t.entry? 3).map (fun e => (e.mode, e.cls, e.demand)) = some (.level, 5, 0) ∧
      (t.entry? 3).map (fun e => (e.quantum, e.pollCountdown, e.profiles.toList)) = some (960, some 6, [0, 3, 0, 0]) ∧
      inFlight.ring 1 2 = [3] ∧ t.ring 1 5 = [] ∧
      t.port.holder.bytes = [1, 1, 0, 0, 0, 0] ∧ (u.entry? 3).map (fun e => (e.mode, e.cls, e.demand)) = some (.edge, 5, 90) ∧
      u.ring 1 5 = [3] ∧ u.ring 1 2 = [] ∧
      (after (.amend 1 ⟨3100, 0xFD, 5, 1000, 6, #v[0, 5, 0, 0]⟩) spread3100).port.holder.bytes = [1, 2, 6, 0, 0, 0] := by decide +kernel

/-- R99: an opening during a build, before and after its step 1 begins, and one on a DARK lane, with the jitter clamped. -/
theorem witness_CadenceOpenOpensChannel_due :
    let o := { open41 with tag := 440, firstDue := 60000 }
    let d := { open41 with tag := 2300, lane := 2, firstDue := 7, jitter := 300 }
    let seen : CadenceOpenFields → State → Option (Option Nat × Nat × Nat) := fun f s =>
      ((after (.cadenceOpen 1 f) s).channel? 41).map fun c => (c.nextDue.map (·.toNat), c.openingPlan.toNat, c.jitter)
    (at511 2).openRefusal o = none ∧ (theBuild b511).step = 0 ∧ (theBuild (at511 2)).step = 1 ∧ family.horizon 2 = none ∧
      seen o b511 = some (some 60000, 310, 4) ∧ seen o (at511 2) = some (some 64000, 311, 4) ∧
      family.openRefusal d = none ∧ seen d family = some (some 7, 0, 255) := by decide +kernel

/-! ### Witnesses: clauses on what a command leaves undone or does besides -/

/-- R41, R175: the carrier recorded in LOADING goes at HALTED, and the later carrier records of HALTED change nothing. -/
theorem witness_BootReadListensOrHalts_halted :
    let s := after (.carrierRecord 2 (carrierRec 1)) State.reset
    let t := after (.bootReadComplete none) s
    s.boot.startup = .loading ∧ (s.lane 2).carrier = .present ∧ t.boot.startup = .halted ∧ (t.lane 2).carrier = .absent ∧
      after (.carrierRecord 2 (carrierRec 1)) t = t := by decide +kernel

/-- R110, R127, R164: lane 2 with a BASIC and an ADMITTED station and a stream homed on it, and a RUNNING channel, ramps: by LANE UP with
weight 7, and by its carrier with enable on. -/
def rampsUp (enable : Bool) : State :=
  let station := fun n tag st => { stream 2 n tag 1 1024 0 with
    state := st, parent := n, address := some (BitVec.ofNat 48 n), alignment := some { Alignment.new 0 0 with maintenance := some 5 } }
  let s := [station 3 8203 .basic, station 4 8204 .admitted, stream 2 5 77 1 1024 0].foldl put plain
  let s := modLane 2 (fun L => { L with
    carrier := if enable then .absent else .present,
    health := { L.health with enable := enable, carrier := if enable then .absent else .present } }) s
  { s with channels := [{ channel 5 77 100 4 80 with lane := 2 }, channel 6 77 100 4 80] }

theorem witness_LaneUpEnablesOrRamps_ramp :
    let seen := fun t : State => (t.laneState 2, t.bus.holder, t.table.map (fun e => (e.alignment.bind (·.maintenance))),
      t.channels.map (fun c => (c.nextDue.map (·.toNat), c.misses)))
    let after5 := fun w => (LaneState.ramp, some (Notice.lane 2 .ramp w), [some 0, some 0, none],
      [(some 5100, 0), (some 100, 0)])
    ((rampsUp false).lane 2).health.carrier = .present ∧ ((rampsUp false).lane 2).health.enable = false ∧
      ((after (.laneUp 1 2 7) (rampsUp false)).lane 2).nextPlanStart = some 1024 ∧
      seen (after (.laneUp 1 2 7) (rampsUp false)) = after5 7 := by decide +kernel


theorem witness_CarrierRecordRecordsChange_ramp :
    let s := rampsUp true
    let t := after (.carrierRecord 2 (carrierRec 1)) s
    (s.lane 2).carrier = .absent ∧ s.laneState 2 = .dark ∧ (s.lane 2).health.enable = true ∧
      (t.laneState 2, t.bus.holder) = (.ramp, some (.lane 2 .ramp 64)) ∧ t.channels.map (·.nextDue) = [some 5100, some 100] ∧
      t.table.map (fun e => (e.alignment.bind (·.maintenance))) = [some 0, some 0, none] := by decide +kernel

/-- R43: reports of a PROVISIONAL station, of stream 77 on a lane other than its home lane, of a spread stream whose set has not this
lane, and of a CLOSING stream. -/
theorem witness_StrayRecordsSetStray_reports :
    let away := put (setLane 1 (liveLane Params.default 255 60000 5) plain) (stream 2 3 77 2 512 90)
    let set := put live1 { stream 0 4 88 2 512 0 with place := .spread [0, 8] 0 }
    let run := fun tag s => after (.demandReport 1) (withFifo [demandRecord 0 tag 10 0] s)
    let seen := fun tag s => let t := run tag s; ((t.lane 1).fifo.length, t.flag 1 .stray, decide (t.table = s.table))
    (probing.byTag 8200).map (·.state) = some .provisional ∧ (away.byTag 77).map (·.place) = some (.home 2) ∧
      set.nodeLane 1 ∉ ([0, 8] : List NodeLane) ∧ (set.byTag 88).map Stream.served = some true ∧
      (seen 8200 probing, seen 77 away, seen 88 set) = ((0, true, true), (0, true, true), (0, true, true)) ∧
      seen 77 (modEntry 3 Stream.closed inFlight) = (0, false, true) := by decide +kernel

/-- R37, R56, R119: an expired PROBE entry whose probe out stands is EMPTY, another is only removed; an entry of a CLOSING stream is
removed, and the stream FREE with its last. -/
theorem witness_ExpiryRemovesEntryOnly_probe :
    let probe := { dataTurn 1 4 1000 0 with kind := .probe, length := 8 }
    let s := modEntry 3 (fun e => { e with turns := [probe] }) (atSlice 1 1264 probing)
    let other := modAlignment 3 (fun a => { a with probeOut := none }) s
    let seen := fun t : State => (probeReport (after (.outcomeWaitExpiry 3 1 1000) t)).2.2
    countReached (sliceAdd probe.stop s.params.outcomeWait) (s.lane 1).slice = true ∧
      [s, other].map seen = [(some .provisional, [15, 3, 0, 0, 0]), (some .provisional, [14, 2, 0, 0, 0])] := by decide +kernel

theorem witness_ExpiryRemovesEntryOnly_closing :
    let s := modEntry 3 Stream.closed (atSlice 1 1266 inFlight)
    let more := modEntry 3 (fun e => { e with turns := e.turns ++ [dataTurn 1 5 1100 0] }) s
    let run := after (.outcomeWaitExpiry 3 1 1000)
    (s.entry? 3).map (·.state) = some .closing ∧ ((run more).entry? 3).map (·.turns) = some [dataTurn 1 5 1100 0] ∧
      (run s).table = [] ∧ (run s).lookupTag 77 = none ∧ (run s).port.statusQueue = [.retired 77] := by decide +kernel

/-- R132: a frame of its own identity that the chip did not send, in each bus state. -/
theorem witness_LaneNoticeHeardSetsDirectories_clash :
    let bits := frameBits 0 (.lane 1 .live 64)
    let bus := fun b : BusState => { plain with bus := { plain.bus with state := b } }
    let seen := fun b => let t := after (.frameDelivery bits) (bus b); (t.bus.state, t.bus.clash, t.port.statusQueue)
    frameWellFormed bits = true ∧ frameSender bits = plain.boot.peerId ∧ plain.bus.holder = none ∧
      seen .active = (.mute .idClash, false, [.busState (some .idClash)]) ∧ seen .listenOnly = (.listenOnly, true, []) ∧
      seen (.mute .voidLimit) = (.mute .idClash, false, [.busState (some .idClash)]) ∧
      seen (.mute .idClash) = (.mute .idClash, false, []) := by decide +kernel

/-- R133, R176: in LISTENING the directories fill and no message is queued; in LOADING and in HALTED nothing is delivered. -/
theorem witness_LaneNoticeHeardSetsDirectories_listening :
    let bits := frameBits 3 (.lane 1 .live 64)
    let s := { listening false with nodeTime := 9 }
    let t := after (.frameDelivery bits) s
    let halted := after (.bootReadComplete none) State.reset
    s.boot.startup = .listening ∧ frameWellFormed bits = true ∧ frameSender bits = 3 ∧ t.port = s.port ∧
      t.bus.lanes[13] = some { state := .live, weight := 64 } ∧ t.bus.peers[3] = .present 9 ∧
      State.reset.boot.startup = .loading ∧ after (.frameDelivery bits) State.reset = State.reset ∧
      halted.boot.startup = .halted ∧ after (.frameDelivery bits) halted = halted := by decide +kernel

/-- R180, R182: an entry number past the table, a FREE entry, a mapped tag, and a lane that is not fitted. -/
theorem witness_ReadsReportAndMoveCursor_selectors :
    let s := inFlight
    (4096 : BitVec 16).toNat = 4096 ∧ s.entry? 9 = none ∧ s.lookupTag 77 = some 3 ∧ s.fittedByte 4 = none ∧
      (after (.readStream 4 1 4096) s).port.holder.bytes = [4, 2, 1, 0, 0, 0] ∧
      (after (.readStream 4 1 9) s).port.cursor = 9 ∧ (after (.readStream 4 0 77) s).port.cursor = 3 ∧
      (after (.readStream 4 0 77) s).port.holder.bytes = (after (.readStream 4 1 3) s).port.holder.bytes ∧
      (after (.readLane 4 4 0) s).port.holder.bytes = [4, 2, 7, 0, 0, 0] := by decide +kernel

/-- R178: a READ reply goes out again with its repeat mark, and an EMPTY holder as an empty reply; past the last byte the port reads
zeros. -/
theorem witness_BadFramesAndReplyTransactions_again :
    let s := after (.replyTransaction 48) (after (.laneUp 9 1 0) plain)
    let t := after (.replyTransaction 50) s
    plain.port.holder = .empty ∧ t = { s with port := { s.port with replyOut := t.port.replyOut } } ∧
      t.port.replyOut = ([9, 0, 0, 1, 0, 0] : List Byte).flatMap byteBits ++ [false, false] ∧
      (after (.replyTransaction 49) plain).port.replyOut = ([0, 3, 0, 0, 0, 0] : List Byte).flatMap byteBits ++ [false] := by
  decide +kernel

/-- R192: the fields of a word, one of them wider than its place; the words of a plan with a correction; and none offered. -/
theorem witness_TakeRemovesOfferedPlan_words :
    let f : List (Nat × Nat) := [(14, 70000), (2, 1), (14, 77), (6, 63), (28, 0)]
    let c : Correction := { tag := 8200, status := .abort, timing := -100, power := 5 }
    let s := modLane 1 (fun L => { L with outQueue := L.outQueue.map fun p => { p with corrections := [c] } }) (at511 22)
    (f.map (·.1)).sum = 64 ∧ (packWord f).toNat / 2 ^ 50 = 70000 % 2 ^ 14 ∧ plain.offered = none ∧ plain.planPortWord 0 = 0 ∧
      s.offered = some 1 ∧ s.planPortWord 2 = packWord [(14, 8200), (2, 2), (14, 2 ^ 14 - 100), (6, 5), (28, 0)] ∧
      s.planPortWord 3 = packWord [(14, 402), (3, 2), (12, 0), (13, 8), (2, 0), (16, 80), (4, 0)] ∧ s.planPortWord 20 = 0 := by
  decide +kernel

/-- R64: the premises of its clauses, at 4.2's profile. -/
theorem witness_CapacityIsExactAndWholeTurnsFit_capacity :
    let p := Profile.default
    16 ≤ p.k ∧ p.s ≤ 64 ∧ 1 ≤ p.h ∧ (40 - p.h) * p.s % (p.k + 2 * p.t) = 0 ∧
      2 * p.t < (28 - p.h) * p.s % (p.k + 2 * p.t) ∧ p.h < 28 ∧ capacity p 28 = 528 ∧ capacity p 4 = 0 := by decide +kernel

/-- R41, R161, R177: of a lane whose carrier was recorded PRESENT in LISTENING and one left at ABSENT, on entry to READY, the first is
seen with carrier and neither ramps, with a clash recorded and without. -/
theorem witness_ReadyActivatesOrMutes_carrier :
    let s := fun clash => after (.carrierRecord 2 (carrierRec 1)) (listening clash)
    let t := fun clash => after .ready (s clash)
    ∀ clash, (∀ l, ((s clash).lane l).health.enable = false) ∧ ((s clash).lane 2).carrier = .present ∧
      ((s clash).lane 2).health.carrier = .absent ∧
      allLanes.map (fun l => ((t clash).lane l).health.carrier) = [.absent, .absent, .present, .absent] ∧
      (∀ l, (t clash).laneState l = .dark) ∧
      (t clash).port.statusQueue.drop 31 = [.busState (if clash then some .idClash else none)] := by decide +kernel

/-- R148: the echo of an own CLAIM that finds the claim list full; the second claim of it ends first. -/
theorem witness_EchoEndsAttempt_claims :
    let s := { fullClaims with bus := { fullClaims.bus with holder := some (.claim 3100 5 0 401 700), sending := true } }
    let t := after (.frameDelivery (frameBits 0 (.claim 3100 5 0 401 700))) s
    s.bus.state = .active ∧ s.bus.clashSeen = false ∧ s.nodeLane 0 = 0 ∧
      (s.viewOf 3100).map (fun v => (v.unexpired s.nodeTime).length) = some 16 ∧
      (t.viewOf 3100).map (fun v => (v.claims.map (·.endTick.toNat), v.claims.getLast?)) =
        some (List.replicate 15 600 ++ [700], some { lane := 0, bytes := 401, endTick := 700 }) ∧
      (t.viewOf 3100).map (fun v => v.live.map (·.claimed)) = some [401, 0, 0] := by decide +kernel

/-- R133, R141: the peer that falls silent in LISTENING goes without a message, one tick before it stays, and so it does in HALTED. -/
theorem witness_SilentPeerBecomesAbsent_listening :
    let at_ := fun st => { quietPeer with boot := { quietPeer.boot with startup := st } }
    let t := after (.peerSilence 3) (at_ .listening)
    (at_ .listening).bus.peers[3] = .present 5 ∧ t.bus.peers[3] = .absent ∧ t.bus.lanes[13] = none ∧
      t.port = quietPeer.port ∧ after (.peerSilence 3) (at_ .halted) = at_ .halted := by decide +kernel

end Sys2Proof.Tests
end

/-! ### Burst outcomes of the regions (R51) -/

namespace Sys2Proof.Machine

/-- A lane update is known by what it makes of the lane's present record. -/
theorem modLane_congr {l : LaneNo} {f g : Lane → Lane} {s : State} (h : f (s.lane l) = g (s.lane l)) :
    modLane l f s = modLane l g s := by
  rw [modLane, modLane, h]

/-- A lane update that leaves the lane's present record as it is leaves the state as it is. -/
theorem modLane_of_fixed {l : LaneNo} {f : Lane → Lane} {s : State} (h : f (s.lane l) = s.lane l) : modLane l f s = s := by
  rw [modLane, h]
  simp [State.lane]

/-- A record of the type asked for at the head of the lane's FIFO is the one delivered. -/
theorem headRecord_of_fifo {l : LaneNo} {w : LaneRecord} {rest : List LaneRecord} {s : State} {isType : Nat → Bool}
    (hfifo : (s.lane l).fifo = w :: rest) (htype : isType (recordType w) = true) : s.headRecord l isType = some w := by
  simp [State.headRecord, hfifo, htype]

/-- Taking the head of the FIFO leaves the rest of it. -/
theorem popRecord_of_fifo {l : LaneNo} {w : LaneRecord} {rest : List LaneRecord} {s : State}
    (hfifo : (s.lane l).fifo = w :: rest) : popRecord l s = modLane l (fun L => { L with fifo := rest }) s :=
  modLane_congr (by simp [hfifo])

/-- An outcome record at the head of the FIFO is taken from it and judged. -/
theorem exec_burstOutcome_of_fifo {l : LaneNo} {w : LaneRecord} {rest : List LaneRecord} {s : State}
    (hfifo : (s.lane l).fifo = w :: rest) (htype : recordType w = 2) :
    exec (.burstOutcome l) s = .next (takeOutcome l w (modLane l (fun L => { L with fifo := rest }) s)) := by
  have hhead : s.headRecord l (· == 2) = some w := headRecord_of_fifo hfifo (by simp [htype])
  calc exec (.burstOutcome l) s = .next (burstOutcomeStep l s) := rfl
    _ = .next (takeOutcome l w (popRecord l s)) := by rw [burstOutcomeStep, hhead]
    _ = _ := by rw [popRecord_of_fifo hfifo]

/-- An outcome with tag ANY or NEWCOMER is matched against no turn list. -/
theorem takeOutcome_of_region {l : LaneNo} {w : LaneRecord} {s : State} (htag : recordTag w = 16383 ∨ recordTag w = 16382) :
    takeOutcome l w s = regionOutcome l (recordTag w) (outcomeResult w) s :=
  if_pos htag

/-- A region outcome raises at most one monitor count of its lane: the table of R51. -/
def Health.regionCount (tag : Nat) (r : BurstResult) (h : Health) : Health :=
  match r with
  | .collided =>
    if tag = Config.anyTag then { h with openCount := min (h.openCount + 1) 65535 }
    else { h with joinCount := min (h.joinCount + 1) 65535 }
  | .damaged => { h with damageCount := min (h.damageCount + 1) 65535 }
  | .good | .empty => h

/-- A region outcome touches the health of its lane alone. -/
theorem regionOutcome_eq (l : LaneNo) (tag : Nat) (r : BurstResult) (s : State) :
    regionOutcome l tag r s = modHealth l (Health.regionCount tag r) s := by
  cases r with
  | collided =>
    by_cases htag : tag = Config.anyTag
    · have hcount : Health.regionCount tag .collided = fun h => { h with openCount := min (h.openCount + 1) 65535 } :=
        funext fun _ => if_pos htag
      rw [regionOutcome, if_pos htag, hcount]; rfl
    · have hcount : Health.regionCount tag .collided = fun h => { h with joinCount := min (h.joinCount + 1) 65535 } :=
        funext fun _ => if_neg htag
      rw [regionOutcome, if_neg htag, hcount]; rfl
  | damaged => rfl
  | good => exact (modLane_of_fixed rfl).symm
  | empty => exact (modLane_of_fixed rfl).symm

/-- BURST_OUTCOME on a region outcome: the record leaves the FIFO and the lane's health takes R51's count; no other part of the
state, and so no stream, changes. -/
theorem exec_burstOutcome_of_region {l : LaneNo} {w : LaneRecord} {rest : List LaneRecord} {s : State}
    (hfifo : (s.lane l).fifo = w :: rest) (htype : recordType w = 2) (htag : recordTag w = 16383 ∨ recordTag w = 16382) :
    exec (.burstOutcome l) s = .next (modLane l (fun L => { L with
      fifo := rest, health := L.health.regionCount (recordTag w) (outcomeResult w) }) s) := by
  rw [exec_burstOutcome_of_fifo hfifo htype, takeOutcome_of_region htag, regionOutcome_eq, modHealth, modLane_modLane]

/-- Settles O33: the four rows of R51's table are the cases of `Health.regionCount`. -/
theorem regionOutcomesRaiseCounts : Obligations.RegionOutcomesRaiseCounts := by
  intro l w rest s hfifo htype
  have hstep := exec_burstOutcome_of_region hfifo htype
  refine ⟨fun htag hres => ?anyCollided, fun htag hres => ?newcomerCollided, fun htag hres => ?damaged, fun htag hres => ?noEffect⟩
  case anyCollided => rw [hstep (.inl htag), htag, hres]; rfl
  case newcomerCollided => rw [hstep (.inr htag), htag, hres]; rfl
  case damaged => rw [hstep htag, hres]; rfl
  case noEffect =>
    rw [hstep htag]
    obtain hgood | hempty := hres
    · rw [hgood]; rfl
    · rw [hempty]; rfl

end Sys2Proof.Machine

/-! ### Turn arithmetic (R63, R64, R67, R70) -/

namespace Sys2Proof.Machine

/-- Rounding up is adjoint to multiplication. -/
theorem ceilDiv_le_iff {x y j : Nat} (hy : 0 < y) : ceilDiv x y ≤ j ↔ x ≤ j * y := by
  rw [ceilDiv, Nat.div_le_iff_le_mul_add_pred hy, Nat.mul_comm j y]
  omega

/-- The coded bytes of `n` data bytes: each codeword begun carries its whole parity (R63). -/
def codedBytes (p : Profile) (n : Nat) : Nat := n + 2 * p.t * ceilDiv n p.k

/-- The data bytes that `coded` coded bytes hold: those of the full codewords, and of what is left over the part beyond a last
codeword's parity (R64). -/
def dataBytes (p : Profile) (coded : Nat) : Nat :=
  coded / (p.k + 2 * p.t) * p.k + (coded % (p.k + 2 * p.t) - 2 * p.t)

/-- Data bytes round up to slices through their coded bytes. -/
theorem slices_eq (p : Profile) (n : Nat) : slices p n = p.h + ceilDiv (codedBytes p n) p.s := rfl

theorem capacity_of_le {p : Profile} {len : Nat} (hlen : len ≤ p.h) : capacity p len = 0 := if_pos hlen

theorem capacity_of_lt {p : Profile} {len : Nat} (hlen : p.h < len) :
    capacity p len = dataBytes p ((len - p.h) * p.s) := by
  rw [capacity, if_neg (Nat.not_le.2 hlen), dataBytes, Nat.mod_eq_sub_div_mul]

/-- Parity only takes room: there are no more data bytes than coded ones. -/
theorem dataBytes_le (p : Profile) (coded : Nat) : dataBytes p coded ≤ coded := by
  have hsplit := Nat.div_add_mod' coded (p.k + 2 * p.t)
  have hdata := Nat.mul_le_mul_left (coded / (p.k + 2 * p.t)) (Nat.le_add_right p.k (2 * p.t))
  rw [dataBytes]
  omega

theorem capacity_le_coded (p : Profile) (len : Nat) : capacity p len ≤ (len - p.h) * p.s := by
  rcases Nat.lt_or_ge p.h len with hlen | hlen
  · rw [capacity_of_lt hlen]
    exact dataBytes_le p _
  · rw [capacity_of_le hlen]
    exact Nat.zero_le _

/-- R64 for coded bytes, by comparing the codewords the data begins with the `q` full ones that fit: up to `q` all fit, `q + 1` fit
when the short last one fits in what is left over, and more never fit. -/
theorem codedBytes_le_iff {p : Profile} {n coded : Nat} (hk : 0 < p.k) : codedBytes p n ≤ coded ↔ n ≤ dataBytes p coded := by
  have hsplit := Nat.div_add_mod' coded (p.k + 2 * p.t)
  have hleft := Nat.mod_lt coded (show 0 < p.k + 2 * p.t by omega)
  rw [codedBytes, dataBytes]
  generalize coded / (p.k + 2 * p.t) = q at *
  generalize coded % (p.k + 2 * p.t) = left at *
  generalize 2 * p.t = parity at *
  have hbegun (j : Nat) : ceilDiv n p.k ≤ j ↔ n ≤ j * p.k := ceilDiv_le_iff hk
  have hwhole := Nat.mul_add q p.k parity
  have hnext := Nat.add_one_mul q p.k
  rcases Nat.lt_trichotomy (ceilDiv n p.k) (q + 1) with hfit | hshort | hmore
  · have hn : n ≤ q * p.k := (hbegun q).1 (by omega)
    have hparity : parity * ceilDiv n p.k ≤ q * parity := by
      rw [Nat.mul_comm]; exact Nat.mul_le_mul_right _ (by omega)
    omega
  · have hn : q * p.k < n := Nat.lt_of_not_le fun h => by have := (hbegun q).2 h; omega
    have hparity : parity * ceilDiv n p.k = q * parity + parity := by rw [hshort, Nat.mul_comm, Nat.add_one_mul]
    omega
  · have hn : (q + 1) * p.k < n := Nat.lt_of_not_le fun h => by have := (hbegun (q + 1)).2 h; omega
    have hparity : q * parity + parity ≤ parity * ceilDiv n p.k := by
      rw [← Nat.add_one_mul, Nat.mul_comm]; exact Nat.mul_le_mul_left _ hmore.le
    omega

/-- R64: the capacity is exact in both directions. -/
theorem slices_le_iff {p : Profile} {n len : Nat} (hk : 0 < p.k) (hs : 0 < p.s) (hn : 0 < n) :
    slices p n ≤ len ↔ n ≤ capacity p len := by
  have hroom (room : Nat) : ceilDiv (codedBytes p n) p.s ≤ room ↔ n ≤ dataBytes p (room * p.s) :=
    (ceilDiv_le_iff hs).trans (codedBytes_le_iff hk)
  rcases Nat.lt_or_ge p.h len with hlen | hlen
  · rw [slices_eq, capacity_of_lt hlen, ← hroom]
    omega
  · have hpos : ¬ ceilDiv (codedBytes p n) p.s ≤ 0 := by
      rw [hroom, Nat.zero_mul]
      have := dataBytes_le p 0
      omega
    rw [slices_eq, capacity_of_le hlen]
    omega

/-- R64's bound: Lmax is at most 1023 and a slice carries at most 64 coded bytes, one slice at least being overhead. -/
theorem coded_le_65408 {p : Profile} {len : Nat} (hs : p.s ≤ 64) (hh : 1 ≤ p.h) (hlen : len ≤ 1023) :
    (len - p.h) * p.s ≤ 65408 :=
  calc (len - p.h) * p.s ≤ 1022 * 64 := Nat.mul_le_mul (by omega) hs
    _ = 65408 := rfl

theorem wholeTurn_of_le {z : Sizing} {i n : Nat} (hfit : slices (z.profile i) n ≤ z.lmax) :
    wholeTurn z i n = (slices (z.profile i) n, n) :=
  if_pos hfit

theorem wholeTurn_of_not_le {z : Sizing} {i n : Nat} (hfit : ¬ slices (z.profile i) n ≤ z.lmax) :
    wholeTurn z i n = (z.lmax, capacity (z.profile i) z.lmax) :=
  if_neg hfit

/-- R67, R70: a whole turn keeps within Lmax, the amount and the capacity of its length. The clamp takes less than the amount
because the amount's own length exceeds Lmax. -/
theorem wholeTurn_bounds {z : Sizing} {i n : Nat} (hk : 0 < (z.profile i).k) (hs : 0 < (z.profile i).s) (hn : 0 < n) :
    (wholeTurn z i n).1 ≤ z.lmax ∧ (wholeTurn z i n).2 ≤ n ∧
      (wholeTurn z i n).2 ≤ capacity (z.profile i) (wholeTurn z i n).1 := by
  by_cases hfit : slices (z.profile i) n ≤ z.lmax
  · rw [wholeTurn_of_le hfit]
    exact ⟨hfit, le_rfl, (slices_le_iff hk hs hn).1 le_rfl⟩
  · rw [wholeTurn_of_not_le hfit]
    have hclamped : capacity (z.profile i) z.lmax < n := Nat.lt_of_not_le fun h => hfit ((slices_le_iff hk hs hn).2 h)
    exact ⟨le_rfl, hclamped.le, le_rfl⟩

/-- Settles O57: exactness is `slices_le_iff`, by counting the codewords begun; a whole turn fits by it. -/
theorem capacityIsExactAndWholeTurnsFit : Obligations.CapacityIsExactAndWholeTurnsFit := by
  refine ⟨fun p len => ⟨capacity_of_le, capacity_of_lt, fun hk _ => ?short, fun hs hh hlen => ?bound⟩, ?exact, ?turn⟩
  case short =>
    have hleft := Nat.mod_lt ((len - p.h) * p.s) (show 0 < p.k + 2 * p.t by omega)
    omega
  case bound =>
    have hcoded := coded_le_65408 hs hh hlen
    exact ⟨hcoded, (capacity_le_coded p len).trans hcoded⟩
  case exact => exact fun p n len hk hs hn => slices_le_iff (by omega) hs hn
  case turn => exact fun z i n hk hs hn => wholeTurn_bounds (by omega) hs hn

end Sys2Proof.Machine

section
/-! PROOF. The queue, reset, the boot read and node time (O1, O2, O3, O4, O6, O7). -/

namespace Sys2Proof.Machine

/-! ### The queue -/

/-- Settles O1, by the two branches of `step`. -/
theorem stepRunsFrontCommand : Obligations.StepRunsFrontCommand := by
  intro s
  constructor
  · intro c rest h
    simp [step, h]
  · intro h
    simp [step, h]

/-! ### Full reset -/

@[simp] theorem resetFor_lane (p : PeerNo) (now : Tick) (l : LaneNo) : (State.resetFor p now).lane l = Lane.reset := by
  simp [State.lane, State.resetFor]

theorem Lane.reset_ring (i : Fin 6) : Lane.reset.ring i = [] := by
  simp [Lane.ring, Lane.reset]

theorem Bus.reset_self (p : PeerNo) : (Bus.reset p).peers[p.val] = .self := by simp [Bus.reset]

theorem Bus.reset_peer {p q : PeerNo} (h : q ≠ p) : (Bus.reset p).peers[q.val] = .absent := by
  have hv : p.val ≠ q.val := fun e => h (Fin.ext e.symm)
  simp [Bus.reset, hv]

theorem Bus.reset_lane (p : PeerNo) (n : NodeLane) : (Bus.reset p).lanes[n.val] = none := by simp [Bus.reset]

theorem resetFor_ring (p : PeerNo) (now : Tick) (l : LaneNo) (c : Nat) : (State.resetFor p now).ring l c = [] := by
  unfold State.ring
  cases ringIndex c with
  | none => rfl
  | some i => simp [Lane.reset_ring]

/-- Settles O2: the reset state is `State.resetFor`, whose lanes are all `Lane.reset`. -/
theorem fullResetLeavesResetValues : Obligations.FullResetLeavesResetValues := by
  intro p s
  have hlane : ∀ l, ({ State.resetFor p s.nodeTime with pending := s.pending } : State).lane l = Lane.reset :=
    resetFor_lane p s.nodeTime
  have hring : ∀ l c, ({ State.resetFor p s.nodeTime with pending := s.pending } : State).ring l c = [] :=
    resetFor_ring p s.nodeTime
  refine ⟨_, rfl, rfl, rfl, rfl, rfl, rfl, rfl, rfl, rfl, rfl, rfl, rfl, rfl, rfl, rfl, rfl, rfl, rfl, rfl, rfl, rfl, rfl, rfl,
    Bus.reset_self p, fun q hq => Bus.reset_peer hq, Bus.reset_lane p, fun l => ?_, rfl, rfl⟩
  simp only [fullResetStep, State.laneState, hlane, hring]
  simp [Lane.reset, Health.reset, State.params, State.resetFor, Params.default]

/-! ### Lanes changed one after another -/

/-- A change of each lane of a list in turn, by functions that see the boot parameters of the start alone. -/
theorem foldl_lanes (g : State → LaneNo → State) (f : LaneNo → Lane → Lane) (s : State)
    (hg : ∀ t l, t.boot = s.boot → g t l = modLane l (f l) t) : ∀ (ls : List LaneNo), ls.Nodup → ∀ t, t.boot = s.boot →
      (∀ k, (ls.foldl g t).lane k = if k ∈ ls then f k (t.lane k) else t.lane k) ∧
        ls.foldl g t = { t with lanes := (ls.foldl g t).lanes }
  | [], _, t, _ => ⟨fun k => by simp, rfl⟩
  | l :: ls, hn, t, ht => by
    obtain ⟨hl, hn⟩ := List.nodup_cons.mp hn
    obtain ⟨ih, frame⟩ := foldl_lanes g f s hg ls hn (modLane l (f l) t) ht
    rw [List.foldl_cons, hg t l ht]
    refine ⟨fun k => ?_, frame⟩
    rw [ih, modLane_lane]
    by_cases hk : k = l
    · subst hk
      simp [hl]
    · simp [hk]

theorem allLanes_nodup : allLanes.Nodup := List.nodup_finRange 4

theorem mem_allLanes (l : LaneNo) : l ∈ allLanes := List.mem_finRange l

/-! ### The boot read -/

theorem bootReadable_spec (image : List Byte) (s : State) :
    (bootReadable image s).boot = { s.boot with
        startup := .listening, params := bootParams image, bootClamped := imageClamped image, listenStart := s.nodeTime } ∧
      (∀ l, (bootReadable image s).lane l =
        if (bootParams image).fitted[l.val] then (s.lane l).booted image l else { s.lane l with carrier := .absent }) ∧
      bootReadable image s = { s with boot := (bootReadable image s).boot, lanes := (bootReadable image s).lanes } := by
  let u : State := modBoot (fun b => { b with startup := .listening, params := bootParams image,
                                              bootClamped := imageClamped image, listenStart := s.nodeTime }) s
  obtain ⟨hl, hf⟩ := foldl_lanes (bootLane image)
    (fun l L => if (bootParams image).fitted[l.val] then L.booted image l else { L with carrier := .absent }) u
    (fun t l _ => by unfold bootLane; split <;> rfl) allLanes allLanes_nodup u rfl
  have he : bootReadable image s = allLanes.foldl (bootLane image) u := rfl
  rw [he]
  refine ⟨by rw [hf]; rfl, fun l => ?_, by rw [hf]; rfl⟩
  rw [hl, if_pos (mem_allLanes l)]
  rfl

theorem bootReadStep_readable {image : Option (List Byte)} {bytes : List Byte} {s : State} (h : s.boot.startup = .loading)
    (hi : image.filter imageReadable = some bytes) : bootReadStep image s = bootReadable bytes s := by
  simp only [bootReadStep, h, if_true, hi]

theorem bootReadStep_unreadable {image : Option (List Byte)} {s : State} (h : s.boot.startup = .loading)
    (hi : image.filter imageReadable = none) : bootReadStep image s = bootHalted s := by
  simp only [bootReadStep, h, if_true, hi]

/-- Settles O3, by the lanes that `bootReadable` and `bootHalted` leave. -/
theorem bootReadListensOrHalts : Obligations.BootReadListensOrHalts := by
  intro s hs
  constructor
  · intro image hr
    obtain ⟨hb, hl, hf⟩ := bootReadable_spec image s
    have he : bootReadStep (some image) s = bootReadable image s := bootReadStep_readable hs (by simp [Option.filter, hr])
    refine ⟨bootReadable image s, congrArg _ he, ?_⟩
    rw [hb]
    refine ⟨rfl, rfl, rfl, rfl, rfl, fun l hfit => ?_, hb ▸ hf⟩
    rw [hl, if_pos hfit]
    exact ⟨rfl, rfl, rfl, rfl, rfl⟩
  · intro image hr
    obtain ⟨hb, hl, hf⟩ := bootHalted_spec s
    have hnone : image.filter imageReadable = none := by
      cases image with
      | none => rfl
      | some bytes => simp [Option.filter, hr bytes rfl]
    exact ⟨bootHalted s, congrArg Host.Outcome.next (bootReadStep_unreadable hs hnone), hb, hl, hf⟩

theorem clamp_bounds {lo hi : Nat} (h : lo ≤ hi) (n : Nat) : lo ≤ clamp lo hi n ∧ clamp lo hi n ≤ hi := by
  unfold clamp
  omega

theorem clampQuantum_bounds (q : Nat) : 64 ≤ clampQuantum q ∧ clampQuantum q ≤ 16384 ∧ clampQuantum q % 64 = 0 := by
  have := clamp_bounds (lo := 64) (hi := 16384) (by omega) q
  unfold clampQuantum
  omega

theorem fittedSet_some (v : Vector Bool 4) : ∃ l : LaneNo, (fittedSet v)[l.val] = true := by
  unfold fittedSet
  split
  · rename_i h
    obtain ⟨b, hb, hid⟩ := List.any_eq_true.mp h
    obtain ⟨i, hi, rfl⟩ := List.getElem_of_mem hb
    exact ⟨⟨i, by simpa using hi⟩, by simpa using hid⟩
  · exact ⟨0, rfl⟩

/-- Settles O4: each clamp bounds its field, and the bounds of one clamp are the fields clamped before it. -/
theorem bootClampsHold : Obligations.BootClampsHold := by
  intro p
  have hp := clamp_bounds (lo := 256) (hi := 4096) (by omega) p.planLength
  have hl := clamp_bounds (lo := 64) (hi := clamp 256 4096 p.planLength) (by omega) p.lead
  have hc := clamp_bounds (lo := 16) (hi := clamp 64 (clamp 256 4096 p.planLength) p.lead) (by omega) p.cut
  have hm := clamp_bounds (lo := 8) (hi := clamp 16 (clamp 64 (clamp 256 4096 p.planLength) p.lead) p.cut / 2) (by omega) p.margin
  have hq := clampQuantum_bounds p.quantum
  have ho := clamp_bounds (lo := 1) (hi := 65535) (by omega) p.health.openHigh
  have hj := clamp_bounds (lo := 1) (hi := 65535) (by omega) p.health.joinHigh
  refine ⟨hp.1, hp.2, hl.1, hl.2, hc.1, hc.2, hm.1, hm.2, hq.1, hq.2.1, hq.2.2, fittedSet_some p.fitted, ?_, ?_, ?_⟩
  · show min _ (clamp 1 65535 p.health.backlogHigh) ≤ clamp 1 65535 p.health.backlogHigh
    omega
  · show min _ (clamp 1 65535 p.health.openHigh - 1) < clamp 1 65535 p.health.openHigh
    omega
  · show min _ (clamp 1 65535 p.health.joinHigh - 1) < clamp 1 65535 p.health.joinHigh
    omega

/-! ### Node time -/

theorem settle_succ (n : Nat) (s : State) :
    settle (n + 1) s = match dueStep s with
      | some t => settle n t
      | none => s := rfl

theorem settleFuel_pos : settleFuel = (settleFuel - 1) + 1 := by norm_num [settleFuel]

theorem settle_of_none {s : State} (h : dueStep s = none) : settle settleFuel s = s := by
  rw [settleFuel_pos, settle_succ, h]

theorem settle_of_some {s u : State} (h : dueStep s = some u) : settle settleFuel s = settle (settleFuel - 1) u := by
  rw [settleFuel_pos, settle_succ, h]
  rfl

theorem advance_succ (d : Nat) (s : State) : advance (d + 1) s = advance d (tickOnce (settle settleFuel s)) := rfl

theorem nodeTimeStep_after {v : Tick} {s : State} (h : 1 ≤ (v - s.nodeTime).toNat) (h' : (v - s.nodeTime).toNat ≤ 2 ^ 31 - 1) :
    nodeTimeStep v s = advance (v - s.nodeTime).toNat s := by
  have : countAfter v s.nodeTime = true := by
    simp only [countAfter, Bool.and_eq_true, decide_eq_true_eq]
    omega
  rw [nodeTimeStep, if_pos this]

/-- Settles O6: one unfolding of `advance` and of `settle`, and the two branches of `nodeTimeStep`. -/
theorem nodeTimeChangeAdvancesOrJumps : Obligations.NodeTimeChangeAdvancesOrJumps := by
  intro s
  constructor
  · intro d hd hd'
    have hdiff : (s.nodeTime + BitVec.ofNat 32 d - s.nodeTime).toNat = d := by
      rw [show s.nodeTime + BitVec.ofNat 32 d - s.nodeTime = BitVec.ofNat 32 d by bv_omega, BitVec.toNat_ofNat]
      omega
    obtain ⟨n, rfl⟩ : ∃ n, d = n + 1 := ⟨d - 1, by omega⟩
    refine ⟨?_, advance_succ n s, fun hn => ?_, fun u hu => settle_of_some hu⟩
    · show Host.Outcome.next (nodeTimeStep _ s) = _
      rw [nodeTimeStep_after (by omega) (by omega), hdiff]
    · rw [advance_succ, settle_of_none hn]
      rfl
  · intro v hv
    have : countAfter v s.nodeTime = false := by
      simp only [countAfter, Bool.and_eq_false_iff, decide_eq_false_iff_not]
      omega
    show Host.Outcome.next (nodeTimeStep v s) = _
    rw [nodeTimeStep, this]
    rfl

theorem tickOnce_spec (s : State) :
    (∀ l, (tickOnce s).lane l = if s.boot.startup = .ready ∧ s.fitted l = true then (s.lane l).tick else s.lane l) ∧
      tickOnce s = { s with nodeTime := s.nodeTime + 1, lanes := (tickOnce s).lanes } := by
  let u : State := { s with nodeTime := s.nodeTime + 1 }
  obtain ⟨hl, hf⟩ := foldl_lanes tickLane
    (fun l L => if s.boot.startup = .ready ∧ s.fitted l = true then L.tick else L) u
    (fun t l ht => by
      have hb : t.boot = s.boot := ht
      unfold tickLane State.fitted State.params
      rw [hb]
      split
      · rfl
      · exact (modLane_of_fixed rfl).symm) allLanes allLanes_nodup u rfl
  have he : tickOnce s = allLanes.foldl tickLane u := rfl
  rw [he]
  refine ⟨fun l => ?_, hf⟩
  rw [hl, if_pos (mem_allLanes l)]
  rfl

/-- Settles O7, by the lanes that `tickOnce` leaves. -/
theorem tickMovesSliceCounters : Obligations.TickMovesSliceCounters := by
  intro s l
  obtain ⟨hl, hf⟩ := tickOnce_spec s
  exact ⟨hl l, hf⟩

end Sys2Proof.Machine
end

section
/-! PROOF. Build points, cut deadlines and the arbiter (O8, O9, O10). -/

namespace Sys2Proof.Machine

/-! ### Build points -/

theorem Lane.reached_of_start {L : Lane} {n : Slice} {before : Nat} (h : L.nextPlanStart = some n) :
    L.reached before = countReached (sliceSub n before) L.slice := by
  simp [Lane.reached, h]

theorem buildPointDue_iff {l : LaneNo} {n : Slice} {s : State} (hn : (s.lane l).nextPlanStart = some n) :
    s.buildPointDue l = true ↔ (s.lane l).buildState = .idle ∧ s.laneState l ≠ .dark ∧
      countReached (sliceSub n s.params.lead) (s.lane l).slice = true := by
  simp [State.buildPointDue, Lane.reached_of_start hn, and_assoc]

theorem deferralDue_iff {l : LaneNo} {n : Slice} {s : State} (hn : (s.lane l).nextPlanStart = some n) :
    s.deferralDue l = true ↔ (s.lane l).buildState = .building ∧ (s.lane l).deferred = false ∧
      countReached (sliceSub (sliceAdd n s.params.planLength) s.params.lead) (s.lane l).slice = true := by
  simp [State.deferralDue, hn, and_assoc]

/-- Settles O8, by the two conditions of `buildPointStep`. -/
theorem buildPointQueuesOrDefers : Obligations.BuildPointQueuesOrDefers := by
  intro l n s hn hdark
  constructor
  · intro hidle hreached
    have hdue := (buildPointDue_iff hn).mpr ⟨hidle, hdark, hreached⟩
    show Host.Outcome.next (buildPointStep l s) = _
    rw [buildPointStep, if_pos hdue]
  · intro hbuilding hdeferred hreached
    have hnot : ¬s.buildPointDue l = true := by simp [buildPointDue_iff hn, hbuilding]
    have hdue := (deferralDue_iff hn).mpr ⟨hbuilding, hdeferred, hreached⟩
    show Host.Outcome.next (buildPointStep l s) = _
    rw [buildPointStep, if_neg hnot, if_pos hdue]

/-! ### Cut deadlines -/

/-- A flag that is not suppressed on a DARK lane is always set, with the summary. -/
theorem setFlag_kept {g : Flag} (h : g.clearedAtDark = false) (l : LaneNo) (s : State) :
    setFlag l g s = modPort (fun p => { p with summary := true }) (modHealth l (fun h => { h with flags := h.flags ||| g.mask }) s) := by
  simp [setFlag, State.suppressed, h]

theorem cutDue_iff {l : LaneNo} {n : Slice} {s : State} (hn : (s.lane l).nextPlanStart = some n) :
    s.cutDue l = true ↔ (s.lane l).buildState = .pending ∧ countReached (sliceSub n s.params.cut) (s.lane l).slice = true := by
  simp [State.cutDue, Lane.reached_of_start hn]

theorem skipInterval_eq {l : LaneNo} {n : Slice} {s : State} (hn : (s.lane l).nextPlanStart = some n) :
    skipInterval l s = modPort (fun p => { p with summary := true })
      (modLane l (fun L => { L with
          buildState := .idle, nextPlanStart := some (sliceAdd n s.params.planLength),
          health := { L.health with flags := L.health.flags ||| 4 } })
        (missInterval l n s)) := by
  simp only [skipInterval, hn]
  rw [setFlag_kept rfl]
  simp only [modPort, modHealth, modLane, State.lane, missInterval, Lane.nextInterval, State.params]
  simp only [Vector.getElem_set_self, Vector.set_set]
  rw [show s.lanes[l.val].nextPlanStart = some n from hn]
  rfl

/-- Settles O9, by `skipInterval_eq` and what `missInterval` does to the channels. -/
theorem cutDeadlineSkipsInterval : Obligations.CutDeadlineSkipsInterval := by
  intro l n s hpending hn hreached
  have hdue := (cutDue_iff hn).mpr ⟨hpending, hreached⟩
  obtain ⟨f, hf, hmissed⟩ := missInterval_missed l n s
  refine ⟨skipInterval l s, ?_, ?_⟩
  · show Host.Outcome.next (cutDeadlineStep l s) = _
    rw [cutDeadlineStep, if_pos hdue]
  have hchannels : (skipInterval l s).channels = s.channels.map f := by
    rw [skipInterval_eq hn]
    exact hf
  refine ⟨?_, ?_, ?_, ?_, ⟨f, hchannels, fun c _ => hmissed c⟩, ?_⟩
  · rw [skipInterval_eq hn, modPort_lane, modLane_lane_self]
    rfl
  · rw [skipInterval_eq hn]
    rfl
  · intro k hk
    rw [skipInterval_eq hn, modPort_lane, modLane_lane_other hk]
    rfl
  · intro c hc hother
    rw [hchannels]
    exact List.mem_map.mpr ⟨c, hc, (hmissed c).1 hother⟩
  · rw [skipInterval_eq hn]
    rfl

/-! ### The arbiter -/

theorem pairwise_lt_lanes (p : LaneNo → Bool) : (allLanes.filter p).Pairwise (· < ·) :=
  (List.pairwise_lt_finRange 4).filter p

/-- The lane of least key among those of a list that rises, the lowest among equals. -/
theorem leastBy_lanes {key : LaneNo → Int} {ls : List LaneNo} {l : LaneNo} (hs : ls.Pairwise (· < ·))
    (h : leastBy key ls = some l) : l ∈ ls ∧ ∀ k ∈ ls, key l ≤ key k ∧ (key l = key k → l ≤ k) := by
  obtain ⟨older, newer, rfl, hold, hnew⟩ := leastBy_split key ls l h
  refine ⟨by simp, fun k hk => ?_⟩
  obtain hk | rfl | hk : k ∈ older ∨ k = l ∨ k ∈ newer := by simpa using hk
  · have := hold k hk
    omega
  · simp
  · have hlt : l < k := by
      have := List.pairwise_append.mp hs
      exact (List.pairwise_cons.mp this.2.1).1 k hk
    exact ⟨hnew k hk, fun _ => hlt.le⟩

theorem arbiterChoice_spec {s : State} {l : LaneNo} (h : s.arbiterChoice = some l) :
    (s.lane l).buildState = .pending ∧ ∀ k, (s.lane k).buildState = .pending →
      s.ticksToCut l ≤ s.ticksToCut k ∧ (s.ticksToCut l = s.ticksToCut k → l ≤ k) := by
  obtain ⟨hl, hk⟩ := leastBy_lanes (pairwise_lt_lanes _) h
  simp only [List.mem_filter, beq_iff_eq] at hl hk
  exact ⟨hl.2, fun k hp => hk k ⟨mem_allLanes k, hp⟩⟩

theorem buildStartStep_eq {s : State} {l : LaneNo} {n : Slice} (hb : s.builder = none) (hf : s.followUps = false)
    (hc : s.arbiterChoice = some l) (hn : (s.lane l).nextPlanStart = some n) : buildStartStep s = startBuild l n s := by
  simp [buildStartStep, hb, hf, hc, hn]

/-- Settles O10: the choice is `arbiterChoice_spec`, and `startBuild` misses the interval of a RAMP lane alone. -/
theorem buildStartTakesEarliestLane : Obligations.BuildStartTakesEarliestLane := by
  intro l n s hb hf hc hn
  obtain ⟨hpending, hleast⟩ := arbiterChoice_spec hc
  let u : State := modLane l (fun L => { L with buildState := .building }) { s with builder := some (s.newBuild l n) }
  have hu : startBuild l n s = if s.laneState l = .ramp then missInterval l n u else u := rfl
  have hframe : startBuild l n s = { u with channels := (startBuild l n s).channels } := by
    rw [hu]
    split <;> rfl
  have hlanes : (startBuild l n s).lanes = u.lanes := by rw [hframe]
  have hbuilder : (startBuild l n s).builder = some (s.newBuild l n) := by rw [hframe]; rfl
  have hlane : ∀ k, (startBuild l n s).lane k = u.lane k := fun k => by rw [State.lane, hlanes]; rfl
  refine ⟨hpending, hleast, startBuild l n s, s.newBuild l n, ?_, hbuilder, rfl, rfl, rfl, rfl, rfl, rfl, rfl, rfl, rfl, ?_, ?_,
    ?_, ?_, ?_⟩
  · exact congrArg _ (buildStartStep_eq hb hf hc hn)
  · rw [hlane]
    exact modLane_lane_self _ _ _
  · intro k hk
    rw [hlane]
    exact modLane_lane_other hk _ _
  · intro hramp
    rw [hu, if_neg hramp]
    exact ⟨rfl, by simp [State.newBuild, hramp]⟩
  · intro hramp
    obtain ⟨f, hf, hmissed⟩ := missInterval_missed l n u
    refine ⟨by simp [State.newBuild, hramp], f, ?_, fun c _ => hmissed c⟩
    rw [hu, if_pos hramp, hf]
    rfl
  · rw [hframe]
    rfl

end Sys2Proof.Machine
end

section
/-! PROOF. The fill steps that place cadence turns, probes, regions and polls (O11 to O16). -/

namespace Sys2Proof.Machine

/-! ### The turn of a fill step -/

theorem fillStep_eq {k : Nat} {b : Build} {s : State} (fill : Build → State → State) (hb : s.builder = some b)
    (hm : s.mayEnter b k = true) (hw : s.hasWork b k = true) :
    fillStep k fill s = fill b { s with builder := some { b with step := k } } := by
  have hat : s.buildAt k = some b := by simp [State.buildAt, Option.filter, hb, hm, hw]
  simp only [fillStep, hat, enterStep, modBuild, hb, Option.map_some]

theorem entry?_congr {s t : State} (h : t.table = s.table) (n : Nat) : t.entry? n = s.entry? n := by
  rw [State.entry?, State.entry?, h]

theorem appendTurn_entry (n m : Nat) (t : Turn) (evict : Bool) (s : State) :
    (appendTurn n t evict s).entry? m = (s.entry? m).map fun e =>
      if m = n then
        { e with turns := (if evict && decide (e.turns.length ≥ Config.turnListDepth) then e.turns.drop 1 else e.turns) ++ [t] }
      else e := by
  rw [appendTurn, modEntry_entry]
  intro e
  rfl

theorem placeRegion_builder (t : PlanTurn) {b : Build} {s : State} (hb : s.builder = some b) :
    (placeRegion t s).builder =
      some { b with gaps := takeSlices t.offset t.length b.gaps, placed := b.placed ++ [t] } := by
  simp [placeRegion, hb]

/-- The turn list entry of a placed turn (R74). -/
def Build.turnOf (b : Build) (t : PlanTurn) (channel : Option Nat) : Turn :=
  { lane := b.lane, planNo := b.planNo, kind := t.kind, start := sliceAdd b.start t.offset, length := t.length,
    payload := t.payload, stale := false, channel := channel }

theorem placeTurn_eq (b : Build) (n : Nat) (t : PlanTurn) (channel : Option Nat) (evict : Bool) (s : State) :
    placeTurn b n t channel evict s = appendTurn n (b.turnOf t channel) evict (placeRegion t s) := rfl

/-! ### Regions -/

/-- Settles O15: the gap found is filled whole. -/
theorem leftoverRegionFillsGap : Obligations.LeftoverRegionFillsGap := by
  intro b g s hb hm hg
  show Host.Outcome.next (fillStep 7 leftoverFill s) = _
  rw [fillStep_eq leftoverFill hb hm (by simp [State.hasWork, hg])]
  have hroom : b.room ({ s with builder := some { b with step := 7 } } : State).params.omin = some g := hg
  rw [leftoverFill, hroom]
  rfl

theorem setFlag_lit {l : LaneNo} {s : State} (h : s.laneState l ≠ .dark) (g : Flag) :
    setFlag l g s = modPort (fun p => { p with summary := true }) (modHealth l (fun h => { h with flags := h.flags ||| g.mask }) s) := by
  simp [setFlag, State.suppressed, h]

theorem Flag.mask_ne_zero (g : Flag) : g.mask ≠ 0 := by
  cases g <;> decide

theorem flags_or_mask (x : BitVec 11) (g : Flag) : ((x ||| g.mask) &&& g.mask != 0) = true := by
  have hand : (x ||| g.mask) &&& g.mask = g.mask := by
    ext i hi
    simp only [BitVec.getElem_and, BitVec.getElem_or]
    cases x[i] <;> simp
  simpa [hand] using g.mask_ne_zero

theorem setFlag_flag {l : LaneNo} {s : State} (h : s.laneState l ≠ .dark) (g : Flag) : (setFlag l g s).flag l g = true := by
  rw [setFlag_lit h]
  simp only [State.flag, modPort_lane, modHealth_lane, if_true]
  exact flags_or_mask _ g

/-- Settles O14, by whether a gap of Omin slices is found. -/
theorem minimumOpenPlacedOrSqueezed : Obligations.MinimumOpenPlacedOrSqueezed := by
  intro b s hb hm htried hdark
  let u : State := { s with builder := some { b with step := 4, openTried := true } }
  have hstep : minimumOpenStep s = match b.room s.params.omin with
      | some g => placeRegion (openRegionTurn g.start s.params.omin) u
      | none => setFlag b.lane .openSqueezed u := by
    rw [minimumOpenStep, fillStep_eq openFill hb hm (by simp [State.hasWork, htried])]
    rfl
  have hudark : u.laneState b.lane ≠ .dark := hdark
  refine ⟨minimumOpenStep s, rfl, fun g hg => ?_, fun hg => ?_⟩
  · rw [hstep, hg]
    exact ⟨rfl, rfl, rfl⟩
  · rw [hstep, hg]
    refine ⟨by simp [u], by simp [u], setFlag_flag hudark _, ?_, fun k hk => ?_, ?_⟩
    · show (setFlag b.lane .openSqueezed u).port = _
      rw [setFlag_lit hudark]
      rfl
    · show (setFlag b.lane .openSqueezed u).lane k = _
      rw [setFlag_lit hudark, modPort_lane, modHealth_lane, if_neg hk]
      rfl
    · show setFlag b.lane .openSqueezed u = _
      rw [setFlag_lit hudark]
      rfl

/-- Settles O13, by whether a gap for the join region is found. -/
theorem joinRegionPlacedOrTriedAgain : Obligations.JoinRegionPlacedOrTriedAgain := by
  intro b s hb hm hcount htried
  let u : State := { s with builder := some { b with step := 3, joinTried := true } }
  have hstep : joinRegionStep s = match b.room s.params.joinLength with
      | some g => modLane b.lane (fun L => { L with joinCountdown := s.params.joinInterval })
          (modBuild (fun b => { b with joinSet := true }) (placeRegion
            { tag := Config.newcomer, kind := .joinRegion, offset := g.start, length := s.params.joinLength, profile := 0,
              payload := 0 } u))
      | none => u := by
    rw [joinRegionStep, fillStep_eq joinFill hb hm (by simp [State.hasWork, htried, hcount])]
    rfl
  cases hg : b.room s.params.joinLength with
  | none =>
    have he : joinRegionStep s = u := by rw [hstep, hg]
    refine ⟨u, congrArg Host.Outcome.next he, rfl, fun _ _ => rfl, fun g h => ?_, fun _ => ⟨rfl, rfl, rfl⟩⟩
    cases h
  | some g =>
    have he := hstep
    rw [hg] at he
    refine ⟨_, congrArg Host.Outcome.next he, rfl, fun k hk => ?_, fun g' h => ?_, fun h => ?_⟩
    · exact modLane_lane_other hk _ _
    · cases h
      exact ⟨rfl, rfl, modLane_lane_self _ _ _⟩
    · cases h

/-! ### Probes -/

/-- Settles O12: a gap within the cap takes the turn, and its entry and probe out go to the station. -/
theorem probePlacedOrStepStops : Obligations.ProbePlacedOrStepStops := by
  intro b tag e s hb hm hp he
  let u : State := { s with builder := some { b with step := 2 } }
  have hstep : probePlacementStep s = probeFill b tag u := by
    rw [probePlacementStep, fillStep_eq _ hb hm (by simp [State.hasWork, hp])]
    show (match s.nextProbe b with | some tag => probeFill b tag u | none => u) = _
    rw [hp]
  have hue : u.byTag tag = some e := he
  have hentry : u.entry? e.entry = some e := byTag_entry hue
  constructor
  · intro g hcap hroom
    let t : PlanTurn := { tag := tag, kind := .probe, offset := g.start, length := s.params.probeLength, profile := 0, payload := 0 }
    let out : ProbeOut := { planNo := b.planNo, lane := b.lane, start := sliceAdd b.start g.start,
                            stop := sliceAdd (sliceAdd b.start g.start) s.params.probeLength }
    let v := modAlignment e.entry (fun a => { a with probeOut := some out }) (placeTurn b e.entry t none true u)
    have hfill : probeFill b tag u =
        modBuild (fun b => { passProbe (v.lane b.lane).provisional tag b with probeTotal := b.probeTotal + s.params.probeLength }) v := by
      have hroom' : (if b.probeTotal + u.params.probeLength > u.params.planLength / 4 then none else b.room u.params.probeLength) =
          some g := by
        exact (if_neg (not_lt.mpr hcap)).trans hroom
      simp only [probeFill, hue, hroom']
      rfl
    have hv : ∀ n, v.entry? n = (s.entry? n).map fun d => if n = e.entry then
        { d with turns := (if d.turns.length ≥ 8 then d.turns.drop 1 else d.turns) ++ [b.turnOf t none],
                 alignment := d.alignment.map fun a => { a with probeOut := some out } } else d := by
      intro n
      rw [modAlignment_entry, placeTurn_eq, appendTurn_entry, Option.map_map]
      congr 1
      funext d
      by_cases hn : n = e.entry <;> simp [hn, Config.turnListDepth]
    have hpass : ∀ ts c, passProbe ts tag c = { c with
        probePassed := (passProbe ts tag c).probePassed, maintenanceFrom := (passProbe ts tag c).maintenanceFrom } := by
      intro ts c
      unfold passProbe
      split <;> rfl
    have hbuild : v.builder = some { b with step := 2, gaps := takeSlices g.start s.params.probeLength b.gaps,
                                            placed := b.placed ++ [t] } := rfl
    refine ⟨_, _, congrArg Host.Outcome.next (hstep.trans hfill), ?_, ?_, ?_, (hv e.entry).trans (by rw [byTag_entry he, Option.map_some, if_pos rfl]),
      rfl, rfl, rfl, fun n hn => (hv n).trans ?_, rfl⟩
    · rw [modBuild_self, hbuild, Option.map_some, Option.map_some, hpass]
    · rw [modBuild_self, hbuild, Option.map_some, Option.map_some, hpass]
    · rw [modBuild_self, hbuild, Option.map_some, Option.map_some]
    · simp [hn]
  · intro hstop
    have hroom' : (if b.probeTotal + u.params.probeLength > u.params.planLength / 4 then none else b.room u.params.probeLength) =
        none := by
      obtain h | h := hstop
      · exact if_pos h
      · split
        · rfl
        · exact h
    show Host.Outcome.next (probePlacementStep s) = _
    rw [hstep]
    simp only [probeFill, hue, hroom']
    rfl

/-! ### Polls -/

theorem pollStep_eq {b : Build} {e : Stream} {s : State} (hb : s.builder = some b) (hm : s.mayEnter b 5 = true)
    (he : s.nextPoll b = some e) : pollStep s = pollFill b e { s with builder := some { b with step := 5 } } := by
  rw [pollStep, fillStep_eq _ hb hm (by simp [State.hasWork, he])]
  show (match s.nextPoll b with | some e => pollFill b e _ | none => _) = _
  rw [he]

/-- Settles O16, by the skip of `pollFill` and by whether room is found. -/
theorem pollSkippedOrPlaced : Obligations.PollSkippedOrPlaced := by
  intro b e s hb hm he
  have hstep := pollStep_eq hb hm he
  refine ⟨fun hdemand hquiet _ => ?_, fun g hskip hlist hroom => ?_, fun hskip hroom => ?_⟩
  · refine ⟨pollStep s, rfl, ?_⟩
    rw [hstep, pollFill, if_pos ⟨hdemand, by simp [hquiet]⟩]
    exact ⟨rfl, rfl, rfl, rfl⟩
  · have hnot : ¬(e.demand > 0 ∧ ¬e.quiet = true) := by
      rintro ⟨h, h'⟩
      obtain h'' | h'' := hskip
      · omega
      · exact h' h''
    refine ⟨pollStep s, rfl, ?_⟩
    rw [hstep, pollFill, if_neg hnot]
    have hr : (if e.listHasRoom then b.room ((s.lane b.lane).table.poll (e.profile b.lane)) else none) = some g := by
      rw [if_pos hlist, hroom]
    have hr' := hr
    simp only [State.lane, modBuild] at hr' ⊢
    rw [hr']
    refine ⟨rfl, rfl, ?_, rfl⟩
    simp only [reloadPoll, modBuild, modEntry, placeTurn, appendTurn, placeRegion, List.map_map]
    refine List.map_congr_left fun x _ => ?_
    by_cases hx : x.entry = e.entry
    · simp [hx, State.params, reloadValue, Config.pollPayload]
    · simp [hx]
  · have hnot : ¬(e.demand > 0 ∧ ¬e.quiet = true) := by
      rintro ⟨h, h'⟩
      obtain h'' | h'' := hskip
      · omega
      · exact h' h''
    have hr : (if e.listHasRoom then b.room ((s.lane b.lane).table.poll (e.profile b.lane)) else none) = none := by
      obtain h | h := hroom
      · simp [h]
      · simp [h]
    show Host.Outcome.next (pollStep s) = _
    rw [hstep, pollFill, if_neg hnot]
    simp only [State.lane, modBuild] at hr ⊢
    rw [hr]
    rfl

/-! ### Cadence requests -/

theorem cadenceRequestStep_eq {b : Build} {r : CadenceReq} {s : State} (hb : s.builder = some b) (hm : s.mayEnter b 1 = true)
    (hr : s.nextCadence b = some r) :
    cadenceRequestStep s = cadenceFill b r { s with builder := some { b with step := 1 } } := by
  rw [cadenceRequestStep, fillStep_eq _ hb hm (by simp [State.hasWork, hr])]
  show (match s.nextCadence b with | some r => cadenceFill b r _ | none => _) = _
  rw [hr]

/-- The state in which a request is answered: step 1 is entered, and a due request ends the carried ones. -/
def cadenceEntered (b : Build) (r : CadenceReq) (s : State) : State :=
  { s with builder := some { b with step := 1, cadenceDue := if r.carried then b.cadenceDue else true } }

theorem cadenceFill_eq (b : Build) (r : CadenceReq) (s : State) :
    cadenceFill b r { s with builder := some { b with step := 1 } } =
      let u := cadenceEntered b r s
      if (r.carried = false ∧ dueOffset b.start r.due < 0) ∨ b.placed.length ≥ 240 then answerCadence b r .missed u
      else match s.cadenceStream b r.channel with
        | some e => serveCadence b r e u
        | none => answerCadence b r .missed u := by
  have hu : (if r.carried then ({ s with builder := some { b with step := 1 } } : State)
      else modBuild (fun b => { b with cadenceDue := true }) { s with builder := some { b with step := 1 } }) =
      cadenceEntered b r s := by
    cases hc : r.carried <;> simp [cadenceEntered, hc, modBuild]
  simp only [cadenceFill, hu]
  have hstream : (cadenceEntered b r s).cadenceStream b r.channel = s.cadenceStream b r.channel := rfl
  rw [hstream]
  by_cases hlate : r.carried = false ∧ dueOffset b.start r.due < 0
  · simp [hlate]
  · have hlate' : ¬(¬r.carried = true ∧ dueOffset b.start r.due < 0) := by simpa using hlate
    by_cases hfull : b.placed.length ≥ 240
    · have : b.full = true := by simpa [Build.full, Config.planTurns] using hfull
      simp only [if_neg hlate', this, if_true, hfull, or_true]
    · have : b.full = false := by simpa [Build.full, Config.planTurns] using hfull
      simp only [if_neg hlate', this, hfull, hlate, or_self, if_false]
      rfl

/-- What an answered channel loses of its request: a carried due, or the present next due (R103, R104). -/
def CadenceReq.gone (r : CadenceReq) (c : Channel) : Channel :=
  if r.carried then { c with carried := c.carried.erase r.due }
  else { c with nextDue := c.nextDue.map fun d => sliceAdd d c.period }

theorem answered_missed (pn : PlanNo) (r : CadenceReq) (c : Channel) :
    c.answered pn r .missed = { r.gone c with misses := min (c.misses + 1) 65535 } := by
  cases hc : r.carried <;>
    simp [Channel.answered, CadenceReq.gone, hc, Channel.miss, Channel.moveOn, Channel.dropCarried, satAdd]

theorem answered_carried (pn : PlanNo) {r : CadenceReq} (h : r.carried = false) (c : Channel) :
    c.answered pn r .carried = { r.gone c with carried := c.carried ++ [r.due] } := by
  simp [Channel.answered, CadenceReq.gone, h, Channel.moveOn]

theorem answered_placed (pn : PlanNo) (r : CadenceReq) (start : Slice) (c : Channel) :
    c.answered pn r (.placed start) =
      let count := if c.initial = 0 then c.count else c.count - 1
      let final := decide (c.initial ≠ 0 ∧ count = 0)
      { r.gone c with
        count := count, lastTurn := some start, state := if final then .draining else c.state,
        finalMark := if final then some { planNo := pn, start := start, due := r.due } else c.finalMark } := by
  by_cases hfinal : c.initial ≠ 0 ∧ (if c.initial = 0 then c.count else c.count - 1) = 0
  · cases hc : r.carried <;>
      simp [Channel.answered, Channel.placed, CadenceReq.gone, hc, Channel.moveOn, Channel.dropCarried] <;>
      split <;> simp_all
  · cases hc : r.carried <;>
      simp [Channel.answered, Channel.placed, CadenceReq.gone, hc, Channel.moveOn, Channel.dropCarried] <;>
      split <;> simp_all

theorem answerCadence_channels (b : Build) (r : CadenceReq) (a : CadenceAnswer) (s : State) (f : Channel → Channel)
    (h : ∀ c, c.answered b.planNo r a = f c) :
    (answerCadence b r a s).channels = s.channels.map fun c => if c.number == r.channel.number then f c else c := by
  simp only [answerCadence, modChannel, h]

/-- The position a request of a stream is given (R78). -/
def State.cadenceFit (s : State) (b : Build) (r : CadenceReq) (e : Stream) : Option Nat :=
  b.gaps.findSome? (Gap.fit (dueOffset b.start r.due) r.channel.jitter
    (wholeTurn (s.lane b.lane).table (e.profile b.lane) r.channel.payload).1)

/-- Settles O11, by the branches of `cadenceFill` and `serveCadence`. -/
theorem cadenceRequestPlacedOrMissed : Obligations.CadenceRequestPlacedOrMissed := by
  intro b r s hb hm hr
  have hstep : cadenceRequestStep s = _ := (cadenceRequestStep_eq hb hm hr).trans (cadenceFill_eq b r s)
  have hgone : ∀ c, r.gone c = if r.carried then { c with carried := c.carried.erase r.due }
      else { c with nextDue := c.nextDue.map fun d => sliceAdd d c.period } := fun c => rfl
  refine ⟨fun hwhy => ?_, fun e hlen hdue he hfit hcarry => ?_, fun e off hlen hdue he hfit => ?_⟩
  · have hmiss : cadenceRequestStep s = answerCadence b r .missed (cadenceEntered b r s) := by
      rw [hstep]
      by_cases hearly : (r.carried = false ∧ dueOffset b.start r.due < 0) ∨ b.placed.length ≥ 240
      · exact if_pos hearly
      · refine (if_neg hearly).trans ?_
        obtain h | h | h | ⟨e, he, hfit, hcarry⟩ := hwhy
        · exact absurd (.inr h) hearly
        · exact absurd (.inl h) hearly
        · simp only [h]
        · simp only [he]
          have hfit' : b.gaps.findSome? (Gap.fit (dueOffset b.start r.due) r.channel.jitter
            (wholeTurn ((cadenceEntered b r s).lane b.lane).table (e.profile b.lane) r.channel.payload).1) = none := hfit
          simp only [serveCadence, hfit']
          refine if_neg fun h => hcarry ⟨by simpa using h.1, h.2.1, h.2.2⟩
    exact ⟨_, congrArg Host.Outcome.next hmiss, ⟨rfl, rfl, rfl⟩, answerCadence_channels _ _ _ _ _ fun c => answered_missed _ _ c⟩
  · have hearly : ¬((r.carried = false ∧ dueOffset b.start r.due < 0) ∨ b.placed.length ≥ 240) := by omega
    have hcarried : cadenceRequestStep s = answerCadence b r .carried (cadenceEntered b r s) := by
      rw [hstep]
      refine (if_neg hearly).trans ?_
      simp only [he]
      have hfit' : b.gaps.findSome? (Gap.fit (dueOffset b.start r.due) r.channel.jitter
        (wholeTurn ((cadenceEntered b r s).lane b.lane).table (e.profile b.lane) r.channel.payload).1) = none := hfit
      simp only [serveCadence, hfit']
      exact if_pos ⟨by simp [hcarry.1], hcarry.2.1, hcarry.2.2⟩
    exact ⟨_, congrArg Host.Outcome.next hcarried, ⟨rfl, rfl, rfl⟩,
      answerCadence_channels _ _ _ _ _ fun c => answered_carried _ hcarry.1 c⟩
  · have hearly : ¬((r.carried = false ∧ dueOffset b.start r.due < 0) ∨ b.placed.length ≥ 240) := by
      rintro (⟨h, h'⟩ | h)
      · obtain hc | hc := hdue
        · simp [hc] at h
        · omega
      · omega
    have hentry : s.entry? e.entry = some e := by
      obtain ⟨htag, -⟩ := Option.filter_eq_some_iff.mp he
      exact byTag_entry htag
    let t : PlanTurn :=
      { tag := e.tag, kind := .cadence, offset := off,
        length := (wholeTurn (s.lane b.lane).table (e.profile b.lane) r.channel.payload).1, profile := e.profile b.lane,
        payload := (wholeTurn (s.lane b.lane).table (e.profile b.lane) r.channel.payload).2 }
    let u := placeTurn b e.entry t (some r.channel.number) true (cadenceEntered b r s)
    have hplaced : cadenceRequestStep s = answerCadence b r (.placed (sliceAdd b.start off)) u := by
      rw [hstep]
      refine (if_neg hearly).trans ?_
      simp only [he]
      have hfit' : b.gaps.findSome? (Gap.fit (dueOffset b.start r.due) r.channel.jitter
        (wholeTurn ((cadenceEntered b r s).lane b.lane).table (e.profile b.lane) r.channel.payload).1) = some off := hfit
      simp only [serveCadence, hfit']
      rfl
    have hu : ∀ n, u.entry? n = (s.entry? n).map fun d => if n = e.entry then
        { d with turns := (if d.turns.length ≥ 8 then d.turns.drop 1 else d.turns) ++ [b.turnOf t (some r.channel.number)] }
        else d := by
      intro n
      refine (appendTurn_entry e.entry n (b.turnOf t (some r.channel.number)) true _).trans ?_
      congr 1
      funext d
      simp [Config.turnListDepth]
    refine ⟨_, _, congrArg Host.Outcome.next hplaced, answerCadence_channels _ _ _ _ _ fun c => answered_placed _ _ _ c, rfl, rfl,
      (hu e.entry).trans (by rw [hentry, Option.map_some, if_pos rfl]), rfl, rfl, fun n hn => (hu n).trans ?_, rfl⟩
    simp [hn]

end Sys2Proof.Machine
end

section
/-! PROOF. Backoff pairs, and the records that are queued, dropped, discarded or stray (O27, O28, O31, O32). -/

namespace Sys2Proof.Machine

/-! ### Backoff pairs -/

theorem moved_of_high {high low least c : Nat} (b : Backoff) (h : high ≤ c) :
    b.moved high low least c = { first := min (b.first + 1) 10, last := min (b.last + 1) 10 } :=
  if_pos h

theorem moved_of_low {high low least c : Nat} (b : Backoff) (h : c < high) (h' : c ≤ low) :
    b.moved high low least c = { first := max (b.first - 1) least, last := max (b.last - 1) (max (b.first - 1) least) } :=
  (if_neg (Nat.not_le.mpr h)).trans (if_pos h')

theorem moved_of_between {high low least c : Nat} (b : Backoff) (h : c < high) (h' : low < c) : b.moved high low least c = b :=
  (if_neg (Nat.not_le.mpr h)).trans (if_neg (Nat.not_le.mpr h'))

/-- Settles O27, by where the reading lies between the limits. -/
theorem backoffPairStaysInRange : Obligations.BackoffPairStaysInRange := by
  intro high low least c b hlimits hleast hpair htop
  obtain hhigh | hhigh := le_or_gt high c
  · rw [moved_of_high b hhigh]
    refine ⟨?_, ?_, ?_, ?_, ?_, ?_, ?_, fun _ => rfl, fun h => by omega, fun _ h => by omega⟩ <;> dsimp only <;> omega
  · obtain hlow | hlow := le_or_gt c low
    · rw [moved_of_low b hhigh hlow]
      refine ⟨?_, ?_, ?_, ?_, ?_, ?_, ?_, fun h => by omega, fun _ => rfl, fun h _ => by omega⟩ <;> dsimp only <;> omega
    · rw [moved_of_between b hhigh hlow]
      refine ⟨?_, ?_, ?_, ?_, ?_, ?_, ?_, fun h => ?_, fun h => ?_, fun _ _ => rfl⟩ <;> omega

/-! ### Arrivals at the ports -/

theorem portAccepts_iff {l : LaneNo} {s : State} :
    s.portAccepts l = true ↔ s.fitted l = true ∧ s.boot.startup = .ready ∧ s.laneState l ≠ .dark := by
  simp [State.portAccepts, and_assoc]

/-- Settles O28, by whether the port accepts the record and the FIFO has room. -/
theorem recordArrivalQueuesDropsOrDiscards : Obligations.RecordArrivalQueuesDropsOrDiscards := by
  intro l w s htype
  refine ⟨fun hfit hready hdark hroom => ?_, fun hfit hready hdark hfull => ?_, fun hclosed => ?_⟩
  · have hport := portAccepts_iff.mpr ⟨hfit, hready, hdark⟩
    show Host.Outcome.next (recordArrivalStep l w s) = _
    rw [recordArrivalStep, if_pos ⟨htype, hport⟩]
    exact congrArg Host.Outcome.next (if_pos hroom)
  · have hport := portAccepts_iff.mpr ⟨hfit, hready, hdark⟩
    show Host.Outcome.next (recordArrivalStep l w s) = _
    rw [recordArrivalStep, if_pos ⟨htype, hport⟩]
    exact congrArg Host.Outcome.next ((if_neg (Nat.not_lt.mpr hfull)).trans (setFlag_lit hdark _))
  · have hport : ¬(recordType w ≠ 4 ∧ s.portAccepts l = true) := by
      rintro ⟨-, hport⟩
      obtain ⟨hfit, hready, hdark⟩ := portAccepts_iff.mp hport
      obtain h | h | h := hclosed
      · simp [hfit] at h
      · exact h hready
      · exact hdark h
    show Host.Outcome.next (recordArrivalStep l w s) = _
    rw [recordArrivalStep, if_neg hport]

/-! ### LEVEL reports -/

/-- What a LEVEL report makes of an entry that it marks. -/
def Turn.staled (l : LaneNo) (carrying : Option Slice) (t : Turn) : Turn :=
  if t.inFlight l carrying then { t with stale := true } else t

theorem inFlightSum_cons (l : LaneNo) (carrying : Option Slice) (t : Turn) (ts : List Turn) :
    inFlightSum l carrying (t :: ts) = (if t.inFlight l carrying then t.payload else 0) + inFlightSum l carrying ts := by
  unfold inFlightSum
  cases h : t.inFlight l carrying <;> simp [h]

theorem inFlightSum_append (l : LaneNo) (carrying : Option Slice) (ts us : List Turn) :
    inFlightSum l carrying (ts ++ us) = inFlightSum l carrying ts + inFlightSum l carrying us := by
  simp [inFlightSum]

theorem staled_not_inFlight (l : LaneNo) (carrying : Option Slice) (t : Turn) :
    (t.staled l carrying).inFlight l carrying = false := by
  unfold Turn.staled
  split
  · simp [Turn.inFlight]
  · rename_i h
    exact eq_false_of_ne_true h

theorem inFlightSum_staled (l : LaneNo) (carrying : Option Slice) (ts : List Turn) :
    inFlightSum l carrying (ts.map (Turn.staled l carrying)) = 0 := by
  induction ts with
  | nil => rfl
  | cons t ts ih => simp [inFlightSum_cons, staled_not_inFlight, ih]

theorem staled_start (l : LaneNo) (carrying : Option Slice) (t : Turn) : (t.staled l carrying).start = t.start := by
  unfold Turn.staled
  split <;> rfl

theorem staled_payload (l : LaneNo) (carrying : Option Slice) (t : Turn) : (t.staled l carrying).payload = t.payload := by
  unfold Turn.staled
  split <;> rfl

/-- The entries marked are a tail of the list: the least one that brings the sum within the amount, or the whole list while the sum
stays above it. -/
theorem markStale_spec (l : LaneNo) (carrying : Option Slice) (amount sum : Nat) : ∀ ts : List Turn,
    inFlightSum l carrying ts ≤ sum →
    let r := markStale l carrying amount sum ts
    (∃ older newer, ts = older ++ newer ∧ r.1 = older ++ newer.map (Turn.staled l carrying) ∧
      r.2 + inFlightSum l carrying newer = sum ∧ r.2 ≤ amount ∧
      (newer = [] ∨ ∃ x more, newer = x :: more ∧ x.inFlight l carrying = true ∧ amount < r.2 + x.payload)) ∨
    (amount < r.2 ∧ r.1 = ts.map (Turn.staled l carrying) ∧ r.2 + inFlightSum l carrying ts = sum)
  | [], _ => by
    obtain h | h := le_or_gt sum amount
    · exact .inl ⟨[], [], rfl, rfl, rfl, h, .inl rfl⟩
    · exact .inr ⟨h, rfl, rfl⟩
  | t :: ts, hsum => by
    rw [inFlightSum_cons] at hsum
    simp only [markStale, inFlightSum_cons]
    obtain ⟨older, newer, hts, hmarked, htotal, hle, hleast⟩ | ⟨hlt, hmarked, htotal⟩ :=
      markStale_spec l carrying amount sum ts (by omega)
    · rw [if_neg fun h => Nat.not_lt.mpr hle h.2]
      exact .inl ⟨t :: older, newer, by rw [hts]; rfl, by rw [hmarked]; rfl, htotal, hle, hleast⟩
    · by_cases hfly : t.inFlight l carrying = true
      · rw [if_pos ⟨hfly, hlt⟩]
        simp only [hfly, if_true] at hsum ⊢
        have hmap : ({ t with stale := true } :: (markStale l carrying amount sum ts).1) =
            (t :: ts).map (Turn.staled l carrying) := by simp [hmarked, Turn.staled, hfly]
        obtain h | h := le_or_gt ((markStale l carrying amount sum ts).2 - t.payload) amount
        · refine .inl ⟨[], t :: ts, rfl, hmap, ?_, h, .inr ⟨t, ts, rfl, hfly, ?_⟩⟩
          · simp only [inFlightSum_cons, hfly, if_true]
            omega
          · omega
        · exact .inr ⟨h, hmap, by omega⟩
      · rw [if_neg fun h => hfly h.1, if_neg hfly]
        have hmap : (t :: (markStale l carrying amount sum ts).1) = (t :: ts).map (Turn.staled l carrying) := by
          simp [hmarked, Turn.staled, hfly]
        exact .inr ⟨hlt, hmap, by omega⟩

/-- Settles O31, by the tail that `markStale` marks. -/
theorem levelReportLeavesSumWithinAmount : Obligations.LevelReportLeavesSumWithinAmount := by
  intro l carrying amount e
  have hspec := markStale_spec l carrying amount (inFlightSum l carrying e.turns) e.turns le_rfl
  obtain ⟨older, newer, hturns, hmarked, htotal, hle, hleast⟩ | ⟨hlt, -, htotal⟩ := hspec
  · have hresult : (e.levelReport l carrying amount).turns = older ++ newer.map (Turn.staled l carrying) := hmarked
    have hsplit := congrArg (inFlightSum l carrying) hturns
    rw [inFlightSum_append] at hsplit
    refine ⟨?_, rfl, ?_, ?_, older, newer, hturns, hresult, by omega, ?_⟩
    · rw [hresult, inFlightSum_append, inFlightSum_staled]
      omega
    · rw [hresult, hturns]
      simp [Function.comp_def, staled_start]
    · rw [hresult, hturns]
      simp [Function.comp_def, staled_payload]
    · obtain rfl | ⟨x, more, rfl, hfly, hover⟩ := hleast
      · exact .inl rfl
      · refine .inr ⟨x, more, rfl, hfly, ?_⟩
        rw [inFlightSum_append, inFlightSum_cons, if_pos hfly]
        omega
  · omega

/-! ### Stray records -/

/-- A record that is discarded with STRAY, on a lane that is not DARK. -/
theorem stray_popped {l : LaneNo} {s : State} (hdark : s.laneState l ≠ .dark) (rest : List LaneRecord) :
    setFlag l .stray (modLane l (fun L => { L with fifo := rest }) s) =
      modPort (fun p => { p with summary := true }) (modLane l (fun L =>
        { L with fifo := rest, health := { L.health with flags := L.health.flags ||| 32 } }) s) := by
  rw [setFlag_lit (by simpa [State.laneState] using hdark), modHealth, modLane_modLane]
  rfl

/-- A demand record at the head of the FIFO is taken from it and applied. -/
theorem exec_demandReport_of_fifo {l : LaneNo} {w : LaneRecord} {rest : List LaneRecord} {s : State}
    (hfifo : (s.lane l).fifo = w :: rest) (htype : recordType w = 1) :
    exec (.demandReport l) s = .next (takeReport l w (modLane l (fun L => { L with fifo := rest }) s)) := by
  have hhead : s.headRecord l (· == 1) = some w := headRecord_of_fifo hfifo (by simp [htype])
  show Host.Outcome.next (demandReportStep l s) = _
  rw [demandReportStep, hhead, ← popRecord_of_fifo hfifo]

/-- A report that names a PROVISIONAL station, or comes on a lane the stream is not served on, is a stray. -/
theorem applyReport_stray {l : LaneNo} {e : Stream} {s : State} (carrying : Option Slice) (amount : Nat)
    (h : e.state = .provisional ∨ (e.served = true ∧ ((∃ k, e.place = .home k ∧ k ≠ l) ∨
      ∃ set i, e.place = .spread set i ∧ s.nodeLane l ∉ set))) : applyReport l carrying amount e s = setFlag l .stray s := by
  obtain h | ⟨hserved, hplace⟩ := h
  · simp [applyReport, h]
  · have hstate : e.state = .basic ∨ e.state = .admitted := by simpa [Stream.served] using hserved
    obtain ⟨k, hp, hk⟩ | ⟨set, i, hp, hset⟩ := hplace
    · obtain h | h := hstate <;> simp [applyReport, h, hp, hk]
    · obtain h | h := hstate <;> simp [applyReport, h, hp, hset]

/-- Settles O32, by the cause for which the record is discarded. -/
theorem strayRecordsSetStray : Obligations.StrayRecordsSetStray := by
  intro l w rest s hfifo hdark
  have hstray := stray_popped hdark rest
  refine ⟨fun htype hwhy => ?_, fun e htype hkind he hclosing => ?_, fun htype htag hwhy => ?_, fun htype => ?_⟩
  · rw [exec_demandReport_of_fifo hfifo htype, ← hstray]
    congr 1
    by_cases hkind : demandKind w = 3
    · simp [takeReport, hkind]
    · obtain h | h | ⟨e, he, hwhy⟩ := hwhy
      · exact absurd h hkind
      · have h' : (modLane l (fun L => { L with fifo := rest }) s).byTag (recordTag w) = none := h
        simp [takeReport, hkind, h']
      · have he' : (modLane l (fun L => { L with fifo := rest }) s).byTag (recordTag w) = some e := he
        simp only [takeReport, hkind, if_false, he']
        exact applyReport_stray _ _ hwhy
  · rw [exec_demandReport_of_fifo hfifo htype]
    congr 1
    have he' : (modLane l (fun L => { L with fifo := rest }) s).byTag (recordTag w) = some e := he
    simp only [takeReport, hkind, if_false, he', applyReport, hclosing]
  · rw [exec_burstOutcome_of_fifo hfifo htype, ← hstray]
    congr 1
    have hregion : ¬(recordTag w = Config.anyTag ∨ recordTag w = Config.newcomer) := by
      simp only [Config.anyTag, Config.newcomer]
      omega
    by_cases hcollided : outcomeResult w = .collided
    · simp only [takeOutcome, hregion, if_false, hcollided, if_true]
    · obtain h | h | ⟨e, he, hturn⟩ := hwhy
      · exact absurd h hcollided
      · have h' : (modLane l (fun L => { L with fifo := rest }) s).byTag (recordTag w) = none := h
        simp only [takeOutcome, hregion, if_false, hcollided, h']
      · have he' : (modLane l (fun L => { L with fifo := rest }) s).byTag (recordTag w) = some e := he
        simp only [takeOutcome, hregion, if_false, hcollided, he', hturn]
  · have hhead : s.headRecord l (fun t => !(t == 1 || t == 2 || t == 3)) = some w := by
      refine headRecord_of_fifo hfifo ?_
      simp only [Bool.not_eq_true', Bool.or_eq_false_iff, beq_eq_false_iff_ne]
      omega
    show Host.Outcome.next (unknownTypeStep l s) = _
    rw [unknownTypeStep, hhead, ← hstray, ← popRecord_of_fifo hfifo]

end Sys2Proof.Machine
end

section
/-! PROOF. The order port: refusals, reads, status, frames and replies (O47, O53 to O56, O58). -/

namespace Sys2Proof.Machine

/-! ### Orders before READY -/

theorem whenReady_ready {s : State} (h : s.boot.startup = .ready) (seq : Byte) (k : State → State) : whenReady seq k s = k s :=
  if_pos h

theorem whenReady_notReady {s : State} (h : s.boot.startup ≠ .ready) (seq : Byte) (k : State → State) :
    whenReady seq k s = refuse seq .notReady s :=
  if_neg h

/-- Settles O47: each order other than STATUS stands behind `whenReady`. -/
theorem ordersRefusedBeforeReady : Obligations.OrdersRefusedBeforeReady := by
  intro seq s h
  have hrefused : ∀ k : State → State, Host.Outcome.next (whenReady seq k s) =
      (Host.Outcome.next (refuse seq .notReady s) : Host.Outcome State Fault Refusal) :=
    fun k => congrArg Host.Outcome.next (whenReady_notReady h seq k)
  refine ⟨fun f hf => ?_, fun _ => hrefused _, fun _ => hrefused _, fun _ => hrefused _, fun _ => hrefused _,
    fun _ _ => hrefused _, fun _ => hrefused _, fun x v hx => ?_, hrefused _, fun _ => hrefused _, fun _ _ => hrefused _,
    hrefused _, hrefused _⟩
  · have : exec (.admitOrder seq f) s = .next (whenReady seq _ s) := congrArg Host.Outcome.next (if_neg (by simp [hf]))
    exact this.trans (hrefused _)
  · have : exec (.readStream seq x v) s = .next (whenReady seq _ s) := congrArg Host.Outcome.next (if_neg (by simp [hx]))
    exact this.trans (hrefused _)

/-! ### Reads -/

theorem readStreamStep_number {s : State} (h : s.boot.startup = .ready) (seq : Byte) {v : BitVec 16} (hv : v.toNat < 4096) :
    readStreamStep seq 1 v s = reportEntry seq v.toNat s := by
  rw [readStreamStep, if_neg (by decide), whenReady_ready h, if_neg (by decide)]
  exact if_pos hv

theorem readStreamStep_tag {s : State} (h : s.boot.startup = .ready) (seq : Byte) (v : BitVec 16) :
    (∀ n, s.lookupTag v.toNat = some n → readStreamStep seq 0 v s = reportEntry seq n s) ∧
      (s.lookupTag v.toNat = none → readStreamStep seq 0 v s = refuse seq .badTag s) := by
  rw [readStreamStep, if_neg (by decide), whenReady_ready h]
  exact ⟨fun n hn => by simp only [hn, if_true], fun hn => by simp only [hn, if_true]⟩

theorem reportEntry_used {s : State} {n : Nat} {e : Stream} (he : s.entry? n = some e) (seq : Byte) :
    reportEntry seq n s = { s with port := { s.port with
      holder := .unread { seq := seq, result := .done, note := .none, data := s.entryReport e }, cursor := n,
      walkStart := false } } := by
  simp only [reportEntry, he]
  rfl

theorem reportEntry_free {s : State} {n : Nat} (he : s.entry? n = none) (seq : Byte) :
    reportEntry seq n s = { s with port := { s.port with
      holder := .unread { seq := seq, result := .done, note := .none, data := bytesOf 2 n ++ [0] }, cursor := n,
      walkStart := false } } := by
  simp only [reportEntry, he]
  rfl

theorem readNextStep_eq {s : State} (h : s.boot.startup = .ready) (seq : Byte) :
    readNextStep seq s = (s.nextEntry.map fun e => reportEntry seq e.entry s).getD
      (endWalk (putReply seq .done .endNote [] s)) := by
  rw [readNextStep, whenReady_ready h]
  cases s.nextEntry <;> rfl

theorem readCadenceStep_eq {s : State} (h : s.boot.startup = .ready) (seq : Byte) (k : BitVec 16) :
    readCadenceStep seq k s =
      if k.toNat ≥ 512 then refuse seq .badChannel s else answerData seq (s.channelReport k.toNat) s := by
  rw [readCadenceStep, whenReady_ready h]
  rfl

theorem readLaneStep_fitted {s : State} (h : s.boot.startup = .ready) (seq : Byte) {lane : Byte} {l : LaneNo}
    (hl : s.fittedByte lane = some l) (c : BitVec 16) :
    readLaneStep seq lane c s = clearFlags l c (answerData seq (s.laneReport l) s) := by
  rw [readLaneStep, whenReady_ready h]
  simp only [hl]

theorem readLaneStep_unfitted {s : State} (h : s.boot.startup = .ready) (seq : Byte) {lane : Byte}
    (hl : s.fittedByte lane = none) (c : BitVec 16) : readLaneStep seq lane c s = refuse seq .badLane s := by
  rw [readLaneStep, whenReady_ready h]
  simp only [hl]

/-- Settles O53, by the lemma of each read. -/
theorem readsReportAndMoveCursor : Obligations.ReadsReportAndMoveCursor := by
  intro seq s h
  refine ⟨fun v e hv he => ?_, fun v hv he => ?_, fun v hv => ?_, fun v n e hn he => ?_, fun v hn => ?_, fun e hfind he => ?_,
    fun hnone => ?_, fun k hk => ?_, fun k hk hc => ?_, fun k c hk hc => ?_, fun lane l c hl => ?_, fun lane c hl => ?_, ?_⟩
  · exact congrArg Host.Outcome.next ((readStreamStep_number h seq hv).trans (reportEntry_used he seq))
  · exact congrArg Host.Outcome.next ((readStreamStep_number h seq hv).trans (reportEntry_free he seq))
  · show Host.Outcome.next (readStreamStep seq 1 v s) = _
    rw [readStreamStep, if_neg (by decide), whenReady_ready h, if_neg (by decide)]
    exact congrArg Host.Outcome.next (if_neg (Nat.not_lt.mpr hv))
  · show Host.Outcome.next (readStreamStep seq 0 v s) = _
    rw [(readStreamStep_tag h seq v).1 _ hn]
    exact congrArg Host.Outcome.next (reportEntry_used he seq)
  · show Host.Outcome.next (readStreamStep seq 0 v s) = _
    rw [(readStreamStep_tag h seq v).2 hn]
  · have hnext : s.nextEntry = some e := hfind
    show Host.Outcome.next (readNextStep seq s) = _
    rw [readNextStep_eq h, hnext]
    exact congrArg Host.Outcome.next (reportEntry_used he seq)
  · have hnext : s.nextEntry = none := by
      refine List.find?_eq_none.mpr fun e he => ?_
      obtain ⟨hwalk, hle⟩ := hnone e he
      simp [hwalk, hle]
    show Host.Outcome.next (readNextStep seq s) = _
    rw [readNextStep_eq h, hnext]
    rfl
  · show Host.Outcome.next (readCadenceStep seq k s) = _
    rw [readCadenceStep_eq h, if_pos (by omega)]
  · show Host.Outcome.next (readCadenceStep seq k s) = _
    rw [readCadenceStep_eq h, if_neg (by omega), State.channelReport, hc]
    rfl
  · show Host.Outcome.next (readCadenceStep seq k s) = _
    rw [readCadenceStep_eq h, if_neg (by omega), State.channelReport, hc]
    rfl
  · exact congrArg Host.Outcome.next (readLaneStep_fitted h seq hl c)
  · exact congrArg Host.Outcome.next (readLaneStep_unfitted h seq hl c)
  · show Host.Outcome.next (readPeersStep seq s) = _
    rw [readPeersStep, whenReady_ready h]
    rfl

/-! ### Status messages -/

/-- Settles O54, by the head of the status queue. -/
theorem fetchStatusRemovesOldest : Obligations.FetchStatusRemovesOldest := by
  intro seq s h
  constructor
  · intro m rest hq
    refine ⟨answerData seq (m.bytes ++ code rest.length) (modPort (fun p => { p with statusQueue := rest }) s), ?_, rfl,
      fun _ _ _ _ => rfl, fun m' hlen => ?_⟩
    · show Host.Outcome.next (fetchStatusStep seq s) = _
      rw [fetchStatusStep, whenReady_ready h]
      simp only [hq]
    · have hroom : rest.length < 32 := by
        rw [hq, List.length_cons] at hlen
        omega
      exact congrArg (fun t : State => t.port.statusQueue) (if_pos hroom)
  · intro hq
    show Host.Outcome.next (fetchStatusStep seq s) = _
    rw [fetchStatusStep, whenReady_ready h]
    simp only [hq]

/-- Settles O55: the mark is bit 0 of its byte. -/
theorem statusReportsAndClears : Obligations.StatusReportsAndClears := by
  intro seq mark s
  have hmark : (s.port.summary && decide (mark.toNat % 2 = 0)) = if mark.getLsbD 0 then false else s.port.summary := by
    obtain hbit | hbit := Nat.mod_two_eq_zero_or_one mark.toNat <;>
      simp [BitVec.getLsbD, Nat.testBit_zero, hbit]
  show Host.Outcome.next (statusStep seq mark s) = _
  simp only [statusStep, modPort, answerData, putReply, hmark]

/-! ### Replies -/

theorem length_byteBits (b : Byte) : (byteBits b).length = 8 := by
  simp [byteBits, bitsOf]

theorem length_flatMap_byteBits (bytes : List Byte) : (bytes.flatMap byteBits).length = 8 * bytes.length := by
  induction bytes with
  | nil => rfl
  | cons b bytes ih =>
    rw [List.flatMap_cons, List.length_append, length_byteBits, ih, List.length_cons]
    omega

theorem length_bytesOf (count n : Nat) : (bytesOf count n).length = count := by
  simp [bytesOf]

theorem length_reply (again : Bool) (r : Reply) : (r.bytes again).length = 6 + r.data.length := by
  simp only [Reply.bytes, code, markItem, List.length_append, length_bytesOf, List.length_cons, List.length_nil]

theorem shiftedOut_eq (bytes : List Byte) (n : Nat) :
    shiftedOut bytes n = (bytes.flatMap byteBits ++ List.replicate (n - 8 * bytes.length) false).take n := by
  rw [shiftedOut, length_flatMap_byteBits, List.take_append, length_flatMap_byteBits, List.take_replicate, min_self]

/-- A transaction of as many bits as the reply, or more, reads the reply whole. -/
theorem shiftedOut_whole {bytes : List Byte} {n : Nat} (h : 8 * bytes.length ≤ n) :
    (shiftedOut bytes n).take (8 * bytes.length) = bytes.flatMap byteBits := by
  rw [shiftedOut_eq, List.take_take, min_eq_left h, List.take_append_of_le_length (by rw [length_flatMap_byteBits]),
    List.take_of_length_le (by rw [length_flatMap_byteBits])]

theorem shiftedOut_cut {bytes : List Byte} {n : Nat} (h : n < 8 * bytes.length) :
    shiftedOut bytes n = (bytes.flatMap byteBits).take n := by
  rw [shiftedOut, length_flatMap_byteBits, Nat.sub_eq_zero_of_le h.le]
  simp

theorem replyTransactionStep_eq (n : Nat) (s : State) :
    replyTransactionStep n s = { s with port := { s.port with
      replyOut := shiftedOut s.port.holder.bytes n,
      holder := if n ≥ 8 * s.port.holder.bytes.length then s.port.holder.readOut else s.port.holder } } := rfl

/-- Settles O56, by the reply holder's state. -/
theorem badFramesAndReplyTransactions : Obligations.BadFramesAndReplyTransactions := by
  refine ⟨fun frame s hbad => ?_, fun n r s hholder => ⟨fun hn => ?_, fun hn => ?_⟩, fun n r s hholder => ?_,
    fun n s hholder => ?_, fun r again => ?_⟩
  · show Host.Outcome.next (orderBadFormatStep frame s) = _
    rw [orderBadFormatStep, if_pos hbad]
    simp [byteAt, List.getD]
  · have hlen : 8 * (s.port.holder.bytes).length ≤ n := by
      rw [hholder, ReplyHolder.bytes, length_reply]
      exact hn
    refine ⟨replyTransactionStep n s, rfl, ?_, ?_⟩
    · rw [replyTransactionStep_eq, if_pos hlen, hholder]
      rfl
    · have hwhole := shiftedOut_whole hlen
      rw [hholder, ReplyHolder.bytes, length_reply] at hwhole
      rw [replyTransactionStep_eq, hholder]
      exact hwhole
  · have hlen : n < 8 * (s.port.holder.bytes).length := by
      rw [hholder, ReplyHolder.bytes, length_reply]
      exact hn
    refine ⟨replyTransactionStep n s, rfl, ?_, ?_⟩
    · rw [replyTransactionStep_eq, if_neg (Nat.not_le.mpr hlen)]
    · have hcut := shiftedOut_cut hlen
      rw [replyTransactionStep_eq]
      rw [hholder] at hcut ⊢
      exact hcut
  · refine ⟨replyTransactionStep n s, rfl, ?_, ?_⟩
    · rw [replyTransactionStep_eq, hholder]
      simp [ReplyHolder.readOut, hholder]
    · rw [replyTransactionStep_eq]
      show shiftedOut s.port.holder.bytes n = _
      rw [shiftedOut_eq, hholder, ReplyHolder.bytes, length_reply]
  · refine ⟨replyTransactionStep n s, rfl, ?_, ?_⟩
    · rw [replyTransactionStep_eq, hholder]
      simp [ReplyHolder.readOut, hholder]
    · rw [replyTransactionStep_eq]
      show shiftedOut s.port.holder.bytes n = _
      rw [shiftedOut_eq, hholder]
      rfl
  · refine ⟨BitVec.ofNat 8 r.result.code, BitVec.ofNat 8 r.note.code, ?_⟩
    cases again <;> rfl

end Sys2Proof.Machine

namespace Sys2Proof

open Machine

/-! ### Order frames -/

theorem field16_bytes16 (w : BitVec 16) : (w.extractLsb' 8 8 ++ w.extractLsb' 0 8 : BitVec 16) = w := by
  ext i hi
  simp only [BitVec.getElem_append, BitVec.getElem_extractLsb']
  split
  · rw [Nat.zero_add, BitVec.getLsbD_eq_getElem hi]
  · rw [show 8 + (i - 8) = i by omega, BitVec.getLsbD_eq_getElem hi]

theorem field24_bytes24 (w : BitVec 24) :
    ((w.extractLsb' 16 8 ++ w.extractLsb' 8 8 : BitVec 16) ++ w.extractLsb' 0 8 : BitVec 24) = w := by
  ext i hi
  simp only [BitVec.getElem_append, BitVec.getElem_extractLsb']
  split
  · rw [Nat.zero_add, BitVec.getLsbD_eq_getElem hi]
  · split
    · rw [show 8 + (i - 8) = i by omega, BitVec.getLsbD_eq_getElem hi]
    · rw [show 16 + (i - 8 - 8) = i by omega, BitVec.getLsbD_eq_getElem hi]

theorem toList_vector4 {α : Type} (v : Vector α 4) : v.toList = [v[0], v[1], v[2], v[3]] := by
  refine List.ext_getElem (by simp) fun i h _ => ?_
  have hi : i < 4 := by simpa using h
  interval_cases i <;> simp

theorem toList_vector8 {α : Type} (v : Vector α 8) : v.toList = [v[0], v[1], v[2], v[3], v[4], v[5], v[6], v[7]] := by
  refine List.ext_getElem (by simp) fun i h _ => ?_
  have hi : i < 8 := by simpa using h
  interval_cases i <;> simp

theorem ofFn_vector4 {α : Type} (v : Vector α 4) (f : Fin 4 → α) (h : f 0 = v[0] ∧ f 1 = v[1] ∧ f 2 = v[2] ∧ f 3 = v[3]) :
    Vector.ofFn f = v := by
  obtain ⟨h0, h1, h2, h3⟩ := h
  refine Vector.ext fun i hi => ?_
  rw [Vector.getElem_ofFn]
  interval_cases i
  · exact h0
  · exact h1
  · exact h2
  · exact h3

theorem ofFn_vector8 {α : Type} (v : Vector α 8) (f : Fin 8 → α)
    (h : f 0 = v[0] ∧ f 1 = v[1] ∧ f 2 = v[2] ∧ f 3 = v[3] ∧ f 4 = v[4] ∧ f 5 = v[5] ∧ f 6 = v[6] ∧ f 7 = v[7]) :
    Vector.ofFn f = v := by
  obtain ⟨h0, h1, h2, h3, h4, h5, h6, h7⟩ := h
  refine Vector.ext fun i hi => ?_
  rw [Vector.getElem_ofFn]
  interval_cases i
  · exact h0
  · exact h1
  · exact h2
  · exact h3
  · exact h4
  · exact h5
  · exact h6
  · exact h7

/-- A frame of the length its code asks for, which is neither an ADMIT nor a READ STREAM, decodes by its code. -/
theorem decodeOrder_plain {c : Byte} {rest : List Byte} (hlen : orderLength c.toNat = some (c :: rest).length) (h0 : c ≠ 0)
    (h1 : c ≠ 1) (h8 : c ≠ 8) : decodeOrder (c :: rest) = some (orderOf (c :: rest)) := by
  simp only [decodeOrder, orderMalformed, if_neg h0, if_neg h1, if_neg h8, hlen, ne_eq, not_true_eq_false, if_false,
    Bool.false_eq_true]

theorem decodeOrder_readStream (seq selector : Byte) (v : BitVec 16) (h : selectorMalformed selector = false) :
    decodeOrder ([8, seq, selector] ++ bytes16 v) = some (.readStream seq selector v) := by
  have hbad : orderMalformed ([8, seq, selector] ++ bytes16 v) = false := by
    simp only [orderMalformed, bytes16, List.cons_append, List.nil_append]
    rw [if_neg (by decide), if_neg (by simp [orderLength]), if_neg (by decide), if_pos trivial]
    exact h
  simp only [decodeOrder, List.cons_append, List.nil_append] at hbad ⊢
  rw [if_neg (by decide), hbad]
  exact congrArg (fun w => some (Instr.readStream seq selector w)) (field16_bytes16 v)

/-- The frame of an ADMIT, byte by byte. -/
theorem admitFrame_eq (seq : Byte) (f : AdmitFields) :
    [1, seq] ++ bytes16 f.tag ++ bytes16 f.parent ++ [f.classMode] ++ bytes16 f.quantum ++ [f.pollInterval, f.laneCount] ++
        f.lanes.toList ++ f.profiles.toList =
      1 :: seq :: f.tag.extractLsb' 8 8 :: f.tag.extractLsb' 0 8 :: f.parent.extractLsb' 8 8 :: f.parent.extractLsb' 0 8 ::
        f.classMode :: f.quantum.extractLsb' 8 8 :: f.quantum.extractLsb' 0 8 :: f.pollInterval :: f.laneCount ::
        (f.lanes.toList ++ f.profiles.toList) := by
  simp [bytes16]

theorem decodeOrder_admit (seq : Byte) (f : AdmitFields) (h : admitMalformed f = false) :
    decodeOrder ([1, seq] ++ bytes16 f.tag ++ bytes16 f.parent ++ [f.classMode] ++ bytes16 f.quantum ++
      [f.pollInterval, f.laneCount] ++ f.lanes.toList ++ f.profiles.toList) = some (.admitOrder seq f) := by
  rw [admitFrame_eq]
  simp only [admitMalformed, Bool.or_eq_false_iff, decide_eq_false_iff_not, not_lt] at h
  obtain ⟨hcount, hlanes⟩ := h
  have htake : (f.lanes.toList ++ f.profiles.toList).take f.laneCount.toNat = f.lanes.toList.take f.laneCount.toNat :=
    List.take_append_of_le_length (by simpa using hcount)
  have hbad : orderMalformed (1 :: seq :: f.tag.extractLsb' 8 8 :: f.tag.extractLsb' 0 8 :: f.parent.extractLsb' 8 8 ::
      f.parent.extractLsb' 0 8 :: f.classMode :: f.quantum.extractLsb' 8 8 :: f.quantum.extractLsb' 0 8 :: f.pollInterval ::
      f.laneCount :: (f.lanes.toList ++ f.profiles.toList)) = false := by
    simp only [orderMalformed]
    rw [if_neg (by decide), if_neg (by simp [orderLength]), if_pos trivial]
    have hany : ((f.lanes.toList ++ f.profiles.toList).take f.laneCount.toNat).any (fun b => decide (b.toNat > 31)) = false := by
      rw [htake]
      exact hlanes
    simpa [byteAt, hcount] using hany
  simp only [decodeOrder]
  rw [if_neg (by decide), hbad, toList_vector8, toList_vector4]
  have hfields : admitOf (1 :: seq :: f.tag.extractLsb' 8 8 :: f.tag.extractLsb' 0 8 :: f.parent.extractLsb' 8 8 ::
      f.parent.extractLsb' 0 8 :: f.classMode :: f.quantum.extractLsb' 8 8 :: f.quantum.extractLsb' 0 8 :: f.pollInterval ::
      f.laneCount :: ([f.lanes[0], f.lanes[1], f.lanes[2], f.lanes[3], f.lanes[4], f.lanes[5], f.lanes[6], f.lanes[7]] ++
        [f.profiles[0], f.profiles[1], f.profiles[2], f.profiles[3]])) = f := by
    refine (AdmitFields.mk.injEq ..).mpr ⟨field16_bytes16 _, field16_bytes16 _, rfl, field16_bytes16 _, rfl, rfl, ?_, ?_⟩
    · exact ofFn_vector8 _ _ ⟨rfl, rfl, rfl, rfl, rfl, rfl, rfl, rfl⟩
    · exact ofFn_vector4 _ _ ⟨rfl, rfl, rfl, rfl⟩
  exact congrArg (fun g => some (Instr.admitOrder seq g)) hfields

theorem decodeOrder_amend (seq : Byte) (f : AmendFields) :
    decodeOrder ([2, seq] ++ bytes16 f.tag ++ [f.keep, f.classMode] ++ bytes16 f.quantum ++ [f.pollInterval] ++
      f.profiles.toList) = some (.amend seq f) := by
  rw [toList_vector4]
  refine (decodeOrder_plain rfl (by decide) (by decide) (by decide)).trans ?_
  refine congrArg (fun g => some (Instr.amend seq g)) ?_
  refine (AmendFields.mk.injEq ..).mpr ⟨field16_bytes16 _, rfl, rfl, field16_bytes16 _, rfl, ?_⟩
  exact ofFn_vector4 _ _ ⟨rfl, rfl, rfl, rfl⟩

theorem decodeOrder_cadenceOpen (seq : Byte) (f : CadenceOpenFields) :
    decodeOrder ([4, seq] ++ bytes16 f.channel ++ bytes16 f.tag ++ [f.lane] ++ bytes24 f.firstDue ++ bytes24 f.period ++
      bytes16 f.payload ++ bytes16 f.jitter ++ bytes16 f.initialCount ++ [f.endAction]) = some (.cadenceOpen seq f) := by
  refine (decodeOrder_plain rfl (by decide) (by decide) (by decide)).trans ?_
  refine congrArg (fun g => some (Instr.cadenceOpen seq g)) ?_
  exact (CadenceOpenFields.mk.injEq ..).mpr ⟨field16_bytes16 _, field16_bytes16 _, rfl, field24_bytes24 _, field24_bytes24 _,
    field16_bytes16 _, field16_bytes16 _, field16_bytes16 _, rfl⟩

theorem decodeOrder_badFormat {frame : List Byte} (h : orderMalformed frame = true) :
    decodeOrder frame = some (.orderBadFormat frame) := by
  cases frame with
  | nil => simp [orderMalformed] at h
  | cons c rest =>
    have h0 : c ≠ 0 := by
      rintro rfl
      simp [orderMalformed] at h
    simp only [decodeOrder, h0, if_false, h, if_true]

/-- Settles O58, by the lemma of each order's frame; no other command has a frame. -/
theorem orderFramesRoundTrip : Obligations.OrderFramesRoundTrip := by
  intro i f hwf hf
  have plain : ∀ {c : Byte} {rest : List Byte}, orderLength c.toNat = some (c :: rest).length → c ≠ 0 → c ≠ 1 → c ≠ 8 →
      decodeOrder (c :: rest) = some (orderOf (c :: rest)) := decodeOrder_plain
  cases i <;> cases hf
  case admitOrder seq g => exact decodeOrder_admit seq g (by simpa [WellFormed, Instr.wf] using hwf)
  case amend seq g => exact decodeOrder_amend seq g
  case retire seq tag =>
    exact (plain rfl (by decide) (by decide) (by decide)).trans (congrArg (fun w => some (Instr.retire seq w)) (field16_bytes16 tag))
  case cadenceOpen seq g => exact decodeOrder_cadenceOpen seq g
  case cadenceClose seq k =>
    exact (plain rfl (by decide) (by decide) (by decide)).trans
      (congrArg (fun w => some (Instr.cadenceClose seq w)) (field16_bytes16 k))
  case laneUp => exact plain rfl (by decide) (by decide) (by decide)
  case laneDown => exact plain rfl (by decide) (by decide) (by decide)
  case readStream seq x v => exact decodeOrder_readStream seq x v (by simpa [WellFormed, Instr.wf] using hwf)
  case readNext => exact plain rfl (by decide) (by decide) (by decide)
  case readCadence seq k =>
    exact (plain rfl (by decide) (by decide) (by decide)).trans
      (congrArg (fun w => some (Instr.readCadence seq w)) (field16_bytes16 k))
  case readLane seq lane c =>
    exact (plain rfl (by decide) (by decide) (by decide)).trans
      (congrArg (fun w => some (Instr.readLane seq lane w)) (field16_bytes16 c))
  case readPeers => exact plain rfl (by decide) (by decide) (by decide)
  case fetchStatus => exact plain rfl (by decide) (by decide) (by decide)
  case status => exact plain rfl (by decide) (by decide) (by decide)
  case orderBadFormat => exact decodeOrder_badFormat hwf

end Sys2Proof
end

section
/-! PROOF. Arbitration, a station's reading of the bus, and the frames (O36, O37, O38). -/

namespace Sys2Proof.Machine

/-! ### Numbers as runs of bits -/

theorem foldl_bits (bits : List Bool) : ∀ a : Nat,
    bits.foldl (fun a b => 2 * a + b.toNat) a = a * 2 ^ bits.length + natOfBits bits := by
  induction bits with
  | nil => simp [natOfBits]
  | cons b bits ih =>
    intro a
    have h0 : natOfBits (b :: bits) = b.toNat * 2 ^ bits.length + natOfBits bits := by
      rw [natOfBits, List.foldl_cons, ih]
      simp
    rw [List.foldl_cons, ih, h0, List.length_cons, Nat.pow_succ]
    ring

theorem natOfBits_cons (b : Bool) (bits : List Bool) : natOfBits (b :: bits) = b.toNat * 2 ^ bits.length + natOfBits bits := by
  rw [natOfBits, List.foldl_cons, foldl_bits]
  simp

theorem natOfBits_append (xs ys : List Bool) : natOfBits (xs ++ ys) = natOfBits xs * 2 ^ ys.length + natOfBits ys := by
  rw [natOfBits, List.foldl_append, foldl_bits]
  rfl

theorem natOfBits_lt (bits : List Bool) : natOfBits bits < 2 ^ bits.length := by
  induction bits with
  | nil => simp [natOfBits]
  | cons b bits ih =>
    rw [natOfBits_cons, List.length_cons, Nat.pow_succ]
    cases b <;> simp <;> omega

@[simp] theorem length_bitsOf (w n : Nat) : (bitsOf w n).length = w := by simp [bitsOf]

theorem bitsOf_succ (w n : Nat) : bitsOf (w + 1) n = n.testBit w :: bitsOf w n := by
  simp only [bitsOf, List.range_succ_eq_map, List.map_cons, List.map_map]
  refine congrArg₂ List.cons (by simp) (List.map_congr_left fun i _ => ?_)
  show n.testBit (w + 1 - 1 - (i + 1)) = n.testBit (w - 1 - i)
  congr 1
  omega

theorem natOfBits_bitsOf (w n : Nat) : natOfBits (bitsOf w n) = n % 2 ^ w := by
  induction w with
  | zero => simp [bitsOf, natOfBits, Nat.mod_one]
  | succ w ih =>
    rw [bitsOf_succ, natOfBits_cons, length_bitsOf, ih, Nat.testBit_eq_decide_div_mod_eq, Nat.mod_pow_succ]
    obtain h | h := Nat.mod_two_eq_zero_or_one (n / 2 ^ w) <;> simp [h] <;> omega

/-! ### Bitwise arbitration -/

theorem readsDominant_cons (b c : Bool) (own other : List Bool) :
    readsDominant (b :: own) (c :: other) = ((b && !c) || readsDominant own other) := by
  simp [readsDominant]

theorem readsDominant_nil (own : List Bool) : readsDominant own [] = false := by simp [readsDominant]

theorem rivalLevel_of_all {rivals : List Rival} {b : Bool} (h : ¬(b && !(b && rivals.all rivalLevel)) = true) {r : Rival}
    (hr : r ∈ rivals) : b = true → rivalLevel r = true := by
  intro hb
  simp only [hb, Bool.true_and, Bool.not_eq_true', Bool.not_eq_false, List.all_eq_true] at h
  exact h r hr

theorem level_of_not_lost {rivals : List Rival} {b : Bool} (h : ¬(b && !(b && rivals.all rivalLevel)) = true) :
    (b && rivals.all rivalLevel) = b := by
  cases b
  · rfl
  · simpa using h

/-- One bit of an arbitration that is not lost there: the rivals go on as at that level. -/
theorem arbitrate_cons {b : Bool} {own : List Bool} {rivals : List Rival}
    (h : ¬(b && !(b && rivals.all rivalLevel)) = true) :
    arbitrate (b :: own) rivals = arbitrate own (rivals.filterMap (rivalNext b)) := by
  rw [arbitrate, level_of_not_lost h]
  exact if_neg (by simp)

theorem arbitrate_lost {b : Bool} {own : List Bool} {rivals : List Rival}
    (h : (b && !(b && rivals.all rivalLevel)) = true) : arbitrate (b :: own) rivals = (false, rivals) := by
  rw [arbitrate]
  exact if_pos h

theorem rivalNext_midFrame (b : Bool) (bits : List Bool) : rivalNext b (.midFrame bits) = some (.midFrame bits.tail) := rfl

theorem rivalNext_begins {b : Bool} {bits : List Bool} : rivalNext b (.begins bits) =
    if bits.headD true = b then some (.begins bits.tail) else none := rfl

/-- A rival that is still driving drives what is left of its bits. -/
theorem rivalNext_bits {b : Bool} {r x : Rival} (h : rivalNext b r = some x) : rivalBits x = (rivalBits r).tail := by
  cases r with
  | begins bits =>
    rw [rivalNext_begins] at h
    split at h
    · cases h
      rfl
    · cases h
  | midFrame bits =>
    cases h
    rfl

/-- A sender that wins read no dominant level of a station in the middle of a frame, which drives on. -/
theorem arbitrate_midFrame : ∀ (own : List Bool) (rivals : List Rival) (bits : List Bool),
    (arbitrate own rivals).1 = true → .midFrame bits ∈ rivals →
      readsDominant own bits = false ∧ .midFrame (bits.drop own.length) ∈ (arbitrate own rivals).2
  | [], rivals, bits, _, hmem => ⟨by simp [readsDominant], hmem⟩
  | b :: own, rivals, bits, hwin, hmem => by
    by_cases hlost : (b && !(b && rivals.all rivalLevel)) = true
    · rw [arbitrate_lost hlost] at hwin
      cases hwin
    · have hnext : .midFrame bits.tail ∈ rivals.filterMap (rivalNext b) :=
        List.mem_filterMap.mpr ⟨_, hmem, rivalNext_midFrame b bits⟩
      rw [arbitrate_cons hlost] at hwin ⊢
      obtain ⟨hread, hin⟩ := arbitrate_midFrame own _ bits.tail hwin hnext
      have hlevel := rivalLevel_of_all hlost hmem
      cases bits with
      | nil => exact ⟨readsDominant_nil _, by simpa using hin⟩
      | cons c bits =>
        refine ⟨?_, by simpa using hin⟩
        rw [readsDominant_cons, Bool.or_eq_false_iff]
        refine ⟨?_, hread⟩
        cases b
        · rfl
        · have : c = true := hlevel rfl
          simp [this]

/-- Each rival that is left when a sender wins drives what is left of a rival's bits. -/
theorem arbitrate_rest : ∀ (own : List Bool) (rivals : List Rival), (arbitrate own rivals).1 = true →
    ∀ x ∈ (arbitrate own rivals).2, ∃ r ∈ rivals, rivalBits x = (rivalBits r).drop own.length
  | [], rivals, _, x, hx => ⟨x, hx, rfl⟩
  | b :: own, rivals, hwin, x, hx => by
    by_cases hlost : (b && !(b && rivals.all rivalLevel)) = true
    · rw [arbitrate_lost hlost] at hwin
      cases hwin
    · rw [arbitrate_cons hlost] at hwin hx
      obtain ⟨y, hy, hbits⟩ := arbitrate_rest own _ hwin x hx
      obtain ⟨r, hr, hnext⟩ := List.mem_filterMap.mp hy
      refine ⟨r, hr, ?_⟩
      rw [hbits, rivalNext_bits hnext, List.drop_tail, List.length_cons]

/-- The two conditions under which a sender wins. -/
def Wins (own : List Bool) (rivals : List Rival) : Prop :=
  (∀ bits, .midFrame bits ∈ rivals → readsDominant own bits = false) ∧
    ∀ bits, .begins bits ∈ rivals → natOfBits own ≤ natOfBits (bits.take own.length)

/-- A dominant level of any rival at a recessive bit of the sender breaks one of its conditions. -/
theorem not_wins_of_lost {b : Bool} {own : List Bool} {rivals : List Rival}
    (hlen : ∀ bits, .begins bits ∈ rivals → bits.length ≥ (b :: own).length)
    (h : (b && !(b && rivals.all rivalLevel)) = true) : ¬Wins (b :: own) rivals := by
  rintro ⟨hmid, hbegin⟩
  simp only [Bool.and_eq_true, Bool.not_eq_true', Bool.and_eq_false_iff] at h
  obtain ⟨rfl, h⟩ := h
  obtain ⟨r, hr, hlevel⟩ : ∃ r ∈ rivals, rivalLevel r = false := by
    simpa using h
  cases r with
  | midFrame bits =>
    cases bits with
    | nil => simp [rivalLevel, rivalBits] at hlevel
    | cons c bits =>
      have hc : c = false := hlevel
      have := hmid _ hr
      simp [readsDominant_cons, hc] at this
  | begins bits =>
    cases bits with
    | nil => simp [rivalLevel, rivalBits] at hlevel
    | cons c bits =>
      have hc : c = false := hlevel
      have hle := hbegin _ hr
      have hl : own.length ≤ bits.length := by simpa using hlen _ hr
      have hlt := natOfBits_lt (bits.take own.length)
      rw [List.length_cons, List.take_succ_cons, natOfBits_cons, natOfBits_cons, hc, List.length_take, min_eq_left hl] at hle
      rw [List.length_take, min_eq_left hl] at hlt
      simp at hle
      omega

/-- One bit of an arbitration that is not lost there leaves the conditions for the bits that follow. -/
theorem wins_cons_iff {b : Bool} {own : List Bool} {rivals : List Rival}
    (hlen : ∀ bits, .begins bits ∈ rivals → bits.length ≥ (b :: own).length)
    (h : ¬(b && !(b && rivals.all rivalLevel)) = true) :
    Wins (b :: own) rivals ↔ Wins own (rivals.filterMap (rivalNext b)) := by
  have hmid : ∀ bits, .midFrame bits ∈ rivals → readsDominant (b :: own) bits = readsDominant own bits.tail := by
    intro bits hr
    cases bits with
    | nil => rw [readsDominant_nil, List.tail_nil, readsDominant_nil]
    | cons c bits =>
      have hlevel : b = true → c = true := rivalLevel_of_all h hr
      rw [readsDominant_cons]
      cases b
      · simp
      · simp [hlevel rfl]
  have hbegin : ∀ c bits, .begins (c :: bits) ∈ rivals → own.length ≤ bits.length ∧ (b = true → c = true) :=
    fun c bits hr => ⟨by simpa using hlen _ hr, rivalLevel_of_all h hr⟩
  have hcompare : ∀ c bits, .begins (c :: bits) ∈ rivals →
      (natOfBits (b :: own) ≤ natOfBits ((c :: bits).take (b :: own).length) ↔
        (c = b → natOfBits own ≤ natOfBits (bits.take own.length))) := by
    intro c bits hr
    obtain ⟨hl, hlevel⟩ := hbegin c bits hr
    have hown := natOfBits_lt own
    rw [List.length_cons, List.take_succ_cons, natOfBits_cons, natOfBits_cons, List.length_take, min_eq_left hl]
    cases b <;> cases c <;> simp_all
    omega
  constructor
  · rintro ⟨hm, hb⟩
    refine ⟨fun bits hr => ?_, fun bits hr => ?_⟩
    · obtain ⟨r, hr', hnext⟩ := List.mem_filterMap.mp hr
      cases r with
      | begins bits' =>
        rw [rivalNext_begins] at hnext
        split at hnext <;> cases hnext
      | midFrame bits' =>
        cases hnext
        rw [← hmid _ hr']
        exact hm _ hr'
    · obtain ⟨r, hr', hnext⟩ := List.mem_filterMap.mp hr
      cases r with
      | midFrame bits' => cases hnext
      | begins bits' =>
        rw [rivalNext_begins] at hnext
        split at hnext
        · cases hnext
          cases bits' with
          | nil =>
            have := hlen _ hr'
            simp at this
          | cons c bits' => exact (hcompare c bits' hr').mp (hb _ hr') ‹_›
        · cases hnext
  · rintro ⟨hm, hb⟩
    refine ⟨fun bits hr => ?_, fun bits hr => ?_⟩
    · rw [hmid _ hr]
      exact hm _ (List.mem_filterMap.mpr ⟨_, hr, rivalNext_midFrame b bits⟩)
    · cases bits with
      | nil =>
        have := hlen _ hr
        simp at this
      | cons c bits =>
        refine (hcompare c bits hr).mpr fun hc => hb _ (List.mem_filterMap.mpr ⟨_, hr, ?_⟩)
        rw [rivalNext_begins]
        exact if_pos hc

theorem arbitrate_wins_iff : ∀ (own : List Bool) (rivals : List Rival),
    (∀ bits, .begins bits ∈ rivals → bits.length ≥ own.length) → ((arbitrate own rivals).1 = true ↔ Wins own rivals)
  | [], rivals, _ => by simp [arbitrate, Wins, readsDominant, natOfBits]
  | b :: own, rivals, hlen => by
    by_cases hlost : (b && !(b && rivals.all rivalLevel)) = true
    · rw [arbitrate_lost hlost]
      exact iff_of_false (by simp) (not_wins_of_lost hlen hlost)
    · rw [arbitrate_cons hlost, wins_cons_iff hlen hlost]
      refine arbitrate_wins_iff own _ fun bits hr => ?_
      obtain ⟨r, hr, hnext⟩ := List.mem_filterMap.mp hr
      cases r with
      | midFrame bits' => cases hnext
      | begins bits' =>
        have := hlen _ hr
        have htail : bits = bits'.tail := rivalNext_bits hnext
        rw [htail, List.length_tail]
        simp at this
        omega

/-- Settles O37, by induction on the arbitration field, a bit at a time. -/
theorem lowestArbitrationWins : Obligations.LowestArbitrationWins :=
  fun own rivals hlen => arbitrate_wins_iff own rivals hlen

/-! ### A station's reading of the bus -/

theorem bitField_append (xs ys : List Bool) {at_ width : Nat} (h : at_ + width ≤ xs.length) :
    bitField (xs ++ ys) at_ width = bitField xs at_ width := by
  unfold bitField
  refine congrArg natOfBits (List.map_congr_left fun i hi => ?_)
  have : i < width := List.mem_range.mp hi
  rw [List.getElem?_append_left (by omega)]

theorem frameLength_append (xs ys : List Bool) (h : 2 ≤ xs.length) : frameLength (xs ++ ys) = frameLength xs := by
  rw [frameLength, frameLength, framePriority, framePriority, bitField_append xs ys h]

theorem bodyLength_pos (k : Nat) : 16 ≤ bodyLength k := by
  unfold bodyLength
  split <;> omega

theorem frameLength_ge (bits : List Bool) : 40 ≤ frameLength bits := by
  have := bodyLength_pos (framePriority bits)
  unfold frameLength
  omega

/-- The front of a run of bits that is short of its frame's T5 is short of its own. -/
theorem front_short {xs ys : List Bool} (h : xs.length < frameLength (xs ++ ys)) : xs.length < frameLength xs := by
  obtain h2 | h2 := Nat.lt_or_ge xs.length 2
  · have := frameLength_ge xs
    omega
  · rwa [frameLength_append xs ys h2] at h

theorem readAll_append (r : BusReader) (xs ys : List Bool) : r.readAll (xs ++ ys) = (r.readAll xs).readAll ys := by
  simp [BusReader.readAll]

/-- A station that read a start bit follows the frame short of its T5, whatever its bits. -/
theorem readAll_following (ys : List Bool) : ∀ xs : List Bool, (xs ++ ys).length < frameLength (xs ++ ys) →
    (BusReader.following xs).readAll ys = .following (xs ++ ys) := by
  induction ys with
  | nil => intro xs _; simp [BusReader.readAll]
  | cons b ys ih =>
    intro xs h
    have hstep : (BusReader.following xs).read b = .following (xs ++ [b]) := by
      refine BusReader.read_following (front_short (ys := ys) ?_)
      simp only [List.append_assoc, List.singleton_append, List.length_append, List.length_cons, List.length_nil] at h ⊢
      omega
    rw [BusReader.readAll, List.foldl_cons, hstep]
    have hlast := ih (xs ++ [b]) (by simpa [List.append_assoc] using h)
    rwa [List.append_assoc] at hlast

theorem readAll_start (bits : List Bool) : (BusReader.counting 7).readAll (false :: bits) = (BusReader.following []).readAll bits :=
  rfl

/-- At T5 the station counts recessive bits again. -/
theorem readAll_to_T5 {bits : List Bool} (h : bits.length = frameLength bits) :
    (BusReader.following []).readAll bits = .counting 0 := by
  obtain ⟨front, b, rfl⟩ : ∃ front b, bits = front ++ [b] := by
    have hne : bits ≠ [] := by
      rintro rfl
      have := frameLength_ge []
      simp at h
      omega
    exact ⟨bits.dropLast, bits.getLast hne, (List.dropLast_append_getLast hne).symm⟩
  have hlen : front.length < frameLength (front ++ [b]) := by
    rw [← h]
    simp
  rw [readAll_append, readAll_following front [] (by simpa using front_short hlen)]
  show (BusReader.following ([] ++ front)).read b = _
  rw [List.nil_append, BusReader.read]
  exact if_pos h.ge

theorem readAll_recessive (n : Nat) : (BusReader.counting 0).readAll (List.replicate n true) = .counting (min n 7) := by
  induction n with
  | zero => rfl
  | succ n ih =>
    rw [List.replicate_succ', readAll_append, ih]
    show BusReader.counting (satAdd 7 (min n 7) 1) = _
    congr 1
    unfold satAdd
    omega

/-! ### The start of a frame -/

theorem length_arbitration (p : PeerNo) (n : Notice) : (arbitration p n).length = 5 := by
  simp [arbitration]

theorem followsBus_of_ready {s : State} (h : s.boot.startup = .ready) : s.followsBus = true := by
  simp [State.followsBus, h]

theorem transmitStartStep_idle {before : List Bool} {n : Notice} {s : State} (rivals : List Rival)
    (hready : s.boot.startup = .ready) (hactive : s.bus.state = .active) (hholder : s.bus.holder = some n)
    (hsending : s.bus.sending = false) (hidle : (s.bus.reader.readAll before).idle = true) :
    transmitStartStep before rivals s = beginFrame n rivals (setReader (s.bus.reader.readAll before) s) := by
  rw [transmitStartStep, if_pos (by simp [followsBus_of_ready hready, hsending])]
  simp only [hholder]
  exact if_pos ⟨hactive, hidle⟩

theorem transmitStartStep_busy {before : List Bool} {n : Notice} {s : State} (rivals : List Rival)
    (hready : s.boot.startup = .ready) (hholder : s.bus.holder = some n)
    (hsending : s.bus.sending = false) (hbusy : (s.bus.reader.readAll before).idle = false) :
    transmitStartStep before rivals s = setReader (s.bus.reader.readAll before) s := by
  rw [transmitStartStep, if_pos (by simp [followsBus_of_ready hready, hsending])]
  simp only [hholder]
  refine if_neg fun h => ?_
  have hidle : (s.bus.reader.readAll before).idle = true := h.2
  simp [hbusy] at hidle

/-- Settles O36: the station's reading is `readAll_following` and `readAll_to_T5`, and the start of a frame is `beginFrame`. -/
theorem transmitStartArbitrates : Obligations.TransmitStartArbitrates := by
  refine ⟨fun bits => ⟨fun h => ?_, fun h => ?_⟩, fun n hn => ?_, fun n => ?_,
    fun before rivals n s hready hactive hholder hsending => ⟨fun hidle => ?_, fun hbusy => ?_⟩⟩
  · rw [readAll_start, readAll_following bits [] (by simpa [frameLength] using h), List.nil_append]
  · rw [readAll_start]
    exact readAll_to_T5 h
  · simp [BusReader.read, hn]
  · rw [readAll_recessive]
    simp [BusReader.idle]
  · let r := arbitrate (arbitration s.boot.peerId n) rivals
    have hstep := transmitStartStep_idle rivals hready hactive hholder hsending hidle
    refine ⟨_, congrArg Host.Outcome.next hstep, rfl, rfl, fun hlost => ?_, fun bits hmid => ⟨fun hread => ?_, fun hwin hread => ?_⟩,
      fun hwin hquiet => ?_, rfl⟩
    · simp only [beginFrame, setReader, modBus, hlost, Bool.false_eq_true, if_false]
      rw [← hsending]
    · show r.1 = false
      refine eq_false_of_ne_true fun hwin => ?_
      have := (arbitrate_midFrame _ _ _ hwin hmid).1
      rw [hread] at this
      cases this
    · have hwin' : r.1 = true := hwin
      have hin := (arbitrate_midFrame _ _ _ hwin' hmid).2
      rw [length_arbitration] at hin
      show (if r.1 then r.2.any _ else _) = true
      rw [if_pos hwin']
      exact List.any_eq_true.mpr ⟨_, hin, hread⟩
    · have hwin' : r.1 = true := hwin
      show (if r.1 then r.2.any _ else _) = false
      rw [if_pos hwin']
      refine List.any_eq_false.mpr fun x hx => ?_
      obtain ⟨y, hy, hbits⟩ := arbitrate_rest _ _ hwin' x hx
      rw [length_arbitration] at hbits
      show ¬readsDominant (drivenAfter s.boot.peerId n) (rivalBits x) = true
      rw [hbits, hquiet y hy]
      simp
  · exact congrArg Host.Outcome.next (transmitStartStep_busy rivals hready hholder hsending hbusy)

/-! ### Frames -/

/-- A run of fields, each of a width and a value, most significant bit first. -/
def fieldBits (fields : List (Nat × Nat)) : List Bool := fields.flatMap fun f => bitsOf f.1 f.2

/-- The bits that fields take. -/
def fieldWidth (fields : List (Nat × Nat)) : Nat := (fields.map (·.1)).sum

theorem length_fieldBits (fields : List (Nat × Nat)) : (fieldBits fields).length = fieldWidth fields := by
  simp [fieldBits, fieldWidth, List.length_flatMap]

theorem fieldBits_append (xs ys : List (Nat × Nat)) : fieldBits (xs ++ ys) = fieldBits xs ++ fieldBits ys := by
  simp [fieldBits]

theorem bitField_middle (pre mid post : List Bool) : bitField (pre ++ (mid ++ post)) pre.length mid.length = natOfBits mid := by
  unfold bitField
  refine congrArg natOfBits (List.ext_getElem (by simp) fun i h h' => ?_)
  have hi : i < mid.length := h'
  rw [List.getElem_map, List.getElem_range, List.getElem?_append_right (by omega), Nat.add_sub_cancel_left,
    List.getElem?_append_left hi, List.getElem?_eq_getElem hi, Option.getD_some]

/-- A field is read where the widths before it put it. -/
theorem bitField_field (pre post : List (Nat × Nat)) (w n : Nat) :
    bitField (fieldBits (pre ++ (w, n) :: post)) (fieldWidth pre) w = n % 2 ^ w := by
  have h := bitField_middle (fieldBits pre) (bitsOf w n) (fieldBits post)
  rw [length_fieldBits, length_bitsOf, natOfBits_bitsOf] at h
  rw [← h, fieldBits_append]
  rfl

theorem readBits_append (xs ys : List Bool) : readBits (xs ++ ys) xs.length = xs := by
  refine List.ext_getElem (by simp [readBits]) fun i h h' => ?_
  simp only [readBits, List.getElem_map, List.getElem_range]
  rw [List.getElem?_append_left h', List.getElem?_eq_getElem h', Option.getD_some]

/-- The fields of a notice's body, fill bits included (11.3). -/
def Notice.fields : Notice → List (Nat × Nat)
  | .lane l st w => [(2, l.val), (2, st.code), (8, w), (4, 0)]
  | .release t e n b => [(14, t), (8, e.toNat), (5, n.val), (20, b), (1, 0)]
  | .claim t e n b k => [(14, t), (8, e.toNat), (5, n.val), (20, b), (32, k.toNat), (1, 0)]
  | .demand t e a => [(14, t), (8, e.toNat), (20, a), (6, 0)]

theorem body_eq (n : Notice) : n.body = fieldBits n.fields := by
  cases n <;> simp [Notice.body, Notice.fields, fieldBits]

theorem fieldWidth_fields (n : Notice) : fieldWidth n.fields = bodyLength n.priority := by
  cases n <;> rfl

theorem priority_lt (n : Notice) : n.priority < 2 ^ 2 := by
  cases n <;> simp [Notice.priority]

/-- The fields of a whole frame: arbitration, body, check, delimiter and void slot (8.1). -/
def frameFields (p : PeerNo) (n : Notice) : List (Nat × Nat) :=
  [(2, n.priority), (3, p.val)] ++ (n.fields ++ [(16, (crc16 (covered p n)).toNat), (1, 1), (2, 3)])

theorem frameBits_eq (p : PeerNo) (n : Notice) : frameBits p n = fieldBits (frameFields p n) := by
  have h1 : bitsOf 1 1 = [true] := by decide
  have h2 : bitsOf 2 3 = [true, true] := by decide
  simp [frameBits, arbitration, drivenAfter, frameFields, body_eq, fieldBits, h1, h2]

theorem framePriority_frameBits (p : PeerNo) (n : Notice) : framePriority (frameBits p n) = n.priority := by
  rw [framePriority, frameBits_eq]
  exact (bitField_field [] _ 2 n.priority).trans (Nat.mod_eq_of_lt (priority_lt n))

theorem frameSender_frameBits (p : PeerNo) (n : Notice) : frameSender (frameBits p n) = p := by
  have h : bitField (frameBits p n) 2 3 = p.val := by
    rw [frameBits_eq]
    exact (bitField_field [(2, n.priority)] _ 3 p.val).trans (Nat.mod_eq_of_lt p.isLt)
  refine Fin.ext ?_
  show bitField (frameBits p n) 2 3 % 8 = p.val
  rw [h]
  exact Nat.mod_eq_of_lt p.isLt

/-- The fields behind the body, at the places the body's length gives them. -/
theorem bitField_behind (p : PeerNo) (n : Notice) (pre post : List (Nat × Nat)) {w x at_ : Nat}
    (h : pre ++ (w, x) :: post = [(16, (crc16 (covered p n)).toNat), (1, 1), (2, 3)])
    (hat : at_ = 5 + bodyLength n.priority + fieldWidth pre) : bitField (frameBits p n) at_ w = x % 2 ^ w := by
  have hsplit : frameFields p n = ([(2, n.priority), (3, p.val)] ++ n.fields ++ pre) ++ (w, x) :: post := by
    rw [frameFields, ← h]
    simp
  have hwidth : fieldWidth ([(2, n.priority), (3, p.val)] ++ n.fields ++ pre) = at_ := by
    rw [hat, ← fieldWidth_fields]
    simp [fieldWidth]
    omega
  rw [frameBits_eq, hsplit, ← hwidth]
  exact bitField_field _ _ _ _

/-- The bits the CRC covers are the first of the frame. -/
theorem readBits_covered (p : PeerNo) (n : Notice) : readBits (frameBits p n) (5 + bodyLength n.priority) = covered p n := by
  have hlen : (covered p n).length = 5 + bodyLength n.priority := by
    rw [covered, List.length_append, length_arbitration, body_eq, length_fieldBits, fieldWidth_fields]
  have hfront : frameBits p n = covered p n ++ (bitsOf 16 (crc16 (covered p n)).toNat ++ [true] ++ [true, true]) := by
    simp [frameBits, covered, drivenAfter]
  rw [hfront, ← hlen]
  exact readBits_append _ _

theorem frameWellFormed_frameBits (p : PeerNo) (n : Notice) : frameWellFormed (frameBits p n) = true := by
  have hcheck : bitField (frameBits p n) (5 + bodyLength n.priority) 16 = (crc16 (covered p n)).toNat :=
    (bitField_behind p n [] _ rfl rfl).trans (Nat.mod_eq_of_lt (crc16 (covered p n)).isLt)
  have hdelimiter : bitField (frameBits p n) (21 + bodyLength n.priority) 1 = 1 :=
    bitField_behind p n [(16, (crc16 (covered p n)).toNat)] _ rfl (by simp [fieldWidth]; omega)
  have hslot : bitField (frameBits p n) (22 + bodyLength n.priority) 2 = 3 :=
    bitField_behind p n [(16, (crc16 (covered p n)).toNat), (1, 1)] _ rfl (by simp [fieldWidth]; omega)
  simp [frameWellFormed, frameFault, voidSlotDominant, framePriority_frameBits, hcheck, hdelimiter, hslot, readBits_covered]

/-- A field of the body, at the place the fields before it give it. -/
theorem bitField_body (p : PeerNo) (n : Notice) (pre post : List (Nat × Nat)) {w x at_ : Nat} (hx : x < 2 ^ w)
    (h : n.fields = pre ++ (w, x) :: post) (hat : at_ = 5 + fieldWidth pre) : bitField (frameBits p n) at_ w = x := by
  have hsplit : frameFields p n = ([(2, n.priority), (3, p.val)] ++ pre) ++ (w, x) ::
      (post ++ [(16, (crc16 (covered p n)).toNat), (1, 1), (2, 3)]) := by
    rw [frameFields, h]
    simp
  have hwidth : fieldWidth ([(2, n.priority), (3, p.val)] ++ pre) = at_ := by
    rw [hat]
    simp [fieldWidth]
    omega
  rw [frameBits_eq, hsplit, ← hwidth]
  exact (bitField_field _ _ _ _).trans (Nat.mod_eq_of_lt hx)

theorem ownerOf_nodeLaneOf (p : PeerNo) (l : LaneNo) : ownerOf (nodeLaneOf p l) = p := by
  refine Fin.ext ?_
  show (4 * p.val + l.val) / 4 = p.val
  omega

theorem laneStateOf_code (st : LaneState) : laneStateOf st.code = some st := by
  cases st <;> rfl

theorem heardNotice_lane (p : PeerNo) (l : LaneNo) (st : LaneState) {w : Nat} (hw : 1 ≤ w) (hw' : w ≤ 255) :
    heardNotice (frameBits p (.lane l st w)) = some (.lane l st w) := by
  obtain ⟨k, rfl⟩ : ∃ k, w = k + 1 := ⟨w - 1, by omega⟩
  have hst : st.code < 2 ^ 2 := by cases st <;> decide
  have hl := bitField_body p (.lane l st (k + 1)) [] _ (w := 2) (x := l.val) (at_ := 5) l.isLt rfl rfl
  have hs := bitField_body p (.lane l st (k + 1)) [(2, l.val)] _ (at_ := 7) hst rfl rfl
  have hk := bitField_body p (.lane l st (k + 1)) [(2, l.val), (2, st.code)] _ (w := 8) (x := k + 1) (at_ := 9) (by omega) rfl rfl
  have hlane : l.val % 4 = l.val := Nat.mod_eq_of_lt l.isLt
  simp only [heardNotice, framePriority_frameBits, Notice.priority, hl, hs, hk, laneStateOf_code, hlane]

/-- Tag and epoch of a notice that carries them. -/
theorem bitField_tagEpoch {p : PeerNo} {n : Notice} {tag : Nat} {e : BitVec 8} {post : List (Nat × Nat)} (ht : tag < 2 ^ 14)
    (h : n.fields = (14, tag) :: (8, e.toNat) :: post) :
    bitField (frameBits p n) 5 14 = tag ∧ BitVec.ofNat 8 (bitField (frameBits p n) 19 8) = e := by
  refine ⟨bitField_body p n [] _ ht h rfl, ?_⟩
  rw [bitField_body p n [(14, tag)] _ (at_ := 19) e.isLt h rfl]
  simp

/-- The node lane of a notice that carries one. -/
theorem bitField_lane {p : PeerNo} {n : Notice} {tag : Nat} {e : BitVec 8} {m : NodeLane} {post : List (Nat × Nat)}
    (h : n.fields = (14, tag) :: (8, e.toNat) :: (5, m.val) :: post) : bitField (frameBits p n) 27 5 % 32 = m.val := by
  rw [bitField_body p n [(14, tag), (8, e.toNat)] _ (at_ := 27) m.isLt h rfl]
  exact Nat.mod_eq_of_lt m.isLt

theorem heardNotice_release (p : PeerNo) (e : BitVec 8) (l : LaneNo) {tag b : Nat} (ht : tag < 2 ^ 14) (hb : b < 2 ^ 20) :
    heardNotice (frameBits p (.release tag e (nodeLaneOf p l) b)) = some (.release tag e (nodeLaneOf p l) b) := by
  obtain ⟨htag, hepoch⟩ := bitField_tagEpoch (p := p) (n := .release tag e (nodeLaneOf p l) b) ht rfl
  have hlane := bitField_lane (p := p) (n := .release tag e (nodeLaneOf p l) b) rfl
  have hbytes := bitField_body p (.release tag e (nodeLaneOf p l) b) [(14, tag), (8, e.toNat), (5, (nodeLaneOf p l).val)] _
    (at_ := 32) hb rfl rfl
  simp only [heardNotice, framePriority_frameBits, frameSender_frameBits, Notice.priority, htag, hepoch, hlane, hbytes, Fin.eta,
    ownerOf_nodeLaneOf, if_true]

theorem heardNotice_claim (p : PeerNo) (e : BitVec 8) (l : LaneNo) (k : Tick) {tag b : Nat} (ht : tag < 2 ^ 14)
    (hb : b < 2 ^ 20) :
    heardNotice (frameBits p (.claim tag e (nodeLaneOf p l) b k)) = some (.claim tag e (nodeLaneOf p l) b k) := by
  obtain ⟨htag, hepoch⟩ := bitField_tagEpoch (p := p) (n := .claim tag e (nodeLaneOf p l) b k) ht rfl
  have hlane := bitField_lane (p := p) (n := .claim tag e (nodeLaneOf p l) b k) rfl
  have hbytes := bitField_body p (.claim tag e (nodeLaneOf p l) b k) [(14, tag), (8, e.toNat), (5, (nodeLaneOf p l).val)] _
    (at_ := 32) hb rfl rfl
  have htick : BitVec.ofNat 32 (bitField (frameBits p (.claim tag e (nodeLaneOf p l) b k)) 52 32) = k := by
    rw [bitField_body p (.claim tag e (nodeLaneOf p l) b k)
      [(14, tag), (8, e.toNat), (5, (nodeLaneOf p l).val), (20, b)] _ (at_ := 52) k.isLt rfl rfl]
    simp
  simp only [heardNotice, framePriority_frameBits, frameSender_frameBits, Notice.priority, htag, hepoch, hlane, hbytes, htick,
    Fin.eta, ownerOf_nodeLaneOf, if_true]

theorem heardNotice_demand (p : PeerNo) (e : BitVec 8) {tag a : Nat} (ht : tag < 2 ^ 14) (ha : a < 2 ^ 20) :
    heardNotice (frameBits p (.demand tag e a)) = some (.demand tag e a) := by
  obtain ⟨htag, hepoch⟩ := bitField_tagEpoch (p := p) (n := .demand tag e a) ht rfl
  have hamount := bitField_body p (.demand tag e a) [(14, tag), (8, e.toNat)] _ (at_ := 27) ha rfl rfl
  simp only [heardNotice, framePriority_frameBits, Notice.priority, htag, hepoch, hamount]

/-- Settles O38: every field is read where `bitField_body` and `bitField_behind` put it. -/
theorem frameCarriesItsNotice : Obligations.FrameCarriesItsNotice :=
  ⟨fun p n => ⟨frameWellFormed_frameBits p n, frameSender_frameBits p n⟩,
    fun p l st _ hw hw' => heardNotice_lane p l st hw hw',
    fun p _ e l _ ht hb => heardNotice_release p e l ht hb,
    fun p _ e l _ k ht hb => heardNotice_claim p e l k ht hb,
    fun p _ e _ ht ha => heardNotice_demand p e ht ha⟩

end Sys2Proof.Machine
end

section
/-! PROOF. LANE notices offered one after another, the bus states, voided frames and silence (O5, O41 to O44). -/

namespace Sys2Proof.Machine

/-! ### Offers -/

/-- What any number of offered notices change: holder, void count and queue of the bus, and owed marks. -/
structure OnlyOffers (s t : State) : Prop where
  bus : t.bus = { s.bus with holder := t.bus.holder, voidCount := t.bus.voidCount, queue := t.bus.queue }
  lanes : ∀ k, t.lane k = { s.lane k with owed := (t.lane k).owed }
  frame : t = { s with bus := t.bus, lanes := t.lanes }

theorem OnlyOffers.refl (s : State) : OnlyOffers s s := ⟨rfl, fun _ => rfl, rfl⟩

theorem OnlyOffers.trans {s t u : State} (h : OnlyOffers s t) (h' : OnlyOffers t u) : OnlyOffers s u where
  bus := by
    rw [h'.bus, h.bus]
  lanes k := by
    rw [h'.lanes, h.lanes]
  frame := by
    rw [h'.frame, h.frame]

theorem OnlyOffers.of_bus {s : State} {f : Bus → Bus} (h : f s.bus = { s.bus with
    holder := (f s.bus).holder, voidCount := (f s.bus).voidCount, queue := (f s.bus).queue }) : OnlyOffers s (modBus f s) :=
  ⟨h, fun _ => rfl, rfl⟩

theorem OnlyOffers.owed (l : LaneNo) (b : Bool) (s : State) : OnlyOffers s (modLane l (fun L => { L with owed := b }) s) := by
  refine ⟨rfl, fun k => ?_, rfl⟩
  rw [modLane_lane]
  split
  · rename_i h
    rw [h]
  · rfl

theorem serveOwed_offers (s : State) : OnlyOffers s (serveOwed s) := by
  obtain h | ⟨l, -, h⟩ := serveOwed_cases s
  · rw [h]
    exact .refl s
  · rw [h]
    exact .trans (.of_bus rfl) (.owed l false _)

theorem pumpHolder_offers (s : State) : OnlyOffers s (pumpHolder s) := by
  obtain h | ⟨n, rest, -, -, -, h⟩ := pumpHolder_cases s
  · rw [h]
    exact .refl s
  · rw [h]
    exact .trans (.of_bus rfl) (serveOwed_offers _)

theorem offerLane_offers (l : LaneNo) (s : State) : OnlyOffers s (offerLane l s) := by
  unfold offerLane
  split
  · split
    · exact .of_bus rfl
    · split
      · exact .trans (.of_bus rfl) (pumpHolder_offers _)
      · exact .owed l true s
  · exact .refl s

theorem offerLanes_offers (ls : List LaneNo) : ∀ s : State, OnlyOffers s (ls.foldl (fun s l => offerLane l s) s) := by
  induction ls with
  | nil => exact OnlyOffers.refl
  | cons l ls ih => exact fun s => .trans (offerLane_offers l s) (ih _)

theorem pumpHolder_held {s : State} {n : Notice} (h : s.bus.holder = some n) : pumpHolder s = s := by
  obtain h' | ⟨m, rest, -, hnone, -⟩ := pumpHolder_cases s
  · exact h'
  · simp [h] at hnone

theorem serveOwed_none {s : State} (h : ∀ l, (s.lane l).owed = false) : serveOwed s = s := by
  obtain h' | ⟨l, -, h'⟩ := serveOwed_cases s
  · exact h'
  · have hnone : s.lowestOwed = none := List.find?_eq_none.mpr fun k _ => by simp [h k]
    simp [serveOwed, hnone]

theorem pumpHolder_head {s : State} {n : Notice} {rest : List Notice} (ha : s.bus.state = .active) (hh : s.bus.holder = none)
    (hq : s.bus.queue = n :: rest) :
    pumpHolder s = serveOwed (modBus (fun b => { b with holder := some n, voidCount := 0, queue := rest }) s) := by
  simp only [pumpHolder, ha, hh, hq, if_true]

/-- With the holder filled and none queued for the lane, an offered LANE notice joins the tail. -/
theorem offerLane_push {l : LaneNo} {s : State} {n : Notice} (ha : s.bus.state = .active) (hh : s.bus.holder = some n)
    (hq : s.bus.queue.any (Notice.forLane l) = false) (hl : s.bus.queue.length < 64) :
    offerLane l s = pushNotice (s.laneNotice l) s := by
  have hl' : s.bus.queue.length < Config.noticeDepth := hl
  simp only [offerLane, ha, hq, hl', if_true, if_false, Bool.false_eq_true]
  exact pumpHolder_held (s := pushNotice (s.laneNotice l) s) hh

/-- With holder and queue empty and no notice owed, an offered LANE notice goes into the holder. -/
theorem offerLane_fill {s : State} (l : LaneNo) (ha : s.bus.state = .active) (hh : s.bus.holder = none) (hq : s.bus.queue = [])
    (ho : ∀ k, (s.lane k).owed = false) :
    offerLane l s = modBus (fun b => { b with holder := some (s.laneNotice l), voidCount := 0 }) s := by
  have hl : s.bus.queue.length < Config.noticeDepth := by
    rw [hq]
    decide
  have hany : s.bus.queue.any (Notice.forLane l) = false := by simp [hq]
  have hpushed : (pushNotice (s.laneNotice l) s).bus.queue = [s.laneNotice l] := by simp [pushNotice, hq]
  have hstep : offerLane l s = pumpHolder (pushNotice (s.laneNotice l) s) := by
    rw [offerLane, if_pos ha, if_neg (by simp [hany]), if_pos hl]
  rw [hstep, pumpHolder_head (s := pushNotice (s.laneNotice l) s) ha hh hpushed]
  refine (serveOwed_none (s := modBus _ (pushNotice _ s)) ho).trans ?_
  simp [pushNotice, modBus, hq]

theorem laneNotice_forLane (s : State) (k l : LaneNo) : (s.laneNotice l).forLane k = decide (l = k) := rfl

/-- With the holder filled, LANE notices of lanes that have none in the queue join its tail in their order. -/
theorem offerLanes_push {n : Notice} (ls : List LaneNo) : ∀ s : State, s.bus.state = .active → s.bus.holder = some n → ls.Nodup →
    (∀ l ∈ ls, s.bus.queue.any (Notice.forLane l) = false) → s.bus.queue.length + ls.length ≤ 64 →
    ls.foldl (fun s l => offerLane l s) s = modBus (fun b => { b with queue := b.queue ++ ls.map s.laneNotice }) s := by
  induction ls with
  | nil =>
    intro s _ _ _ _ _
    simp [modBus]
  | cons l ls ih =>
    intro s ha hh hn hq hlen
    obtain ⟨hl, hn⟩ := List.nodup_cons.mp hn
    rw [List.length_cons] at hlen
    rw [List.foldl_cons, offerLane_push ha hh (hq l (by simp)) (by omega), ih (pushNotice (s.laneNotice l) s) ha hh hn]
    · simp only [modBus, pushNotice, List.append_assoc, List.map_cons, List.singleton_append]
      rfl
    · intro k hk
      have hkl : ¬l = k := fun h => hl (h ▸ hk)
      show (s.bus.queue ++ [s.laneNotice l]).any (Notice.forLane k) = false
      rw [List.any_append, hq k (by simp [hk])]
      simp [laneNotice_forLane, hkl]
    · show (s.bus.queue ++ [s.laneNotice l]).length + ls.length ≤ 64
      rw [List.length_append]
      simp only [List.length_cons, List.length_nil]
      omega

/-- With nothing held, queued or owed, the first of several LANE notices goes into the holder and the others into the queue. -/
theorem offerLanes_quiet {ls : List LaneNo} {s : State} (ha : s.bus.state = .active) (hh : s.bus.holder = none)
    (hq : s.bus.queue = []) (ho : ∀ k, (s.lane k).owed = false) (hn : ls.Nodup) (hlen : ls.length ≤ 64) :
    ls.foldl (fun s l => offerLane l s) s = modBus (fun b => { b with
      holder := (ls.map s.laneNotice).head?, queue := (ls.map s.laneNotice).tail,
      voidCount := if ls.map s.laneNotice = [] then b.voidCount else 0 }) s := by
  cases ls with
  | nil =>
    have hbus : s.bus = { s.bus with holder := none, queue := [] } := by rw [← hh, ← hq]
    exact congrArg (fun b => { s with bus := b }) hbus
  | cons l ls =>
    obtain ⟨hl, hn⟩ := List.nodup_cons.mp hn
    rw [List.length_cons] at hlen
    let u := modBus (fun b => { b with holder := some (s.laneNotice l), voidCount := 0 }) s
    rw [List.foldl_cons, offerLane_fill l ha hh hq ho, offerLanes_push (n := s.laneNotice l) ls u ha rfl hn]
    · simp only [u, modBus, hq, List.nil_append]
      rfl
    · intro k _
      show s.bus.queue.any _ = false
      simp [hq]
    · show s.bus.queue.length + ls.length ≤ 64
      rw [hq, List.length_nil]
      omega

theorem fittedLanes_nodup (s : State) : s.fittedLanes.Nodup := allLanes_nodup.filter _

theorem length_fittedLanes (s : State) : s.fittedLanes.length ≤ 4 :=
  (List.length_filter_le _ _).trans (by simp [allLanes])

theorem mem_fittedLanes_iff {s : State} {l : LaneNo} : l ∈ s.fittedLanes ↔ s.fitted l = true := by
  simp [State.fittedLanes, mem_allLanes]

/-! ### The entry to ACTIVE -/

/-- The state in which the entry to ACTIVE offers its notices. -/
def activated (s : State) : State :=
  queueStatus (.busState none)
    (modBus (fun b => { b with state := .active, refreshAt := s.nodeTime, refreshNext := s.fittedLanes.headD 0 }) s)

theorem enterActive_eq (s : State) : enterActive s = s.fittedLanes.foldl (fun s l => offerLane l s) (activated s) := rfl

theorem activated_bus (s : State) : (activated s).bus =
    { s.bus with state := .active, refreshAt := s.nodeTime, refreshNext := s.fittedLanes.headD 0 } := by
  simp [activated]

theorem activated_lane (s : State) (k : LaneNo) : (activated s).lane k = s.lane k := by simp [activated]

theorem queueStatus_frame (m : Message) (s : State) : queueStatus m s = { s with port := (queueStatus m s).port } := by
  obtain ⟨-, h⟩ | ⟨-, h⟩ := queueStatus_cases m s <;> rw [h]

theorem queueStatus_room {m : Message} {s : State} (h : s.port.statusQueue.length < 32) :
    (queueStatus m s).port = { s.port with statusQueue := s.port.statusQueue ++ [m] } := by
  rw [queueStatus, if_pos (show _ < Config.statusDepth from h)]
  rfl

theorem activated_frame (s : State) :
    activated s = { s with bus := (activated s).bus, port := (activated s).port } := by
  rw [activated, queueStatus_frame]
  rfl

theorem activated_port {s : State} (h : s.port.statusQueue.length < 32) :
    (activated s).port = { s.port with statusQueue := s.port.statusQueue ++ [.busState none] } :=
  queueStatus_room (s := modBus _ s) h

/-- Everything the entry to ACTIVE does, from whatever state. -/
theorem enterActive_offers (s : State) :
    (enterActive s).bus = { s.bus with
        state := .active, refreshAt := s.nodeTime, refreshNext := s.fittedLanes.headD 0, holder := (enterActive s).bus.holder,
        voidCount := (enterActive s).bus.voidCount, queue := (enterActive s).bus.queue } ∧
      (∀ k, (enterActive s).lane k = { s.lane k with owed := ((enterActive s).lane k).owed }) ∧
      (enterActive s).port = (activated s).port ∧
      enterActive s = { s with bus := (enterActive s).bus, port := (enterActive s).port, lanes := (enterActive s).lanes } := by
  have h := offerLanes_offers s.fittedLanes (activated s)
  rw [← enterActive_eq] at h
  refine ⟨?_, fun k => ?_, ?_, ?_⟩
  · exact h.bus.trans (by rw [activated_bus])
  · rw [← activated_lane s k]
    exact h.lanes k
  · rw [h.frame]
  · have hf := h.frame
    rw [activated_frame] at hf
    rw [hf]

/-- With nothing held, queued or owed the fitted lanes' notices stand in holder and queue. -/
theorem enterActive_quiet {s : State} (hh : s.bus.holder = none) (hq : s.bus.queue = []) (ho : ∀ l, (s.lane l).owed = false) :
    let notices := s.fittedLanes.map fun l => Notice.lane l (s.laneState l) (s.lane l).health.weight
    (enterActive s).bus = { s.bus with
        state := .active, refreshAt := s.nodeTime, refreshNext := s.fittedLanes.headD 0, holder := notices.head?,
        queue := notices.tail, voidCount := if notices = [] then s.bus.voidCount else 0 } ∧
      (enterActive s).lanes = s.lanes := by
  have hnotices : s.fittedLanes.map (activated s).laneNotice =
      s.fittedLanes.map fun l => Notice.lane l (s.laneState l) (s.lane l).health.weight := by
    refine List.map_congr_left fun l _ => ?_
    rw [State.laneNotice, activated_lane]
    rfl
  have hoffers := offerLanes_quiet (ls := s.fittedLanes) (s := activated s) (by rw [activated_bus]) (by rw [activated_bus]; exact hh)
    (by rw [activated_bus]; exact hq) (fun k => by rw [activated_lane]; exact ho k) (fittedLanes_nodup s)
    ((length_fittedLanes s).trans (by omega))
  rw [← enterActive_eq, hnotices] at hoffers
  rw [hoffers]
  exact ⟨by rw [modBus_self, activated_bus], by rw [modBus_lanes, activated_frame]⟩

/-- Settles O43: the entry to ACTIVE, with `enterActive_quiet` where nothing is held, queued or owed. -/
theorem muteRecoveryReactivates : Obligations.MuteRecoveryReactivates := by
  intro s hmute hreached hroom
  have hdue : s.recoveryDue = true := by
    simp only [State.recoveryDue, hmute, beq_self_eq_true, Bool.true_and]
    exact hreached
  have hstep : muteRecoveryStep s = enterActive s := if_pos hdue
  obtain ⟨hbus, hlanes, hport, hframe⟩ := enterActive_offers s
  refine ⟨_, congrArg Host.Outcome.next hstep, by rw [hbus], by rw [hbus], by rw [hport, activated_port hroom],
    fun hh hq ho => enterActive_quiet hh hq ho, hlanes, hframe⟩

/-- Settles O44: an offer with nothing held, queued or owed. -/
theorem refreshQueuesLaneNotice : Obligations.RefreshQueuesLaneNotice := by
  intro s ha hh hq hfit ho hreached
  have hdue : s.refreshDue = true := by
    simp only [State.refreshDue, ha, hh, hq, beq_self_eq_true, Option.isNone_none, List.isEmpty_nil, Bool.true_and,
      Bool.and_eq_true, Bool.not_eq_true', List.isEmpty_eq_false_iff]
    exact ⟨hfit, hreached⟩
  have hstep : refreshStep s = offerLane s.bus.refreshNext
      (modBus (fun b => { b with refreshNext := s.refreshAfter s.bus.refreshNext }) s) := if_pos hdue
  refine congrArg Host.Outcome.next (hstep.trans ?_)
  rw [offerLane_fill]
  · rfl
  · exact ha
  · exact hh
  · exact hq
  · exact ho

/-! ### The entry to MUTE -/

/-- The entry to MUTE at the T5 of a frame. -/
theorem muted_at_T5 (cause : MuteCause) (s : State) : Muted cause s (enterMute cause (frameEnds s)) := by
  obtain ⟨hbus, hlanes, hviews, hport, hrings, hframe⟩ := enterMute_spec cause (frameEnds s)
  refine ⟨hbus, hlanes, hviews, fun hroom => hport.trans (queueStatus_room (s := frameEnds s) hroom), ?_, ?_⟩
  · exact hrings.congr (fun _ => rfl) (fun _ => rfl) rfl rfl rfl rfl
  · rw [hframe]
    rfl

theorem sends_of_arbitration {n : Notice} {bits : List Bool} {s : State} (hh : s.bus.holder = some n)
    (hs : s.bus.sending = true) (hr : readBits bits 5 = arbitration s.boot.peerId n) : s.sends bits = true := by
  simp [State.sends, hh, hs, hr]

/-- Settles O41, by whether the station sent the frame, read a clash back, and how many attempts were voided. -/
theorem voidedFrameRetriesOrMutes : Obligations.VoidedFrameRetriesOrMutes := by
  refine ⟨fun bits s hother hbad => ?_, fun n bits s ha hh hs hr hclash => ?_, fun n bits s ha hh hs hr hclash hbad =>
    ⟨fun hcount => ?_, fun hcount => ?_⟩⟩
  · have hsends : s.sends bits = false := by
      cases hs : s.bus.sending
      · simp [State.sends, hs]
      · simp [State.sends, hother hs]
    show Host.Outcome.next (frameVoidedStep bits s) = _
    simp only [frameVoidedStep, hsends, hbad, Bool.false_and, Bool.false_eq_true, if_false]
    rfl
  · have hsends := sends_of_arbitration hh hs hr
    refine ⟨by simp [State.drivesVoid, ha, hsends, hclash], _, ?_, muted_at_T5 .idClash s⟩
    show Host.Outcome.next (frameVoidedStep bits s) = _
    simp only [frameVoidedStep, hsends, ha, hclash, beq_self_eq_true, Bool.and_self, if_true]
  · have hsends := sends_of_arbitration hh hs hr
    show Host.Outcome.next (frameVoidedStep bits s) = _
    simp only [frameVoidedStep, hsends, ha, hclash, hbad, beq_self_eq_true, Bool.and_self, Bool.and_false, Bool.false_eq_true,
      if_true, if_false]
    have hbelow : ¬s.bus.voidCount + 1 ≥ 8 := by omega
    refine congrArg Host.Outcome.next ((if_neg hbelow).trans ?_)
    rw [← ha]
    rfl
  · have hsends := sends_of_arbitration hh hs hr
    refine ⟨_, ?_, muted_at_T5 .voidLimit s⟩
    show Host.Outcome.next (frameVoidedStep bits s) = _
    simp only [frameVoidedStep, hsends, ha, hclash, hbad, beq_self_eq_true, Bool.and_self, Bool.and_false, Bool.false_eq_true,
      if_true, if_false]
    refine congrArg Host.Outcome.next (if_pos ?_)
    show s.bus.voidCount + 1 ≥ 8
    omega

/-! ### Silence -/

theorem silent_iff {p : PeerNo} {heard : Tick} {s : State} (h : s.bus.peers[p.val] = .present heard) :
    s.silent p = true ↔ s.followsBus = true ∧
      countReached (tickAdd heard (s.params.silenceMs * 20000)) s.nodeTime = true := by
  simp only [State.silent, h, Bool.and_eq_true]
  rfl

theorem followsBus_iff {s : State} : s.followsBus = true ↔ s.boot.startup = .listening ∨ s.boot.startup = .ready := by
  simp [State.followsBus]

theorem mem_peerLanes {p : PeerNo} {n : NodeLane} : n ∈ peerLanes p ↔ ownerOf n = p := by
  constructor
  · intro h
    obtain ⟨l, -, rfl⟩ := List.mem_map.mp h
    exact ownerOf_nodeLaneOf p l
  · rintro rfl
    refine List.mem_map.mpr ⟨localOf n, mem_allLanes _, Fin.ext ?_⟩
    show 4 * (n.val / 4) + n.val % 4 = n.val
    omega

/-- Lane directory entries set ABSENT one after another. -/
theorem setDirectories_none (ns : List NodeLane) : ∀ s : State,
    let t := ns.foldl (fun s n => setDirectory n none s) s
    t = { s with bus := { s.bus with lanes := t.bus.lanes } } ∧
      ∀ m : NodeLane, t.bus.lanes[m.val] = if m ∈ ns then none else s.bus.lanes[m.val] := by
  induction ns with
  | nil => exact fun s => ⟨rfl, fun m => by simp⟩
  | cons n ns ih =>
    intro s
    obtain ⟨hframe, hlanes⟩ := ih (setDirectory n none s)
    refine ⟨hframe, fun m => ?_⟩
    rw [List.foldl_cons, hlanes]
    by_cases hm : m ∈ ns
    · simp [hm]
    · have hset : (setDirectory n none s).bus.lanes[m.val] = if m = n then none else s.bus.lanes[m.val] := by
        simp only [setDirectory, modBus_self, Vector.getElem_set, Fin.ext_iff, eq_comm]
      rw [if_neg hm, hset]
      simp [hm]

/-- The port after a PEER_STATE message, which LISTENING does not queue. -/
def peerPort (p : PeerNo) (present : Bool) (s : State) : OrderPort :=
  if s.boot.startup = .ready then (queueStatus (.peerState p present) s).port else s.port

theorem peerMessage_eq (p : PeerNo) (present : Bool) (s : State) :
    peerMessage p present s = { s with port := peerPort p present s } := by
  unfold peerMessage peerPort
  split
  · exact queueStatus_frame _ s
  · rfl

/-- The state in which a lost peer's lanes are re-based: the message is out and the directories are set. -/
def peerGone (p : PeerNo) (s : State) : State :=
  (peerLanes p).foldl (fun s n => setDirectory n none s) (peerMessage p false (setPeer p .absent s))

theorem losePeer_eq (p : PeerNo) (s : State) :
    losePeer p s = rebaseViews ((peerLanes p).filter s.directoryLive) (peerGone p s) := rfl

theorem peerGone_spec (p : PeerNo) (s : State) :
    peerGone p s = { s with
        bus := { s.bus with peers := s.bus.peers.set p.val .absent, lanes := (peerGone p s).bus.lanes },
        port := peerPort p false s } ∧
      ∀ m : NodeLane, (peerGone p s).bus.lanes[m.val] = if ownerOf m = p then none else s.bus.lanes[m.val] := by
  have hport : peerPort p false (setPeer p .absent s) = peerPort p false s := by
    unfold peerPort
    rw [queueStatus_port, queueStatus_port]
    rfl
  obtain ⟨hframe, hlanes⟩ := setDirectories_none (peerLanes p) (peerMessage p false (setPeer p .absent s))
  rw [peerMessage_eq, hport] at hframe hlanes
  refine ⟨?_, fun m => ?_⟩
  · have he : peerGone p s = (peerLanes p).foldl (fun s n => setDirectory n none s)
        { setPeer p .absent s with port := peerPort p false s } := by
      rw [peerGone, peerMessage_eq, hport]
    rw [he]
    exact hframe
  · rw [peerGone, peerMessage_eq, hport, hlanes]
    simp only [mem_peerLanes]
    rfl

/-- Settles O42: the lost peer's lanes leave as one change, by `rebaseViews_spec`. -/
theorem silentPeerBecomesAbsent : Obligations.SilentPeerBecomesAbsent := by
  intro p heard s hpeer
  refine ⟨fun hnot => ?_, fun hfollows hreached => ?_⟩
  · have hsilent : ¬s.silent p = true := by
      rw [silent_iff hpeer, followsBus_iff]
      rintro ⟨hf, hr⟩
      obtain h | h | h := hnot
      · simp [h] at hf
      · simp [h] at hf
      · rw [hr] at h
        cases h
    exact congrArg Host.Outcome.next (if_neg hsilent)
  · have hstep : peerSilenceStep p s = losePeer p s :=
      if_pos ((silent_iff hpeer).mpr ⟨followsBus_iff.mpr hfollows, hreached⟩)
    obtain ⟨hgone, hdirectory⟩ := peerGone_spec p s
    obtain ⟨⟨hviews, hrings⟩, hlanes, hframe⟩ := rebaseViews_spec ((peerLanes p).filter s.directoryLive) (peerGone p s)
    rw [← losePeer_eq] at hviews hrings hlanes hframe
    have hlane : ∀ k, (peerGone p s).lane k = s.lane k := fun k => by rw [hgone]; rfl
    have hbus : (losePeer p s).bus = (peerGone p s).bus := by rw [hframe]
    have hport : (losePeer p s).port = peerPort p false s := by rw [hframe, hgone]
    have hold : (peerGone p s).views = s.views := by rw [hgone]
    refine ⟨losePeer p s, congrArg Host.Outcome.next hstep, ?_, fun l => ?_, fun n hn => ?_, fun h => ?_, fun h => ?_, ⟨?_, ?_⟩,
      fun k => ?_, ?_⟩
    · rw [hbus]
      exact congrArg State.bus hgone
    · rw [hbus, hdirectory, if_pos (ownerOf_nodeLaneOf p l)]
    · rw [hbus, hdirectory, if_neg hn]
    · rw [hport, peerPort, if_neg (by simp [h])]
    · rw [hport, peerPort, if_pos h, queueStatus_port]
      split <;> rename_i hlen
      · simp [List.take_of_length_le (show [Message.peerState p false].length ≤ 32 - s.port.statusQueue.length by simp; omega), hlen]
      · simp [show 32 - s.port.statusQueue.length = 0 by omega, show 32 ≤ s.port.statusQueue.length by omega]
    · rw [hviews, hold]
      rfl
    · rw [hold] at hrings
      exact hrings.congr (fun k => by rw [hlane]) (fun _ => rfl) (by rw [hgone]) rfl rfl rfl
    · rw [← hlane]
      exact hlanes k
    · have hf := hframe
      rw [hgone] at hf
      rw [hf]

/-! ### The entry to READY -/

theorem NoticeOffered.bus_eq {same : Notice → Bool} {owes : Option LaneNo} {note : Notice} {s t : State}
    (h : NoticeOffered same owes note s t) :
    t.bus = { s.bus with holder := t.bus.holder, voidCount := t.bus.voidCount, queue := t.bus.queue } := by
  obtain ⟨hquiet, hactive⟩ := h
  by_cases ha : s.bus.state = .active
  · obtain ⟨hsame, hother⟩ := hactive ha
    by_cases hex : ∃ x ∈ s.bus.queue, same x = true
    · rw [(hsame hex).1]
    · obtain ⟨hfull, hroom⟩ := hother fun x hx => eq_false_of_ne_true fun hs => hex ⟨x, hx, hs⟩
      obtain hlen | hlen := Nat.lt_or_ge s.bus.queue.length 64
      · obtain ⟨hheld, hempty⟩ := hroom hlen
        cases hholder : s.bus.holder with
        | none =>
          obtain ⟨owed, hb, -⟩ := hempty hholder
          rw [hb]
        | some n =>
          have hb := (hheld (by simp [hholder])).1
          rw [hb]
      · rw [(hfull hlen).1]
  · rw [(hquiet ha).1]

/-- What handing carriers over leaves as it is, ramps that start included. -/
structure CarriersHanded (s t : State) : Prop where
  boot : t.boot = s.boot
  nodeTime : t.nodeTime = s.nodeTime
  busState : t.bus.state = s.bus.state
  refreshAt : t.bus.refreshAt = s.bus.refreshAt
  messages : ∃ more, t.port.statusQueue = s.port.statusQueue ++ more
  slices : ∀ l, (t.lane l).slice = (s.lane l).slice ∧ (t.lane l).sub = (s.lane l).sub

theorem CarriersHanded.refl (s : State) : CarriersHanded s s := ⟨rfl, rfl, rfl, rfl, ⟨[], by simp⟩, fun _ => ⟨rfl, rfl⟩⟩

theorem CarriersHanded.trans {s t u : State} (h : CarriersHanded s t) (h' : CarriersHanded t u) : CarriersHanded s u := by
  obtain ⟨more, hm⟩ := h.messages
  obtain ⟨more', hm'⟩ := h'.messages
  exact ⟨h'.boot.trans h.boot, h'.nodeTime.trans h.nodeTime, h'.busState.trans h.busState, h'.refreshAt.trans h.refreshAt,
    ⟨more ++ more', by rw [hm', hm, List.append_assoc]⟩,
    fun l => ⟨(h'.slices l).1.trans (h.slices l).1, (h'.slices l).2.trans (h.slices l).2⟩⟩

theorem CarriersHanded.modHealth (l : LaneNo) (f : Health → Health) (s : State) : CarriersHanded s (modHealth l f s) := by
  refine ⟨rfl, rfl, rfl, rfl, ⟨[], by simp⟩, fun k => ?_⟩
  rw [modHealth_lane]
  split
  · rename_i h
    rw [h]
    exact ⟨rfl, rfl⟩
  · exact ⟨rfl, rfl⟩

theorem CarriersHanded.enterRamp (l : LaneNo) (cause : LaneCause) (s : State) : CarriersHanded s (enterRamp l cause s) := by
  obtain ⟨hlane, hother, hport, hoffer, -, -, hframe⟩ := enterRamp_entered l cause s
  have hbus := hoffer.bus_eq
  refine ⟨by rw [hframe], by rw [hframe], by rw [hbus]; rfl, by rw [hbus]; rfl, ⟨_, by rw [hport]⟩, fun k => ?_⟩
  by_cases hk : k = l
  · rw [hk, hlane]
    exact ⟨rfl, rfl⟩
  · rw [hother k hk]
    exact ⟨rfl, rfl⟩

theorem CarriersHanded.handCarrier (s : State) (l : LaneNo) : CarriersHanded s (handCarrier s l) := by
  unfold Machine.handCarrier
  split
  · let u := Machine.modHealth l (fun h => { h with carrier := .present }) s
    have hu : CarriersHanded s u := .modHealth l _ s
    have hchange : carrierChange l .present s = u ∨ carrierChange l .present s = Machine.enterRamp l .carrierFound u := by
      unfold carrierChange
      cases hs : (Machine.modHealth l (fun h => { h with carrier := .present }) s).laneState l
      · simp only [hs]
        split
        · exact .inr rfl
        · exact .inl rfl
      · simp only [hs]
        exact .inl rfl
      · simp only [hs]
        exact .inl rfl
    obtain h | h := hchange
    · rw [h]
      exact hu
    · rw [h]
      exact hu.trans (.enterRamp l _ u)
  · exact .refl s

theorem CarriersHanded.foldl (ls : List LaneNo) : ∀ s : State, CarriersHanded s (ls.foldl Machine.handCarrier s) := by
  induction ls with
  | nil => exact CarriersHanded.refl
  | cons l ls ih => exact fun s => (CarriersHanded.handCarrier s l).trans (ih _)

/-- The state on entry to READY, before carriers are handed over. -/
def readyEntered (s : State) : State :=
  let s := modBoot (fun b => { b with startup := .ready }) s
  if s.bus.clash then enterMute .idClash s else enterActive s

theorem readyStep_due {s : State} (h : s.readyDue = true) :
    readyStep s = (readyEntered s).fittedLanes.foldl handCarrier (readyEntered s) := if_pos h

theorem readyEntered_active {s : State} (h : s.bus.clash = false) :
    readyEntered s = enterActive (modBoot (fun b => { b with startup := .ready }) s) := by
  simp [readyEntered, h]

theorem readyEntered_muted {s : State} (h : s.bus.clash = true) :
    readyEntered s = enterMute .idClash (modBoot (fun b => { b with startup := .ready }) s) := by
  simp [readyEntered, h]

theorem readyEntered_lane (s : State) (l : LaneNo) : (readyEntered s).lane l =
    { s.lane l with rings := ((readyEntered s).lane l).rings, owed := ((readyEntered s).lane l).owed } := by
  cases hc : s.bus.clash
  · obtain ⟨-, hlanes, -, -⟩ := enterActive_offers (modBoot (fun b => { b with startup := .ready }) s)
    rw [readyEntered_active hc, hlanes l]
    rfl
  · obtain ⟨-, hlanes, -, -, -, -⟩ := enterMute_spec .idClash (modBoot (fun b => { b with startup := .ready }) s)
    rw [readyEntered_muted hc, hlanes l]
    rfl

theorem readyEntered_frame (s : State) : readyEntered s = { s with
    boot := { s.boot with startup := .ready }, bus := (readyEntered s).bus, port := (readyEntered s).port,
    lanes := (readyEntered s).lanes, views := (readyEntered s).views, table := (readyEntered s).table } := by
  cases hc : s.bus.clash
  · obtain ⟨-, -, -, hframe⟩ := enterActive_offers (modBoot (fun b => { b with startup := .ready }) s)
    rw [readyEntered_active hc, hframe]
    rfl
  · obtain ⟨-, -, -, -, -, hframe⟩ := enterMute_spec .idClash (modBoot (fun b => { b with startup := .ready }) s)
    rw [readyEntered_muted hc, hframe]
    rfl

theorem readyEntered_port {s : State} (h : s.port.statusQueue.length < 32) : (readyEntered s).port = { s.port with
    statusQueue := s.port.statusQueue ++ [.busState (if s.bus.clash then some .idClash else none)] } := by
  cases hc : s.bus.clash
  · obtain ⟨-, -, hport, -⟩ := enterActive_offers (modBoot (fun b => { b with startup := .ready }) s)
    rw [readyEntered_active hc, hport]
    exact activated_port (s := modBoot _ s) h
  · obtain ⟨-, -, -, hport, -, -⟩ := enterMute_spec .idClash (modBoot (fun b => { b with startup := .ready }) s)
    rw [readyEntered_muted hc, hport]
    exact queueStatus_room (s := modBoot _ s) h

theorem readyEntered_busState (s : State) :
    (readyEntered s).bus.state = if s.bus.clash then BusState.mute .idClash else BusState.active := by
  cases hc : s.bus.clash
  · obtain ⟨hbus, -⟩ := enterActive_offers (modBoot (fun b => { b with startup := .ready }) s)
    rw [readyEntered_active hc, hbus]
    rfl
  · obtain ⟨hbus, -⟩ := enterMute_spec .idClash (modBoot (fun b => { b with startup := .ready }) s)
    rw [readyEntered_muted hc, hbus]
    rfl

theorem readyEntered_fittedLanes (s : State) : (readyEntered s).fittedLanes = s.fittedLanes := by
  rw [readyEntered_frame]
  rfl

/-- With no lane enabled, carriers are copied and nothing more follows the entry to READY. -/
theorem readyHanded_spec {s : State} (h : ∀ l, (s.lane l).health.enable = false) :
    let t := (readyEntered s).fittedLanes.foldl handCarrier (readyEntered s)
    (∀ l, t.lane l = { (readyEntered s).lane l with health := { (s.lane l).health with
        carrier := if s.fitted l = true ∧ (s.lane l).carrier = .present then .present else (s.lane l).health.carrier } }) ∧
      t = { readyEntered s with lanes := t.lanes } := by
  obtain ⟨hlanes, hframe⟩ := handCarriers_spec (readyEntered s).fittedLanes (readyEntered s) fun l => by
    rw [readyEntered_lane]
    exact h l
  refine ⟨fun l => ?_, hframe⟩
  have hhealth : ((readyEntered s).lane l).health = (s.lane l).health := by rw [readyEntered_lane]
  have hcarrier : ((readyEntered s).lane l).carrier = (s.lane l).carrier := by rw [readyEntered_lane]
  rw [hlanes l]
  simp only [readyEntered_fittedLanes, mem_fittedLanes_iff, hhealth, hcarrier]

/-- Settles O5: the entry to ACTIVE or MUTE, then `handCarriers_spec`. -/
theorem readyActivatesOrMutes : Obligations.ReadyActivatesOrMutes := by
  intro s hlistening hreached hroom
  have hdue : s.readyDue = true := by
    simp only [State.readyDue, hlistening, beq_self_eq_true, Bool.true_and]
    exact hreached
  let u := readyEntered s
  have hhanded : CarriersHanded u (u.fittedLanes.foldl handCarrier u) := .foldl u.fittedLanes u
  obtain ⟨more, hmore⟩ := hhanded.messages
  refine ⟨_, congrArg Host.Outcome.next (readyStep_due hdue), ?_, ?_, ⟨more, ?_⟩, fun hc => ?_, fun hc hh hq hquiet => ?_,
    fun hoff => ?_, fun l => ?_, ?_⟩
  · rw [hhanded.boot]
    exact congrArg State.boot (readyEntered_frame s)
  · rw [hhanded.busState]
    exact readyEntered_busState s
  · rw [hmore]
    show (readyEntered s).port.statusQueue ++ more = _
    rw [readyEntered_port hroom]
    simp
  · rw [hhanded.refreshAt]
    show (readyEntered s).bus.refreshAt = _
    obtain ⟨hbus, -⟩ := enterActive_offers (modBoot (fun b => { b with startup := .ready }) s)
    rw [readyEntered_active hc, hbus]
    rfl
  · obtain ⟨hlanes, hframe⟩ := readyHanded_spec fun l => (hquiet l).2
    obtain ⟨hbus, hsame⟩ := enterActive_quiet (s := modBoot (fun b => { b with startup := .ready }) s) hh hq fun l => (hquiet l).1
    rw [← readyEntered_active hc] at hbus hsame
    refine ⟨?_, fun l => ?_⟩
    · rw [hframe]
      exact hbus
    · rw [hlanes l]
      show ((readyEntered s).lane l).owed = false
      rw [State.lane, hsame]
      exact (hquiet l).1
  · obtain ⟨hlanes, hframe⟩ := readyHanded_spec hoff
    have hentered := readyEntered_frame s
    refine ⟨fun l => ?_, ?_, fun hc => ⟨?_, ?_, fun l => ?_⟩, fun hc => ⟨?_, fun l => ?_, ?_, ?_⟩, ?_⟩
    · rw [hlanes l, readyEntered_lane]
    · rw [hframe]
      exact readyEntered_port hroom
    · rw [hframe]
      obtain ⟨-, -, -, hact⟩ := enterActive_offers (modBoot (fun b => { b with startup := .ready }) s)
      rw [← readyEntered_active hc] at hact
      exact (congrArg State.views hact).trans rfl
    · rw [hframe]
      obtain ⟨-, -, -, hact⟩ := enterActive_offers (modBoot (fun b => { b with startup := .ready }) s)
      rw [← readyEntered_active hc] at hact
      exact (congrArg State.table hact).trans rfl
    · rw [hlanes l]
      obtain ⟨-, hact, -, -⟩ := enterActive_offers (modBoot (fun b => { b with startup := .ready }) s)
      rw [← readyEntered_active hc] at hact
      exact (congrArg Lane.rings (hact l)).trans rfl
    · rw [hframe]
      obtain ⟨hbus, -⟩ := enterMute_spec .idClash (modBoot (fun b => { b with startup := .ready }) s)
      rw [← readyEntered_muted hc] at hbus
      exact hbus
    · rw [hlanes l]
      obtain ⟨-, hmute, -⟩ := enterMute_spec .idClash (modBoot (fun b => { b with startup := .ready }) s)
      rw [← readyEntered_muted hc] at hmute
      exact congrArg Lane.owed (hmute l)
    · rw [hframe]
      obtain ⟨-, -, hviews, -⟩ := enterMute_spec .idClash (modBoot (fun b => { b with startup := .ready }) s)
      rw [← readyEntered_muted hc] at hviews
      exact hviews
    · obtain ⟨-, -, -, -, hrings, -⟩ := enterMute_spec .idClash (modBoot (fun b => { b with startup := .ready }) s)
      rw [← readyEntered_muted hc] at hrings
      refine hrings.congr (fun _ => rfl) (fun k => ?_) rfl ?_ ?_ ?_
      · rw [hlanes k]
      · rw [hframe]
      · rw [hframe]
      · rw [hframe]
    · rw [hframe, hentered]
  · obtain ⟨hslice, hsub⟩ := hhanded.slices l
    rw [hslice, hsub]
    show ((readyEntered s).lane l).slice = _ ∧ ((readyEntered s).lane l).sub = _
    rw [readyEntered_lane]
    exact ⟨rfl, rfl⟩
  · rw [hhanded.nodeTime]
    exact (congrArg State.nodeTime (readyEntered_frame s)).trans rfl

end Sys2Proof.Machine
end

section
/-! PROOF. Splits of an amount over lanes by weight (O45). -/

namespace Sys2Proof.Machine


theorem leastBy_isSome {α : Type} {key : α → Int} {as : List α} (h : as ≠ []) : (leastBy key as).isSome = true := by
  cases as with
  | nil => exact absurd rfl h
  | cons a as =>
    rw [leastBy]
    split
    · rfl
    · split <;> rfl

theorem leastBy_mem {α : Type} {key : α → Int} {as : List α} {a : α} (h : leastBy key as = some a) : a ∈ as := by
  obtain ⟨older, newer, rfl, -, -⟩ := leastBy_split key as a h
  simp

/-- The least element's key is the least. -/
theorem leastBy_le {α : Type} {key : α → Int} {as : List α} {a b : α} (h : leastBy key as = some a) (hb : b ∈ as) : key a ≤ key b := by
  obtain ⟨older, newer, rfl, holder, hnewer⟩ := leastBy_split key as a h
  obtain hb | hb := List.mem_append.1 hb
  · exact (holder b hb).le
  · obtain rfl | hb := List.mem_cons.1 hb
    · exact le_rfl
    · exact hnewer b hb

theorem sum_div_le (t : Nat) (l : List Nat) : (l.map (· / t)).sum ≤ l.sum / t := by
  induction l with
  | nil => simp
  | cons a l ih =>
    rw [List.map_cons, List.sum_cons, List.sum_cons]
    exact (Nat.add_le_add_left ih _).trans Nat.div_add_div_le_add_div

/-- An amount that one element of a list without duplicates takes. -/
theorem sum_map_single {α : Type} [DecidableEq α] {l : List α} (hl : l.Nodup) (a : α) (r : Nat) :
    (l.map fun b => if b = a then r else 0).sum = if a ∈ l then r else 0 := by
  induction l with
  | nil => simp
  | cons b l ih =>
    obtain ⟨hb, hl⟩ := List.nodup_cons.1 hl
    rw [List.map_cons, List.sum_cons, ih hl]
    by_cases hba : b = a
    · subst hba; simp [hb]
    · simp [hba, Ne.symm hba]

/-- The floors of a proportional split sum to no more than the amount. -/
theorem floors_sum_le (weight : NodeLane → Nat) (x : Nat) (set : List NodeLane) :
    (set.map fun n => x * weight n / (set.map weight).sum).sum ≤ x :=
  calc (set.map fun n => x * weight n / (set.map weight).sum).sum
      = ((set.map fun n => x * weight n).map (· / (set.map weight).sum)).sum := by rw [List.map_map]; rfl
    _ ≤ (set.map fun n => x * weight n).sum / (set.map weight).sum := sum_div_le _ _
    _ = x * (set.map weight).sum / (set.map weight).sum := by rw [List.sum_map_mul_left]
    _ ≤ x := Nat.div_le_of_le_mul (by rw [Nat.mul_comm])

theorem splitPart_of_mem {weight : NodeLane → Nat} {x : Nat} {set : List NodeLane} {n : NodeLane} (hn : n ∈ set) :
    splitPart weight x set n = x * weight n / (set.map weight).sum +
      if lowestLane set = some n then x - (set.map fun m => x * weight m / (set.map weight).sum).sum else 0 := by
  rw [splitPart, if_pos (by simpa using hn)]

theorem splitPart_of_not_mem {weight : NodeLane → Nat} {x : Nat} {set : List NodeLane} {n : NodeLane} (hn : n ∉ set) :
    splitPart weight x set n = 0 := by
  rw [splitPart, if_neg (by simpa using hn)]

/-- R146: a split over a set that is not empty gives every byte. -/
theorem splitPart_sum {weight : NodeLane → Nat} {x : Nat} {set : List NodeLane} (hset : set.Nodup) (hne : set ≠ []) :
    (set.map (splitPart weight x set)).sum = x := by
  obtain ⟨low, hlow⟩ := Option.isSome_iff_exists.1 (leastBy_isSome (key := fun n : NodeLane => (n.val : Int)) hne)
  have hlow : lowestLane set = some low := hlow
  have hparts : set.map (splitPart weight x set) = set.map fun n => x * weight n / (set.map weight).sum +
      if n = low then x - (set.map fun m => x * weight m / (set.map weight).sum).sum else 0 :=
    List.map_congr_left fun n hn => by simp only [splitPart_of_mem hn, hlow, Option.some.injEq, eq_comm]
  have hfloors := floors_sum_le weight x set
  rw [hparts, List.sum_map_add, sum_map_single hset, if_pos (leastBy_mem hlow)]
  omega

theorem splitPart_sum_le {weight : NodeLane → Nat} {x : Nat} {set : List NodeLane} (hset : set.Nodup) :
    (set.map (splitPart weight x set)).sum ≤ x := by
  cases set with
  | nil => simp
  | cons n set => exact (splitPart_sum hset (by simp)).le

theorem lowestLane_eq_some_iff {set : List NodeLane} {n : NodeLane} (hn : n ∈ set) :
    lowestLane set = some n ↔ ∀ m ∈ set, n ≤ m := by
  constructor
  · intro h m hm
    have hle := leastBy_le (key := fun n : NodeLane => (n.val : Int)) h hm
    exact Fin.le_def.mpr (by omega)
  · intro h
    obtain ⟨low, hlow⟩ := Option.isSome_iff_exists.mp
      (leastBy_isSome (key := fun n : NodeLane => (n.val : Int)) (List.ne_nil_of_mem hn))
    have hle : low.val ≤ n.val := by exact_mod_cast leastBy_le (key := fun n : NodeLane => (n.val : Int)) hlow hn
    have hmem := h low (leastBy_mem hlow)
    have heq : low = n := Fin.ext (Nat.le_antisymm hle hmem)
    rw [← heq]
    exact hlow

theorem splitPart_total {weight : NodeLane → Nat} {x : Nat} {set : List NodeLane} (hset : set.Nodup)
    (hweight : 0 < (set.map weight).sum) : (set.map (splitPart weight x set)).sum = x := by
  refine splitPart_sum hset fun hnil => ?_
  rw [hnil] at hweight
  exact Nat.lt_irrefl 0 hweight

theorem heardDemand_shares {s : State} {epoch : BitVec 8} {amount : Nat} {v : View} {x : Share}
    (h : x ∈ (v.heardDemand s epoch amount).live) :
    x.share = splitPart s.weightOf amount ((v.heardDemand s epoch amount).live.map (·.lane)) x.lane := by
  have hlanes : (v.heardDemand s epoch amount).live.map (·.lane) = v.set.filter s.directoryLive := by
    simp [View.heardDemand, Function.comp_def]
  obtain ⟨n, -, rfl⟩ := List.mem_map.mp h
  rw [hlanes]

theorem rebase_shares {s : State} {leaving : List NodeLane} {v : View} {x : Share} (h : x ∈ (v.rebase s leaving).live)
    (hexcluded : x.excluded = false) :
    x.share = splitPart s.weightOf (v.rebase s leaving).announced
      (((v.rebase s leaving).live.filter fun y => !y.excluded).map (·.lane)) x.lane := by
  have hlanes : ((v.rebase s leaving).live.filter fun y => !y.excluded).map (·.lane) =
      ((v.live.filter fun y => !leaving.contains y.lane).filter fun y => !y.excluded).map (·.lane) := by
    rw [View.rebase, List.filter_map, List.map_map]
    rfl
  obtain ⟨y, -, rfl⟩ := List.mem_map.mp h
  have hy : y.excluded = false := hexcluded
  rw [hlanes]
  simp only [hy, Bool.false_eq_true, if_false]
  rfl

theorem heardRelease_shares (s : State) (v : View) (epoch : BitVec 8) (n : NodeLane) (bytes : Nat) :
    (v.heardRelease s epoch n bytes).live.map (·.share) = v.live.map (·.share) ∨
      ∃ amount, (v.heardRelease s epoch n bytes).live.map (·.share) = v.live.map fun y =>
        if y.lane = n then y.share - amount
        else if y.excluded then y.share
        else y.share + splitPart s.weightOf amount ((v.live.filter fun z => !z.excluded && z.lane != n).map (·.lane)) y.lane := by
  unfold View.heardRelease
  split
  · rename_i x _
    split
    · refine .inr ⟨min bytes (x.share - x.claimed), ?_⟩
      rw [List.map_map]
      refine List.map_congr_left fun y _ => ?_
      rw [Function.comp_apply]
      split
      · rfl
      · split <;> rfl
    · exact .inl rfl
  · exact .inl rfl

/-- Settles O45, from the parts of a split and the shares each change of a view makes. -/
theorem splitIsProportional : Obligations.SplitIsProportional := by
  refine ⟨fun weight x set hset => ⟨fun n hn hlower => ?_, fun n hn hlowest => ?_, splitPart_total hset,
    fun n hn => splitPart_of_not_mem hn⟩, fun v s => ⟨fun n a ha => ?_, fun _ _ _ hx => heardDemand_shares hx,
    fun _ _ hx hexcluded => rebase_shares hx hexcluded, fun epoch n bytes => heardRelease_shares s v epoch n bytes,
    fun _ _ => rfl⟩⟩
  · obtain ⟨m, hm, hlt⟩ := hlower
    rw [splitPart_of_mem hn, if_neg, Nat.add_zero]
    exact fun h => absurd ((lowestLane_eq_some_iff hn).mp h m hm) (not_le.mpr hlt)
  · rw [splitPart_of_mem hn, if_pos ((lowestLane_eq_some_iff hn).mpr hlowest)]
  · simp only [State.weightOf, ha]

end Sys2Proof.Machine
end

section
/-! PROOF. What a delivered frame does: heard notices, the echo, and an offered RELEASE (O39, O40, O46). -/

namespace Sys2Proof.Machine

/-! ### Notices applied -/

theorem modView_frame (tag : Nat) (f : View → View) (s : State) :
    (∀ k, (modView tag f s).lane k = { s.lane k with rings := ((modView tag f s).lane k).rings }) ∧
      modView tag f s = { s with
        table := (modView tag f s).table, lanes := (modView tag f s).lanes, views := (modView tag f s).views } := by
  cases h : s.viewOf tag with
  | none =>
    have hsame : modView tag f s = s := by simp only [modView, h]
    rw [hsame]
    exact ⟨fun _ => rfl, rfl⟩
  | some v =>
    obtain ⟨-, -, hlanes, hframe⟩ := modView_spec f h
    exact ⟨hlanes, hframe⟩

theorem heardRelease_tag (s : State) (epoch : BitVec 8) (n : NodeLane) (bytes : Nat) (v : View) :
    (v.heardRelease s epoch n bytes).tag = v.tag := by
  unfold View.heardRelease
  split
  · split <;> rfl
  · rfl

/-- What a changed view of a tag does: it is the tag's view, the others stay, and the rings of its stream follow. -/
theorem modView_changes {tag : Nat} {s : State} {v : View} (f : View → View) (hf : ∀ v, (f v).tag = v.tag)
    (h : s.viewOf tag = some v) : (modView tag f s).viewOf tag = some (f v) ∧
      (∀ m, m ≠ tag → (modView tag f s).viewOf m = s.viewOf m) ∧ RingsFollow [v.entry] s (modView tag f s) :=
  ⟨modView_viewOf f hf h, fun _ hm => modView_viewOf_other f hf hm s, (modView_spec f h).1⟩

theorem heardLane_leaving {n : NodeLane} {st : LaneState} (w : Nat) {s : State} (hl : s.directoryLive n = true) (hst : st ≠ .live) :
    heardLane n st w s = rebaseViews [n] (setDirectory n (some { state := st, weight := w }) s) := by
  simp only [heardLane, hl, hst, decide_not, decide_false, Bool.not_false, Bool.and_self, if_true]

theorem heardLane_staying {n : NodeLane} {st : LaneState} (w : Nat) {s : State} (h : s.directoryLive n = false ∨ st = .live) :
    heardLane n st w s = setDirectory n (some { state := st, weight := w }) s := by
  obtain h | h := h <;> simp [heardLane, h]

/-- Everything a heard LANE notice does. -/
theorem heardLane_spec (n : NodeLane) (st : LaneState) (w : Nat) (s : State) :
    (heardLane n st w s).bus = { s.bus with lanes := s.bus.lanes.set n.val (some { state := st, weight := w }) } ∧
      (s.directoryLive n = true → st ≠ .live → LanesRebased [n] s (heardLane n st w s)) ∧
      (s.directoryLive n = false ∨ st = .live → (heardLane n st w s).views = s.views ∧ (heardLane n st w s).table = s.table ∧
        (heardLane n st w s).lanes = s.lanes) ∧
      (∀ k, (heardLane n st w s).lane k = { s.lane k with rings := ((heardLane n st w s).lane k).rings }) ∧
      heardLane n st w s = { s with
        bus := (heardLane n st w s).bus, table := (heardLane n st w s).table, lanes := (heardLane n st w s).lanes,
        views := (heardLane n st w s).views } := by
  by_cases hleaves : s.directoryLive n = true ∧ st ≠ .live
  · obtain ⟨hl, hst⟩ := hleaves
    obtain ⟨⟨hviews, hrings⟩, hlanes, hframe⟩ := rebaseViews_spec [n] (setDirectory n (some { state := st, weight := w }) s)
    rw [heardLane_leaving w hl hst]
    refine ⟨by rw [hframe]; rfl, fun _ _ => ⟨hviews, ?_⟩, fun h => ?_, hlanes, ?_⟩
    · exact hrings.congr (fun _ => rfl) (fun _ => rfl) rfl rfl rfl rfl
    · obtain h | h := h
      · rw [hl] at h
        cases h
      · exact absurd h hst
    · have hbus : (rebaseViews [n] (setDirectory n (some { state := st, weight := w }) s)).bus =
          (setDirectory n (some { state := st, weight := w }) s).bus := by rw [hframe]
      rw [hbus]
      exact hframe
  · have hstays : s.directoryLive n = false ∨ st = .live := by
      by_cases hst : st = .live
      · exact .inr hst
      · exact .inl (Bool.eq_false_iff.mpr fun hl => hleaves ⟨hl, hst⟩)
    rw [heardLane_staying w hstays]
    exact ⟨rfl, fun hl hst => absurd ⟨hl, hst⟩ hleaves, fun _ => ⟨rfl, rfl, rfl⟩, fun _ => rfl, rfl⟩

/-- What any applied notice changes. -/
structure OnlyHeard (s t : State) : Prop where
  bus : t.bus = { s.bus with lanes := t.bus.lanes }
  lanes : ∀ k, t.lane k = { s.lane k with rings := (t.lane k).rings }
  frame : t = { s with bus := t.bus, table := t.table, lanes := t.lanes, views := t.views }

theorem OnlyHeard.refl (s : State) : OnlyHeard s s := ⟨rfl, fun _ => rfl, rfl⟩

theorem modView_heard (tag : Nat) (f : View → View) (s : State) : OnlyHeard s (modView tag f s) := by
  obtain ⟨hlanes, hframe⟩ := modView_frame tag f s
  have hbus : (modView tag f s).bus = s.bus := by rw [hframe]
  exact ⟨by rw [hbus], hlanes, by rw [hbus]; exact hframe⟩

theorem applyNotice_heard (p : PeerNo) (n : Notice) (s : State) : OnlyHeard s (applyNotice p n s) := by
  cases n with
  | lane l st w =>
    obtain ⟨hbus, -, -, hlanes, hframe⟩ := heardLane_spec (nodeLaneOf p l) st w s
    exact ⟨by rw [applyNotice, hbus], hlanes, hframe⟩
  | release t e m b => exact modView_heard t _ s
  | claim t e m b k => exact modView_heard t _ s
  | demand t e a => exact modView_heard t _ s

theorem applyNotice_directory {p : PeerNo} {n : Notice} (s : State) (h : ∀ l st w, n ≠ .lane l st w) :
    (applyNotice p n s).bus = s.bus := by
  cases n with
  | lane l st w => exact absurd rfl (h l st w)
  | release t e m b => exact modView_bus _ _ _
  | claim t e m b k => exact modView_bus _ _ _
  | demand t e a => exact modView_bus _ _ _

theorem applyFrame_of_notice {bits : List Bool} {n : Notice} (s : State) (h : heardNotice bits = some n) :
    applyFrame bits s = applyNotice (frameSender bits) n s := by
  simp only [applyFrame, h]

theorem applyFrame_heard (bits : List Bool) (s : State) : OnlyHeard s (applyFrame bits s) := by
  cases h : heardNotice bits with
  | some n =>
    rw [applyFrame_of_notice s h]
    exact applyNotice_heard _ n s
  | none =>
    simp only [applyFrame, h]
    exact .refl s

theorem applyFrame_directory {bits : List Bool} (s : State) (h : ∀ l st w, heardNotice bits ≠ some (.lane l st w)) :
    (applyFrame bits s).bus = s.bus := by
  cases hn : heardNotice bits with
  | some n =>
    rw [applyFrame_of_notice s hn]
    exact applyNotice_directory s fun l st w he => h l st w (by rw [hn, he])
  | none => simp only [applyFrame, hn]

/-! ### A frame heard from another peer -/

/-- The port after a hearing of a peer. -/
def heardPort (p : PeerNo) (s : State) : OrderPort := if s.bus.peers[p.val] = .absent then peerPort p true s else s.port

/-- The state in which a frame of another peer is applied. -/
def heardFrom (p : PeerNo) (s : State) : State := hearPeer p (frameEnds s)

theorem heardFrom_eq (p : PeerNo) (s : State) : heardFrom p s = { s with
    bus := { s.bus with
      reader := .counting 0, sending := false, clashSeen := false, peers := s.bus.peers.set p.val (.present s.nodeTime) },
    port := heardPort p s } := by
  unfold heardFrom hearPeer heardPort
  by_cases h : s.bus.peers[p.val] = .absent
  · have hport : peerPort p true (setPeer p (.present s.nodeTime) (frameEnds s)) = peerPort p true s := by
      unfold peerPort
      rw [queueStatus_port, queueStatus_port]
      rfl
    have habsent : ((frameEnds s).bus.peers[p.val] == .absent) = true := beq_iff_eq.mpr h
    simp only [habsent, if_true]
    rw [if_pos h, ← hport]
    exact peerMessage_eq p true _
  · have hpresent : ((frameEnds s).bus.peers[p.val] == .absent) = false := beq_eq_false_iff_ne.mpr h
    simp only [hpresent, if_neg h]
    rfl

theorem heardPort_ready {p : PeerNo} {s : State} (hready : s.boot.startup = .ready) (hroom : s.port.statusQueue.length < 32) :
    heardPort p s = { s.port with
      statusQueue := if s.bus.peers[p.val] = .absent then s.port.statusQueue ++ [.peerState p true] else s.port.statusQueue } := by
  unfold heardPort
  split
  · rw [peerPort, if_pos hready, queueStatus_room hroom]
  · rfl

theorem heardPort_listening {p : PeerNo} {s : State} (h : s.boot.startup = .listening) : heardPort p s = s.port := by
  unfold heardPort peerPort
  simp [h]

theorem frameDelivery_other {bits : List Bool} {s : State} (hfollows : s.followsBus = true) (hformed : frameWellFormed bits = true)
    (hother : frameSender bits ≠ s.boot.peerId) :
    frameDeliveryStep bits s = applyFrame bits (heardFrom (frameSender bits) s) := by
  simp only [frameDeliveryStep, hfollows, hformed, Bool.and_self, if_true, if_neg hother]
  rfl

/-- What a frame of another peer that carries a notice does. -/
theorem frameDelivery_notice {p : PeerNo} {n : Notice} {s : State} (hready : s.boot.startup = .ready) (hother : p ≠ s.boot.peerId)
    (hn : heardNotice (frameBits p n) = some n) : frameDeliveryStep (frameBits p n) s = applyNotice p n (heardFrom p s) := by
  rw [frameDelivery_other (followsBus_of_ready hready) (frameWellFormed_frameBits p n) (by rw [frameSender_frameBits]; exact hother),
    applyFrame_of_notice _ hn, frameSender_frameBits]

/-- A frame of the chip's own identity that it did not send. -/
theorem frameDelivery_clash {bits : List Bool} {s : State} (hfollows : s.followsBus = true) (hformed : frameWellFormed bits = true)
    (hown : frameSender bits = s.boot.peerId) (hunsent : s.bus.holder = none ∨ s.bus.sending = false) :
    frameDeliveryStep bits s = clashDetected (frameEnds s) := by
  have hecho : s.isEcho bits = false := by
    unfold State.isEcho
    split
    · rename_i n hn
      obtain h | h := hunsent
      · rw [h] at hn
        cases hn
      · simp [h]
    · rfl
  simp only [frameDeliveryStep, hfollows, hformed, Bool.and_self, if_true, if_pos hown, hecho, Bool.false_eq_true, if_false]

theorem nodeLane_ne_of_peer {p : PeerNo} {s : State} (h : p ≠ s.boot.peerId) (k l : LaneNo) : s.nodeLane k ≠ nodeLaneOf p l := by
  intro he
  have howner := congrArg ownerOf he
  rw [State.nodeLane, ownerOf_nodeLaneOf, ownerOf_nodeLaneOf] at howner
  exact h howner.symm

theorem nodeLane_inj {s : State} {k l : LaneNo} : s.nodeLane k = s.nodeLane l ↔ k = l := by
  refine ⟨fun h => Fin.ext ?_, fun h => by rw [h]⟩
  have hval : 4 * s.boot.peerId.val + k.val = 4 * s.boot.peerId.val + l.val := congrArg Fin.val h
  omega

/-- What any view change of a heard notice leaves of the state before the frame. -/
theorem heardView_spec {p : PeerNo} {tag : Nat} {s : State} {v : View} (f : View → View) (hf : ∀ v, (f v).tag = v.tag)
    (hready : s.boot.startup = .ready) (h : s.viewOf tag = some v) :
    let t := modView tag f (heardFrom p s)
    t.viewOf tag = some (f v) ∧ (∀ m, m ≠ tag → t.viewOf m = s.viewOf m) ∧ RingsFollow [v.entry] s t ∧
      (∀ k, t.lane k = { s.lane k with rings := (t.lane k).rings }) ∧
      (s.port.statusQueue.length < 32 → t.port = { s.port with
        statusQueue := if s.bus.peers[p.val] = .absent then s.port.statusQueue ++ [.peerState p true]
          else s.port.statusQueue }) ∧
      t.bus = { s.bus with
        reader := .counting 0, sending := false, clashSeen := false, peers := s.bus.peers.set p.val (.present s.nodeTime) } ∧
      t = { s with bus := t.bus, port := t.port, views := t.views, table := t.table, lanes := t.lanes } := by
  have hu := heardFrom_eq p s
  have hview : (heardFrom p s).viewOf tag = some v := by
    rw [hu]
    exact h
  obtain ⟨hchanged, hothers, hrings⟩ := modView_changes f hf hview
  obtain ⟨hlanes, hframe⟩ := modView_frame tag f (heardFrom p s)
  have hport : (modView tag f (heardFrom p s)).port = heardPort p s := by rw [modView_port, hu]
  have hbus : (modView tag f (heardFrom p s)).bus = (heardFrom p s).bus := modView_bus _ _ _
  refine ⟨hchanged, fun m hm => (hothers m hm).trans (by rw [hu]; rfl), ?_, fun k => (hlanes k).trans (by rw [hu]; rfl),
    fun hroom => hport.trans (heardPort_ready hready hroom), hbus.trans (by rw [hu]), ?_⟩
  · exact hrings.congr (fun _ => by rw [hu]; rfl) (fun _ => rfl) (by rw [hu]) rfl rfl rfl
  · rw [hbus, hport]
    refine hframe.trans ?_
    rw [hu]

/-- Settles O39, by who sent the frame and what it carries. -/
theorem laneNoticeHeardSetsDirectories : Obligations.LaneNoticeHeardSetsDirectories := by
  refine ⟨fun bits s hdeaf => ?_, fun bits s hhears hformed hown hunsent => ?_, fun bits p s hlistening hformed hsender hother => ?_,
    fun p l s hother hready => ⟨fun st w hw hw' hroom => ?_, fun tag e a v ht ha hv => ?_, fun tag e b k v ht hb hv => ?_,
      fun tag e b v ht hb hv => ?_⟩⟩
  · have hfollows : s.followsBus = false := by
      obtain h | h := hdeaf <;> simp [State.followsBus, h]
    show Host.Outcome.next (frameDeliveryStep bits s) = _
    simp only [frameDeliveryStep, hfollows, Bool.and_false, Bool.false_eq_true, if_false]
  · have hstep := frameDelivery_clash (followsBus_iff.mpr hhears) hformed hown hunsent
    have hstate : (frameEnds s).bus.state = s.bus.state := rfl
    refine ⟨fun hb => ?_, fun hb => ?_, fun hb => ?_, fun hb hroom => ?_⟩
    · refine ⟨_, congrArg Host.Outcome.next (hstep.trans ?_), muted_at_T5 .idClash s⟩
      simp only [clashDetected, hstate, hb]
    · refine congrArg Host.Outcome.next (hstep.trans ?_)
      simp only [clashDetected, hstate, hb]
      rw [← hb]
      rfl
    · refine congrArg Host.Outcome.next (hstep.trans ?_)
      simp only [clashDetected, hstate, hb]
      rw [← hb]
      rfl
    · refine congrArg Host.Outcome.next (hstep.trans ?_)
      simp only [clashDetected, hstate, hb]
      rw [queueStatus_frame, queueStatus_room (s := modBus _ (frameEnds s)) hroom]
      rfl
  · have hstep := frameDelivery_other (followsBus_iff.mpr (.inl hlistening)) hformed (hsender ▸ hother)
    rw [hsender] at hstep
    have hu := heardFrom_eq p s
    rw [heardPort_listening hlistening] at hu
    obtain ⟨hbus, hlanes, hframe⟩ := applyFrame_heard bits (heardFrom p s)
    refine ⟨_, congrArg Host.Outcome.next hstep, by rw [hframe, hu], by rw [hbus, hu], fun l st w hn => ?_, fun hn => ?_,
      fun k => (hlanes k).trans (by rw [hu]; rfl), hframe.trans (by rw [hu])⟩
    · obtain ⟨hdirectory, hleaving, hstaying, -, -⟩ := heardLane_spec (nodeLaneOf p l) st w (heardFrom p s)
      have happlied : applyFrame bits (heardFrom p s) = heardLane (nodeLaneOf p l) st w (heardFrom p s) := by
        rw [applyFrame_of_notice _ hn, hsender]
        rfl
      have hlive : (heardFrom p s).directoryLive (nodeLaneOf p l) = s.directoryLive (nodeLaneOf p l) := by
        rw [hu]
        rfl
      rw [hlive] at hleaving hstaying
      rw [happlied]
      refine ⟨by rw [hdirectory, hu], fun hl hst => ?_, fun hl => ?_⟩
      · obtain ⟨hviews, hrings⟩ := hleaving hl hst
        have hsame : (heardFrom p s).views = s.views := by rw [hu]
        rw [hsame] at hviews hrings
        exact ⟨hviews, hrings.congr (fun _ => by rw [hu]; rfl) (fun _ => rfl) (by rw [hu]) rfl rfl rfl⟩
      · obtain ⟨hviews, htable, hkept⟩ := hstaying hl
        exact ⟨hviews.trans (by rw [hu]), htable.trans (by rw [hu]), hkept.trans (by rw [hu])⟩
    · rw [applyFrame_directory _ hn, hu]
  · have hstep := frameDelivery_notice hready hother (heardNotice_lane p l st hw hw')
    have hu := heardFrom_eq p s
    rw [heardPort_ready hready hroom] at hu
    obtain ⟨hdirectory, hleaving, hstaying, hlanes, hframe⟩ := heardLane_spec (nodeLaneOf p l) st w (heardFrom p s)
    have hlive : (heardFrom p s).directoryLive (nodeLaneOf p l) = s.directoryLive (nodeLaneOf p l) := by
      rw [hu]
      rfl
    have hsame : (heardFrom p s).views = s.views := by rw [hu]
    have hport : (heardLane (nodeLaneOf p l) st w (heardFrom p s)).port = (heardFrom p s).port := by rw [hframe]
    have hrebased : s.directoryLive (nodeLaneOf p l) = true → st ≠ .live →
        LanesRebased [nodeLaneOf p l] s (heardLane (nodeLaneOf p l) st w (heardFrom p s)) := fun hl hst => by
      obtain ⟨hviews, hrings⟩ := hleaving (hlive.trans hl) hst
      rw [hsame] at hviews hrings
      exact ⟨hviews, hrings.congr (fun _ => by rw [hu]; rfl) (fun _ => rfl) (by rw [hu]) rfl rfl rfl⟩
    refine ⟨_, congrArg Host.Outcome.next hstep, hdirectory.trans (by rw [hu]), (congrArg OrderPort.statusQueue hport).trans (by rw [hu]), fun hl hst => ?_, fun hl => ?_, hrebased,
      fun k => (hlanes k).trans (by rw [hu]; rfl), ?_⟩
    · have hcontains : ∀ m, [nodeLaneOf p l].contains m = (m == nodeLaneOf p l) := fun m => Bool.eq_iff_iff.mpr (by simp)
      have hviews := (hrebased hl hst).1
      simp only [hcontains] at hviews
      exact hviews
    · rw [hlive] at hstaying
      obtain ⟨hviews, htable, hkept⟩ := hstaying hl
      exact ⟨hviews.trans (by rw [hu]), htable.trans (by rw [hu]), hkept.trans (by rw [hu])⟩
    · show heardLane (nodeLaneOf p l) st w (heardFrom p s) = { s with
        bus := (heardLane (nodeLaneOf p l) st w (heardFrom p s)).bus
        port := { s.port with statusQueue := (heardLane (nodeLaneOf p l) st w (heardFrom p s)).port.statusQueue }
        views := (heardLane (nodeLaneOf p l) st w (heardFrom p s)).views
        table := (heardLane (nodeLaneOf p l) st w (heardFrom p s)).table
        lanes := (heardLane (nodeLaneOf p l) st w (heardFrom p s)).lanes }
      rw [hport]
      refine hframe.trans ?_
      rw [hu]
  · have hstep := frameDelivery_notice hready hother (heardNotice_demand p e ht ha)
    obtain ⟨hview, hothers, hrings, hlanes, hport, hbus, hframe⟩ :=
      heardView_spec (p := p) (View.heardDemand (heardFrom p s) e a) (fun _ => rfl) hready hv
    have hsame : v.heardDemand (heardFrom p s) e a = v.heardDemand s e a := by
      rw [heardFrom_eq]
      rfl
    exact ⟨_, congrArg Host.Outcome.next hstep, hview.trans (by rw [hsame]; rfl), hothers, hrings, hlanes, hport, hbus, hframe⟩
  · have hstep := frameDelivery_notice hready hother (heardNotice_claim p e l k ht hb)
    obtain ⟨hview, hothers, hrings, hlanes, hport, hbus, hframe⟩ :=
      heardView_spec (p := p) (View.heardClaim (heardFrom p s) e (nodeLaneOf p l) b k) (fun _ => rfl) hready hv
    have hsame : v.heardClaim (heardFrom p s) e (nodeLaneOf p l) b k = v.heardClaim s e (nodeLaneOf p l) b k := by
      rw [heardFrom_eq]
      rfl
    refine ⟨_, _, congrArg Host.Outcome.next hstep, hview, ?_, ?_, hothers, hrings, hlanes, hport, hbus, hframe⟩
    · have hown : ∀ o : OwnLane, (if s.nodeLane o.lane = nodeLaneOf p l then { o with pending := o.pending - b } else o) = o :=
        fun o => if_neg (nodeLane_ne_of_peer hother o.lane l)
      rw [hsame]
      simp only [View.heardClaim, hown, List.map_id']
    · rw [hsame]
      exact heardClaim_joined s e (nodeLaneOf p l) b k v
  · have hstep := frameDelivery_notice hready hother (heardNotice_release p e l ht hb)
    obtain ⟨hview, hothers, hrings, hlanes, hport, hbus, hframe⟩ :=
      heardView_spec (p := p) (View.heardRelease (heardFrom p s) e (nodeLaneOf p l) b) (heardRelease_tag _ e _ b) hready hv
    have hsame : v.heardRelease (heardFrom p s) e (nodeLaneOf p l) b = v.heardRelease s e (nodeLaneOf p l) b := by
      rw [heardFrom_eq]
      rfl
    rw [hsame] at hview
    refine ⟨_, congrArg Host.Outcome.next hstep, fun x he hx hexcluded => ?_, fun hno => ?_, hothers, hrings, hlanes, hport, hbus,
      hframe⟩
    · refine hview.trans ?_
      simp only [View.heardRelease, hx, he, hexcluded, Bool.false_eq_true, not_false_eq_true, and_self, if_true]
    · refine hview.trans (congrArg some ?_)
      unfold View.heardRelease
      split
      · rename_i x hx
        refine if_neg ?_
        rintro ⟨he, hexcluded⟩
        obtain h | h := hno
        · exact h he
        · exact hexcluded (h x hx)
      · rfl

/-! ### The echo -/

theorem heardNotice_priority {bits : List Bool} {n : Notice} (h : heardNotice bits = some n) : n.priority = framePriority bits := by
  simp only [heardNotice] at h
  split at h
  · rename_i hp
    split at h
    · cases h
      exact hp.symm
    · cases h
  · rename_i hp
    split at h
    · cases h
      exact hp.symm
    · cases h
  · rename_i hp
    split at h
    · cases h
      exact hp.symm
    · cases h
  · rename_i h0 h1 h2
    cases h
    have hlt : framePriority bits < 4 := by
      have hbits := natOfBits_lt ((List.range 2).map fun i => (bits[0 + i]?).getD true)
      rwa [List.length_map, List.length_range] at hbits
    show 3 = framePriority bits
    exact (by omega : ∀ k, k ≠ 0 → k ≠ 1 → k ≠ 2 → k < 4 → 3 = k) _ h0 h1 h2 hlt

theorem heardNotice_not_lane {p : PeerNo} {n : Notice} (h : ∀ l st w, n ≠ .lane l st w) (l : LaneNo) (st : LaneState) (w : Nat) :
    heardNotice (frameBits p n) ≠ some (.lane l st w) := by
  intro he
  have hp := heardNotice_priority he
  rw [framePriority_frameBits] at hp
  cases n with
  | lane l' st' w' => exact h l' st' w' rfl
  | release t e m b => cases hp
  | claim t e m b k => cases hp
  | demand t e a => cases hp

/-- The state in which the notice of an echo is applied. -/
def echoed (s : State) : State :=
  { s with bus := { s.bus with
      holder := none, voidCount := 0, sending := false, clashSeen := false, reader := .counting 0, refreshAt := s.nodeTime } }

theorem frameDelivery_echo {n : Notice} {s : State} (hready : s.boot.startup = .ready) (hh : s.bus.holder = some n)
    (hs : s.bus.sending = true) (hclash : s.bus.clashSeen = false) :
    frameDeliveryStep (frameBits s.boot.peerId n) s = pumpHolder (applyFrame (frameBits s.boot.peerId n) (echoed s)) := by
  have hecho : s.isEcho (frameBits s.boot.peerId n) = true := by
    simp [State.isEcho, hh, hs, hclash, readBits_covered]
  simp only [frameDeliveryStep, frameWellFormed_frameBits, followsBus_of_ready hready, frameSender_frameBits, hecho, Bool.and_self,
    if_true]
  rfl

/-- Holder and queue are filled alike from states that differ in nothing the notices read. -/
theorem HolderFilled.congr {b : Bus} {q : List Notice} {s t s' : State} (h : HolderFilled b q s t)
    (ho : ∀ k, (s'.lane k).owed = (s.lane k).owed) (hs : ∀ k, (s'.lane k).health = (s.lane k).health) :
    HolderFilled b q s' t := by
  simpa only [HolderFilled, State.laneState, ho, hs] using h

/-- What the echo leaves of a state reached by applying its notice. -/
theorem pumpHolder_keeps (s : State) : (pumpHolder s).bus.lanes = s.bus.lanes ∧ (pumpHolder s).views = s.views ∧
    (pumpHolder s).table = s.table ∧ (pumpHolder s).boot = s.boot ∧ ∀ k, ((pumpHolder s).lane k).rings = (s.lane k).rings := by
  obtain ⟨hbus, hlanes, hframe⟩ := pumpHolder_offers s
  exact ⟨by rw [hbus], by rw [hframe], by rw [hframe], by rw [hframe], fun k => by rw [hlanes]⟩

/-- What the echo of a notice that changes one view does to views and rings. -/
theorem echoView_spec {n : Notice} {tag : Nat} {s : State} {v : View} (f : View → View) (hf : ∀ v, (f v).tag = v.tag)
    (h : s.viewOf tag = some v) (hn : applyFrame (frameBits s.boot.peerId n) (echoed s) = modView tag f (echoed s)) :
    let t := pumpHolder (applyFrame (frameBits s.boot.peerId n) (echoed s))
    t.viewOf tag = some (f v) ∧ (∀ m, m ≠ tag → t.viewOf m = s.viewOf m) ∧ RingsFollow [v.entry] s t := by
  obtain ⟨hview, hothers, hrings⟩ := modView_changes (s := echoed s) f hf h
  obtain ⟨-, hviews, htable, hboot, hkept⟩ := pumpHolder_keeps (modView tag f (echoed s))
  rw [hn]
  have hviewOf : ∀ m, (pumpHolder (modView tag f (echoed s))).viewOf m = (modView tag f (echoed s)).viewOf m := fun m => by
    rw [State.viewOf, hviews]
    rfl
  exact ⟨(hviewOf tag).trans hview, fun m hm => (hviewOf m).trans (hothers m hm),
    hrings.congr (fun _ => rfl) hkept rfl htable hviews hboot⟩

theorem applyEchoed {n : Notice} {s : State} (h : heardNotice (frameBits s.boot.peerId n) = some n) :
    applyFrame (frameBits s.boot.peerId n) (echoed s) = applyNotice s.boot.peerId n (echoed s) := by
  rw [applyFrame_of_notice _ h, frameSender_frameBits]

/-- Settles O40: the notice leaves the holder, is applied, and the holder is filled again. -/
theorem echoEndsAttempt : Obligations.EchoEndsAttempt := by
  intro n s hready ha hh hs hclash hroom
  have hstep := frameDelivery_echo hready hh hs hclash
  obtain ⟨hbus, hlanes, hframe⟩ := applyFrame_heard (frameBits s.boot.peerId n) (echoed s)
  obtain ⟨hdirectory, hviews, htable, hboot, hkept⟩ := pumpHolder_keeps (applyFrame (frameBits s.boot.peerId n) (echoed s))
  obtain ⟨hpbus, hplanes, hpframe⟩ := pumpHolder_offers (applyFrame (frameBits s.boot.peerId n) (echoed s))
  have howed : ∀ k, ((applyFrame (frameBits s.boot.peerId n) (echoed s)).lane k).owed = (s.lane k).owed := fun k => by
    rw [hlanes]
    rfl
  have hhealth : ∀ k, ((applyFrame (frameBits s.boot.peerId n) (echoed s)).lane k).health = (s.lane k).health := fun k => by
    rw [hlanes]
    rfl
  refine ⟨_, congrArg Host.Outcome.next hstep, fun hq => ?_, fun hq => ?_, fun tag e l b k v hn ht hb hv => ?_,
    fun l st w hn hw hw' => ?_, fun hn => ?_, fun tag e a v hn ht ha hv => ?_, fun tag e l b v hn ht hb hv => ?_, fun k => ?_, ?_⟩
  · have hidle : pumpHolder (applyFrame (frameBits s.boot.peerId n) (echoed s)) = applyFrame (frameBits s.boot.peerId n) (echoed s) := by
      obtain h | ⟨m, rest, -, -, hqueue, -⟩ := pumpHolder_cases (applyFrame (frameBits s.boot.peerId n) (echoed s))
      · exact h
      · rw [hbus] at hqueue
        exact absurd (hq.symm.trans hqueue) (by simp)
    rw [hidle]
    exact ⟨hbus, howed⟩
  · have hfilled := pumpHolder_filled (s := applyFrame (frameBits s.boot.peerId n) (echoed s)) (by rw [hbus]; exact ha)
      (by rw [hbus]; rfl) (by rw [hbus]; exact hq) (by rw [hbus]; exact hroom)
    obtain ⟨owed, hb, hnone, hsome⟩ := hfilled.congr (s' := s) (fun k => (howed k).symm) (fun k => (hhealth k).symm)
    refine ⟨owed, ?_, hnone, hsome⟩
    rw [hdirectory]
    rw [hbus] at hb
    exact hb
  · subst hn
    have happlied := applyEchoed (heardNotice_claim s.boot.peerId e l k ht hb)
    obtain ⟨hview, hothers, hrings⟩ := echoView_spec (View.heardClaim (echoed s) e (s.nodeLane l) b k) (fun _ => rfl) hv happlied
    have hown : ∀ o : OwnLane, (if s.nodeLane o.lane = s.nodeLane l then { o with pending := o.pending - b } else o) =
        if o.lane = l then { o with pending := o.pending - b } else o := fun o => by simp only [nodeLane_inj]
    refine ⟨_, hview, ?_, heardClaim_joined (echoed s) e (s.nodeLane l) b k v, hothers, hrings⟩
    have hmap : v.own.map (fun o => if (echoed s).nodeLane o.lane = s.nodeLane l then { o with pending := o.pending - b } else o) =
        v.own.map fun o => if o.lane = l then { o with pending := o.pending - b } else o :=
      List.map_congr_left fun o _ => hown o
    rw [View.heardClaim, hmap]
  · subst hn
    have happlied := applyEchoed (heardNotice_lane s.boot.peerId l st hw hw')
    obtain ⟨hset, hleaving, hstaying, -, -⟩ := heardLane_spec (s.nodeLane l) st w (echoed s)
    have hheard : applyFrame (frameBits s.boot.peerId (.lane l st w)) (echoed s) = heardLane (s.nodeLane l) st w (echoed s) := happlied
    rw [hheard] at hdirectory hviews htable hboot hkept ⊢
    refine ⟨hdirectory.trans (by rw [hset]; rfl), fun hl hst => ?_, fun hl => ?_⟩
    · obtain ⟨hrebased, hrings⟩ := hleaving hl hst
      refine ⟨hviews.trans ?_, hrings.congr (fun _ => rfl) hkept rfl htable hviews hboot⟩
      have hweight : (pumpHolder (heardLane (s.nodeLane l) st w (echoed s))).weightOf =
          (heardLane (s.nodeLane l) st w (echoed s)).weightOf := by
        funext m
        rw [State.weightOf, hdirectory]
        rfl
      rw [hweight]
      exact hrebased
    · obtain ⟨hsame, hsameTable, hsameLanes⟩ := hstaying hl
      refine ⟨hviews.trans hsame, htable.trans hsameTable, fun k => (hkept k).trans ?_⟩
      rw [State.lane, hsameLanes]
      rfl
  · rw [hdirectory, applyFrame_directory _ fun l st w => heardNotice_not_lane hn l st w]
    rfl
  · subst hn
    exact echoView_spec (View.heardDemand (echoed s) e a) (fun _ => rfl) hv
      (applyEchoed (heardNotice_demand s.boot.peerId e ht ha))
  · subst hn
    exact echoView_spec (View.heardRelease (echoed s) e (s.nodeLane l) b) (heardRelease_tag _ e _ b) hv
      (applyEchoed (heardNotice_release s.boot.peerId e l ht hb))
  · rw [hplanes, hlanes]
    rfl
  · refine hpframe.trans ?_
    rw [hviews, htable]
    exact congrArg (fun u : State => { u with
      bus := (pumpHolder (applyFrame (frameBits s.boot.peerId n) (echoed s))).bus
      lanes := (pumpHolder (applyFrame (frameBits s.boot.peerId n) (echoed s))).lanes }) hframe

/-! ### Release waits -/

theorem NoticeOffered.taken {note : Notice} {s t : State} (h : NoticeOffered (fun _ => false) none note s t)
    (ha : s.bus.state = .active) (hl : s.bus.queue.length < 64) : note ∈ t.bus.holder.toList ++ t.bus.queue := by
  obtain ⟨-, hroom⟩ := (h.2 ha).2 fun _ _ => rfl
  obtain ⟨hheld, hempty⟩ := hroom hl
  cases hh : s.bus.holder with
  | some n =>
    rw [(hheld (by simp [hh])).1]
    simp
  | none =>
    obtain ⟨owed, hb, -⟩ := hempty hh
    rw [hb]
    cases s.bus.queue <;> simp

/-- The view after a RELEASE was sent for one of its own lanes. -/
def View.releaseSent (l : LaneNo) (v : View) : View :=
  { v with own := v.own.map fun o => if o.lane = l then { o with sent := true } else o }

theorem allowance_releaseSent (self : PeerNo) (v : View) (l : LaneNo) : allowance self (v.releaseSent l) l = 0 := by
  unfold allowance
  split
  · rename_i o x ho hx
    have hsent : o.sent = true := by
      have hlane : o.lane = l := by simpa using List.find?_some ho
      obtain ⟨o', -, rfl⟩ := List.mem_map.mp (List.mem_of_find?_eq_some ho)
      by_cases h : o'.lane = l
      · simp [h]
      · rw [if_neg h] at hlane
        exact absurd hlane h
    rw [if_pos hsent]
  · rfl

theorem releaseWaitStep_eq {i : Nat} {l : LaneNo} {v : View} {s : State} (hdue : (i, l) ∈ s.releaseDue) (hv : s.view? i = some v)
    (hreached : releaseReached s.params s.boot.peerId v l = true) :
    releaseWaitStep i l s = if s.takesNotice then
      pumpHolder (pushNotice (.release v.tag v.epoch (s.nodeLane l) (allowance s.boot.peerId v l))
        (modView v.tag (View.releaseSent l) { s with releaseDue := s.releaseDue.filter fun d => d != (i, l) }))
    else { s with releaseDue := s.releaseDue.filter fun d => d != (i, l) } := by
  have hcontains : s.releaseDue.contains (i, l) = true := by simpa using hdue
  have hview : State.view? { s with releaseDue := s.releaseDue.filter fun d => d != (i, l) } i = some v := hv
  have hr : releaseReached (State.params { s with releaseDue := s.releaseDue.filter fun d => d != (i, l) }) s.boot.peerId v l = true :=
    hreached
  simp only [releaseWaitStep, hcontains, if_true, hview, hr, Bool.true_and]
  rfl

theorem takesNotice_iff {s : State} : s.takesNotice = true ↔ s.bus.state = .active ∧ s.bus.queue.length < 64 := by
  simp only [State.takesNotice, Bool.and_eq_true, beq_iff_eq, decide_eq_true_iff]
  rfl

/-- Settles O46: the offer is a push on a queue with room, and its view's rings follow. -/
theorem releaseWaitOffersRelease : Obligations.ReleaseWaitOffersRelease := by
  intro i l v s hdue hv hview hreached
  have hstep := releaseWaitStep_eq hdue hv hreached
  refine ⟨fun ha hl => ?_, fun hno => ?_⟩
  · rw [if_pos (takesNotice_iff.mpr ⟨ha, hl⟩)] at hstep
    let u : State := { s with releaseDue := s.releaseDue.filter fun d => d != (i, l) }
    let w := modView v.tag (View.releaseSent l) u
    obtain ⟨hchanged, hothers, hrings⟩ := modView_changes (s := u) (View.releaseSent l) (fun _ => rfl) hview
    obtain ⟨hlanes, hframe⟩ := modView_frame v.tag (View.releaseSent l) u
    have hbus : w.bus = s.bus := modView_bus _ _ _
    have hw : ∀ k, w.lane k = { s.lane k with rings := (w.lane k).rings } := hlanes
    let note := Notice.release v.tag v.epoch (s.nodeLane l) (allowance s.boot.peerId v l)
    have hoffered : NoticeOffered (fun _ => false) none note s (pumpHolder (pushNotice note w)) :=
      (pushed_offered (s := w) none (by rw [hbus]; exact ha) (by rw [hbus]; exact hl) fun _ _ => rfl).congr hbus.symm
        (fun k => by rw [hw]) (fun k => by rw [State.laneState, State.laneState, hw]) (fun k => by rw [hw]) rfl fun _ => rfl
    obtain ⟨-, hpviews, hptable, hpboot, hprings⟩ := pumpHolder_keeps (pushNotice note w)
    obtain ⟨-, hplanes, hpframe⟩ := pumpHolder_offers (pushNotice note w)
    have hviewOf : ∀ m, (pumpHolder (pushNotice note w)).viewOf m = w.viewOf m := fun m => by
      rw [State.viewOf, hpviews]
      rfl
    have hfollow : RingsFollow [v.entry] s (pumpHolder (pushNotice note w)) :=
      hrings.congr (fun _ => rfl) hprings rfl hptable hpviews hpboot
    have hallowance : ∀ v', (pumpHolder (pushNotice note w)).viewOf v.tag = some v' → allowance s.boot.peerId v' l = 0 := by
      intro v' hv'
      have hsent : v' = v.releaseSent l := Option.some.inj (hv'.symm.trans ((hviewOf v.tag).trans hchanged))
      rw [hsent]
      exact allowance_releaseSent _ v l
    have hself : (pumpHolder (pushNotice note w)).boot.peerId = s.boot.peerId := by
      rw [hpboot]
      exact (congrArg (fun u : State => u.boot.peerId) hframe).trans rfl
    refine ⟨_, congrArg Host.Outcome.next hstep, hoffered.taken ha hl, hoffered, (hviewOf v.tag).trans hchanged,
      fun m hm => (hviewOf m).trans (hothers m hm), hallowance, hfollow, fun e he htag hspread c hmem => ?_, fun k => ?_, ?_, ?_⟩
    · by_cases hc : 1 ≤ c ∧ c ≤ 6
      · obtain ⟨hmembers, -⟩ := hfollow.1 l c hc.1 hc.2
        obtain ⟨e', he', -, -, havailable⟩ := (hmembers v.entry (by simp)).mp hmem
        obtain rfl : e' = e := Option.some.inj (he'.symm.trans he)
        cases hplace : e'.place with
        | home h => 
          rw [Stream.isSpread, Stream.homeLane, hplace] at hspread
          cases hspread
        | spread _ _ =>
          rw [State.available, hplace] at havailable
          simp only [State.allowanceOf, htag, (hviewOf v.tag).trans hchanged, hself, allowance_releaseSent] at havailable
          exact absurd havailable (Nat.lt_irrefl 0)
      · rw [State.ring, ringIndex, dif_neg hc] at hmem
        cases hmem
    · rw [hplanes]
      have hpushed : (pushNotice note w).lane k = w.lane k := rfl
      rw [hpushed, hw]
    · rw [hpframe]
      exact (congrArg State.releaseDue hframe).trans rfl
    · have hreleaseDue : (pumpHolder (pushNotice note w)).releaseDue = u.releaseDue := by
        rw [hpframe]
        exact (congrArg State.releaseDue hframe).trans rfl
      show pumpHolder (pushNotice note w) = { s with
        bus := (pumpHolder (pushNotice note w)).bus
        views := (pumpHolder (pushNotice note w)).views
        releaseDue := (pumpHolder (pushNotice note w)).releaseDue
        table := (pumpHolder (pushNotice note w)).table
        lanes := (pumpHolder (pushNotice note w)).lanes }
      rw [hpviews, hptable, hreleaseDue]
      refine hpframe.trans ?_
      exact (congrArg (fun x : State => { x with
        bus := (pumpHolder (pushNotice note w)).bus
        lanes := (pumpHolder (pushNotice note w)).lanes }) hframe).trans rfl
  · have hno' : ¬s.takesNotice = true := fun h => by
      obtain ⟨ha, hl⟩ := takesNotice_iff.mp h
      obtain h | h := hno
      · exact h ha
      · exact absurd hl (Nat.not_lt.mpr h)
    exact congrArg Host.Outcome.next (hstep.trans (if_neg hno'))

end Sys2Proof.Machine
end

section
/-! PROOF. LANE DOWN: what a dark lane leaves of a deficit (O26). -/

namespace Sys2Proof.Machine

/-- A DATA entry of lane 0. -/
def darkTurn (start : Slice) (payload : Nat) : Turn :=
  { lane := 0, planNo := 0, kind := .data, start := start, length := 1, payload := payload, stale := false, channel := none }

/-- An ADMITTED EDGE stream in no ring, with a deficit, whose two DATA entries carry 0 and 5 bytes. -/
def darkStream : Stream :=
  { entry := 0, tag := 0, state := .admitted, parent := 0, address := none, cls := 1, mode := .edge, quantum := 64, deficit := 7,
    demand := 0, place := .home 0, profiles := Vector.replicate 4 0, pollInterval := 0, pollCountdown := none,
    hold := Vector.replicate 4 none, noShow := 0, quiet := false, retry := 0, admitCountdown := none,
    turns := [darkTurn 0 0, darkTurn 1 5], alignment := none }

/-- The chip after reset with that stream alone. -/
def darkState : State := { State.reset with table := [darkStream], tagMap := [(0, 0)] }

/-- The 0 bytes that are given back first leave the stream in no ring, so that its deficit goes; the 5 bytes then put it into its ring. -/
theorem darkTurns_darkState :
    (darkTurns 0 darkState).entry? 0 = some { darkStream with demand := 5, deficit := 0, turns := [] } := by decide

/-- Refutes O26: the clause on the Stream Table's part says that the deficit of a stream whose EDGE DATA payloads go back stays when demand
is left. The first payload of `darkState` is 0: the stream is then looked at with no demand and in no ring, and its deficit becomes 0
before the second payload, of 5 bytes, goes back. -/
theorem not_laneDownDisablesLane : ¬ Obligations.LaneDownDisablesLane := by
  rintro ⟨-, -, -, -, hturns, -, -⟩
  obtain ⟨hentries, -⟩ := hturns 0 darkState (by decide)
  obtain ⟨hrestored, -, -⟩ := hentries darkStream (by decide)
  obtain ⟨d, hentry, hkeeps⟩ := hrestored (by decide)
  obtain ⟨-, hd⟩ := hkeeps 0 rfl (by decide) (by decide) (by decide)
  have hdeficit : d = 0 := by
    have hsame := congrArg (Option.map Stream.deficit) (hentry.symm.trans darkTurns_darkState)
    exact Option.some.inj hsame
  rw [hdeficit] at hd
  cases hd

end Sys2Proof.Machine
end

section
/-! PROOF. What the removal, unwinding and retirement of streams leave as it is, in whatever state (for O18, O20 to O26, O34, O35, O50). -/

namespace Sys2Proof.Machine

/-- What any number of removed turns, restored payloads, freed and retired streams change: the tables of streams and channels, their maps
and views, rings, provisional lists and corrections, and messages at the tail of the status queue. A CLOSING stream stays CLOSING. -/
structure Shrinks (s t : State) : Prop where
  frame : t = { s with table := t.table, tagMap := t.tagMap, stationIndex := t.stationIndex, pool := t.pool, channels := t.channels,
                       builder := t.builder, views := t.views, lanes := t.lanes, port := t.port }
  lanes : ∀ k, t.lane k = { s.lane k with
    rings := (t.lane k).rings, provisional := (t.lane k).provisional, corrections := (t.lane k).corrections }
  provisional : ∀ k, ∀ x ∈ (t.lane k).provisional, x ∈ (s.lane k).provisional
  port : ∃ said, t.port = s.port.after said
  free : s.builder = none → t.builder = none
  closing : ∀ n, (∀ e, s.entry? n = some e → e.state = .closing) → ∀ e, t.entry? n = some e → e.state = .closing

namespace Shrinks

theorem refl (s : State) : Shrinks s s :=
  ⟨rfl, fun _ => rfl, fun _ _ h => h, ⟨[], by simp⟩, fun h => h, fun _ h => h⟩

theorem trans {s t u : State} (h : Shrinks s t) (h' : Shrinks t u) : Shrinks s u where
  frame := by
    rw [h'.frame, h.frame]
  lanes k := by
    rw [h'.lanes, h.lanes]
  provisional k x hx := h.provisional k x (h'.provisional k x hx)
  port := by
    obtain ⟨said, hs⟩ := h.port
    obtain ⟨more, hm⟩ := h'.port
    exact ⟨said ++ more, by rw [hm, hs, OrderPort.after_append]⟩
  free hb := h'.free (h.free hb)
  closing n hn := h'.closing n (h.closing n hn)

theorem bus {s t : State} (h : Shrinks s t) : t.bus = s.bus := by rw [h.frame]

theorem boot {s t : State} (h : Shrinks s t) : t.boot = s.boot := by rw [h.frame]

theorem nodeTime {s t : State} (h : Shrinks s t) : t.nodeTime = s.nodeTime := by rw [h.frame]

theorem holder {s t : State} (h : Shrinks s t) : t.port.holder = s.port.holder := by
  obtain ⟨said, hs⟩ := h.port
  rw [hs]
  rfl

theorem summary {s t : State} (h : Shrinks s t) : t.port.summary = s.port.summary := by
  obtain ⟨said, hs⟩ := h.port
  rw [hs]
  rfl

theorem statusQueue {s t : State} (h : Shrinks s t) : ∃ more, t.port.statusQueue = s.port.statusQueue ++ more := by
  obtain ⟨said, hs⟩ := h.port
  exact ⟨_, by rw [hs]; rfl⟩

/-- Folds of what shrinks a state shrink it. -/
theorem foldl {α : Type} {f : State → α → State} (hf : ∀ s a, Shrinks s (f s a)) (as : List α) :
    ∀ s : State, Shrinks s (as.foldl f s) := by
  induction as with
  | nil => exact refl
  | cons a as ih => exact fun s => (hf s a).trans (ih _)

/-- A change of tables that the rest of the chip does not show. -/
theorem of_tables {s t : State} (hl : t.lanes = s.lanes) (hp : t.port = s.port) (hb : s.builder = none → t.builder = none)
    (hc : ∀ n, (∀ e, s.entry? n = some e → e.state = .closing) → ∀ e, t.entry? n = some e → e.state = .closing)
    (hf : t = { s with table := t.table, tagMap := t.tagMap, stationIndex := t.stationIndex, pool := t.pool, channels := t.channels,
                       builder := t.builder, views := t.views, lanes := t.lanes, port := t.port }) : Shrinks s t := by
  have hlane : ∀ k, t.lane k = s.lane k := fun k => by rw [State.lane, State.lane, hl]
  refine ⟨hf, fun k => by rw [hlane], fun k x hx => by rwa [hlane] at hx, ⟨[], by simp [hp]⟩, hb, hc⟩

theorem modEntry (n : Nat) {f : Stream → Stream} (s : State) (hf : ∀ e, (f e).entry = e.entry)
    (hc : ∀ e : Stream, e.state = .closing → (f e).state = .closing) : Shrinks s (modEntry n f s) := by
  refine of_tables rfl rfl id (fun m hm e he => ?_) rfl
  rw [modEntry_entry n m f hf] at he
  obtain ⟨d, hd, rfl⟩ := Option.map_eq_some_iff.mp he
  split
  · exact hc d (hm d hd)
  · exact hm d hd

theorem mapChannels (f : Channel → Channel) (s : State) : Shrinks s { s with channels := s.channels.map f } :=
  of_tables rfl rfl id (fun _ h => h) rfl

theorem dropTurn (n : Nat) (l : LaneNo) (x : Slice) (s : State) : Shrinks s (dropTurn n l x s) :=
  modEntry n s (fun _ => rfl) fun _ h => h

theorem modAlignment (n : Nat) (f : Alignment → Alignment) (s : State) : Shrinks s (modAlignment n f s) :=
  modEntry n s (fun _ => rfl) fun _ h => h

theorem queueStatus (m : Message) (s : State) : Shrinks s (queueStatus m s) := by
  rw [queueStatus_after]
  exact ⟨rfl, fun _ => rfl, fun _ _ h => h, ⟨[m], rfl⟩, id, fun _ h => h⟩

theorem syncRings (n : Nat) (s : State) : Shrinks s (syncRings n s) := by
  obtain ⟨-, hlanes, hentries, hframe⟩ := syncRings_spec n s
  refine ⟨?_, fun k => ?_, fun k x hx => ?_, ⟨[], ?_⟩, fun hb => ?_, fun m hm e he => ?_⟩
  · rw [hframe]
  · rw [hlanes]
  · rwa [hlanes] at hx
  · rw [hframe, OrderPort.after_nil]
  · rw [hframe]
    exact hb
  · rw [hentries] at he
    obtain ⟨d, hd, rfl⟩ := Option.map_eq_some_iff.mp he
    split
    · exact hm d hd
    · exact hm d hd

theorem updateEntry (n : Nat) {f : Stream → Stream} (s : State) (hf : ∀ e, (f e).entry = e.entry)
    (hc : ∀ e : Stream, e.state = .closing → (f e).state = .closing) : Shrinks s (updateEntry n f s) :=
  (modEntry n s hf hc).trans (syncRings n _)

theorem restore (n payload : Nat) (s : State) : Shrinks s (restore n payload s) := by
  unfold Machine.restore
  split
  · split
    · exact updateEntry n s (fun _ => rfl) fun _ h => h
    · exact refl s
  · exact refl s

theorem freeEntry (e : Stream) (s : State) : Shrinks s (freeEntry e s) := by
  refine ⟨?_, fun k => ?_, fun k x hx => ?_, ⟨[.retired e.tag], ?_⟩, fun hb => ?_, fun m hm d hd => ?_⟩
  · rw [freeEntry_eq]
  · rw [freeEntry_eq]
    rfl
  · rw [freeEntry_eq] at hx
    exact hx
  · rw [freeEntry_eq]
  · rw [freeEntry_eq]
    show s.builder.map _ = none
    rw [hb]
    rfl
  · rw [freeEntry_entry] at hd
    split at hd
    · cases hd
    · exact hm d hd

theorem freeOne (n : Nat) (s : State) : Shrinks s (freeOne n s) := by
  unfold Machine.freeOne
  split
  · split
    · exact freeEntry _ s
    · exact refl s
  · exact refl s

theorem tryFree (n : Nat) (s : State) : Shrinks s (tryFree n s) := by
  obtain h | ⟨e, -, -, h, -⟩ := tryFree_cases n s
  · rw [h]
    exact refl s
  · rw [h]
    exact (freeEntry e s).trans (freeOne _ _)

theorem retireEntry (cause : RetireCause) (n : Nat) (s : State) : Shrinks s (retireEntry cause n s) := by
  cases hn : s.entry? n with
  | none =>
    have hsame : Machine.retireEntry cause n s = s := by simp only [Machine.retireEntry, hn]
    rw [hsame]
    exact refl s
  | some e =>
    obtain ⟨htable, -, hlanes, -, -, -, hport, hbuilder, hframe⟩ := retireEntry_spec cause hn
    refine ⟨?_, fun k => ?_, fun k x hx => ?_, ⟨_, hport⟩, fun hb => ?_, fun m hm d hd => ?_⟩
    · rw [hframe]
    · rw [hlanes]
    · rw [hlanes] at hx
      revert hx
      show x ∈ (if e.isStation && e.homedOn k then (s.lane k).provisional.filter fun x => x != e.tag
        else (s.lane k).provisional) → _
      split
      · exact fun hx => List.mem_of_mem_filter hx
      · exact id
    · rw [hb] at hbuilder
      exact Option.map_eq_none_iff.mp hbuilder
    · rw [entry?_of_table (by intro e; rfl) htable] at hd
      obtain ⟨d', hd', rfl⟩ := Option.map_eq_some_iff.mp hd
      split
      · rfl
      · exact hm d' hd'

theorem retireWithChildren (cause : RetireCause) (n : Nat) (s : State) : Shrinks s (retireWithChildren cause n s) :=
  (((retireEntry cause n s).trans (foldl (fun s c => retireEntry .parent c s) _ _)).trans (foldl (fun s c => tryFree c s) _ _)).trans
    (tryFree n _)

end Shrinks

/-! ### A retirement in whatever state -/

theorem tryFree_lane (n : Nat) (s : State) (k : LaneNo) : (tryFree n s).lane k = s.lane k := by
  have hone : ∀ (m : Nat) (u : State), (freeOne m u).lane k = u.lane k := fun m u => by
    unfold freeOne
    split
    · split
      · rw [freeEntry_eq]
        rfl
      · rfl
    · rfl
  obtain h | ⟨e, -, -, h, -⟩ := tryFree_cases n s
  · rw [h]
  · rw [h, hone, freeEntry_eq]
    rfl

/-- A retired entry is CLOSING. -/
theorem retireEntry_closing (cause : RetireCause) (n : Nat) (s : State) :
    ∀ e, (retireEntry cause n s).entry? n = some e → e.state = .closing := by
  intro e he
  cases hn : s.entry? n with
  | none =>
    simp only [retireEntry, hn] at he
    cases he
  | some d =>
    obtain ⟨htable, -⟩ := retireEntry_spec cause hn
    rw [entry?_of_table (by intro e; rfl) htable, hn] at he
    obtain rfl := Option.some.inj he
    simp only [if_true]
    rfl

/-- A stream retired with its children is CLOSING, or FREE. -/
theorem retireWithChildren_closing (cause : RetireCause) (n : Nat) (s : State) :
    ∀ e, (retireWithChildren cause n s).entry? n = some e → e.state = .closing :=
  (((Shrinks.foldl (fun s c => .retireEntry .parent c s) _ _).trans (.foldl (fun s c => .tryFree c s) _ _)).trans
    (.tryFree n _)).closing n (retireEntry_closing cause n s)

/-- So are its served children. -/
theorem retireWithChildren_children (cause : RetireCause) {n m : Nat} {s : State} (hm : m ∈ s.servedChildren n) :
    ∀ e, (retireWithChildren cause n s).entry? m = some e → e.state = .closing := by
  obtain ⟨before, after, hsplit⟩ := List.append_of_mem hm
  have hretired : ∀ e, ((s.servedChildren n).foldl (fun s c => retireEntry .parent c s) (retireEntry cause n s)).entry? m = some e →
      e.state = .closing := by
    rw [hsplit, List.foldl_append, List.foldl_cons]
    exact (Shrinks.foldl (fun s c => .retireEntry .parent c s) after _).closing m (retireEntry_closing .parent m _)
  exact ((Shrinks.foldl (fun s c => .tryFree c s) _ _).trans (.tryFree n _)).closing m hretired

/-- A station retired with its children has left the provisional list of its home lane. -/
theorem retireWithChildren_provisional (cause : RetireCause) {n : Nat} {e : Stream} {l : LaneNo} {s : State} (he : s.entry? n = some e)
    (hstation : e.isStation = true) (hhome : e.place = .home l) : e.tag ∉ ((retireWithChildren cause n s).lane l).provisional := by
  intro hmem
  have hretired := ((Shrinks.foldl (fun s c => .retireEntry .parent c s) (s.servedChildren n) (retireEntry cause n s)).trans
    ((Shrinks.foldl (fun s c => .tryFree c s) (s.servedChildren n) _).trans (.tryFree n _))).provisional l e.tag hmem
  obtain ⟨-, -, hlanes, -⟩ := retireEntry_spec cause he
  have hhomed : e.homedOn l = true := by simp [Stream.homedOn, Stream.homeLane, hhome]
  rw [hlanes, hstation, hhomed] at hretired
  simp at hretired

/-- With no served child, the correction queue of the home lane changes as the cause asks and no more. -/
theorem retireWithChildren_corrections (cause : RetireCause) {n : Nat} {e : Stream} {l : LaneNo} {s : State} (he : s.entry? n = some e)
    (hstation : e.isStation = true) (hhome : e.place = .home l) (hnone : s.servedChildren n = []) :
    ((retireWithChildren cause n s).lane l).corrections = retiredCorrections cause e.tag (s.lane l).corrections := by
  obtain ⟨-, -, hlanes, -⟩ := retireEntry_spec cause he
  have hhomed : e.homedOn l = true := by simp [Stream.homedOn, Stream.homeLane, hhome]
  have hone : retireWithChildren cause n s = tryFree n (retireEntry cause n s) := by simp [retireWithChildren, hnone]
  rw [hone, tryFree_lane, hlanes, hstation, hhomed]
  rfl

end Sys2Proof.Machine
end

section
/-! PROOF. RETIRE, the expiry of an ADMIT wait, CADENCE OPEN and CADENCE CLOSE (O21, O50 to O52). -/

namespace Sys2Proof.Machine

/-! ### Retirements by order and by expiry -/

/-- Settles O21: `retireWithChildren_retired` after the STATION_LOST message. -/
theorem admitExpiryRetiresStation : Obligations.AdmitExpiryRetiresStation := by
  intro n e s he hbasic hcount hroom
  have hexpired : e.admitExpired = true := by simp [Stream.admitExpired, hbasic, hcount]
  obtain rfl := entry?_number he
  let u := queueStatus (.stationLost e.tag .notAdmitted) s
  have hstep : admitExpiryStep e.entry s = retireWithChildren .admitExpiry e.entry u := by
    simp only [admitExpiryStep, he, hexpired, if_true]
    rfl
  have hu : u = { s with port := { s.port with statusQueue := s.port.statusQueue ++ [.stationLost e.tag .notAdmitted] } } := by
    show queueStatus _ s = _
    rw [queueStatus_frame, queueStatus_room hroom]
  have hshrinks : Shrinks u (retireWithChildren .admitExpiry e.entry u) := .retireWithChildren _ _ u
  obtain ⟨more, hmore⟩ := hshrinks.statusQueue
  refine ⟨_, more, congrArg Host.Outcome.next hstep, ?_, fun htags hfam => ?_, retireWithChildren_closing _ _ u, ?_, ?_, ?_⟩
  · rw [hmore, hu]
    simp
  · rw [hu]
    exact retireWithChildren_retired .admitExpiry (s := { s with port := _ }) htags hfam he (.inr (by simp [Stream.served, hbasic]))
  · rw [hshrinks.bus, hu]
  · rw [hshrinks.boot, hu]
  · rw [hshrinks.nodeTime, hu]

theorem retireStep_of_tag {s : State} (h : s.boot.startup = .ready) (seq : Byte) {tag : BitVec 16} :
    (s.byTag tag.toNat = none → retireStep seq tag s = refuse seq .badTag s) ∧
      ∀ e, s.byTag tag.toNat = some e →
        (e.state = .provisional → retireStep seq tag s = refuse seq .badTag s) ∧
        (e.state = .closing → retireStep seq tag s = answerDone seq false s) ∧
        (e.served = true → retireStep seq tag s = answerDone seq false (retireWithChildren .order e.entry s)) := by
  rw [retireStep, whenReady_ready h]
  refine ⟨fun hnone => by simp only [hnone], fun e he => ⟨fun hs => by simp only [he, hs], fun hs => by simp only [he, hs],
    fun hserved => ?_⟩⟩
  have hs : e.state = .basic ∨ e.state = .admitted := by simpa [Stream.served] using hserved
  obtain hs | hs := hs <;> simp only [he, hs]

/-- Settles O50: `retireWithChildren_retired` before the reply. -/
theorem retireClosesStream : Obligations.RetireClosesStream := by
  intro seq tag s hready
  obtain ⟨hnone, htag⟩ := retireStep_of_tag hready seq (tag := tag)
  refine ⟨fun h => congrArg Host.Outcome.next (hnone h), fun e he => ?_⟩
  obtain ⟨hprovisional, hclosing, hserved⟩ := htag e he
  refine ⟨fun h => congrArg Host.Outcome.next (hprovisional h), fun h => congrArg Host.Outcome.next (hclosing h), fun h => ?_⟩
  have hentry := byTag_entry he
  have hshrinks : Shrinks s (retireWithChildren .order e.entry s) := .retireWithChildren _ _ s
  refine ⟨_, congrArg Host.Outcome.next (hserved h), retireWithChildren_closing .order e.entry s, rfl, fun htags hfam => ⟨_,
    retireWithChildren_retired .order htags hfam hentry (.inr h), rfl⟩, hshrinks.bus, hshrinks.boot, hshrinks.nodeTime⟩

/-! ### Insertion by a key -/

/-- What a search finds in a list with one element inserted. -/
theorem find?_insertBy {α : Type} {key : α → Nat} {a : α} {l : List α} {p : α → Bool} :
    (p a = false → (insertBy key a l).find? p = l.find? p) ∧
      (p a = true → l.find? p = none → (insertBy key a l).find? p = some a) := by
  induction l with
  | nil => simp [insertBy]
  | cons b l ih =>
    obtain ⟨hskip, hfind⟩ := ih
    rw [insertBy]
    split
    · refine ⟨fun h => by rw [List.find?_cons_of_neg (by simp [h])], fun h _ => by rw [List.find?_cons_of_pos h]⟩
    · refine ⟨fun h => ?_, fun h hnone => ?_⟩
      · rw [List.find?_cons, List.find?_cons, hskip h]
      · obtain ⟨hb, hl⟩ := List.find?_eq_none.mp hnone |> fun hall =>
          (⟨hall b (by simp), List.find?_eq_none.mpr fun x hx => hall x (by simp [hx])⟩ : ¬p b = true ∧ l.find? p = none)
        rw [List.find?_cons_of_neg hb, hfind h hl]

/-! ### CADENCE OPEN -/

theorem fittedByte_of_open {s : State} {f : CadenceOpenFields} (h : s.openRefusal f = none) :
    ∃ l, s.fittedByte f.lane = some l ∧ s.channel? f.channel.toNat = none := by
  unfold State.openRefusal at h
  split at h
  · cases h
  · split at h
    · cases h
    · rename_i l hl
      split at h
      · cases h
      · split at h
        · cases h
        · rename_i hfree
          exact ⟨l, hl, Option.not_isSome_iff_eq_none.mp hfree⟩

theorem cadenceOpenStep_eq {s : State} (hready : s.boot.startup = .ready) (seq : Byte) {f : CadenceOpenFields} :
    (∀ why, s.openRefusal f = some why → cadenceOpenStep seq f s = refuse seq why s) ∧
      ∀ l, s.openRefusal f = none → s.fittedByte f.lane = some l →
        cadenceOpenStep seq f s = answerDone seq (openClamped f) (addChannel (s.openedChannel f l) s) := by
  rw [cadenceOpenStep, whenReady_ready hready]
  exact ⟨fun why h => by simp only [h], fun l h hl => by simp only [h, hl]⟩

/-- The horizon and the opening plan by what has become of the builder. -/
theorem horizon_eq (s : State) (l : LaneNo) :
    (∀ b, s.builder = some b → b.lane = l → 1 ≤ b.step →
      s.horizon l = some (sliceAdd b.start s.params.planLength) ∧ s.openingPlan l = (s.lane l).planNo + 1) ∧
    ((∀ b, s.builder = some b → b.lane = l → b.step = 0) →
      s.horizon l = (s.lane l).nextPlanStart ∧ s.openingPlan l = (s.lane l).planNo) := by
  refine ⟨fun b hb hl hstep => ?_, fun hnone => ?_⟩
  · have hbegun : s.begunStep1 l = some b := by simp [State.begunStep1, State.buildOf, hb, hl, hstep]
    simp only [State.horizon, State.openingPlan, hbegun, and_self]
  · have hbegun : s.begunStep1 l = none := by
      cases hb : s.builder with
      | none => simp [State.begunStep1, State.buildOf, hb]
      | some b =>
        by_cases hl : b.lane = l
        · simp [State.begunStep1, State.buildOf, hb, hl, hnone b hb hl]
        · simp [State.begunStep1, State.buildOf, hb, hl]
    simp only [State.horizon, State.openingPlan, hbegun, and_self]

/-- The first slice of a form that is not before the horizon. -/
theorem firstDueFrom_spec (horizon : Option Slice) (due : Slice) (period : Nat) :
    (horizon = none → firstDueFrom horizon due period = due) ∧
      ∀ h, horizon = some h → ∀ j < 2 ^ 24, countBefore (sliceAdd due (j * period)) h = false →
        (∀ i < j, countBefore (sliceAdd due (i * period)) h = true) →
        firstDueFrom horizon due period = sliceAdd due (j * period) := by
  refine ⟨?_, ?_⟩
  · rintro rfl
    have h := firstDueWhere_first (notBeforeHorizon none) period dueFuel due 0 (by decide) rfl fun i hi => absurd hi (Nat.not_lt_zero i)
    rw [Nat.zero_mul, sliceAdd_zero] at h
    exact h
  · rintro h rfl j hj hnot hbefore
    refine firstDueWhere_first (notBeforeHorizon (some h)) period dueFuel due j hj ?_ fun i hi => ?_
    · simp [notBeforeHorizon, hnot]
    · simp [notBeforeHorizon, hbefore i hi]

theorem clamp_ne_iff {lo hi n : Nat} (h : lo ≤ hi) : clamp lo hi n ≠ n ↔ n < lo ∨ hi < n := by
  unfold clamp
  omega

theorem openClamped_iff {f : CadenceOpenFields} : openClamped f = true ↔
    f.period.toNat < 8 ∨ 65535 < f.period.toNat ∨ f.payload = 0 ∨ 4096 < f.payload.toNat ∨ 255 < f.jitter.toNat := by
  have hperiod := clamp_ne_iff (n := f.period.toNat) (show 8 ≤ 65535 by omega)
  have hpayload := clamp_ne_iff (n := f.payload.toNat) (show 1 ≤ 4096 by omega)
  have hjitter : min f.jitter.toNat 255 ≠ f.jitter.toNat ↔ 255 < f.jitter.toNat := by omega
  have hzero : f.payload = 0 ↔ f.payload.toNat < 1 := by
    rw [← BitVec.toNat_inj]
    simp
  rw [openClamped, bne_iff_ne, openSized]
  simp only [ne_eq, Prod.mk.injEq, not_and_or]
  rw [← ne_eq, ← ne_eq, ← ne_eq, hperiod, hpayload, hjitter, hzero]
  tauto

theorem getLsbD_zero_iff (b : Byte) : b.getLsbD 0 = decide (b.toNat % 2 = 1) := by
  rw [BitVec.getLsbD, Nat.testBit_zero]

/-- Settles O51, from the record of the opened channel. -/
theorem cadenceOpenOpensChannel : Obligations.CadenceOpenOpensChannel := by
  intro seq f s hready
  obtain ⟨hrefused, hopened⟩ := cadenceOpenStep_eq hready seq (f := f)
  refine ⟨fun why h => congrArg Host.Outcome.next (hrefused why h), fun hnone => ?_⟩
  obtain ⟨l, hl, hfree⟩ := fittedByte_of_open hnone
  have hfound : (insertBy Channel.number (s.openedChannel f l) s.channels).find? (fun c => c.number == f.channel.toNat) =
      some (s.openedChannel f l) := find?_insertBy.2 (by simp [State.openedChannel]) hfree
  obtain ⟨hbegun, hwaits⟩ := horizon_eq s l
  obtain ⟨hdark, hfirst⟩ := firstDueFrom_spec (s.horizon l) f.firstDue (clamp 8 65535 f.period.toNat)
  refine ⟨_, s.openedChannel f l, l, congrArg Host.Outcome.next (hopened l hnone hl), hl, hfound, rfl, rfl, rfl, rfl, rfl, rfl, rfl,
    rfl, rfl, rfl, rfl, rfl, rfl, ?_, rfl, fun hbusy => ?_, ⟨s.horizon l, hbegun, hwaits, fun hidle => ⟨_, ?_, hdark, hfirst⟩⟩,
    fun k hk => ?_, ⟨_, rfl, rfl, rfl, rfl, ?_⟩, rfl⟩
  · rw [getLsbD_zero_iff]
    simp [State.openedChannel, endActionOf]
  · simp [State.openedChannel, hbusy]
  · simp [State.openedChannel, hidle, openSized]
  · exact find?_insertBy.1 (by simp [State.openedChannel, Ne.symm hk])
  · simp only [openClamped_iff]

/-! ### CADENCE CLOSE -/

/-- A channel that takes over starts from the first slice of its form that meets both conditions. -/
theorem takeoverDue_first {s : State} {c d : Channel} {j : Nat} (hj : j < 2 ^ 24)
    (hhorizon : ∀ h, s.horizon d.lane = some h → countBefore (sliceAdd d.firstDue (j * d.period)) h = false)
    (hlast : ∀ x, c.lastTurn = some x → countAfter (sliceAdd d.firstDue (j * d.period)) x = true)
    (hno : ∀ i < j, (∃ h, s.horizon d.lane = some h ∧ countBefore (sliceAdd d.firstDue (i * d.period)) h = true) ∨
      ∃ x, c.lastTurn = some x ∧ countAfter (sliceAdd d.firstDue (i * d.period)) x = false) :
    takeoverDue s c d = sliceAdd d.firstDue (j * d.period) := by
  unfold takeoverDue
  refine firstDueWhere_first _ d.period dueFuel d.firstDue j hj ?_ fun i hi => ?_
  · cases hh : s.horizon d.lane <;> cases hc : c.lastTurn <;> simp [notBeforeHorizon, hhorizon, hlast, hh, hc]
  · obtain ⟨h, hh, hbefore⟩ | ⟨x, hx, hafter⟩ := hno i hi
    · simp [hh, notBeforeHorizon, hbefore]
    · simp [hx, hafter]

/-- The first STANDBY channel that may take over from `c`. -/
def State.successor (s : State) (c : Channel) : Option Channel :=
  s.channels.find? fun d => d.state == .standby && d.tag == c.tag && d.lane == c.lane

theorem handover_eq (c : Channel) (s : State) :
    (s.successor c = none → handover c s = s) ∧
      ∀ d, s.successor c = some d → handover c s = modChannel d.number (fun x =>
        { x with state := .running, nextDue := some (takeoverDue s c x) }) s := by
  have hfind : (s.channels.find? fun x => x.state == .standby && x.bound c.tag c.lane) = s.successor c := by
    simp only [State.successor, Channel.bound, Bool.and_assoc]
  refine ⟨fun h => ?_, fun d h => ?_⟩
  · rw [handover, hfind, h]
  · rw [handover, hfind, h]

/-- What the end of a channel leaves before a handover. -/
def channelEnded (c : Channel) (cause : EndCause) (s : State) : State :=
  idleChannel c.number (queueStatus (.cadenceEnded c.number c.tag cause) s)

theorem endChannel_eq (c : Channel) (cause : EndCause) (s : State) :
    endChannel c cause s = if c.live then handover c (channelEnded c cause s) else channelEnded c cause s := rfl

theorem channelEnded_eq (c : Channel) (cause : EndCause) (s : State) : channelEnded c cause s = { s with
    channels := s.channels.filter fun d => d.number != c.number, port := s.port.after [.cadenceEnded c.number c.tag cause] } := by
  rw [channelEnded, queueStatus_after]
  rfl

theorem after_room {p : OrderPort} {m : Message} (h : p.statusQueue.length < 32) :
    p.after [m] = { p with statusQueue := p.statusQueue ++ [m] } := by
  have hroom : ¬32 - p.statusQueue.length < 1 := by omega
  rw [OrderPort.after, List.take_of_length_le (by simp; omega), List.length_singleton, decide_eq_false hroom, Bool.or_false]

theorem channel?_filter (k : Nat) (cs : List Channel) (f : Channel → Channel) (hf : ∀ c, (f c).number = c.number) :
    ((cs.filter fun d => d.number != k).map f).find? (fun c => c.number == k) = none := by
  refine List.find?_eq_none.mpr fun x hx => ?_
  obtain ⟨y, hy, rfl⟩ := List.mem_map.mp hx
  have hne := (List.mem_filter.mp hy).2
  simpa [hf] using hne

theorem cadenceCloseStep_eq {s : State} (hready : s.boot.startup = .ready) (seq : Byte) {k : BitVec 16} :
    (511 < k.toNat → cadenceCloseStep seq k s = refuse seq .badChannel s) ∧
      (k.toNat ≤ 511 → s.channel? k.toNat = none → cadenceCloseStep seq k s = answerDone seq false s) ∧
      ∀ c, k.toNat ≤ 511 → s.channel? k.toNat = some c →
        cadenceCloseStep seq k s = answerDone seq false (endChannel c .closed s) := by
  rw [cadenceCloseStep, whenReady_ready hready]
  refine ⟨fun h => if_pos h, fun h hnone => ?_, fun c h hc => ?_⟩
  · exact (if_neg (Nat.not_le.mpr (Nat.lt_succ_of_le h))).trans (by simp only [hnone])
  · exact (if_neg (Nat.not_le.mpr (Nat.lt_succ_of_le h))).trans (by simp only [hc])

/-- What an answer without clamping leaves. -/
theorem answerDone_eq (seq : Byte) (s : State) : answerDone seq false s = { s with
    port := { s.port with holder := .unread { seq := seq, result := .done, note := .none, data := [] } } } := rfl

/-- Settles O52: the channel ends, and `handover_eq` says which one follows. -/
theorem cadenceCloseEndsChannel : Obligations.CadenceCloseEndsChannel := by
  intro seq k s hready
  obtain ⟨hrefused, hidle, hheld⟩ := cadenceCloseStep_eq hready seq (k := k)
  refine ⟨fun h => congrArg Host.Outcome.next (hrefused h), fun h hnone => congrArg Host.Outcome.next (hidle h hnone),
    fun c h hc hstandby hroom => ?_, fun c h hc hlive hroom => ?_⟩
  · have hnotlive : c.live = false := by simp [Channel.live, hstandby]
    refine congrArg Host.Outcome.next ((hheld c h hc).trans ?_)
    rw [endChannel_eq, hnotlive, if_neg (by simp), channelEnded_eq, after_room hroom]
    rfl
  · have hclive : c.live = true := by
      obtain hs | hs := hlive <;> simp [Channel.live, hs]
    have hnumber : c.number = k.toNat := by simpa using List.find?_some hc
    have hended := channelEnded_eq c .closed s
    rw [after_room hroom] at hended
    have hstep : cadenceCloseStep seq k s = answerDone seq false (handover c (channelEnded c .closed s)) := by
      rw [hheld c h hc, endChannel_eq, if_pos hclive]
    obtain ⟨hnone, hsome⟩ := handover_eq c (channelEnded c .closed s)
    have hsuccessor : (channelEnded c .closed s).successor c = (s.channels.filter fun d => d.number != c.number).find? fun d =>
        d.state == .standby && d.tag == c.tag && d.lane == c.lane := by
      rw [State.successor, hended]
    have hlane : ∀ d, (channelEnded c .closed s).successor c = some d → d.lane = c.lane := fun d hd => by
      have hfound := List.find?_some hd
      simp only [Bool.and_eq_true, beq_iff_eq] at hfound
      exact hfound.2
    have htakeover : ∀ d, takeoverDue (channelEnded c .closed s) c d = takeoverDue s c d := fun d => by
      rw [hended]
      rfl
    have hchannels : (handover c (channelEnded c .closed s)).channel? k.toNat = none := by
      rw [← hnumber, State.channel?]
      cases hd : (channelEnded c .closed s).successor c with
      | none =>
        rw [hnone hd, hended]
        have hfiltered := channel?_filter c.number s.channels id fun _ => rfl
        rwa [List.map_id] at hfiltered
      | some d =>
        rw [hsome d hd, hended]
        refine channel?_filter c.number s.channels _ fun x => ?_
        split <;> rfl
    refine ⟨_, congrArg Host.Outcome.next hstep, ?_, hchannels, ⟨fun hno => ?_, fun d hd => ⟨?_, fun j hj hhorizon hlast hbefore => ?_⟩⟩,
      ?_⟩
    · rw [answerDone_eq, handover_port, hended]
    · show (handover c (channelEnded c .closed s)).channels = _
      rw [hnone (hsuccessor.trans hno), hended]
    · show (handover c (channelEnded c .closed s)).channels = _
      rw [hsome d (hsuccessor.trans hd)]
      simp only [modChannel, htakeover]
      rw [hended]
    · have hl := hlane d (hsuccessor.trans hd)
      rw [← hl] at hhorizon hbefore
      exact takeoverDue_first hj hhorizon hlast hbefore
    · have hframe : handover c (channelEnded c .closed s) = { s with
          channels := (handover c (channelEnded c .closed s)).channels, port := (handover c (channelEnded c .closed s)).port } := by
        cases hd : (channelEnded c .closed s).successor c with
        | none => rw [hnone hd, hended]
        | some d =>
          rw [hsome d hd, hended]
          rfl
      rw [answerDone_eq, hframe]

end Sys2Proof.Machine
end

section
/-! PROOF. The unwinding of plans (for O18, O20, O24, O29). -/

namespace Sys2Proof.Machine

/-- What the unwinding of turns changes: of the lanes their rings alone, and no view. -/
structure Unwinds (s t : State) : Prop where
  shrinks : Shrinks s t
  lanes : ∀ k, t.lane k = { s.lane k with rings := (t.lane k).rings }
  views : t.views = s.views

namespace Unwinds

theorem refl (s : State) : Unwinds s s := ⟨.refl s, fun _ => rfl, rfl⟩

theorem trans {s t u : State} (h : Unwinds s t) (h' : Unwinds t u) : Unwinds s u where
  shrinks := h.shrinks.trans h'.shrinks
  lanes k := by
    rw [h'.lanes, h.lanes]
  views := h'.views.trans h.views

theorem foldl {α : Type} {f : State → α → State} (hf : ∀ s a, Unwinds s (f s a)) (as : List α) :
    ∀ s : State, Unwinds s (as.foldl f s) := by
  induction as with
  | nil => exact refl
  | cons a as ih => exact fun s => (hf s a).trans (ih _)

theorem dropTurn (n : Nat) (l : LaneNo) (x : Slice) (s : State) : Unwinds s (dropTurn n l x s) :=
  ⟨.dropTurn n l x s, fun _ => rfl, rfl⟩

theorem clearProbe (n : Nat) (s : State) : Unwinds s (clearProbe n s) := ⟨.modAlignment n _ s, fun _ => rfl, rfl⟩

theorem mapChannels (f : Channel → Channel) (s : State) : Unwinds s { s with channels := s.channels.map f } :=
  ⟨.mapChannels f s, fun _ => rfl, rfl⟩

theorem restore (n payload : Nat) (s : State) : Unwinds s (restore n payload s) := by
  refine ⟨.restore n payload s, fun k => ?_, ?_⟩ <;> unfold Machine.restore <;> split
  · split
    · exact (syncRings_spec n _).2.1 k
    · rfl
  · rfl
  · split
    · rw [updateEntry, (syncRings_spec n _).2.2.2]
      rfl
    · rfl
  · rfl

theorem freeEntry (e : Stream) (s : State) : Unwinds s (freeEntry e s) :=
  ⟨.freeEntry e s, fun k => by rw [freeEntry_eq]; rfl, by rw [freeEntry_eq]⟩

theorem freeOne (n : Nat) (s : State) : Unwinds s (freeOne n s) := by
  unfold Machine.freeOne
  split
  · split
    · exact freeEntry _ s
    · exact refl s
  · exact refl s

theorem tryFree (n : Nat) (s : State) : Unwinds s (tryFree n s) := by
  obtain h | ⟨e, -, -, h, -⟩ := tryFree_cases n s
  · rw [h]
    exact refl s
  · rw [h]
    exact (freeEntry e s).trans (freeOne _ _)

theorem unwindCadence (tag : Nat) (t : Turn) (s : State) : Unwinds s (unwindCadence tag t s) := by
  unfold Machine.unwindCadence
  split
  · exact mapChannels _ s
  · exact refl s

theorem unwindProbe (n : Nat) (t : Turn) (s : State) : Unwinds s (unwindProbe n t s) := by
  unfold Machine.unwindProbe
  split
  · split
    · exact clearProbe n s
    · exact refl s
  · exact refl s

end Unwinds

/-- What a turn's kind asks for once its entry has left the list (R16). -/
def unwindKind (e : Stream) (x : Turn) (s : State) : State :=
  match x.kind with
  | .data => restore e.entry x.payload s
  | .cadence => unwindCadence e.tag x s
  | .probe => unwindProbe e.entry x s
  | _ => s

theorem unwindKind_unwinds (e : Stream) (x : Turn) (s : State) : Unwinds s (unwindKind e x s) := by
  unfold unwindKind
  split
  · exact .restore _ _ s
  · exact .unwindCadence _ _ s
  · exact .unwindProbe _ _ s
  · exact .refl s

theorem unwindTurn_passed {l : LaneNo} {pn : PlanNo} {planStart : Slice} {w : PlanTurn} {s : State}
    (h : (s.byTag w.tag).bind (fun e => e.entryOf l pn w.kind (sliceAdd planStart w.offset)) = none) :
    unwindTurn l pn planStart w s = s := by
  unfold unwindTurn
  split
  · next e he =>
    have hnone : e.entryOf l pn w.kind (sliceAdd planStart w.offset) = none := by rwa [he] at h
    simp only [hnone]
  · rfl

theorem unwindTurn_held {l : LaneNo} {pn : PlanNo} {planStart : Slice} {w : PlanTurn} {s : State} {e : Stream} {x : Turn}
    (he : s.byTag w.tag = some e) (hx : e.entryOf l pn w.kind (sliceAdd planStart w.offset) = some x) :
    unwindTurn l pn planStart w s = tryFree e.entry (unwindKind e x (dropTurn e.entry l x.start s)) := by
  simp only [unwindTurn, he, hx]
  rfl

namespace Unwinds

theorem unwindTurn (l : LaneNo) (pn : PlanNo) (planStart : Slice) (w : PlanTurn) (s : State) :
    Unwinds s (unwindTurn l pn planStart w s) := by
  cases he : s.byTag w.tag with
  | none =>
    rw [unwindTurn_passed (by rw [he]; rfl)]
    exact refl s
  | some e =>
    cases hx : e.entryOf l pn w.kind (sliceAdd planStart w.offset) with
    | none =>
      rw [unwindTurn_passed (by rw [he]; exact hx)]
      exact refl s
    | some x =>
      rw [unwindTurn_held he hx]
      exact ((dropTurn e.entry l x.start s).trans (unwindKind_unwinds e x _)).trans (tryFree e.entry _)

theorem unwindTurns (l : LaneNo) (pn : PlanNo) (planStart : Slice) (turns : List PlanTurn) (s : State) :
    Unwinds s (unwindTurns l pn planStart turns s) :=
  (foldl (fun s w => unwindTurn l pn planStart w s) turns s).trans (mapChannels _ _)

end Unwinds

theorem unwindRounds_eq (l : LaneNo) (pn : PlanNo) (s : State) : unwindRounds l pn s = { s with
    channels := s.channels.map fun c => if c.state = .draining ∧ c.lane = l ∧ c.finalMark.map (·.planNo) = some pn then
        { c with state := .running, count := 1, finalMark := none, misses := min (c.misses + 1) 65535 }
      else c } := by
  have hfinal : ∀ c : Channel, c.finalIn l pn = true ↔ c.state = .draining ∧ c.lane = l ∧ c.finalMark.map (·.planNo) = some pn := by
    intro c
    simp [Channel.finalIn, and_assoc]
  simp only [unwindRounds, hfinal]
  rfl

theorem lapsePlan_eq {l : LaneNo} {p : Plan} {s : State} (hp : (s.lane l).outQueue = some p) :
    lapsePlan l s = setFlag l .planLapsed (unwindTurns l p.planNo p.start p.turns (modLane l (fun L => { L with outQueue := none }) s)) := by
  simp only [lapsePlan, hp]
  rfl

/-- The entry a placed turn made, when it is held. -/
theorem entryOf_spec {e : Stream} {l : LaneNo} {pn : PlanNo} {kind : TurnKind} {start : Slice} {x : Turn}
    (h : e.entryOf l pn kind start = some x) : x.lane = l ∧ x.planNo = pn ∧ x.kind = kind ∧ x.start = start := by
  have hfound := List.find?_some h
  simpa [and_assoc] using hfound

theorem unwindCadence_channels (tag : Nat) (x : Turn) (s : State) : unwindCadence tag x s = { s with
    channels := s.channels.map fun c => if x.channel = some c.number ∧ c.tag = tag ∧ c.lane = x.lane ∧
        countBefore x.planNo c.openingPlan = false then c.unwind x else c } := by
  unfold unwindCadence
  cases hx : x.channel with
  | none => simp
  | some k =>
    simp only [modChannel, Channel.owns]
    congr 2
    funext c
    by_cases hk : c.number = k
    · simp [hk, and_assoc]
    · have hk' : ¬k = c.number := fun h => hk h.symm
      simp [hk, hk']

theorem Channel.unwind_eq (x : Turn) (c : Channel) : c.unwind x =
    if c.state = .draining ∧ c.finalMark.any (fun m => m.planNo == x.planNo && m.start == x.start) = true then
      { c with state := .running, count := 1, finalMark := none, misses := min (c.misses + 1) 65535 }
    else
      { c with
        state := if c.state = .draining then .running else c.state,
        finalMark := if c.state = .draining then none else c.finalMark,
        count := if c.initial = 0 then c.count else c.count + 1, misses := min (c.misses + 1) 65535 } := by
  unfold Channel.unwind
  split
  · rfl
  · by_cases hd : c.state = .draining
    · simp [hd, Channel.miss, satAdd]
    · simp [hd, Channel.miss, satAdd]

/-- The channels see a CADENCE turn alone. -/
theorem unwindKind_channels (e : Stream) (x : Turn) (s : State) : (unwindKind e x s).channels =
    s.channels.map fun c => if x.kind = .cadence ∧ x.channel = some c.number ∧ c.tag = e.tag ∧ c.lane = x.lane ∧
        countBefore x.planNo c.openingPlan = false then c.unwind x else c := by
  have hother : x.kind ≠ .cadence → s.channels = s.channels.map fun c => if x.kind = .cadence ∧ x.channel = some c.number ∧
      c.tag = e.tag ∧ c.lane = x.lane ∧ countBefore x.planNo c.openingPlan = false then c.unwind x else c := fun h => by simp [h]
  unfold unwindKind
  split
  · next hk =>
    rw [← hother (by simp [hk])]
    unfold restore
    split
    · split
      · rw [updateEntry, (syncRings_spec _ _).2.2.2]
        rfl
      · rfl
    · rfl
  · next hk =>
    rw [unwindCadence_channels]
    simp only [hk, true_and]
  · next hk =>
    rw [← hother (by simp [hk])]
    unfold unwindProbe
    split
    · split <;> rfl
    · rfl
  · next hd hc hp => exact hother hc

theorem tryFree_channels (n : Nat) (s : State) : (tryFree n s).channels = s.channels := by
  have hone : ∀ (m : Nat) (u : State), (freeOne m u).channels = u.channels := fun m u => by
    unfold freeOne
    split
    · split
      · rw [freeEntry_eq]
      · rfl
    · rfl
  obtain h | ⟨e, -, -, h, -⟩ := tryFree_cases n s
  · rw [h]
  · rw [h, hone, freeEntry_eq]

/-! ### A turn of a stream that is not CLOSING -/

/-- An EDGE DATA payload goes back to the demand, and the stream into its ring. -/
theorem restore_edge {n payload : Nat} {e : Stream} {s : State} (he : s.entry? n = some e) (hserved : e.served = true)
    (hspread : e.isSpread = false) (hedge : e.mode = .edge) :
    ∃ e', (restore n payload s).entry? n = some e' ∧ e'.demand = min (e.demand + payload) 1048575 ∧
      e' = { e with demand := e'.demand, deficit := e'.deficit } ∧
      (∀ h, e.place = .home h → 1 ≤ e.cls → e.cls ≤ 6 → 0 < e'.demand →
        n ∈ (restore n payload s).ring h e.cls ∧ e'.deficit = e.deficit) ∧
      ∀ m, m ≠ n → (restore n payload s).entry? m = s.entry? m := by
  have hr : restore n payload s = syncRings n (modEntry n (fun e => { e with demand := satAdd Config.maxDemand e.demand payload }) s) := by
    simp [restore, he, hserved, hspread, hedge, updateEntry]
  have hmod := fun m => modEntry_entry n m (fun e => { e with demand := satAdd Config.maxDemand e.demand payload })
    (by intro e; rfl) s
  rw [hr]
  generalize modEntry n (fun e => { e with demand := satAdd Config.maxDemand e.demand payload }) s = v at hmod ⊢
  obtain ⟨hrings, -, hentries, -⟩ := syncRings_spec n v
  have hdemand : satAdd Config.maxDemand e.demand payload = min (e.demand + payload) 1048575 := rfl
  have hvn := hmod n
  simp only [he, Option.map_some, if_true, hdemand] at hvn
  generalize min (e.demand + payload) 1048575 = d at hvn ⊢
  have hn := hentries n
  rw [hvn, Option.map_some] at hn
  refine ⟨_, hn, by split <;> rfl, by split <;> rfl, fun h hh h1 h6 hpos => ?_, fun m hm => ?_⟩
  · have hd : 0 < d := by
      revert hpos
      split <;> exact id
    obtain ⟨j, hj⟩ := class_index h1 h6
    have hmem : n ∈ ((syncRings n v).lane h).ring j := by
      rw [hrings, ringFor_mem, hvn]
      have hmeets : v.meetsRing { e with demand := d } h (j.val + 1) = true := by
        simp only [State.meetsRing, State.available, hh, if_pos, hd, hj, Stream.served, Bool.and_eq_true, beq_iff_eq,
          decide_eq_true_eq, and_true]
        exact hserved
      exact hmeets
    have hin : (syncRings n v).inSomeRing n = true := (State.inSomeRing_iff _ _).mpr ⟨h, j, hmem⟩
    rw [hj, State.ring_index]
    exact ⟨hmem, by rw [hin]; simp⟩
  · rw [hentries, hmod]
    simp [hm]

/-- Every other stream takes no payload back. -/
theorem restore_none {n payload : Nat} {e : Stream} {s : State} (he : s.entry? n = some e)
    (h : ¬(e.served = true ∧ e.isSpread = false ∧ e.mode = .edge)) : restore n payload s = s := by
  simp only [restore, he]
  refine if_neg fun hboth => h ?_
  simp only [Bool.and_eq_true, Bool.not_eq_true', beq_iff_eq] at hboth
  exact ⟨hboth.1.1, hboth.1.2, hboth.2⟩

theorem updateEntry_frame (n : Nat) (f : Stream → Stream) (s : State) : updateEntry n f s = { s with
    table := (updateEntry n f s).table, lanes := (updateEntry n f s).lanes } := (syncRings_spec n (modEntry n f s)).2.2.2

theorem restore_frame (n payload : Nat) (s : State) : restore n payload s = { s with
    table := (restore n payload s).table, lanes := (restore n payload s).lanes } := by
  unfold restore
  split
  · split
    · exact updateEntry_frame _ _ _
    · rfl
  · rfl

/-- The alignment record of a station whose PROBE entry `x` is unwound. -/
def Turn.freeProbe (x : Turn) (a : Alignment) : Alignment :=
  if a.probeOut.any (fun o => o.lane == x.lane && o.start == x.start) = true then { a with probeOut := none } else a

/-- The unwinding of a PROBE entry clears the probe out it belongs to, or does nothing. -/
theorem unwindProbe_cases {n : Nat} {e : Stream} (x : Turn) {s : State} (he : s.entry? n = some e) :
    (unwindProbe n x s = s ∧ e.alignment.map x.freeProbe = e.alignment) ∨
      (unwindProbe n x s = clearProbe n s ∧
        e.alignment.map x.freeProbe = e.alignment.map fun a => { a with probeOut := none }) := by
  have hout : s.probeOut n = e.alignment.bind (·.probeOut) := by simp [State.probeOut, he]
  cases ha : e.alignment with
  | none => exact .inl ⟨by simp [unwindProbe, hout, ha], rfl⟩
  | some a =>
    cases hp : a.probeOut with
    | none => exact .inl ⟨by simp [unwindProbe, hout, ha, hp], by simp [Turn.freeProbe, hp]⟩
    | some p =>
      by_cases hm : p.lane = x.lane ∧ p.start = x.start
      · exact .inr ⟨by simp [unwindProbe, hout, ha, hp, hm], by simp [Turn.freeProbe, hp, hm]⟩
      · exact .inl ⟨by simp [unwindProbe, hout, ha, hp, hm], by simp [Turn.freeProbe, hp, hm]⟩

theorem unwindProbe_eq {n : Nat} {e : Stream} (x : Turn) {s : State} (he : s.entry? n = some e) :
    (unwindProbe n x s).entry? n = some { e with alignment := e.alignment.map x.freeProbe } ∧
      (∀ m, m ≠ n → (unwindProbe n x s).entry? m = s.entry? m) ∧
      unwindProbe n x s = { s with table := (unwindProbe n x s).table } := by
  obtain ⟨hsame, hkept⟩ | ⟨hclear, hfreed⟩ := unwindProbe_cases x he
  · rw [hsame, hkept]
    exact ⟨he, fun _ _ => rfl, rfl⟩
  · rw [hclear, hfreed]
    refine ⟨?_, fun m hm => ?_, rfl⟩
    · rw [clearProbe, modAlignment_entry, he]
      simp
    · rw [clearProbe, modAlignment_entry]
      simp [hm]

/-- The stream of an unwound entry. -/
theorem unwindKind_entry {e d : Stream} {x : Turn} {s : State} (hd : s.entry? e.entry = some d) :
    ∃ e', (unwindKind e x s).entry? e.entry = some e' ∧
      (x.kind = .data ∧ d.served = true ∧ d.isSpread = false ∧ d.mode = .edge →
        e'.demand = min (d.demand + x.payload) 1048575 ∧ e' = { d with demand := e'.demand, deficit := e'.deficit } ∧
          ∀ h, d.place = .home h → 1 ≤ d.cls → d.cls ≤ 6 → 0 < e'.demand →
            e.entry ∈ (unwindKind e x s).ring h d.cls ∧ e'.deficit = d.deficit) ∧
      (x.kind = .data ∧ ¬(d.served = true ∧ d.isSpread = false ∧ d.mode = .edge) ∨ x.kind ≠ .data ∧ x.kind ≠ .probe →
        e' = d ∧ (unwindKind e x s).lanes = s.lanes) ∧
      (x.kind = .probe → e' = { d with alignment := e'.alignment } ∧ (unwindKind e x s).lanes = s.lanes ∧
        e'.alignment = d.alignment.map x.freeProbe) ∧
      (∀ n, n ≠ e.entry → (unwindKind e x s).entry? n = s.entry? n) ∧
      unwindKind e x s = { s with table := (unwindKind e x s).table, lanes := (unwindKind e x s).lanes,
                                  channels := (unwindKind e x s).channels } := by
  cases hk : x.kind with
  | data =>
    have hu : unwindKind e x s = restore e.entry x.payload s := by simp only [unwindKind, hk]
    rw [hu]
    by_cases hedge : d.served = true ∧ d.isSpread = false ∧ d.mode = .edge
    · obtain ⟨e', he', hdemand, heq, hring, hothers⟩ := restore_edge (payload := x.payload) hd hedge.1 hedge.2.1 hedge.2.2
      refine ⟨e', he', fun _ => ⟨hdemand, heq, hring⟩, fun h => ?_, fun h => (nomatch h), hothers, ?_⟩
      · simp [hedge] at h
      · rw [restore_frame]
    · rw [restore_none hd hedge]
      exact ⟨d, hd, fun h => absurd h.2 hedge, fun _ => ⟨rfl, rfl⟩, fun h => (nomatch h), fun _ _ => rfl, rfl⟩
  | cadence =>
    have hu : unwindKind e x s = unwindCadence e.tag x s := by simp only [unwindKind, hk]
    rw [hu, unwindCadence_channels]
    exact ⟨d, hd, fun h => (nomatch h.1), fun _ => ⟨rfl, rfl⟩, fun h => (nomatch h), fun _ _ => rfl, rfl⟩
  | probe =>
    have hu : unwindKind e x s = unwindProbe e.entry x s := by simp only [unwindKind, hk]
    obtain ⟨hentry, hothers, hframe⟩ := unwindProbe_eq x hd
    rw [hu]
    refine ⟨_, hentry, fun h => (nomatch h.1), fun h => ?_, fun _ => ⟨rfl, ?_, rfl⟩, hothers, ?_⟩
    · simp at h
    · rw [hframe]
    · rw [hframe]
  | poll =>
    have hu : unwindKind e x s = s := by simp only [unwindKind, hk]
    rw [hu]
    exact ⟨d, hd, fun h => (nomatch h.1), fun _ => ⟨rfl, rfl⟩, fun h => (nomatch h), fun _ _ => rfl, rfl⟩
  | openRegion =>
    have hu : unwindKind e x s = s := by simp only [unwindKind, hk]
    rw [hu]
    exact ⟨d, hd, fun h => (nomatch h.1), fun _ => ⟨rfl, rfl⟩, fun h => (nomatch h), fun _ _ => rfl, rfl⟩
  | joinRegion =>
    have hu : unwindKind e x s = s := by simp only [unwindKind, hk]
    rw [hu]
    exact ⟨d, hd, fun h => (nomatch h.1), fun _ => ⟨rfl, rfl⟩, fun h => (nomatch h), fun _ _ => rfl, rfl⟩

end Sys2Proof.Machine
end

section
/-! PROOF. The margin point (O20). -/

namespace Sys2Proof.Machine

/-- Settles O20, second part: a turn of a stream that is not CLOSING. -/
theorem unwindTurn_open {l : LaneNo} {pn : PlanNo} {planStart : Slice} {w : PlanTurn} {u : State} {e : Stream} {x : Turn}
    (he : u.byTag w.tag = some e) (hx : e.entryOf l pn w.kind (sliceAdd planStart w.offset) = some x) (hopen : e.state ≠ .closing) :
    unwindTurn l pn planStart w u = unwindKind e x (dropTurn e.entry l (sliceAdd planStart w.offset) u) := by
  obtain ⟨-, -, -, hstart⟩ := entryOf_spec hx
  have hd : (dropTurn e.entry l x.start u).entry? e.entry =
      some { e with turns := e.turns.filter fun t => !(t.lane == l && t.start == x.start) } := by
    rw [dropTurn_entry, byTag_entry he]
    simp
  obtain ⟨e', he', hedge, hother, hprobe, -⟩ := unwindKind_entry (x := x) hd
  have hstate : e'.state = e.state := by
    cases hk : x.kind with
    | data =>
      by_cases hback : e.served = true ∧ e.isSpread = false ∧ e.mode = .edge
      · rw [(hedge ⟨hk, hback⟩).2.1]
      · rw [(hother (.inl ⟨hk, hback⟩)).1]
    | probe => rw [(hprobe hk).1]
    | _ => rw [(hother (.inr ⟨by simp [hk], by simp [hk]⟩)).1]
  rw [unwindTurn_held he hx, tryFree_not_closing he' (by rwa [hstate]), hstart]

/-- A turn of a CLOSING stream gives nothing back. -/
theorem unwindTurn_closing {l : LaneNo} {pn : PlanNo} {planStart : Slice} {w : PlanTurn} {u : State} {e : Stream} {x : Turn}
    (he : u.byTag w.tag = some e) (hx : e.entryOf l pn w.kind (sliceAdd planStart w.offset) = some x) (hclosing : e.state = .closing) :
    let left := e.turns.filter fun y => !(y.lane == l && y.start == sliceAdd planStart w.offset)
    (∀ e', (unwindTurn l pn planStart w u).entry? e.entry = some e' → e'.turns = left ∧ e'.demand = e.demand) ∧
      (e.parent ≠ e.entry → left = [] → (unwindTurn l pn planStart w u).entry? e.entry = none) := by
  intro left
  obtain ⟨-, -, -, hstart⟩ := entryOf_spec hx
  have hd : (dropTurn e.entry l x.start u).entry? e.entry = some { e with turns := left } := by
    rw [dropTurn_entry, byTag_entry he, hstart]
    simp [left]
  have hunserved : e.served = false := by simp [Stream.served, hclosing]
  obtain ⟨e', he', -, hother, hprobe, -⟩ := unwindKind_entry (x := x) hd
  have hkept : e'.turns = left ∧ e'.demand = e.demand ∧ e'.state = .closing ∧ e'.parent = e.parent ∧ e'.entry = e.entry := by
    cases hk : x.kind with
    | probe =>
      rw [(hprobe hk).1]
      exact ⟨rfl, rfl, hclosing, rfl, rfl⟩
    | data =>
      rw [(hother (.inl ⟨hk, fun h => by simp [Stream.served, hclosing] at h⟩)).1]
      exact ⟨rfl, rfl, hclosing, rfl, rfl⟩
    | _ =>
      rw [(hother (.inr ⟨by simp [hk], by simp [hk]⟩)).1]
      exact ⟨rfl, rfl, hclosing, rfl, rfl⟩
  obtain ⟨hturns, hdemand, hstate, hparent, hentry⟩ := hkept
  rw [unwindTurn_held he hx]
  generalize unwindKind e x (dropTurn e.entry l x.start u) = v at he'
  refine ⟨fun d hd => ?_, fun hchild hempty => ?_⟩
  · obtain hsame | ⟨-, -, -, -, hgone⟩ := tryFree_cases e.entry v
    · rw [hsame, he'] at hd
      obtain rfl := Option.some.inj hd
      exact ⟨hturns, hdemand⟩
    · rw [hgone] at hd
      cases hd
  · have hmay : v.mayFree e' = true := by
      simp [State.mayFree, hstate, hturns, hempty, Stream.isStation, hparent, hentry, hchild]
    simp only [tryFree, he', hmay, if_true]
    exact freeOne_none _ (by rw [freeEntry_entry, if_pos hentry.symm])

theorem unwindTurn_channels {l : LaneNo} {pn : PlanNo} {planStart : Slice} {w : PlanTurn} {u : State} {e : Stream} {x : Turn}
    (he : u.byTag w.tag = some e) (hx : e.entryOf l pn w.kind (sliceAdd planStart w.offset) = some x) :
    (unwindTurn l pn planStart w u).channels = u.channels.map fun c =>
      if w.kind = .cadence ∧ x.channel = some c.number ∧ c.tag = e.tag ∧ c.lane = l ∧ countBefore pn c.openingPlan = false then
        c.unwind x else c := by
  obtain ⟨hlane, hplan, hkind, -⟩ := entryOf_spec hx
  rw [unwindTurn_held he hx, tryFree_channels, unwindKind_channels, hlane, hplan, hkind]
  rfl

/-- A plan at its margin point lapses. -/
theorem marginPointStep_due {l : LaneNo} {p : Plan} {s : State} (hp : (s.lane l).outQueue = some p)
    (hdue : countReached (sliceSub p.start s.params.margin) (s.lane l).slice = true) :
    marginPointStep l s = lapsePlan l s := by
  have hmargin : s.marginDue l = true := by simpa [State.marginDue, hp] using hdue
  exact if_pos hmargin

/-- What a lapse leaves, from the state `f` that the unwinding of its turns leads to. -/
theorem lapsePlan_lapses {l : LaneNo} {p : Plan} {s : State} (hp : (s.lane l).outQueue = some p) : ∃ f,
    f = p.turns.foldl (fun u w => unwindTurn l p.planNo p.start w u) (modLane l (fun L => { L with outQueue := none }) s) ∧
      ((lapsePlan l s).lane l).outQueue = none ∧ (lapsePlan l s).flag l .planLapsed = true ∧ (lapsePlan l s).port.summary = true ∧
      (lapsePlan l s).lane l = { s.lane l with
        outQueue := none, rings := ((lapsePlan l s).lane l).rings,
        health := { (s.lane l).health with flags := (s.lane l).health.flags ||| 2 } } ∧
      ((lapsePlan l s).lane l).rings = (f.lane l).rings ∧ (∀ k, k ≠ l → (lapsePlan l s).lane k = f.lane k) ∧
      (lapsePlan l s).channels = f.channels.map (fun c =>
        if c.state = .draining ∧ c.lane = l ∧ c.finalMark.map (·.planNo) = some p.planNo then
          { c with state := .running, count := 1, finalMark := none, misses := min (c.misses + 1) 65535 }
        else c) ∧
      lapsePlan l s = { f with lanes := (lapsePlan l s).lanes, channels := (lapsePlan l s).channels,
                               port := { f.port with summary := true } } ∧
      Unwinds (modLane l (fun L => { L with outQueue := none }) s) f := by
  have hfold := Unwinds.foldl (fun u w => Unwinds.unwindTurn l p.planNo p.start w u) p.turns
    (modLane l (fun L => { L with outQueue := none }) s)
  refine ⟨_, rfl, ?_⟩
  rw [lapsePlan_eq hp, setFlag_kept rfl]
  unfold unwindTurns
  generalize p.turns.foldl (fun u w => unwindTurn l p.planNo p.start w u) (modLane l (fun L => { L with outQueue := none }) s) = f
    at hfold ⊢
  rw [unwindRounds_eq]
  have hfl : f.lane l = { s.lane l with outQueue := none, rings := (f.lane l).rings } := by
    rw [hfold.lanes, modLane_lane, if_pos rfl]
  have hlane : ∀ (g : Channel → Channel) (k : LaneNo), (modPort (fun p => { p with summary := true }) (modHealth l
      (fun h => { h with flags := h.flags ||| Flag.planLapsed.mask }) { f with channels := f.channels.map g })).lane k =
        if k = l then { f.lane l with health := { (f.lane l).health with flags := (f.lane l).health.flags ||| 2 } }
        else f.lane k := fun g k =>
    modHealth_lane l k (fun h => { h with flags := h.flags ||| Flag.planLapsed.mask }) { f with channels := f.channels.map g }
  refine ⟨?_, ?_, rfl, ?_, ?_, fun k hk => ?_, rfl, rfl, hfold⟩
  · rw [hlane, if_pos rfl, hfl]
  · show (_ &&& _ != 0#11) = true
    rw [hlane, if_pos rfl]
    exact flags_or_mask _ .planLapsed
  · rw [hlane, if_pos rfl, hfl]
  · rw [hlane, if_pos rfl]
  · rw [hlane, if_neg hk]

/-- Settles O20, from `lapsePlan_lapses`, `unwindTurn_open` and `unwindTurn_closing`. -/
theorem marginPointLapsesPlan : Obligations.MarginPointLapsesPlan := by
  refine ⟨fun l p s hp hdue => ?_, fun l pn planStart w u => ⟨unwindTurn_passed, fun e x he hx => ?_⟩⟩
  · obtain ⟨f, hf, hout, hflag, hsummary, hlane, hrings, hothers, hchannels, hframe, hfold⟩ := lapsePlan_lapses hp
    refine ⟨_, f, congrArg Host.Outcome.next (marginPointStep_due hp hdue), hf, hout, hflag, hsummary, hlane, hrings, hothers,
      hchannels, hframe, ?_, ?_, ?_, ?_⟩
    · exact (congrArg State.views hframe).trans hfold.views
    · exact (congrArg State.bus hframe).trans hfold.shrinks.bus
    · exact (congrArg State.boot hframe).trans hfold.shrinks.boot
    · exact (congrArg State.nodeTime hframe).trans hfold.shrinks.nodeTime
  · obtain ⟨hlane, hplan, hkind, hstart⟩ := entryOf_spec hx
    refine ⟨_, rfl, ?_, fun hopen => ?_, fun hclosing => ?_⟩
    · rw [unwindTurn_channels he hx]
      simp only [Channel.unwind_eq, hplan, hstart]
    · rw [unwindTurn_open he hx hopen]
      have hd := dropTurn_entry e.entry e.entry l (sliceAdd planStart w.offset) u
      rw [byTag_entry he] at hd
      simp only [Option.map_some, if_true] at hd
      obtain ⟨e', he', hedge, hother, hprobe, hothers, hframe⟩ := unwindKind_entry (x := x) hd
      rw [hkind] at hedge hother hprobe
      have hlanes : (dropTurn e.entry l (sliceAdd planStart w.offset) u).lanes = u.lanes := rfl
      have hturns : e'.turns = e.turns.filter fun y => !(y.lane == l && y.start == sliceAdd planStart w.offset) := by
        by_cases hback : w.kind = .data ∧ e.served = true ∧ e.isSpread = false ∧ e.mode = .edge
        · rw [(hedge hback).2.1]
        · by_cases hprobed : w.kind = .probe
          · rw [(hprobe hprobed).1]
          · rw [(hother ?_).1]
            by_cases hdata : w.kind = .data
            · exact .inl ⟨hdata, fun h => hback ⟨hdata, h⟩⟩
            · exact .inr ⟨hdata, hprobed⟩
      refine ⟨e', he', hturns, fun hdata => ?_, fun hkept => ?_, fun hprobed => ?_, fun n hn => ?_, fun k => ?_, ?_⟩
      · obtain ⟨hdemand, heq, hring⟩ := hedge hdata
        refine ⟨hdemand, ?_, hring⟩
        rw [heq]
      · obtain ⟨heq, hsame⟩ := hother hkept
        exact ⟨by rw [heq], hsame.trans hlanes⟩
      · obtain ⟨heq, hsame, halignment⟩ := hprobe hprobed
        refine ⟨by rw [heq], hsame.trans hlanes, ?_⟩
        rw [halignment, ← hlane, ← hstart]
        rfl
      · rw [hothers n hn, dropTurn_entry]
        simp [hn]
      · exact (unwindKind_unwinds e x _).lanes k
      · rw [hframe]
        rfl
    · exact unwindTurn_closing he hx hclosing

end Sys2Proof.Machine
end

section
/-! PROOF. A lane going DARK (for O24, O29). -/

namespace Sys2Proof.Machine

/-- An entry after a change of every entry. -/
theorem entry?_map {s t : State} {f : Stream → Stream} (hf : ∀ e, (f e).entry = e.entry) (ht : t.table = s.table.map f) (n : Nat) :
    t.entry? n = (s.entry? n).map f := by
  rw [State.entry?, ht, List.find?_map, State.entry?]
  congr 2
  funext e
  simp [hf]

namespace Unwinds

theorem purgeTurn (n : Nat) (t : Turn) (s : State) : Unwinds s (purgeTurn n t s) := by
  unfold Machine.purgeTurn
  split
  · exact (dropTurn n _ _ s).trans (restore n _ _)
  · exact dropTurn n _ _ s

theorem purgeStream (l : LaneNo) (s : State) (e : Stream) : Unwinds s (purgeStream l s e) :=
  foldl (fun s t => purgeTurn e.entry t s) _ s

theorem dropHolds (l : LaneNo) (s : State) : Unwinds s (dropHolds l s) := by
  refine ⟨.of_tables rfl rfl id (fun n hn e he => ?_) rfl, fun _ => rfl, rfl⟩
  rw [entry?_map (by intro e; rfl) (show (Machine.dropHolds l s).table = s.table.map _ from rfl)] at he
  obtain ⟨d, hd, rfl⟩ := Option.map_eq_some_iff.mp he
  exact hn d hd

theorem darkTurns (l : LaneNo) (s : State) : Unwinds s (darkTurns l s) :=
  ((foldl (purgeStream l) _ s).trans (dropHolds l _)).trans (foldl (fun s (e : Stream) => tryFree e.entry s) _ _)

end Unwinds

/-- What the events of a lane going DARK leave of the rest of the chip. -/
structure Darkens (s t : State) : Prop where
  port : ∃ said, t.port = s.port.after said
  boot : t.boot = s.boot
  nodeTime : t.nodeTime = s.nodeTime
  free : s.builder = none → t.builder = none

namespace Darkens

theorem trans {s t u : State} (h : Darkens s t) (h' : Darkens t u) : Darkens s u where
  port := by
    obtain ⟨said, hs⟩ := h.port
    obtain ⟨more, hm⟩ := h'.port
    exact ⟨said ++ more, by rw [hm, hs, OrderPort.after_append]⟩
  boot := h'.boot.trans h.boot
  nodeTime := h'.nodeTime.trans h.nodeTime
  free hb := h'.free (h.free hb)

theorem of_shrinks {s t : State} (h : Shrinks s t) : Darkens s t := ⟨h.port, h.boot, h.nodeTime, h.free⟩

theorem modLane (l : LaneNo) (f : Lane → Lane) (s : State) : Darkens s (modLane l f s) :=
  ⟨⟨[], (OrderPort.after_nil _).symm⟩, rfl, rfl, id⟩

end Darkens

/-! ### The Plan Builder's part -/

theorem abandonBuild_shrinks (l : LaneNo) (s : State) : Unwinds s (abandonBuild l s) := by
  unfold abandonBuild
  split
  · have hfreed : Unwinds s { s with builder := none } :=
      ⟨.of_tables rfl rfl (fun _ => rfl) (fun _ h => h) rfl, fun _ => rfl, rfl⟩
    exact hfreed.trans (.unwindTurns l _ _ _ _)
  · exact .refl s

theorem withdrawPlan_lane (l : LaneNo) (s : State) :
    (withdrawPlan l s).lane l = { s.lane l with outQueue := none, rings := ((withdrawPlan l s).lane l).rings } ∧
      Darkens s (withdrawPlan l s) := by
  unfold withdrawPlan
  split
  · next p hp =>
    have h := Unwinds.unwindTurns l p.planNo p.start p.turns (modLane l (fun L => { L with outQueue := none }) s)
    refine ⟨?_, (Darkens.modLane l _ s).trans (.of_shrinks h.shrinks)⟩
    rw [unwindPlan, h.lanes l, modLane_lane, if_pos rfl]
  · next hp => exact ⟨by rw [← hp], .of_shrinks (.refl s)⟩

theorem darkPlans_lane (l : LaneNo) (s : State) :
    (darkPlans l s).lane l = { s.lane l with
        buildState := .idle, deferred := false, nextPlanStart := none, outQueue := none,
        rings := ((darkPlans l s).lane l).rings } ∧
      Darkens s (darkPlans l s) := by
  have ha := abandonBuild_shrinks l s
  obtain ⟨hlane, hdark⟩ := withdrawPlan_lane l (modLane l (fun L =>
    { L with buildState := .idle, deferred := false, nextPlanStart := none }) (abandonBuild l s))
  refine ⟨?_, ((Darkens.of_shrinks ha.shrinks).trans (.modLane l _ _)).trans hdark⟩
  unfold darkPlans
  rw [hlane, modLane_lane, if_pos rfl, ha.lanes]

/-! ### The Joining and Alignment Unit's part -/

/-- A provisional station is announced and retired as its lane goes DARK. -/
def darkStation (l : LaneNo) (s : State) (t : Nat) : State :=
  match s.byTag t with
  | some e =>
    let s := match e.address with
      | some a => queueStatus (.joinFailed a l .laneDown) s
      | none => s
    retireWithChildren .laneDown e.entry s
  | none => s

theorem darkStation_shrinks (l : LaneNo) (s : State) (t : Nat) : Shrinks s (darkStation l s t) := by
  unfold darkStation
  split
  · next e _ =>
    cases e.address with
    | some a => exact (Shrinks.queueStatus _ s).trans (.retireWithChildren .laneDown e.entry _)
    | none => exact .retireWithChildren .laneDown e.entry s
  · exact .refl s

/-- A stream of a lane that goes DARK has no probe out. -/
def Stream.probeless (l : LaneNo) (e : Stream) : Stream :=
  if e.homedOn l then { e with alignment := e.alignment.map fun a => { a with probeOut := none } } else e

/-- The corrections and probes out of a DARK lane are gone. -/
def darkProbes (l : LaneNo) (s : State) : State :=
  { modLane l (fun L => { L with corrections := [] }) s with table := s.table.map (Stream.probeless l) }

theorem darkStations_eq (l : LaneNo) (s : State) : darkStations l s = modLane l (fun L => { L with provisional := [] })
    (((darkProbes l s).lane l).provisional.foldl (darkStation l) (darkProbes l s)) := rfl

theorem darkStations_lane (l : LaneNo) (s : State) :
    (darkStations l s).lane l = { s.lane l with
        provisional := [], rings := ((darkStations l s).lane l).rings, corrections := ((darkStations l s).lane l).corrections } ∧
      Darkens s (darkStations l s) := by
  have hfold := Shrinks.foldl (darkStation_shrinks l) ((darkProbes l s).lane l).provisional (darkProbes l s)
  have hprobes : (darkProbes l s).lane l = { s.lane l with corrections := [] } :=
    (modLane_lane l l (fun L => { L with corrections := [] }) s).trans (if_pos rfl)
  rw [darkStations_eq]
  refine ⟨?_, ?_⟩
  · rw [modLane_lane, if_pos rfl, hfold.lanes, hprobes]
  · have hcleared : Darkens s (darkProbes l s) := ⟨⟨[], (OrderPort.after_nil _).symm⟩, rfl, rfl, id⟩
    exact (hcleared.trans (.of_shrinks hfold)).trans (.modLane l _ _)

/-! ### The whole event -/

/-- What a lane that went DARK is left with, and what its going DARK says. -/
theorem goDark_spec (l : LaneNo) (cause : LaneCause) (s : State) :
    (∃ rings corrections owed, (goDark l cause s).lane l = { s.lane l with
      nextPlanStart := none, buildState := .idle, deferred := false, outQueue := none, fifo := [], provisional := [],
      health := { (s.lane l).health.darkened with state := .dark }, rings := rings, corrections := corrections, owed := owed }) ∧
    (∃ more, (goDark l cause s).port = s.port.after (.laneState l .dark cause :: more)) ∧
    (goDark l cause s).boot = s.boot ∧ (goDark l cause s).nodeTime = s.nodeTime ∧
    (s.builder = none → (goDark l cause s).builder = none) := by
  unfold goDark
  obtain ⟨hoffered, hframe⟩ := offerLane_frame l (modHealth l Health.darkened (darkMessage l cause s))
  have hw : (modHealth l Health.darkened (darkMessage l cause s)).lane l =
      { s.lane l with health := { (s.lane l).health.darkened with state := .dark } } := by
    rw [modHealth_lane, if_pos rfl, darkMessage, queueStatus_lane, modHealth_lane, if_pos rfl]
    rfl
  have hsaid : (darkMessage l cause s).port = s.port.after [.laneState l .dark cause] := by rw [darkMessage, queueStatus_after]; rfl
  have hkept : (darkMessage l cause s).boot = s.boot ∧ (darkMessage l cause s).nodeTime = s.nodeTime ∧
      (darkMessage l cause s).builder = s.builder := by
    rw [darkMessage, queueStatus_after]
    exact ⟨rfl, rfl, rfl⟩
  generalize offerLane l (modHealth l Health.darkened (darkMessage l cause s)) = w at hoffered hframe ⊢
  have hwl := hoffered l
  rw [hw] at hwl
  obtain ⟨hp, hpd⟩ := darkPlans_lane l w
  have ht := Unwinds.darkTurns l (emptyFifo l (darkPlans l w))
  obtain ⟨hj, hjd⟩ := darkStations_lane l (darkTurns l (emptyFifo l (darkPlans l w)))
  have hlane : ∀ u : State, (darkChannels l u).lane l = u.lane l := fun _ => rfl
  have hall : Darkens w (darkChannels l (darkStations l (darkTurns l (emptyFifo l (darkPlans l w))))) :=
    (((hpd.trans (.modLane l _ _)).trans (.of_shrinks ht.shrinks)).trans hjd).trans (.of_shrinks (.mapChannels _ _))
  have hleft : (darkChannels l (darkStations l (darkTurns l (emptyFifo l (darkPlans l w))))).lane l = { s.lane l with
      nextPlanStart := none, buildState := .idle, deferred := false, outQueue := none, fifo := [], provisional := [],
      health := { (s.lane l).health.darkened with state := .dark },
      rings := ((darkStations l (darkTurns l (emptyFifo l (darkPlans l w)))).lane l).rings,
      corrections := ((darkStations l (darkTurns l (emptyFifo l (darkPlans l w)))).lane l).corrections, owed := (w.lane l).owed } := by
    rw [hlane, hj, ht.lanes, emptyFifo, modLane_lane, if_pos rfl, hp, hwl]
  refine ⟨⟨_, _, _, hleft⟩, ?_, ?_, ?_, fun hb => hall.free ?_⟩
  · obtain ⟨more, hmore⟩ := hall.port
    refine ⟨more, hmore.trans ?_⟩
    rw [congrArg State.port hframe, ← List.singleton_append, OrderPort.after_append, ← hsaid]
    rfl
  · rw [hall.boot, congrArg State.boot hframe]
    exact hkept.1
  · rw [hall.nodeTime, congrArg State.nodeTime hframe]
    exact hkept.2.1
  · rw [congrArg State.builder hframe]
    exact hkept.2.2.trans hb

/-- The first message of a lane going DARK finds its place. -/
theorem after_first {p : OrderPort} {m : Message} (more : List Message) (h : p.statusQueue.length < 32) :
    ∃ later, (p.after (m :: more)).statusQueue = p.statusQueue ++ (m :: later) := by
  have hfirst : p.after (m :: more) = (p.after [m]).after more := by rw [← OrderPort.after_append]; rfl
  refine ⟨more.take (32 - (p.statusQueue ++ [m]).length), ?_⟩
  rw [hfirst, after_room h]
  exact List.append_assoc p.statusQueue [m] _

theorem darkened_state (l : LaneNo) (cause : LaneCause) (s : State) :
    (goDark l cause s).laneState l = .dark := by
  obtain ⟨⟨_, _, _, ht⟩, -⟩ := goDark_spec l cause s
  rw [State.laneState, ht]

/-! ### Carrier records -/

theorem RampEntered.port_room {l : LaneNo} {cause : LaneCause} {s t : State} (h : RampEntered l cause s t)
    (hroom : s.port.statusQueue.length < 32) :
    t.port = { s.port with statusQueue := s.port.statusQueue ++ [.laneState l .ramp cause] } := by
  obtain ⟨-, -, hport, -⟩ := h
  have hfits : [Message.laneState l .ramp cause].take (32 - s.port.statusQueue.length) = [.laneState l .ramp cause] :=
    List.take_of_length_le (by simp only [List.length_singleton]; omega)
  rw [hport, hfits, decide_eq_false (Nat.not_le.mpr hroom), Bool.or_false]

/-- The two carrier copies of a lane. -/
def carried (l : LaneNo) (c : Carrier) (s : State) : State :=
  modLane l (fun L => { L with carrier := c, health := { L.health with carrier := c } }) s

theorem takeCarrier_ready {l : LaneNo} {c : Carrier} {s : State} (hc : (s.lane l).carrier ≠ c) (hready : s.boot.startup = .ready) :
    takeCarrier l c s = if c = .present ∧ s.laneState l = .dark ∧ (s.lane l).health.enable = true then
        enterRamp l .carrierFound (carried l c s)
      else if c = .absent ∧ s.laneState l ≠ .dark then goDark l .carrierLost (carried l c s)
      else carried l c s := by
  have hcopies : modHealth l (fun h => { h with carrier := c }) (modLane l (fun L => { L with carrier := c }) s) = carried l c s :=
    modLane_modLane l _ _ s
  have hstate : (carried l c s).laneState l = s.laneState l := by rw [State.laneState, carried, modLane_lane, if_pos rfl]; rfl
  have henable : ((carried l c s).lane l).health.enable = (s.lane l).health.enable := by rw [carried, modLane_lane, if_pos rfl]
  rw [takeCarrier, if_neg hc]
  refine (if_pos hready).trans ?_
  simp only [carrierChange, hcopies, hstate, henable]
  cases c <;> cases s.laneState l <;> simp

theorem carrierRecordStep_eq {l : LaneNo} {w : LaneRecord} {s : State} (hw : recordType w = 4) (hl : s.fitted l = true)
    (hrun : s.boot.startup ≠ .halted) : carrierRecordStep l w s = takeCarrier l (carrierValue w) s := if_pos ⟨hw, hrun, hl⟩

/-- Settles O29: `takeCarrier_ready` says which event a change is, `enterRamp_entered` and `goDark_spec` what it does. -/
theorem carrierRecordRecordsChange : Obligations.CarrierRecordRecordsChange := by
  intro l w s hw hl hrun
  have hstep : exec (.carrierRecord l w) s = .next (takeCarrier l (carrierValue w) s) :=
    congrArg Host.Outcome.next (carrierRecordStep_eq hw hl hrun)
  refine ⟨fun hsame => hstep.trans ?_, fun hchange hearly => hstep.trans ?_, fun hchange hready hdark hrest => hstep.trans ?_,
    fun habsent hpresent hready hdark henable => ?_, fun hpresent habsent hready hdark => ?_⟩
  · rw [takeCarrier, if_pos hsame]
  · rw [takeCarrier, if_neg hchange]
    exact congrArg Host.Outcome.next (if_neg hearly)
  · rw [takeCarrier_ready hchange hready]
    obtain hoff | hgone := hrest
    · rw [if_neg (by simp [hoff]), if_neg (by simp [hdark])]
      rfl
    · rw [if_neg (by simp [hgone]), if_neg (by simp [hdark])]
      rfl
  · have hchange : (s.lane l).carrier ≠ carrierValue w := by rw [habsent, hpresent]; decide
    rw [takeCarrier_ready hchange hready, if_pos ⟨hpresent, hdark, henable⟩, hpresent] at hstep
    have hramp := enterRamp_entered l .carrierFound (carried l .present s)
    have hlane : (carried l .present s).lane l =
        { s.lane l with carrier := .present, health := { (s.lane l).health with carrier := .present } } := by
      rw [carried, modLane_lane, if_pos rfl]
    obtain ⟨ht, -, -, -, -, -, hframe⟩ := id hramp
    rw [hlane] at ht
    refine ⟨_, hstep, ?_, ?_, ?_, ?_, ?_, ?_, ?_, ?_, ?_, ?_, fun hroom => ?_, hramp, ?_, ?_, ?_⟩
    · rw [State.laneState, ht]
    · rw [ht]
    · rw [ht]
    · rw [ht]
      exact henable
    · rw [ht]
    · rw [ht]
      rfl
    · rw [ht]
    · rw [ht]
    · rw [ht]
    · rw [ht]
    · exact hramp.port_room hroom
    · rw [hframe]
      rfl
    · rw [hframe]
      rfl
    · rw [hframe]
      rfl
  · have hchange : (s.lane l).carrier ≠ carrierValue w := by rw [habsent, hpresent]; decide
    rw [takeCarrier_ready hchange hready, if_neg (by simp [habsent]), if_pos ⟨habsent, hdark⟩, habsent] at hstep
    obtain ⟨⟨_, _, _, ht⟩, ⟨more, hport⟩, hboot, htime, -⟩ := goDark_spec l .carrierLost (carried l .absent s)
    have hlane : (carried l .absent s).lane l =
        { s.lane l with carrier := .absent, health := { (s.lane l).health with carrier := .absent } } := by
      rw [carried, modLane_lane, if_pos rfl]
    rw [hlane] at ht
    refine ⟨_, hstep, darkened_state _ _ _, ?_, ?_, ?_, ?_, ?_, ?_, fun hroom => ?_, hboot, htime⟩
    · rw [ht]
    · rw [ht]
      rfl
    · rw [ht]
      rfl
    · rw [ht]
      rfl
    · rw [ht]
    · rw [ht]
    · rw [hport]
      exact after_first more hroom

/-! ### LANE UP -/

/-- A lane whose enable is on, with its weight. -/
def enabled (l : LaneNo) (weight : Nat) (s : State) : State :=
  modHealth l (fun h => { h with enable := true, weight := if weight = 0 then h.weight else weight }) s

theorem laneUpStep_eq {seq lane weight : Byte} {s : State} (hready : s.boot.startup = .ready) :
    (s.fittedByte lane = none → laneUpStep seq lane weight s = refuse seq .badLane s) ∧
      ∀ l, s.fittedByte lane = some l → laneUpStep seq lane weight s = answerDone seq false (laneUp l weight.toNat s) := by
  rw [laneUpStep, whenReady_ready hready]
  exact ⟨fun h => by simp only [h], fun l h => by simp only [h]⟩

theorem laneUp_ramp {l : LaneNo} {weight : Nat} {s : State} (hc : (s.lane l).health.carrier = .present)
    (he : (s.lane l).health.enable = false) : laneUp l weight s = enterRamp l .enabled (enabled l weight s) := by
  simp [laneUp, hc, he, enabled]

theorem laneUp_quiet {l : LaneNo} {weight : Nat} {s : State}
    (h : (s.lane l).health.carrier = .absent ∨ (s.lane l).health.enable = true) :
    laneUp l weight s = if weight ≠ 0 ∧ weight ≠ (s.lane l).health.weight then offerLane l (enabled l weight s)
      else enabled l weight s := by
  rw [laneUp]
  refine if_neg fun ⟨hoff, hpresent⟩ => ?_
  obtain habsent | hon := h
  · rw [habsent] at hpresent
    cases hpresent
  · exact hoff hon

theorem enabled_lane (l k : LaneNo) (weight : Nat) (s : State) : (enabled l weight s).lane k =
    if k = l then { s.lane l with health := { (s.lane l).health with
      enable := true, weight := if weight = 0 then (s.lane l).health.weight else weight } } else s.lane k := modHealth_lane l k _ s

theorem answerDone_lane (seq : Byte) (c : Bool) (s : State) (k : LaneNo) : (answerDone seq c s).lane k = s.lane k := rfl

/-- Settles O25: `enterRamp_entered` gives the ramp, `offerLane_offered` the notice of a new weight. -/
theorem laneUpEnablesOrRamps : Obligations.LaneUpEnablesOrRamps := by
  intro seq lane weight s hready
  obtain ⟨hbad, hfitted⟩ := laneUpStep_eq (seq := seq) (lane := lane) (weight := weight) hready
  refine ⟨fun h => congrArg Host.Outcome.next (hbad h), fun l hl => ?_⟩
  have hstep : exec (.laneUp seq lane weight) s = .next (answerDone seq false (laneUp l weight.toNat s)) :=
    congrArg Host.Outcome.next (hfitted l hl)
  refine ⟨fun habsent hidle => hstep.trans ?_, fun hquiet => ?_, fun hpresent hoff hroom => ?_, fun hpresent hoff => ?_⟩
  · rw [laneUp_quiet (.inl habsent)]
    split
    · have hno : offerLane l (enabled l weight.toNat s) = enabled l weight.toNat s := if_neg hidle
      rw [hno]
      rfl
    · rfl
  · intro w u
    have hw : (if weight.toNat = 0 then (s.lane l).health.weight else weight.toNat) = w := rfl
    have hu : enabled l weight.toNat s = u := by
      unfold enabled modHealth
      exact modLane_congr rfl
    have hchanges : (weight.toNat ≠ 0 ∧ weight.toNat ≠ (s.lane l).health.weight) ↔ w ≠ (s.lane l).health.weight := by
      rw [← hw]
      split <;> simp_all
    rw [laneUp_quiet hquiet, hu, if_congr hchanges rfl rfl] at hstep
    have hul : ∀ k, u.lane k = if k = l then
        { s.lane l with health := { (s.lane l).health with enable := true, weight := w } } else s.lane k := fun k => by
      rw [← hu, enabled_lane, hw]
    obtain ⟨hlanes, hframe⟩ := offerLane_frame l u
    by_cases hsame : w = (s.lane l).health.weight
    · rw [if_neg (by simpa using hsame)] at hstep
      refine ⟨_, hstep, ?_, fun k hk => ?_, rfl, fun _ => ⟨rfl, fun k => ?_⟩, fun h => absurd hsame h, ?_⟩
      · exact (hul l).trans (by rw [answerDone_lane, hul, if_pos rfl])
      · exact (hul k).trans (by rw [answerDone_lane, hul, if_neg hk])
      · rw [answerDone_lane, hul]
        split
        · next h => rw [h]
        · rfl
      · rw [answerDone_eq]
        rfl
    · rw [if_pos hsame] at hstep
      have hnotice : u.laneNotice l = .lane l (s.laneState l) w := by
        rw [State.laneNotice, hul, if_pos rfl]
        rfl
      have hoffered := offerLane_offered l u
      rw [hnotice] at hoffered
      refine ⟨_, hstep, ?_, fun k hk => ?_, ?_, fun h => absurd h hsame, fun _ => ?_, ?_⟩
      · rw [answerDone_lane, hlanes, hul, if_pos rfl]
      · rw [answerDone_lane, hlanes, hul, if_neg hk]
      · rw [answerDone_eq, hframe]
        rfl
      · exact hoffered.congr rfl (fun _ => rfl) (fun _ => rfl) (fun _ => rfl) rfl fun _ => rfl
      · rw [answerDone_eq, hframe]
        rfl
  · rw [laneUp_ramp hpresent hoff] at hstep
    have hramp := enterRamp_entered l .enabled (enabled l weight.toNat s)
    obtain ⟨ht, -, -, -, -, -, hframe⟩ := id hramp
    have hport := hramp.port_room hroom
    rw [enabled_lane, if_pos rfl] at ht
    have hlane : ∀ u : State, (answerDone seq false u).lane l = u.lane l := fun _ => rfl
    refine ⟨_, hstep, ?_, ?_, ?_, ?_, ?_, ?_, ?_, ?_, ?_, ?_, rfl, ?_, ?_, ?_⟩
    · rw [State.laneState, hlane, ht]
    · rw [hlane, ht]
    · rw [hlane, ht]
      rfl
    · rw [hlane, ht]
    · rw [hlane, ht]
    · rw [hlane, ht]
    · rw [hlane, ht]
    · rw [hlane, ht]
    · rw [hlane, ht]
    · rw [answerDone_eq]
      exact congrArg OrderPort.statusQueue hport
    · rw [answerDone_eq, hframe]
      rfl
    · rw [answerDone_eq, hframe]
      rfl
    · rw [answerDone_eq, hframe]
      rfl
  · rw [laneUp_ramp hpresent hoff] at hstep
    exact ⟨_, enterRamp_entered l .enabled (enabled l weight.toNat s), hstep⟩

end Sys2Proof.Machine
end

section
/-! PROOF. Completions (O18, O24). -/

namespace Sys2Proof.Machine

/-! ### The counts of a completion -/

/-- The parts of a completion that count: the lane's own, the streams' countdowns and the release waits. -/
def counted (b : Build) (s : State) : State :=
  countReleaseWaits b.lane b.marks (countBuild b.lane b.reloaded (sliceAdd b.start s.params.planLength)
    (modLane b.lane (fun L => (L.completed s.params b).countJoin b.joinSet) s))

/-- A completion up to the lapse of a late plan. -/
def completed (b : Build) (s : State) : State := { healthCompletion b.lane (counted b s) with builder := none }

/-- A completion up to the failure of a ramp. -/
def lapsed (b : Build) (s : State) : State :=
  if s.completesLate b then lapsePlan b.lane (completed b s) else completed b s

theorem completeBuild_eq (b : Build) (s : State) : completeBuild b s =
    if (lapsed b s).rampFailed b.lane then failRamp b.lane (lapsed b s) else lapsed b s := rfl

theorem counted_lane (b : Build) (s : State) (k : LaneNo) : (counted b s).lane k =
    if k = b.lane then ((s.lane b.lane).completed s.params b).countJoin b.joinSet else s.lane k :=
  modLane_lane b.lane k (fun L => (L.completed s.params b).countJoin b.joinSet) s

/-- The fields of a completed lane that its plan does not touch. -/
theorem completed_countJoin (p : Params) (b : Build) (set : Bool) (L : Lane) : (L.completed p b).countJoin set = { L with
    nextPlanStart := L.nextPlanStart.map fun n => sliceAdd n p.planLength,
    outQueue := some (b.plan p.planLength (L.corrections.take 16)), corrections := L.corrections.drop 16, planNo := L.planNo + 1,
    buildState := if L.deferred then .pending else .idle, deferred := false,
    joinCountdown := if set then L.joinCountdown else L.joinCountdown - 1 } := by
  unfold Lane.countJoin
  split <;> rfl

theorem counted_laneState (b : Build) (s : State) (k : LaneNo) : (counted b s).laneState k = s.laneState k := by
  rw [State.laneState, counted_lane]
  split
  · next h =>
    rw [completed_countJoin, h]
    rfl
  · rfl

theorem buildCompletion_exec {b : Build} {s : State} (hb : s.builder = some b) (hm : s.mayEnter b 8 = true) :
    exec .buildCompletion s = .next (completeBuild b s) := by
  show Host.Outcome.next (buildCompletionStep s) = _
  simp only [buildCompletionStep, hb, hm, if_true]

/-! ### The completion that ends a ramp -/

/-- The health of a RAMP lane with one build more. -/
def Health.rampBuilt (h : Health) : Health := { h with rampBuilds := satAdd 255 h.rampBuilds 1 }

theorem rampFailed_iff {s : State} {l : LaneNo} : s.rampFailed l = true ↔
    (s.lane l).health.state = .ramp ∧ s.params.health.rampTimeout ≤ (s.lane l).health.rampBuilds := by
  simp [State.rampFailed, State.laneState]

/-- The count that ends a ramp is not evaluated. -/
theorem healthCompletion_ends {l : LaneNo} {s : State} (hramp : s.laneState l = .ramp)
    (hends : s.params.health.rampTimeout ≤ satAdd 255 (s.lane l).health.rampBuilds 1) :
    healthCompletion l s = modHealth l Health.rampBuilt s := by
  have hfailed : (modHealth l Health.rampBuilt s).rampFailed l = true := by
    rw [rampFailed_iff, modHealth_lane, if_pos rfl]
    exact ⟨hramp, hends⟩
  simp only [healthCompletion, hramp]
  exact if_pos hfailed

/-- A lapse changes the lane's plan, rings and flags. -/
theorem lapsePlan_spec (l : LaneNo) (s : State) :
    (lapsePlan l s).lane l = { s.lane l with
        outQueue := none, rings := ((lapsePlan l s).lane l).rings,
        health := { (s.lane l).health with flags := ((lapsePlan l s).lane l).health.flags } } ∧
      (lapsePlan l s).boot = s.boot ∧ (lapsePlan l s).nodeTime = s.nodeTime ∧
      (s.builder = none → (lapsePlan l s).builder = none) := by
  cases hp : (s.lane l).outQueue with
  | none =>
    have hsame : lapsePlan l s = s := by simp only [lapsePlan, hp]
    rw [hsame, ← hp]
    exact ⟨rfl, rfl, rfl, id⟩
  | some p =>
    have hu := Unwinds.unwindTurns l p.planNo p.start p.turns (modLane l (fun L => { L with outQueue := none }) s)
    have hl := hu.lanes l
    rw [modLane_lane, if_pos rfl] at hl
    have hlane : (lapsePlan l s).lane l = { (unwindTurns l p.planNo p.start p.turns
          (modLane l (fun L => { L with outQueue := none }) s)).lane l with
        health := { ((unwindTurns l p.planNo p.start p.turns (modLane l (fun L => { L with outQueue := none }) s)).lane l).health with
          flags := ((unwindTurns l p.planNo p.start p.turns (modLane l (fun L => { L with outQueue := none }) s)).lane l).health.flags
            ||| Flag.planLapsed.mask } } := by
      rw [lapsePlan_eq hp, setFlag_kept rfl, modPort_lane, modHealth_lane, if_pos rfl]
    have hframe : (lapsePlan l s).boot = s.boot ∧ (lapsePlan l s).nodeTime = s.nodeTime ∧
        (s.builder = none → (lapsePlan l s).builder = none) := by
      rw [lapsePlan_eq hp, setFlag_kept rfl]
      exact ⟨hu.shrinks.boot, hu.shrinks.nodeTime, hu.shrinks.free⟩
    refine ⟨?_, hframe⟩
    rw [hlane, hl]

theorem rampFail_kept (x : BitVec 11) : ((x ||| Flag.rampFail.mask) &&& keptAtDark &&& Flag.rampFail.mask != 0#11) = true := by
  rw [BitVec.and_assoc]
  exact flags_or_mask x .rampFail

/-- A failed ramp: RAMP_FAIL, enable off, DARK. -/
theorem failRamp_spec (l : LaneNo) (s : State) :
    (∃ rings corrections owed, (failRamp l s).lane l = { s.lane l with
      nextPlanStart := none, buildState := .idle, deferred := false, outQueue := none, fifo := [], provisional := [],
      rings := rings, corrections := corrections, owed := owed,
      health := { (s.lane l).health with
        state := .dark, enable := false, floor := 0, openCount := 0, joinCount := 0, damageCount := 0, emptyCount := 0,
        readings := Readings.unread, goodProbes := 0, rampBuilds := 0,
        flags := ((s.lane l).health.flags ||| Flag.rampFail.mask) &&& keptAtDark } }) ∧
    (∃ more, (failRamp l s).port = OrderPort.after (.laneState l .dark .rampTimeout :: more) { s.port with summary := true }) ∧
    (failRamp l s).boot = s.boot ∧ (failRamp l s).nodeTime = s.nodeTime ∧ (s.builder = none → (failRamp l s).builder = none) := by
  unfold failRamp
  rw [setFlag_kept rfl]
  obtain ⟨⟨rings, corrections, owed, ht⟩, hport, hboot, htime, hfree⟩ := goDark_spec l .rampTimeout (modHealth l
    (fun h => { h with enable := false }) (modPort (fun p => { p with summary := true }) (modHealth l
      (fun h => { h with flags := h.flags ||| Flag.rampFail.mask }) s)))
  refine ⟨⟨rings, corrections, owed, ht.trans ?_⟩, hport, hboot, htime, hfree⟩
  rw [modHealth_lane, if_pos rfl, modPort_lane, modHealth_lane, if_pos rfl]
  rfl

/-- The completion that ends a ramp, up to the failure. -/
theorem lapsed_ends {b : Build} {s : State} (hramp : s.laneState b.lane = .ramp)
    (hends : s.params.health.rampTimeout ≤ satAdd 255 (s.lane b.lane).health.rampBuilds 1) :
    (∃ outQueue rings flags, (lapsed b s).lane b.lane = { ((s.lane b.lane).completed s.params b).countJoin b.joinSet with
        outQueue := outQueue, rings := rings, health := { (s.lane b.lane).health.rampBuilt with flags := flags } }) ∧
      (lapsed b s).boot = s.boot ∧ (lapsed b s).nodeTime = s.nodeTime ∧ (lapsed b s).builder = none ∧
      (s.completesLate b = false → (lapsed b s).port = s.port) := by
  have hhealth : healthCompletion b.lane (counted b s) = modHealth b.lane Health.rampBuilt (counted b s) := by
    refine healthCompletion_ends ((counted_laneState b s b.lane).trans hramp) ?_
    rw [counted_lane, if_pos rfl, completed_countJoin]
    exact hends
  have hcompleted : (completed b s).lane b.lane = { ((s.lane b.lane).completed s.params b).countJoin b.joinSet with
      health := (s.lane b.lane).health.rampBuilt } := by
    show (healthCompletion b.lane (counted b s)).lane b.lane = _
    rw [hhealth, modHealth_lane, if_pos rfl, counted_lane, if_pos rfl, completed_countJoin]
  have hframe : (completed b s).boot = s.boot ∧ (completed b s).nodeTime = s.nodeTime ∧ (completed b s).port = s.port := by
    rw [completed, hhealth]
    exact ⟨rfl, rfl, rfl⟩
  obtain ⟨hboot, htime, hport⟩ := hframe
  unfold lapsed
  split
  · next hlate =>
    obtain ⟨hlane, hlboot, hltime, hfree⟩ := lapsePlan_spec b.lane (completed b s)
    rw [hcompleted] at hlane
    exact ⟨⟨_, _, _, hlane⟩, hlboot.trans hboot, hltime.trans htime, hfree rfl, fun h => by rw [hlate] at h; cases h⟩
  · exact ⟨⟨_, _, _, hcompleted⟩, hboot, htime, rfl, fun _ => hport⟩

theorem rampTimeout_exec {b : Build} {s : State} (hb : s.builder = some b) (hm : s.mayEnter b 8 = true)
    (hramp : s.laneState b.lane = .ramp)
    (hends : s.params.health.rampTimeout ≤ satAdd 255 (s.lane b.lane).health.rampBuilds 1) :
    exec (.rampTimeout b.lane) s = .next (completeBuild b s) := by
  have hbuild : s.buildOf b.lane = some b := by simp [State.buildOf, hb]
  have hboth : (s.mayEnter b 8 && s.endsRamp b) = true := by
    simp only [hm, State.endsRamp, hramp, Bool.true_and, beq_self_eq_true]
    exact decide_eq_true hends
  show Host.Outcome.next (rampTimeoutStep b.lane s) = _
  simp only [rampTimeoutStep, hbuild, hboth, if_true]

/-- Settles O24: up to its failure the completion keeps the ramp (`lapsed_ends`), and `failRamp_spec` says how it ends. -/
theorem rampTimeoutGoesDark : Obligations.RampTimeoutGoesDark := by
  intro l s
  refine ⟨fun b hb hbl hm hramp hends => ?_, fun hnone => ?_⟩
  · subst hbl
    obtain ⟨⟨outQueue, vrings, flags, hlane⟩, hboot, htime, hfree, hontime⟩ := lapsed_ends hramp hends
    have hfailed : (lapsed b s).rampFailed b.lane = true := by
      have hparams : (lapsed b s).params = s.params := congrArg Boot.params hboot
      rw [rampFailed_iff, hparams, hlane]
      exact ⟨hramp, hends⟩
    have hcompletes : completeBuild b s = failRamp b.lane (lapsed b s) := (completeBuild_eq b s).trans (if_pos hfailed)
    have hstep := (rampTimeout_exec hb hm hramp hends).trans (congrArg Host.Outcome.next hcompletes)
    have hcompletion := (buildCompletion_exec hb hm).trans (congrArg Host.Outcome.next hcompletes)
    obtain ⟨⟨rings, corrections, owed, ht⟩, ⟨more, hport⟩, hdboot, hdtime, hdfree⟩ := failRamp_spec b.lane (lapsed b s)
    rw [hlane, completed_countJoin] at ht
    refine ⟨_, hstep, hcompletion, hdfree hfree, ?_, ?_, ?_, ?_, ?_, ?_, ?_, ?_, ?_, ?_, ?_, ?_, ?_, ?_, ?_, ?_,
      ?_, ?_, ?_, ?_, ?_, fun hlate hroom => ?message, hdboot.trans hboot, hdtime.trans htime⟩
    case message =>
      obtain ⟨later, hlater⟩ := after_first (m := .laneState b.lane .dark .rampTimeout) more
        (p := { s.port with summary := true }) hroom
      refine ⟨later, ?_⟩
      rw [hport, hontime hlate]
      exact hlater
    · rw [State.laneState, ht]
    · rw [ht]
    · show (_ &&& _ != 0#11) = true
      rw [ht]
      exact rampFail_kept flags
    · rw [hport]
      rfl
    all_goals rw [ht]
    all_goals rfl
  · have hbuild : s.buildOf l = none := by simp [State.buildOf, hnone]
    show Host.Outcome.next (rampTimeoutStep l s) = _
    simp only [rampTimeoutStep, hbuild]

end Sys2Proof.Machine
end

section
/-! PROOF. A completion that ends no ramp (O18). -/

namespace Sys2Proof.Machine

/-- What the evaluation at a completion makes of a lane's record (R163, R167 to R170). -/
def Health.completedWith (lim : HealthLimits) (backlog : Nat) (h : Health) : Health := { h with
  rampBuilds := if h.state = .ramp then min (h.rampBuilds + 1) 255 else h.rampBuilds,
  readings := { backlog := backlog, openCollisions := h.openCount, joinCollisions := h.joinCount,
                damage := h.damageCount, empty := h.emptyCount },
  floor := if h.state = .live ∧ backlog > lim.backlogHigh then min (h.floor + 1) 5
    else if h.state = .live ∧ backlog < lim.backlogLow then h.floor - 1
    else h.floor,
  openPair := h.openPair.moved lim.openHigh lim.openLow lim.openMin h.openCount,
  joinPair := h.joinPair.moved lim.joinHigh lim.joinLow lim.joinMin h.joinCount,
  openCount := 0, joinCount := 0, damageCount := 0, emptyCount := 0,
  flags := h.flags ||| (if backlog > lim.backlogHigh then 1024 else 0) ||| (if h.openCount ≥ lim.openHigh then 512 else 0)
    ||| (if h.joinCount ≥ lim.joinHigh then 256 else 0) ||| (if h.damageCount > lim.damageLimit then 128 else 0)
    ||| (if h.emptyCount > lim.emptyLimit then 64 else 0) }

theorem healthCompletion_dark {l : LaneNo} {s : State} (h : s.laneState l = .dark) : healthCompletion l s = s := by
  simp only [healthCompletion, h]

/-- Some limit is passed, or the summary was set. -/
def State.summed (s : State) (l : LaneNo) : Bool :=
  s.port.summary || decide (s.backlogReading l > s.params.health.backlogHigh) ||
    decide ((s.lane l).health.openCount ≥ s.params.health.openHigh) ||
    decide ((s.lane l).health.joinCount ≥ s.params.health.joinHigh) ||
    decide ((s.lane l).health.damageCount > s.params.health.damageLimit) ||
    decide ((s.lane l).health.emptyCount > s.params.health.emptyLimit)

theorem State.summed_iff {s : State} {l : LaneNo} : s.summed l = true ↔ s.port.summary = true ∨
    s.backlogReading l > s.params.health.backlogHigh ∨ (s.lane l).health.openCount ≥ s.params.health.openHigh ∨
    (s.lane l).health.joinCount ≥ s.params.health.joinHigh ∨ (s.lane l).health.damageCount > s.params.health.damageLimit ∨
    (s.lane l).health.emptyCount > s.params.health.emptyLimit := by
  simp only [State.summed, Bool.or_eq_true, decide_eq_true_eq, or_assoc]

theorem movedFloor_eq (lim : HealthLimits) (st : LaneState) (backlog floor : Nat) : movedFloor lim st backlog floor =
    if st = .live ∧ backlog > lim.backlogHigh then min (floor + 1) 5
    else if st = .live ∧ backlog < lim.backlogLow then floor - 1
    else floor := by
  unfold movedFloor
  by_cases hlive : st = .live
  · simp [hlive]
  · simp [hlive]

/-- What an evaluated lane, not DARK, is left with; `f` counts the build first. -/
theorem evaluateLane_counted {l : LaneNo} {s : State} (h : s.laneState l ≠ .dark) (n : Nat) :
    evaluateLane l (modHealth l (fun x => { x with rampBuilds := n }) s) = modPort (fun p => { p with summary := s.summed l })
      (modHealth l (fun x => { x.completedWith s.params.health (s.backlogReading l) with rampBuilds := n }) s) := by
  have hstate : (modHealth l (fun x => { x with rampBuilds := n }) s).laneState l ≠ .dark := by
    rwa [State.laneState, modHealth_lane, if_pos rfl]
  rw [evaluateLane_eq l _ hstate]
  simp only [modHealth_lane, if_true]
  have htwice : ∀ f : Health → Health, modHealth l f (modHealth l (fun x => { x with rampBuilds := n }) s) =
      modHealth l (fun x => f { x with rampBuilds := n }) s := fun f => modLane_modLane l _ _ s
  rw [htwice]
  simp only [Health.evaluated, Health.completedWith, movedFloor_eq]
  rfl

/-- The record of a lane that is not DARK after a completion that ends no ramp. -/
theorem healthCompletion_eq {l : LaneNo} {s : State} (h : s.laneState l ≠ .dark)
    (hgoes : s.laneState l = .ramp → satAdd 255 (s.lane l).health.rampBuilds 1 < s.params.health.rampTimeout) :
    healthCompletion l s = modPort (fun p => { p with summary := s.summed l })
      (modHealth l (fun x => x.completedWith s.params.health (s.backlogReading l)) s) := by
  have hsame : modHealth l (fun x => { x with rampBuilds := (s.lane l).health.rampBuilds }) s = s := modLane_of_fixed rfl
  cases hs : s.laneState l with
  | dark => exact absurd hs h
  | live =>
    have heval := evaluateLane_counted h (s.lane l).health.rampBuilds
    rw [hsame] at heval
    have hnot : ¬(s.lane l).health.state = .ramp := by
      have hlive : (s.lane l).health.state = .live := hs
      simp [hlive]
    simp only [healthCompletion, hs]
    rw [heval]
    refine congrArg _ (modLane_congr ?_)
    simp only [Health.completedWith, if_neg hnot]
  | ramp =>
    have hramp : (s.lane l).health.state = .ramp := hs
    have hbuilt : modHealth l Health.rampBuilt s =
        modHealth l (fun x => { x with rampBuilds := satAdd 255 (s.lane l).health.rampBuilds 1 }) s := modLane_congr rfl
    have hfailed : ¬(modHealth l Health.rampBuilt s).rampFailed l = true := by
      rw [rampFailed_iff, modHealth_lane, if_pos rfl]
      exact fun hf => absurd hf.2 (Nat.not_le.mpr (hgoes hs))
    simp only [healthCompletion, hs]
    refine ((if_neg hfailed).trans (congrArg (evaluateLane l) hbuilt)).trans ?_
    rw [evaluateLane_counted h]
    refine congrArg _ (modLane_congr ?_)
    simp only [Health.completedWith, if_pos hramp]
    rfl

/-! ### The tables of a completion -/

/-- A stream after a completed build of lane `l` (R26, R91, R124). -/
def Stream.builtOn (l : LaneNo) (reloaded : List Nat) (start : Slice) (e : Stream) : Stream := { e with
  pollCountdown := if e.homedOn l = true ∧ e.entry ∉ reloaded then e.pollCountdown.map (· - 1) else e.pollCountdown,
  admitCountdown := if e.homedOn l = true ∧ e.state = .basic then e.admitCountdown.map (· - 1) else e.admitCountdown,
  alignment := if e.homedOn l = true then e.alignment.map (fun a => { a with maintenance := a.maintenance.map (· - 1) })
    else e.alignment,
  hold := if e.hold[l.val].any (fun h => !countAfter h start) = true then e.hold.set l.val none else e.hold }

theorem dropHold_eq (l : LaneNo) (start : Slice) (e : Stream) : e.dropHold l start = { e with
    hold := if e.hold[l.val].any (fun h => !countAfter h start) = true then e.hold.set l.val none else e.hold } := by
  unfold Stream.dropHold
  cases hh : e.hold[l.val] with
  | none => simp
  | some h => cases ha : countAfter h start <;> simp [ha]

theorem counted_table (b : Build) (s : State) :
    (counted b s).table = s.table.map (Stream.builtOn b.lane b.reloaded (sliceAdd b.start s.params.planLength)) := by
  have hone : ∀ e : Stream, Stream.dropHold b.lane (sliceAdd b.start s.params.planLength)
      (if e.homedOn b.lane then (e.countPoll b.reloaded).countAdmit.countMaintenance else e) =
        e.builtOn b.lane b.reloaded (sliceAdd b.start s.params.planLength) := by
    intro e
    rw [dropHold_eq]
    by_cases hhome : e.homedOn b.lane = true
    · by_cases hpoll : e.entry ∈ b.reloaded <;> by_cases hbasic : e.state = .basic <;>
        simp [Stream.builtOn, Stream.countPoll, Stream.countAdmit, Stream.countMaintenance, hhome, hpoll, hbasic]
    · simp [Stream.builtOn, hhome]
  exact List.map_congr_left fun e _ => hone e

theorem own?_countWait (self : PeerNo) (l k : LaneNo) (marked : Bool) (v : View) : ∃ g : OwnLane → OwnLane,
    (∀ o, (g o).sent = o.sent ∧ (g o).pending = o.pending) ∧ (v.countWait self l marked).own? k = (v.own? k).map g := by
  refine ⟨fun o => if o.lane = l then if marked then { o with waits := 0 }
    else if allowance self v l > 0 then { o with waits := satAdd 15 o.waits 1 } else o else o, fun o => ?_, ?_⟩
  · constructor <;> (dsimp only; split_ifs <;> rfl)
  · rw [View.own?, View.countWait, List.find?_map, View.own?]
    congr 2
    funext o
    simp only [Function.comp]
    split_ifs <;> rfl

theorem allowance_countWait (self : PeerNo) (l k : LaneNo) (marked : Bool) (v : View) :
    allowance self (v.countWait self l marked) k = allowance self v k := by
  obtain ⟨g, hg, hown⟩ := own?_countWait self l k marked v
  have hshare : ∀ n, (v.countWait self l marked).share? n = v.share? n := fun _ => rfl
  rw [allowance, hown, hshare, allowance]
  cases v.own? k with
  | none => rfl
  | some o =>
    cases v.share? (nodeLaneOf self k) with
    | none => rfl
    | some x =>
      obtain ⟨hsent, hpending⟩ := hg o
      simp only [Option.map_some, hsent, hpending]

theorem counted_views (b : Build) (s : State) : (counted b s).views = s.views.map (fun v => { v with
    own := v.own.map fun o =>
      if o.lane = b.lane then
        if v.index ∈ b.marks then { o with waits := 0 }
        else if 0 < allowance s.boot.peerId v b.lane then { o with waits := min (o.waits + 1) 15 }
        else o
      else o }) := by
  refine List.map_congr_left fun v _ => ?_
  simp only [View.countWait, List.contains_iff_mem]
  rfl

theorem counted_backlog (b : Build) (s : State) (l : LaneNo) : (counted b s).backlogReading l = s.backlogReading l := by
  have hviews : (counted b s).views = s.views.map fun v => v.countWait s.boot.peerId b.lane (b.marks.contains v.index) := rfl
  have hnode : (counted b s).nodeLane l = s.nodeLane l := rfl
  have hpeer : (counted b s).boot.peerId = s.boot.peerId := rfl
  have hsum : (counted b s).backlog l = s.backlog l := by
    rw [State.backlog, counted_table, hviews, hnode, hpeer, List.filter_map, List.filter_map, List.map_map, List.map_map]
    simp only [Function.comp_def, allowance_countWait]
    rfl
  rw [State.backlogReading, hsum]
  rfl

theorem counted_releaseDue (b : Build) (s : State) (d : Nat × LaneNo) : d ∈ (counted b s).releaseDue ↔ d ∈ s.releaseDue ∨
    d.2 = b.lane ∧ ∃ v ∈ (counted b s).views, ∃ o, v.index = d.1 ∧ v.own? b.lane = some o ∧
      s.params.releaseWait ≤ o.waits ∧ o.sent = false ∧ 0 < allowance s.boot.peerId v b.lane := by
  have hdue : (counted b s).releaseDue = s.releaseDue ++ (((counted b s).views.filter fun v =>
      releaseReached s.params s.boot.peerId v b.lane).map fun v => (v.index, b.lane)).filter fun d => !s.releaseDue.contains d := rfl
  have hreached : ∀ v : View, releaseReached s.params s.boot.peerId v b.lane = true ↔ ∃ o, v.own? b.lane = some o ∧
      s.params.releaseWait ≤ o.waits ∧ o.sent = false ∧ 0 < allowance s.boot.peerId v b.lane := by
    intro v
    cases ho : v.own? b.lane <;> simp [releaseReached, ho, and_assoc]
  obtain ⟨i, k⟩ := d
  rw [hdue, List.mem_append, List.mem_filter, List.mem_map]
  simp only [List.mem_filter, hreached, Prod.mk.injEq, Bool.not_eq_true', ← Bool.not_eq_true, List.contains_iff_mem]
  constructor
  · rintro (h | ⟨⟨v, ⟨hv, o, ho⟩, hi, hk⟩, -⟩)
    · exact .inl h
    · exact .inr ⟨hk.symm, v, hv, o, hi, ho⟩
  · rintro (h | ⟨hk, v, hv, o, hi, ho⟩)
    · exact .inl h
    · by_cases hin : (i, k) ∈ s.releaseDue
      · exact .inl hin
      · exact .inr ⟨⟨v, ⟨hv, o, ho⟩, hi, hk.symm⟩, hin⟩

/-! ### The plan's turns -/

theorem mem_insertBy {α : Type} {key : α → Nat} {a x : α} {l : List α} : x ∈ insertBy key a l ↔ x = a ∨ x ∈ l := by
  induction l with
  | nil => simp [insertBy]
  | cons b bs ih =>
    unfold insertBy
    split
    · simp
    · rw [List.mem_cons, ih, List.mem_cons]
      tauto

theorem insertBy_perm {α : Type} (key : α → Nat) (a : α) (l : List α) : (insertBy key a l).Perm (a :: l) := by
  induction l with
  | nil => exact List.Perm.refl _
  | cons b bs ih =>
    unfold insertBy
    split
    · exact List.Perm.refl _
    · exact (ih.cons b).trans (List.Perm.swap a b bs)

theorem insertBy_sorted {α : Type} {key : α → Nat} {a : α} {l : List α} (h : l.Pairwise fun x y => key x ≤ key y) :
    (insertBy key a l).Pairwise fun x y => key x ≤ key y := by
  induction l with
  | nil => exact List.pairwise_singleton _ _
  | cons b bs ih =>
    obtain ⟨hb, hbs⟩ := List.pairwise_cons.mp h
    unfold insertBy
    split
    · next hlt =>
      refine List.pairwise_cons.mpr ⟨fun x hx => ?_, h⟩
      obtain rfl | hx := List.mem_cons.mp hx
      · exact Nat.le_of_lt hlt
      · exact (Nat.le_of_lt hlt).trans (hb x hx)
    · next hge =>
      refine List.pairwise_cons.mpr ⟨fun x hx => ?_, ih hbs⟩
      obtain rfl | hx := mem_insertBy.mp hx
      · exact Nat.le_of_not_lt hge
      · exact hb x hx

/-- The placed turns, in order of start slice. -/
theorem Build.turns_spec (b : Build) : b.turns.Perm b.placed ∧ b.turns.Pairwise fun x y => x.offset ≤ y.offset := by
  have hfold : ∀ (ts acc : List PlanTurn), (acc.Pairwise fun x y => x.offset ≤ y.offset) →
      (ts.foldl (fun acc t => insertBy PlanTurn.offset t acc) acc).Perm (acc ++ ts) ∧
        (ts.foldl (fun acc t => insertBy PlanTurn.offset t acc) acc).Pairwise fun x y => x.offset ≤ y.offset := by
    intro ts
    induction ts with
    | nil => exact fun acc h => ⟨by simp, h⟩
    | cons t ts ih =>
      intro acc h
      obtain ⟨hperm, hsorted⟩ := ih (insertBy PlanTurn.offset t acc) (insertBy_sorted h)
      refine ⟨hperm.trans ?_, hsorted⟩
      exact ((insertBy_perm _ t acc).append_right ts).trans List.perm_middle.symm
  exact hfold b.placed [] List.Pairwise.nil

/-! ### The whole completion -/

theorem goes_on {b : Build} {s : State} (h : s.endsRamp b = false) (hramp : s.laneState b.lane = .ramp) :
    satAdd 255 (s.lane b.lane).health.rampBuilds 1 < s.params.health.rampTimeout := by
  rw [State.endsRamp, hramp, beq_self_eq_true, Bool.true_and, decide_eq_false_iff_not] at h
  exact Nat.lt_of_not_le h

theorem completed_spec {b : Build} {s : State} (hends : s.endsRamp b = false) : ∃ health summary,
    (∀ k, (completed b s).lane k = if k = b.lane then { ((s.lane b.lane).completed s.params b).countJoin b.joinSet with health := health }
      else s.lane k) ∧
    (s.laneState b.lane = .dark → health = (s.lane b.lane).health ∧ summary = s.port.summary) ∧
    (s.laneState b.lane ≠ .dark → summary = s.summed b.lane ∧
      health = (s.lane b.lane).health.completedWith s.params.health (s.backlogReading b.lane)) ∧
    completed b s = { counted b s with
      builder := none, lanes := (completed b s).lanes, port := { s.port with summary := summary } } := by
  by_cases hdark : s.laneState b.lane = .dark
  · have hc : completed b s = { counted b s with builder := none } := by
      rw [completed, healthCompletion_dark ((counted_laneState b s b.lane).trans hdark)]
    refine ⟨(s.lane b.lane).health, s.port.summary, fun k => ?_, fun _ => ⟨rfl, rfl⟩, fun h => absurd hdark h, ?_⟩
    · rw [hc]
      refine (counted_lane b s k).trans ?_
      rw [completed_countJoin]
    · rw [hc]
      rfl
  · have hcd : (counted b s).laneState b.lane ≠ .dark := by rwa [counted_laneState]
    have hhealth : ((counted b s).lane b.lane).health = (s.lane b.lane).health := by
      rw [counted_lane, if_pos rfl, completed_countJoin]
    have hparams : (counted b s).params = s.params := rfl
    have hport : (counted b s).port = s.port := rfl
    have hsummed : (counted b s).summed b.lane = s.summed b.lane := by
      simp only [State.summed, hhealth, hparams, hport, counted_backlog]
    have hc := healthCompletion_eq hcd fun hramp => by
      rw [hhealth]
      exact goes_on hends ((counted_laneState b s b.lane).symm.trans hramp)
    rw [hsummed, hparams, counted_backlog] at hc
    refine ⟨_, s.summed b.lane, fun k => ?_, fun h => absurd h hdark, fun _ => ⟨rfl, rfl⟩, ?_⟩
    · show (healthCompletion b.lane (counted b s)).lane k = _
      rw [hc, modPort_lane, modHealth_lane, hhealth, counted_lane, if_pos rfl, counted_lane]
      split <;> rfl
    · rw [completed, hc]
      rfl

/-- A completion that ends no ramp fails none, late or not. -/
theorem completeBuild_goes_on {b : Build} {s : State} (hends : s.endsRamp b = false) : completeBuild b s = lapsed b s := by
  obtain ⟨health, summary, hlane, hdark, hlit, hframe⟩ := completed_spec hends
  have hparams : (completed b s).boot = s.boot := (congrArg State.boot hframe).trans rfl
  have hkeeps : ∀ flags, health.state = .ramp → ({ health with flags := flags } : Health).rampBuilds < s.params.health.rampTimeout := by
    intro flags hramp
    by_cases hd : s.laneState b.lane = .dark
    · rw [(hdark hd).1] at hramp
      exact absurd (hd.symm.trans hramp) (by decide)
    · rw [(hlit hd).2] at hramp ⊢
      have hstate : (s.lane b.lane).health.state = .ramp := hramp
      simp only [Health.completedWith, if_pos hstate]
      exact goes_on hends hstate
  have hl := hlane b.lane
  rw [if_pos rfl] at hl
  rw [completeBuild_eq]
  refine if_neg fun hfailed => ?_
  rw [rampFailed_iff, lapsed] at hfailed
  split at hfailed
  · obtain ⟨hlapse, hboot, -, -⟩ := lapsePlan_spec b.lane (completed b s)
    rw [State.params, hboot, hparams, hlapse, hl] at hfailed
    exact absurd hfailed.2 (Nat.not_le.mpr (hkeeps _ hfailed.1))
  · rw [State.params, hparams, hl] at hfailed
    exact absurd hfailed.2 (Nat.not_le.mpr (hkeeps health.flags hfailed.1))

/-- Settles O18: `completed_spec` gives the completion, `lapsePlan_lapses` the lapse of a late plan. -/
theorem completionQueuesPlan : Obligations.CompletionQueuesPlan := by
  intro b s hb hm hends
  obtain ⟨health, summary, hlane, hdark, hlit, hframe⟩ := completed_spec hends
  have hstep : exec .buildCompletion s = .next (lapsed b s) :=
    (buildCompletion_exec hb hm).trans (congrArg Host.Outcome.next (completeBuild_goes_on hends))
  have hl := hlane b.lane
  rw [if_pos rfl, completed_countJoin] at hl
  obtain ⟨hperm, hsorted⟩ := b.turns_spec
  have hout : ((completed b s).lane b.lane).outQueue = some (b.plan s.params.planLength ((s.lane b.lane).corrections.take 16)) := by
    rw [hl]
  have htable : (completed b s).table = _ := (congrArg State.table hframe).trans (counted_table b s)
  have hviews : (completed b s).views = (counted b s).views := (congrArg State.views hframe).trans rfl
  have hdue : (completed b s).releaseDue = (counted b s).releaseDue := (congrArg State.releaseDue hframe).trans rfl
  have hport : (completed b s).port = { s.port with summary := summary } := (congrArg State.port hframe).trans rfl
  refine ⟨completed b s, _, fun hontime => ?_, fun hlate => ?_, rfl, hout, rfl, rfl, rfl, rfl, rfl, rfl, rfl, hperm, hsorted, ?_, ?_,
    ?_, ?_, ?_, fun k hk => ?_, ?_, ?_, htable, hviews.trans (counted_views b s), fun d => ?_, ⟨fun hd => ?_, fun hd => ⟨?_, ?_⟩⟩,
    ?_, ?_⟩
  · rw [hstep, lapsed, hontime]
    rfl
  · obtain ⟨f, hf, -, hflag, hsummary, hlapsed, hrings, hothers, hchannels, hlframe, hfold⟩ := lapsePlan_lapses hout
    rw [lapsed, hlate, if_pos rfl] at hstep
    refine ⟨_, f, hstep, hf, ?_, hflag, hsummary, hlapsed, hrings, hothers, hchannels, hlframe⟩
    exact (congrArg State.builder hlframe).trans (hfold.shrinks.free rfl)
  · rw [hl]
  · rw [hl]
  · rw [hl]
  · rw [hl]
  · rw [hl]
  · rw [hlane, if_neg hk]
  · rw [hl]
  · rw [hl]
  · rw [hdue, hviews]
    exact counted_releaseDue b s d
  · obtain ⟨hh, hs⟩ := hdark hd
    rw [hl, hport, hs]
    exact ⟨hh, rfl⟩
  · rw [hl]
    exact (hlit hd).2
  · rw [hport, (hlit hd).1]
    exact State.summed_iff
  · rw [hport]
  · rw [hframe]
    rfl

end Sys2Proof.Machine
end

section
/-! PROOF. The plan output port and takes (O19). -/

namespace Sys2Proof.Machine

/-! ### The words of a plan -/

/-- A field of a word stands above the fields behind it. -/
theorem packWord_field (before after : List (Nat × Nat)) (width value : Nat)
    (h : ((before ++ (width, value) :: after).map (·.1)).sum = 64) :
    (packWord (before ++ (width, value) :: after)).toNat / 2 ^ (after.map (·.1)).sum % 2 ^ width = value % 2 ^ width := by
  have hbits : (fieldBits (before ++ (width, value) :: after)).length = 64 := (length_fieldBits _).trans h
  have hword : (packWord (before ++ (width, value) :: after)).toNat = natOfBits (fieldBits (before ++ (width, value) :: after)) := by
    have hlt := natOfBits_lt (fieldBits (before ++ (width, value) :: after))
    rw [hbits] at hlt
    exact Nat.mod_eq_of_lt hlt
  have hcons : fieldBits ((width, value) :: after) = bitsOf width value ++ fieldBits after := rfl
  have hafter : (fieldBits after).length = (after.map (·.1)).sum := length_fieldBits after
  have hlt := natOfBits_lt (fieldBits after)
  rw [hword, fieldBits_append, hcons, natOfBits_append, natOfBits_append, List.length_append, length_bitsOf, natOfBits_bitsOf, hafter]
  rw [hafter] at hlt
  generalize natOfBits (fieldBits before) = x, natOfBits (fieldBits after) = y, (after.map (·.1)).sum = n at hlt ⊢
  have hsplit : x * 2 ^ (width + n) + (value % 2 ^ width * 2 ^ n + y) = (x * 2 ^ width + value % 2 ^ width) * 2 ^ n + y := by ring
  rw [hsplit, Nat.add_comm _ y, Nat.add_mul_div_right _ _ (Nat.two_pow_pos n), Nat.div_eq_of_lt hlt, Nat.zero_add, Nat.add_comm,
    Nat.add_mul_mod_self_right, Nat.mod_mod]

theorem planPortWord_none {s : State} (h : s.offered = none) (i : Nat) : s.planPortWord i = 0 := by
  simp only [State.planPortWord, h]

theorem planPortWord_some {s : State} {l : LaneNo} {p : Plan} (hl : s.offered = some l) (hp : (s.lane l).outQueue = some p) (i : Nat) :
    s.planPortWord i = ((p.words s.boot.peerId l)[i]?).getD 0 := by
  simp only [State.planPortWord, hl, hp]

theorem offered_spec {s : State} {l : LaneNo} (h : s.offered = some l) : ∀ k, (s.lane k).outQueue.isSome = true →
    s.ticksToMargin l ≤ s.ticksToMargin k ∧ (s.ticksToMargin l = s.ticksToMargin k → l ≤ k) := by
  obtain ⟨-, hk⟩ := leastBy_lanes (pairwise_lt_lanes _) h
  exact fun k hq => hk k (List.mem_filter.mpr ⟨mem_allLanes k, hq⟩)

theorem words_correction {self : PeerNo} {l : LaneNo} {p : Plan} {i : Nat} {c : Correction} (h : p.corrections[i]? = some c) :
    (p.words self l)[2 + i]? = some c.word := by
  have hi : i < p.corrections.length := (List.getElem?_eq_some_iff.mp h).1
  rw [Plan.words, List.append_assoc, List.getElem?_append_right (by simp), List.getElem?_append_left (by simp; omega),
    List.getElem?_map]
  simp [h]

theorem words_turn {self : PeerNo} {l : LaneNo} {p : Plan} {i : Nat} {w : PlanTurn} (h : p.turns[i]? = some w) :
    (p.words self l)[2 + p.corrections.length + i]? = some w.word := by
  have hindex : 2 + p.corrections.length + i - (p.corrections.length + 2) = i := by omega
  rw [Plan.words, List.getElem?_append_right (by simp; omega), List.getElem?_map]
  simp [hindex, h]

theorem length_words (self : PeerNo) (l : LaneNo) (p : Plan) :
    (p.words self l).length = 2 + p.corrections.length + p.turns.length := by
  simp [Plan.words]
  omega

/-! ### The end of one round -/

/-- What the end of the round of `c` makes of a channel. -/
def roundEnd (s : State) (c x : Channel) : Option Channel :=
  if x.number = c.number then
    if c.endAction = .stop then none else some (x.reloaded (s.horizon c.lane))
  else if c.endAction = .stop ∧ (s.successor c).map (·.number) = some x.number then
    some { x with state := .running, nextDue := some (takeoverDue s c x) }
  else some x

/-- Channels that stand in number order. -/
def State.Numbered (s : State) : Prop := s.channels.Pairwise fun a b => a.number < b.number

theorem State.Numbered.eq {s : State} (h : s.Numbered) {c d : Channel} (hc : c ∈ s.channels) (hd : d ∈ s.channels)
    (hcd : c.number = d.number) : c = d := by
  have hnodup : (s.channels.map Channel.number).Nodup := List.pairwise_map.mpr (h.imp fun hlt => Nat.ne_of_lt hlt)
  exact List.inj_on_of_nodup_map hnodup hc hd hcd

theorem State.Numbered.channel? {s : State} (h : s.Numbered) {c : Channel} (hc : c ∈ s.channels) : s.channel? c.number = some c := by
  have hsome : (s.channels.find? fun d => d.number == c.number).isSome = true := List.find?_isSome.mpr ⟨c, hc, by simp⟩
  obtain ⟨d, hd⟩ := Option.isSome_iff_exists.mp hsome
  have hnumber : d.number = c.number := by simpa using List.find?_some hd
  rw [State.channel?, hd, h.eq (List.mem_of_find?_eq_some hd) hc hnumber]

theorem find?_filter_of {α : Type} {p q : α → Bool} {l : List α} (h : ∀ x ∈ l, q x = true → p x = true) :
    (l.filter p).find? q = l.find? q := by
  rw [List.find?_filter]
  refine List.find?_congr fun x hx => ?_
  cases hq : q x with
  | false => simp
  | true => simp [h x hx hq]

theorem successor_spec {s : State} {c d : Channel} (h : s.successor c = some d) :
    d ∈ s.channels ∧ d.state = .standby ∧ d.tag = c.tag ∧ d.lane = c.lane := by
  have hfound := List.find?_some h
  simp only [Bool.and_eq_true, beq_iff_eq] at hfound
  exact ⟨List.mem_of_find?_eq_some h, hfound.1.1, hfound.1.2, hfound.2⟩

/-- The lanes and the builder, which the horizons are read from, stay at the end of a round. -/
theorem endRound_frame (c : Channel) (s : State) : endRound c s = { s with
    channels := (endRound c s).channels, port := s.port.after [.cadenceEnded c.number c.tag .count] } := by
  unfold endRound
  split
  · rw [endChannel_eq]
    have hended := channelEnded_eq { c with finalMark := none } .count s
    obtain ⟨hnone, hsome⟩ := handover_eq { c with finalMark := none } (channelEnded { c with finalMark := none } .count s)
    split
    · cases hd : (channelEnded { c with finalMark := none } .count s).successor { c with finalMark := none } with
      | none => rw [hnone hd, hended]
      | some d =>
        rw [hsome d hd, hended]
        rfl
    · rw [hended]
  · rw [queueStatus_after]
    rfl

/-- The channels at the end of a round. -/
theorem endRound_channels {c : Channel} {s : State} (hnumbers : s.Numbered) (hc : c ∈ s.channels) (hdraining : c.state = .draining) :
    (endRound c s).channels = s.channels.filterMap (roundEnd s c) := by
  have hlive : c.live = true := by simp [Channel.live, hdraining]
  cases hact : c.endAction with
  | reload =>
    have hend : endRound c s = modChannel c.number (Channel.reloaded (s.horizon c.lane))
        (queueStatus (.cadenceEnded c.number c.tag .count) s) := by simp only [endRound, hact]
    rw [hend, queueStatus_after, modChannel, ← List.filterMap_eq_map]
    refine List.filterMap_congr fun x _ => ?_
    by_cases hx : x.number = c.number <;> simp [roundEnd, hact, hx]
  | stop =>
    have hend : endRound c s = handover { c with finalMark := none } (channelEnded { c with finalMark := none } .count s) := by
      simp only [endRound, hact, endChannel_eq]
      exact if_pos hlive
    have hended := channelEnded_eq { c with finalMark := none } .count s
    have hkept : (channelEnded { c with finalMark := none } .count s).successor { c with finalMark := none } = s.successor c := by
      rw [State.successor, hended]
      refine find?_filter_of fun x hx hq => ?_
      simp only [Bool.and_eq_true, beq_iff_eq] at hq
      rw [bne_iff_ne]
      intro hnumber
      rw [hnumbers.eq hx hc hnumber, hdraining] at hq
      exact absurd hq.1.1 (by decide)
    obtain ⟨hnone, hsome⟩ := handover_eq { c with finalMark := none } (channelEnded { c with finalMark := none } .count s)
    rw [hkept] at hnone hsome
    rw [hend]
    cases hd : s.successor c with
    | none =>
      rw [hnone hd, hended, ← List.filterMap_eq_filter]
      refine List.filterMap_congr fun x _ => ?_
      by_cases hx : x.number = c.number <;> simp [roundEnd, hact, hx, hd, Option.guard]
    | some d =>
      have hdue : ∀ x, takeoverDue (channelEnded { c with finalMark := none } .count s) { c with finalMark := none } x =
          takeoverDue s c x := fun x => by
        rw [hended]
        rfl
      rw [hsome d hd]
      simp only [modChannel, hdue]
      rw [hended, ← List.filterMap_eq_filter, List.map_filterMap]
      refine List.filterMap_congr fun x _ => ?_
      by_cases hx : x.number = c.number
      · simp [roundEnd, hact, hx, Option.guard]
      · by_cases hxd : x.number = d.number
        · have hdc : ¬d.number = c.number := hxd ▸ hx
          simp [roundEnd, hact, hd, Option.guard, hxd, hdc]
        · have hdx : ¬d.number = x.number := fun h => hxd h.symm
          simp [roundEnd, hact, hx, hd, Option.guard, hxd, hdx]

/-! ### The rounds that a plan ends -/

theorem roundEnd_same {s : State} {c x y : Channel} (h : roundEnd s c x = some y) :
    y.number = x.number ∧ y.tag = x.tag ∧ y.lane = x.lane := by
  have hreloaded : ∀ g, (x.reloaded g).number = x.number ∧ (x.reloaded g).tag = x.tag ∧ (x.reloaded g).lane = x.lane := by
    intro g
    unfold Channel.reloaded
    split <;> exact ⟨rfl, rfl, rfl⟩
  unfold roundEnd at h
  split_ifs at h
  all_goals
    obtain rfl := Option.some.inj h
  · exact hreloaded _
  · exact ⟨rfl, rfl, rfl⟩
  · exact ⟨rfl, rfl, rfl⟩

/-- A channel that neither ends its round nor takes over stays. -/
theorem roundEnd_stays {s : State} {c x : Channel} (hc : x.number ≠ c.number)
    (hd : ∀ d, s.successor c = some d → d.number ≠ x.number) : roundEnd s c x = some x := by
  unfold roundEnd
  rw [if_neg hc, if_neg]
  rintro ⟨-, h⟩
  obtain ⟨d, hs, hn⟩ := Option.map_eq_some_iff.mp h
  exact hd d hs hn

theorem endRound_numbered {c : Channel} {s : State} (hnumbers : s.Numbered) (hc : c ∈ s.channels) (hdraining : c.state = .draining) :
    (endRound c s).Numbered := by
  rw [State.Numbered, endRound_channels hnumbers hc hdraining]
  refine List.Pairwise.filterMap (roundEnd s c) (fun x y hlt x' hx' y' hy' => ?_) hnumbers
  rw [(roundEnd_same hx').1, (roundEnd_same hy').1]
  exact hlt

/-- Each number's channel at the end of a round. -/
theorem endRound_channel? {c x : Channel} {s : State} (hnumbers : s.Numbered) (hc : c ∈ s.channels) (hdraining : c.state = .draining)
    (hx : x ∈ s.channels) : (endRound c s).channel? x.number = roundEnd s c x := by
  have hafter := endRound_numbered hnumbers hc hdraining
  cases hr : roundEnd s c x with
  | some y =>
    have hy : y ∈ (endRound c s).channels := by
      rw [endRound_channels hnumbers hc hdraining]
      exact List.mem_filterMap.mpr ⟨x, hx, hr⟩
    rw [← (roundEnd_same hr).1]
    exact hafter.channel? hy
  | none =>
    refine List.find?_eq_none.mpr fun y hy hnumber => ?_
    rw [endRound_channels hnumbers hc hdraining] at hy
    obtain ⟨z, hz, hzy⟩ := List.mem_filterMap.mp hy
    have hzx : z.number = x.number := by
      rw [← (roundEnd_same hzy).1]
      simpa using hnumber
    rw [hnumbers.eq hz hx hzx, hr] at hzy
    cases hzy

theorem endRound_channel?_none {c : Channel} {k : Nat} {s : State} (hnumbers : s.Numbered) (hc : c ∈ s.channels)
    (hdraining : c.state = .draining) (hk : s.channel? k = none) : (endRound c s).channel? k = none := by
  refine List.find?_eq_none.mpr fun y hy hnumber => ?_
  rw [endRound_channels hnumbers hc hdraining] at hy
  obtain ⟨z, hz, hzy⟩ := List.mem_filterMap.mp hy
  refine List.find?_eq_none.mp hk z hz ?_
  rw [← (roundEnd_same hzy).1]
  exact hnumber

/-- A change of the channels of other tags leaves the successor of a channel. -/
theorem successor_filterMap {s t : State} {e : Channel} {f : Channel → Option Channel}
    (hsame : ∀ x ∈ s.channels, x.tag = e.tag → f x = some x) (htag : ∀ x y, f x = some y → y.tag = x.tag)
    (ht : t.channels = s.channels.filterMap f) : t.successor e = s.successor e := by
  have hseen : ∀ x ∈ s.channels, (f x).any (fun d => d.state == .standby && d.tag == e.tag && d.lane == e.lane) =
      (x.state == .standby && x.tag == e.tag && x.lane == e.lane) := by
    intro x hx
    by_cases hxe : x.tag = e.tag
    · rw [hsame x hx hxe]
      rfl
    · cases hfx : f x with
      | none => simp [hxe]
      | some y =>
        have hye : y.tag ≠ e.tag := by rwa [htag x y hfx]
        have hx' : (x.tag == e.tag) = false := beq_eq_false_iff_ne.mpr hxe
        have hy' : (y.tag == e.tag) = false := beq_eq_false_iff_ne.mpr hye
        rw [Option.any_some, hx', hy', Bool.and_false, Bool.and_false, Bool.false_and, Bool.false_and]
  rw [State.successor, ht, List.find?_filterMap, List.find?_congr hseen, ← State.successor]
  cases hd : s.successor e with
  | none => rfl
  | some d =>
    obtain ⟨hds, -, hdt, -⟩ := successor_spec hd
    exact hsame d hds hdt

/-- Channels that may end their rounds one after another: each DRAINING and held, of different tags. -/
structure RoundsEnd (ends : List Channel) (s : State) : Prop where
  numbered : s.Numbered
  held : ∀ c ∈ ends, c ∈ s.channels ∧ c.state = .draining
  tags : ends.Pairwise fun c e => c.tag ≠ e.tag

/-- The end of one round leaves the others as they are. -/
theorem RoundsEnd.next {c : Channel} {ends : List Channel} {s : State} (h : RoundsEnd (c :: ends) s) :
    RoundsEnd ends (endRound c s) ∧ (∀ e ∈ ends, (endRound c s).successor e = s.successor e) ∧
      ∀ e ∈ ends, e.number ≠ c.number ∧ (∀ d, s.successor c = some d → d.number ≠ e.number) ∧
        ∀ d, s.successor e = some d → d.number ≠ c.number ∧ ∀ d', s.successor c = some d' → d'.number ≠ d.number := by
  obtain ⟨hnumbered, hheld, htags⟩ := h
  obtain ⟨htag, htags⟩ := List.pairwise_cons.mp htags
  obtain ⟨hc, hdraining⟩ := hheld c (by simp)
  have hapart : ∀ e ∈ ends, e.number ≠ c.number := fun e he hn =>
    htag e he (by rw [hnumbered.eq (hheld e (by simp [he])).1 hc hn])
  have hstandby : ∀ e ∈ c :: ends, ∀ f d, s.successor f = some d → d.number ≠ e.number := fun e he f d hd hn => by
    obtain ⟨hds, hstate, -⟩ := successor_spec hd
    obtain ⟨hes, hed⟩ := hheld e he
    rw [hnumbered.eq hds hes hn, hed] at hstate
    cases hstate
  have hstays : ∀ x ∈ s.channels, x.tag ≠ c.tag → roundEnd s c x = some x := fun x hx hne =>
    roundEnd_stays (fun hn => hne (by rw [hnumbered.eq hx hc hn])) fun d hd hn => by
      obtain ⟨hds, -, hdt, -⟩ := successor_spec hd
      exact hne (by rw [← hnumbered.eq hds hx hn, hdt])
  refine ⟨⟨endRound_numbered hnumbered hc hdraining, fun e he => ⟨?_, (hheld e (by simp [he])).2⟩, htags⟩, fun e he => ?_,
    fun e he => ⟨hapart e he, hstandby e (by simp [he]) c, fun d hd => ⟨hstandby c (by simp) e d hd, fun d' hd' hn => ?_⟩⟩⟩
  · rw [endRound_channels hnumbered hc hdraining]
    exact List.mem_filterMap.mpr ⟨e, (hheld e (by simp [he])).1, hstays e (hheld e (by simp [he])).1 (htag e he).symm⟩
  · exact successor_filterMap (fun x hx ht => hstays x hx (ht ▸ (htag e he).symm)) (fun x y hy => (roundEnd_same hy).2.1)
      (endRound_channels hnumbered hc hdraining)
  · obtain ⟨hds, -, hdt, -⟩ := successor_spec hd
    obtain ⟨hds', -, hdt', -⟩ := successor_spec hd'
    exact htag e he (by rw [← hdt', hnumbered.eq hds' hds hn, hdt])

/-- The rounds of several channels. -/
theorem endRounds_spec (ends : List Channel) : ∀ s : State, RoundsEnd ends s →
    (∀ c ∈ ends, c.endAction = .stop → (ends.foldl (fun s c => endRound c s) s).channel? c.number = none ∧
      ∀ d, s.successor c = some d → (ends.foldl (fun s c => endRound c s) s).channel? d.number =
        some { d with state := .running, nextDue := some (takeoverDue s c d) }) ∧
    (∀ c ∈ ends, c.endAction = .reload →
      (ends.foldl (fun s c => endRound c s) s).channel? c.number = some (c.reloaded (s.horizon c.lane))) ∧
    ∀ k, (∀ c ∈ ends, c.number ≠ k ∧ (c.endAction = .stop → ∀ d, s.successor c = some d → d.number ≠ k)) →
      (ends.foldl (fun s c => endRound c s) s).channel? k = s.channel? k := by
  induction ends with
  | nil => exact fun s _ => ⟨by simp, by simp, fun _ _ => rfl⟩
  | cons c ends ih =>
    intro s h
    obtain ⟨hrest, hsuccessors, hapart⟩ := h.next
    obtain ⟨hstops, hreloads, hothers⟩ := ih (endRound c s) hrest
    obtain ⟨hc, hdraining⟩ := h.held c (by simp)
    have hat : ∀ x ∈ s.channels, (endRound c s).channel? x.number = roundEnd s c x := fun x hx =>
      endRound_channel? h.numbered hc hdraining hx
    have hframe := endRound_frame c s
    have hhorizon : ∀ l, (endRound c s).horizon l = s.horizon l := fun l => by rw [hframe]; rfl
    have htakeover : ∀ x y, takeoverDue (endRound c s) x y = takeoverDue s x y := fun x y => by rw [hframe]; rfl
    simp only [hhorizon, htakeover] at hstops hreloads
    simp only [List.foldl_cons]
    -- the rest leaves the channel that ended first
    have hfirst : (ends.foldl (fun s c => endRound c s) (endRound c s)).channel? c.number = roundEnd s c c := by
      rw [hothers c.number fun e he => ⟨(hapart e he).1, fun _ d hd => ?_⟩, hat c hc]
      rw [hsuccessors e he] at hd
      exact ((hapart e he).2.2 d hd).1
    refine ⟨fun e he hstop => ?_, fun e he hreload => ?_, fun k hk => ?_⟩
    · obtain rfl | he := List.mem_cons.mp he
      · refine ⟨?_, fun d hd => ?_⟩
        · rw [hfirst, roundEnd, if_pos rfl, if_pos hstop]
        · have hds := (successor_spec hd).1
          have hne : d.number ≠ e.number := fun hn => by
            have hstandby := (successor_spec hd).2.1
            rw [h.numbered.eq hds hc hn, hdraining] at hstandby
            cases hstandby
          rw [hothers d.number fun e' he' => ⟨fun hn => (hapart e' he').2.1 d hd hn.symm, fun _ d' hd' hn => ?_⟩, hat d hds, roundEnd,
            if_neg hne, if_pos ⟨hstop, by rw [hd]; rfl⟩]
          rw [hsuccessors e' he'] at hd'
          exact ((hapart e' he').2.2 d' hd').2 d hd hn.symm
      · obtain ⟨hgone, hnext⟩ := hstops e he hstop
        exact ⟨hgone, fun d hd => hnext d ((hsuccessors e he).trans hd)⟩
    · obtain rfl | he := List.mem_cons.mp he
      · rw [hfirst, roundEnd, if_pos rfl, if_neg (by simp [hreload])]
      · exact hreloads e he hreload
    · have hkc := hk c (by simp)
      rw [hothers k fun e he => ⟨(hk e (by simp [he])).1, fun hstop d hd => (hk e (by simp [he])).2 hstop d
        ((hsuccessors e he).symm.trans hd)⟩]
      cases hx : s.channel? k with
      | none => exact endRound_channel?_none h.numbered hc hdraining hx
      | some x =>
        have hxs := List.mem_of_find?_eq_some hx
        have hxk : x.number = k := by simpa using List.find?_some hx
        subst hxk
        rw [hat x hxs, roundEnd, if_neg (Ne.symm hkc.1), if_neg]
        rintro ⟨hstop, hn⟩
        obtain ⟨d, hd, hdn⟩ := Option.map_eq_some_iff.mp hn
        exact hkc.2 hstop d hd hdn

/-! ### The take -/

theorem takeStep_some {s : State} {l : LaneNo} {p : Plan} (hl : s.offered = some l) (hp : (s.lane l).outQueue = some p) :
    takeStep s = (s.channels.filter fun c => c.finalIn l p.planNo).foldl (fun s c => endRound c s)
      (modLane l (fun L => { L with outQueue := none }) s) := by
  simp only [takeStep, hl, takePlan, hp]
  rfl

theorem takeStep_none {s : State} (hl : s.offered = none) : takeStep s = s := by
  simp only [takeStep, hl]

theorem endRounds_frame (ends : List Channel) : ∀ s : State, ends.foldl (fun s c => endRound c s) s = { s with
    channels := (ends.foldl (fun s c => endRound c s) s).channels,
    port := s.port.after (ends.map fun c => .cadenceEnded c.number c.tag .count) } := by
  induction ends with
  | nil => simp
  | cons c ends ih =>
    intro s
    rw [List.foldl_cons, ih, List.map_cons, ← List.singleton_append, OrderPort.after_append, endRound_frame c s]

theorem finalIn_eq (l : LaneNo) (pn : PlanNo) (c : Channel) : c.finalIn l pn =
    (c.state == .draining && c.lane == l && c.finalMark.any fun m => m.planNo == pn) := by
  rw [Channel.finalIn]
  cases c.finalMark <;> simp

/-- The channels whose rounds a plan ends. -/
theorem roundsEnd_of_channelsOk {s : State} {l : LaneNo} {pn : PlanNo} (h : s.channelsOk = true) :
    RoundsEnd (s.channels.filter fun c => c.finalIn l pn) s := by
  simp only [State.channelsOk, Bool.and_eq_true, decide_eq_true_eq] at h
  obtain ⟨⟨⟨hnumbers, hsingle⟩, -⟩, -⟩ := h
  have hfinal : ∀ c ∈ s.channels.filter (fun c => c.finalIn l pn), c ∈ s.channels ∧ c.state = .draining ∧ c.lane = l := by
    intro c hc
    obtain ⟨hmem, hf⟩ := List.mem_filter.mp hc
    rw [finalIn_eq] at hf
    simp only [Bool.and_eq_true, beq_iff_eq] at hf
    exact ⟨hmem, hf.1.1, hf.1.2⟩
  refine ⟨hnumbers, fun c hc => ⟨(hfinal c hc).1, (hfinal c hc).2.1⟩, ?_⟩
  refine (hsingle.sublist List.filter_sublist).imp_of_mem fun {c e} hc he hno htag => hno ?_
  obtain ⟨-, hcd, hcl⟩ := hfinal c hc
  obtain ⟨-, hed, hel⟩ := hfinal e he
  simp [Channel.live, Channel.bound, hcd, hed, hcl, hel, htag]

/-- The horizons stay as a plan is taken. -/
theorem outQueue_horizon (l k : LaneNo) (s : State) :
    (modLane l (fun L => { L with outQueue := none }) s).horizon k = s.horizon k := by
  have hnext : ((modLane l (fun L => { L with outQueue := none }) s).lane k).nextPlanStart = (s.lane k).nextPlanStart := by
    rw [modLane_lane]
    split
    · next h => rw [h]
    · rfl
  have hbegun : (modLane l (fun L => { L with outQueue := none }) s).begunStep1 k = s.begunStep1 k := rfl
  unfold State.horizon
  rw [hnext, hbegun]
  rfl

/-- Settles O19: the words from `packWord_field`, the offer from `offered_spec`, the rounds from `endRounds_spec`. -/
theorem takeRemovesOfferedPlan : Obligations.TakeRemovesOfferedPlan := by
  refine ⟨packWord_field, fun s i => ⟨fun h => planPortWord_none h i, fun l p hl hp => ?_⟩, fun s => ⟨fun h =>
    congrArg Host.Outcome.next (takeStep_none h), fun l p hl hp => ?_⟩⟩
  · refine ⟨planPortWord_some hl hp 0, planPortWord_some hl hp 1, fun c hc => ?_, fun w hw => ?_, fun hi => ?_⟩
    · rw [planPortWord_some hl hp, words_correction hc]
      rfl
    · rw [planPortWord_some hl hp, words_turn hw]
      rfl
    · rw [planPortWord_some hl hp, List.getElem?_eq_none (by rw [length_words]; exact hi)]
      rfl
  · have hstep : exec .take s = .next _ := congrArg Host.Outcome.next (takeStep_some hl hp)
    refine ⟨offered_spec hl, fun hnone => ?_, ?_⟩
    · have hempty : (s.channels.filter fun c => c.finalIn l p.planNo) = [] :=
        List.filter_eq_nil_iff.mpr fun c hc => by simp [hnone c hc]
      rw [hstep, hempty]
      rfl
    · intro ends said next
      have hends : (s.channels.filter fun c => c.finalIn l p.planNo) = ends := List.filter_congr fun c _ => finalIn_eq l p.planNo c
      have hlanes := endRounds_frame ends (modLane l (fun L => { L with outQueue := none }) s)
      rw [hends] at hstep
      have hhorizon := fun k => outQueue_horizon l k s
      have hlane : ∀ k, (ends.foldl (fun s c => endRound c s) (modLane l (fun L => { L with outQueue := none }) s)).lane k =
          (modLane l (fun L => { L with outQueue := none }) s).lane k := fun k => by
        rw [hlanes]
        rfl
      have hsuccessor : ∀ c, (modLane l (fun L => { L with outQueue := none }) s).successor c = s.successor c := fun _ => rfl
      have htakeover : ∀ c d, takeoverDue (modLane l (fun L => { L with outQueue := none }) s) c d = takeoverDue s c d := fun c d => by
        simp only [takeoverDue, hhorizon]
      refine ⟨_, hstep, ?_, fun k hk => ?_, ?_, fun hok => ?_, ?_⟩
      · rw [hlane, modLane_lane, if_pos rfl]
      · rw [hlane, modLane_lane, if_neg hk]
      · rw [hlanes]
        rfl
      · have hrounds := roundsEnd_of_channelsOk (l := l) (pn := p.planNo) hok
        rw [hends] at hrounds
        obtain ⟨hstops, hreloads, hothers⟩ := endRounds_spec ends (modLane l (fun L => { L with outQueue := none }) s)
          ⟨hrounds.numbered, hrounds.held, hrounds.tags⟩
        simp only [hhorizon, hsuccessor, htakeover] at hstops hreloads hothers
        refine ⟨hstops, fun c hc hreload m hm => ?_, hothers⟩
        have hcl : c.lane = l := by
          have hf := (List.mem_filter.mp hc).2
          simp only [Bool.and_eq_true, beq_iff_eq] at hf
          exact hf.1.2
        obtain ⟨hdark, hfirst⟩ := firstDueFrom_spec (s.horizon l) (sliceAdd m.due c.period) c.period
        refine ⟨firstDueFrom (s.horizon l) (sliceAdd m.due c.period) c.period, ?_, hdark, fun h hh j hj hnot hbefore => ?_⟩
        · rw [hreloads c hc hreload]
          simp only [Channel.reloaded, hm, hcl]
        · have hform : ∀ i, sliceAdd (sliceAdd m.due c.period) (i * c.period) = sliceAdd m.due ((i + 1) * c.period) := fun i => by
            rw [sliceAdd_sliceAdd, Nat.add_mul, Nat.one_mul, Nat.add_comm]
          rw [← hform]
          exact hfirst h hh j hj (by rw [hform]; exact hnot) fun i hi => by rw [hform]; exact hbefore i hi
      · rw [hlanes]
        rfl

end Sys2Proof.Machine
end

section
/-! PROOF. Visits of the data step (O17). -/

namespace Sys2Proof.Machine

/-! ### The visit -/

/-- The builder is in the data step. -/
def inDataStep (b : Build) (s : State) : State := { s with builder := some { b with step := 6 } }

theorem drrVisit_exec {b : Build} {d : DataStep} {s : State} (hb : s.builder = some b) (hm : s.mayEnter b 6 = true)
    (hd : s.nextVisit b = some d) : exec .drrVisit s = .next (visitFill b d (inDataStep b s)) := by
  refine congrArg Host.Outcome.next ?_
  rw [drrVisitStep, fillStep_eq _ hb hm (by simp [State.hasWork, hd])]
  show (match s.nextVisit b with | some d => visitFill b d _ | none => _) = _
  rw [hd]
  rfl

theorem ring_of_class {s : State} {l : LaneNo} {cls : Nat} {i : Fin 6} (h : cls = i.val + 1) : s.ring l cls = (s.lane l).ring i := by
  rw [h, State.ring_index]

theorem ringIndex_class {cls : Nat} {i : Fin 6} (h : cls = i.val + 1) : ringIndex cls = some i := by
  have hbounds : 1 ≤ cls ∧ cls ≤ 6 := by omega
  rw [ringIndex, dif_pos hbounds]
  simp [h]

/-- The visit is that of the stream at the head of the ring. -/
theorem visitFill_head {b : Build} {d : DataStep} {i : Fin 6} {e : Stream} {rest : List Nat} {s : State} (hi : d.cls = i.val + 1)
    (hring : (s.lane b.lane).ring i = e.entry :: rest) (he : s.entry? e.entry = some e) : visitFill b d s =
      if s.eligible e b.lane then serveVisit b d e s else noteVisit d (d.visits + 1) (rotate b.lane d.cls e.entry s) := by
  have hhead : (s.ring b.lane d.cls).head? = some e.entry := by rw [ring_of_class hi, hring]; rfl
  simp only [visitFill, hhead, he]

theorem rotate_spec {l : LaneNo} {cls n : Nat} {i : Fin 6} {s : State} (hi : cls = i.val + 1) :
    (∀ k j, ((rotate l cls n s).lane k).ring j =
      if k = l ∧ j = i then ((s.lane l).ring i).filter (fun m => m != n) ++ [n] else (s.lane k).ring j) ∧
    (∀ k, (rotate l cls n s).lane k = { s.lane k with rings := ((rotate l cls n s).lane k).rings }) ∧
    (∀ k, k ≠ l → (rotate l cls n s).lane k = s.lane k) ∧
    rotate l cls n s = { s with lanes := (rotate l cls n s).lanes } := by
  have hr : rotate l cls n s = setRing l i (((s.lane l).ring i).filter (fun m => m != n) ++ [n]) s := by
    simp only [rotate, ringIndex_class hi]
  rw [hr]
  refine ⟨fun k j => ?_, fun k => ?_, fun k hk => ?_, rfl⟩
  · rw [setRing, modLane_lane]
    by_cases hk : k = l
    · subst hk
      by_cases hj : j = i
      · subst hj
        simp [Lane.ring]
      · have hval : ¬i.val = j.val := fun h => hj (Fin.ext h.symm)
        simp [Lane.ring, hj, hval]
    · simp [hk]
  · rw [setRing, modLane_lane]
    split
    · next h => rw [h]
    · rfl
  · rw [setRing, modLane_lane, if_neg hk]

/-! ### An eligible stream -/

/-- The state once the stream has taken its quantum. -/
def quantumTaken (b : Build) (e : Stream) (s : State) : State :=
  modEntry e.entry (fun x => { x with deficit := x.withQuantum }) (inDataStep b s)

/-- The place found for the stream's DATA turn. -/
def dataFound (b : Build) (e : Stream) (available : Nat) (s : State) : Option (Nat × Nat × Nat) :=
  if mayPlace (min e.withQuantum available) ((s.lane b.lane).table.fragment (e.profile b.lane)) available then
    dataPlace (s.lane b.lane).table (e.profile b.lane) (min e.withQuantum available)
      (b.gaps.filterMap (Gap.after (searchFrom b e)))
  else none

/-- The DATA turn of a stream. -/
def dataTurn (b : Build) (e : Stream) (off len payload : Nat) : PlanTurn :=
  { tag := e.tag, kind := .data, offset := off, length := len, profile := e.profile b.lane, payload := payload }

theorem serveVisit_none {b : Build} {d : DataStep} {e : Stream} {s : State} (h : dataFound b e (s.available e b.lane) s = none) :
    serveVisit b d e (inDataStep b s) = noteVisit d (d.visits + 1) (rotate b.lane d.cls e.entry (quantumTaken b e s)) := by
  show (match dataFound b e (s.available e b.lane) s with | some (_, _, _) => _ | none => _) = _
  rw [h]
  rfl

theorem serveVisit_some {b : Build} {d : DataStep} {e : Stream} {off len payload : Nat} {s : State}
    (h : dataFound b e (s.available e b.lane) s = some (off, len, payload)) : serveVisit b d e (inDataStep b s) =
      noteVisit d 0 (dataPlaced b d.cls e len payload (sliceAdd (sliceAdd b.start off) len)
        (placeTurn b e.entry (dataTurn b e off len payload) none false (quantumTaken b e s))) := by
  show (match dataFound b e (s.available e b.lane) s with | some (_, _, _) => _ | none => _) = _
  rw [h]
  rfl

/-- The record of a stream whose DATA turn is placed. -/
def Stream.dataServed (p : Params) (b : Build) (off len payload : Nat) (e : Stream) : Stream := { e with
  deficit := e.withQuantum - payload,
  demand := if e.isSpread then e.demand else e.demand - payload,
  turns := e.turns ++ [b.turnOf (dataTurn b e off len payload) none],
  hold := if p.longTurn ≤ len ∧ 0 < p.holdGap then
      e.hold.set b.lane.val (some (sliceAdd (sliceAdd (sliceAdd b.start off) len) p.holdGap))
    else e.hold }

/-- The state as its turn is placed, before any claim and before the rings follow. -/
def dataServed (b : Build) (cls : Nat) (e : Stream) (off len payload : Nat) (s : State) : State :=
  modEntry e.entry (fun x => holdSet s.params b.lane len (sliceAdd (sliceAdd b.start off) len)
      { x with deficit := x.deficit - payload, demand := if x.isSpread then x.demand else x.demand - payload })
    (rotate b.lane cls e.entry (placeTurn b e.entry (dataTurn b e off len payload) none false (quantumTaken b e s)))

/-- The record of a stream as its turn is placed: quantum, turn, then what the placement takes. -/
theorem holdSet_eq (p : Params) (b : Build) (off len payload : Nat) (e : Stream) :
    holdSet p b.lane len (sliceAdd (sliceAdd b.start off) len) { e with
      deficit := e.withQuantum - payload, demand := if e.isSpread then e.demand else e.demand - payload,
      turns := e.turns ++ [b.turnOf (dataTurn b e off len payload) none] } = e.dataServed p b off len payload := by
  by_cases h : p.longTurn ≤ len ∧ 0 < p.holdGap
  · simp only [holdSet, Stream.dataServed, ge_iff_le, gt_iff_lt, if_pos h]
  · simp only [holdSet, Stream.dataServed, ge_iff_le, gt_iff_lt, if_neg h]

theorem dataServed_entry {b : Build} {cls : Nat} {i : Fin 6} {e : Stream} {s : State} (hi : cls = i.val + 1)
    (he : s.entry? e.entry = some e) (off len payload : Nat) :
    (dataServed b cls e off len payload s).entry? e.entry = some (e.dataServed s.params b off len payload) ∧
    ∀ n, n ≠ e.entry → (dataServed b cls e off len payload s).entry? n = s.entry? n := by
  obtain ⟨-, -, -, hframe⟩ := rotate_spec (l := b.lane) (n := e.entry)
    (s := placeTurn b e.entry (dataTurn b e off len payload) none false (quantumTaken b e s)) hi
  have hquantum := fun n => modEntry_entry e.entry n (fun x => { x with deficit := x.withQuantum }) (by intro x; rfl) (inDataStep b s)
  have hplaced := fun n => appendTurn_entry e.entry n (b.turnOf (dataTurn b e off len payload) none) false
    (placeRegion (dataTurn b e off len payload) (quantumTaken b e s))
  have hsame : ∀ n, (placeRegion (dataTurn b e off len payload) (quantumTaken b e s)).entry? n = (quantumTaken b e s).entry? n :=
    fun _ => rfl
  have hrotated : ∀ n, (rotate b.lane cls e.entry (placeTurn b e.entry (dataTurn b e off len payload) none false
      (quantumTaken b e s))).entry? n = (placeTurn b e.entry (dataTurn b e off len payload) none false (quantumTaken b e s)).entry? n :=
    fun n => entry?_congr (by rw [hframe]) n
  have hentry := fun n => modEntry_entry e.entry n (fun x => holdSet s.params b.lane len (sliceAdd (sliceAdd b.start off) len)
      { x with deficit := x.deficit - payload, demand := if x.isSpread then x.demand else x.demand - payload })
    (by intro x; unfold holdSet; split <;> rfl)
    (rotate b.lane cls e.entry (placeTurn b e.entry (dataTurn b e off len payload) none false (quantumTaken b e s)))
  have hin : ∀ n, (inDataStep b s).entry? n = s.entry? n := fun _ => rfl
  refine ⟨?_, fun n hn => ?_⟩
  · rw [dataServed, hentry, hrotated, placeTurn_eq, hplaced, hsame, quantumTaken, hquantum, hin, he, ← holdSet_eq]
    simp only [Option.map_some, if_true, Bool.false_and, Bool.false_eq_true, if_false]
    rfl
  · rw [dataServed, hentry, hrotated, placeTurn_eq, hplaced, hsame, quantumTaken, hquantum, hin]
    simp only [if_neg hn, Option.map_map]
    cases s.entry? n <;> rfl

theorem dataServed_spec {b : Build} {cls : Nat} {i : Fin 6} {e : Stream} {rest : List Nat} {s : State}
    (hi : cls = i.val + 1) (hring : (s.lane b.lane).ring i = e.entry :: rest) (off len payload : Nat) :
    (∀ k j, ((dataServed b cls e off len payload s).lane k).ring j =
      if k = b.lane ∧ j = i then rest.filter (fun m => m != e.entry) ++ [e.entry] else (s.lane k).ring j) ∧
    (∀ k, (dataServed b cls e off len payload s).lane k = { s.lane k with
      rings := ((dataServed b cls e off len payload s).lane k).rings }) ∧
    dataServed b cls e off len payload s = { s with
      builder := some { b with step := 6, gaps := takeSlices off len b.gaps, placed := b.placed ++ [dataTurn b e off len payload] },
      lanes := (dataServed b cls e off len payload s).lanes, table := (dataServed b cls e off len payload s).table } := by
  obtain ⟨hrings, hlanes, -, hframe⟩ := rotate_spec (l := b.lane) (n := e.entry)
    (s := placeTurn b e.entry (dataTurn b e off len payload) none false (quantumTaken b e s)) hi
  have hlane : ∀ k, (placeTurn b e.entry (dataTurn b e off len payload) none false (quantumTaken b e s)).lane k = s.lane k :=
    fun _ => rfl
  refine ⟨fun k j => (hrings k j).trans ?_, fun k => (hlanes k).trans ?_, ?_⟩
  · rw [hlane, hring, hlane]
    simp
  · rw [hlane]
    rfl
  · unfold dataServed
    rw [hframe]
    rfl

theorem dataPlaced_home {b : Build} {cls : Nat} {i : Fin 6} {e : Stream} (hi : cls = i.val + 1) (h : e.isSpread = false)
    (off len payload : Nat) (s : State) : dataPlaced b cls e len payload (sliceAdd (sliceAdd b.start off) len)
      (placeTurn b e.entry (dataTurn b e off len payload) none false (quantumTaken b e s)) =
        syncRings e.entry (dataServed b cls e off len payload s) := by
  obtain ⟨-, -, -, hframe⟩ := rotate_spec (l := b.lane) (n := e.entry)
    (s := placeTurn b e.entry (dataTurn b e off len payload) none false (quantumTaken b e s)) hi
  have hparams : (rotate b.lane cls e.entry (placeTurn b e.entry (dataTurn b e off len payload) none false
      (quantumTaken b e s))).params = s.params := by
    rw [hframe]
    rfl
  simp only [dataPlaced, h, hparams, Bool.false_eq_true, if_false]
  rfl

theorem dataPlaced_spread {b : Build} {cls : Nat} {i : Fin 6} {e : Stream} {v : View} {s : State} (hi : cls = i.val + 1)
    (h : e.isSpread = true) (hv : s.viewOf e.tag = some v) (off len payload : Nat) :
    dataPlaced b cls e len payload (sliceAdd (sliceAdd b.start off) len)
      (placeTurn b e.entry (dataTurn b e off len payload) none false (quantumTaken b e s)) =
        syncRings e.entry (claimPlaced b.lane v payload (sliceAdd (sliceAdd b.start off) len)
          (dataServed b cls e off len payload s)) := by
  obtain ⟨-, -, -, hframe⟩ := rotate_spec (l := b.lane) (n := e.entry)
    (s := placeTurn b e.entry (dataTurn b e off len payload) none false (quantumTaken b e s)) hi
  have hparams : (rotate b.lane cls e.entry (placeTurn b e.entry (dataTurn b e off len payload) none false
      (quantumTaken b e s))).params = s.params := by
    rw [hframe]
    rfl
  have hview : (dataServed b cls e off len payload s).viewOf e.tag = some v := by
    rw [← hv, dataServed, hframe]
    rfl
  unfold dataServed at hview
  simp only [dataPlaced, h, hparams, if_true]
  rw [hview]
  rfl

/-- A stream that stands at the tail of a ring, or in none, stays there or goes as the ring asks. -/
theorem ringFor_tail {n : Nat} {r : List Nat} (h : n ∉ r) (was member : Bool) :
    ringFor n member (r ++ if was then [n] else []) = r ++ if member then [n] else [] := by
  have hothers : r.filter (fun m => m != n) = r := List.filter_eq_self.mpr fun m hm => by
    rw [bne_iff_ne]
    rintro rfl
    exact h hm
  cases was <;> cases member <;> simp [ringFor, h, hothers]

/-! ### The three outcomes of a visit -/

theorem noteVisit_eq {b : Build} {d : DataStep} {n : Nat} {s : State} (hb : s.builder = some b) : noteVisit d n s =
    { s with builder := some { b with dataStep := some { d with visits := n } } } := by
  rw [noteVisit, modBuild, hb]
  rfl

/-- An ineligible stream goes to the tail of its ring. -/
theorem visit_ineligible {b : Build} {d : DataStep} {i : Fin 6} {e : Stream} {rest : List Nat} {s : State}
    (hi : d.cls = i.val + 1) (hring : (s.lane b.lane).ring i = e.entry :: rest) (he : s.entry? e.entry = some e)
    (hno : s.eligible e b.lane = false) (hrest : ∀ m ∈ rest, m ≠ e.entry) :
    ∃ t, visitFill b d (inDataStep b s) = t ∧ (t.lane b.lane).ring i = rest ++ [e.entry] ∧ t.builder.map (·.placed) = some b.placed ∧
      t.builder.map (·.gaps) = some b.gaps ∧ (∀ k, k ≠ b.lane → t.lane k = s.lane k) ∧
      t = { s with builder := t.builder, lanes := t.lanes } := by
  have hno' : (inDataStep b s).eligible e b.lane = false := hno
  obtain ⟨hrings, -, hothers, hframe⟩ := rotate_spec (l := b.lane) (n := e.entry) (s := inDataStep b s) hi
  have hb : (rotate b.lane d.cls e.entry (inDataStep b s)).builder = some { b with step := 6 } := by rw [hframe]; rfl
  refine ⟨_, visitFill_head hi hring he, ?_⟩
  rw [hno', if_neg (by simp), noteVisit_eq hb]
  refine ⟨(hrings b.lane i).trans ?_, rfl, rfl, hothers, ?_⟩
  · have hkept : rest.filter (fun m => m != e.entry) = rest := List.filter_eq_self.mpr fun m hm => by simp [hrest m hm]
    have hring' : ((inDataStep b s).lane b.lane).ring i = e.entry :: rest := hring
    rw [if_pos ⟨rfl, rfl⟩, hring', List.filter_cons_of_neg (by simp), hkept]
  · rw [hframe]
    rfl

/-- An eligible stream without a place takes its quantum and goes to the tail. -/
theorem visit_unplaced {b : Build} {d : DataStep} {i : Fin 6} {e : Stream} {rest : List Nat} {s : State}
    (hi : d.cls = i.val + 1) (hring : (s.lane b.lane).ring i = e.entry :: rest) (he : s.entry? e.entry = some e)
    (hyes : s.eligible e b.lane = true) (hnone : dataFound b e (s.available e b.lane) s = none) :
    ∃ t, visitFill b d (inDataStep b s) = t ∧ t.entry? e.entry = some { e with deficit := min (e.deficit + e.quantum) (4 * e.quantum) } ∧
      (t.lane b.lane).ring i = rest.filter (· != e.entry) ++ [e.entry] ∧
      (∀ j, j ≠ i → (t.lane b.lane).ring j = (s.lane b.lane).ring j) ∧
      t.builder.map (·.placed) = some b.placed ∧ t.builder.map (·.gaps) = some b.gaps ∧
      (∀ n, n ≠ e.entry → t.entry? n = s.entry? n) ∧ (∀ k, k ≠ b.lane → t.lane k = s.lane k) ∧
      t = { s with builder := t.builder, lanes := t.lanes, table := t.table } := by
  have hyes' : (inDataStep b s).eligible e b.lane = true := hyes
  obtain ⟨hrings, -, hothers, hframe⟩ := rotate_spec (l := b.lane) (n := e.entry) (s := quantumTaken b e s) hi
  have hb : (rotate b.lane d.cls e.entry (quantumTaken b e s)).builder = some { b with step := 6 } := by rw [hframe]; rfl
  have hentry : ∀ n, (rotate b.lane d.cls e.entry (quantumTaken b e s)).entry? n =
      (s.entry? n).map fun x => if n = e.entry then { x with deficit := x.withQuantum } else x := fun n =>
    (entry?_congr (congrArg State.table hframe) n).trans
      (modEntry_entry e.entry n (fun x => { x with deficit := x.withQuantum }) (by intro x; rfl) (inDataStep b s))
  have hlane : ∀ k, (quantumTaken b e s).lane k = s.lane k := fun _ => rfl
  have hstep := visitFill_head (s := inDataStep b s) hi hring he
  rw [hyes', if_pos rfl, serveVisit_none hnone, noteVisit_eq hb] at hstep
  refine ⟨_, hstep, (hentry e.entry).trans ?_, (hrings b.lane i).trans ?_, fun j hj => (hrings b.lane j).trans ?_, rfl, rfl,
    fun n hn => (hentry n).trans ?_, hothers, ?_⟩
  · rw [he]
    simp [Stream.withQuantum]
  · rw [if_pos ⟨rfl, rfl⟩, hlane, hring, List.filter_cons_of_neg (by simp)]
  · rw [if_neg (fun h => hj h.2), hlane]
  · simp only [if_neg hn]
    cases s.entry? n <;> rfl
  · rw [hframe]
    rfl

theorem ring_filter_congr {p : Nat → Bool} {s t : State}
    (h : ∀ k j, ((t.lane k).ring j).filter p = ((s.lane k).ring j).filter p) (k : LaneNo) (c : Nat) :
    (t.ring k c).filter p = (s.ring k c).filter p := by
  unfold State.ring
  cases ringIndex c with
  | none => rfl
  | some j => exact h k j

/-- The others keep their places in the rings. -/
theorem dataServed_others {b : Build} {cls : Nat} {i : Fin 6} {e : Stream} {rest : List Nat} {s : State}
    (hi : cls = i.val + 1) (hring : (s.lane b.lane).ring i = e.entry :: rest) (off len payload : Nat) (k : LaneNo) (j : Fin 6) :
    (((dataServed b cls e off len payload s).lane k).ring j).filter (fun m => m != e.entry) =
      ((s.lane k).ring j).filter (fun m => m != e.entry) := by
  rw [(dataServed_spec hi hring off len payload).1]
  split
  · next h =>
    obtain ⟨rfl, rfl⟩ := h
    rw [hring, List.filter_append, List.filter_filter, List.filter_cons_of_neg (by simp), List.filter_cons_of_neg (by simp),
      List.filter_nil, List.append_nil]
    simp
  · rfl

theorem mem_rest_filter (n : Nat) (rest : List Nat) : n ∉ rest.filter (fun m => m != n) := by simp

/-- A stream at the tail of a ring, or out of it, as its rings are brought up to date. -/
theorem syncRings_turned {n : Nat} {e : Stream} {u : State} (he : u.entry? n = some e) :
    (syncRings n u).entry? n = some { e with deficit := if (syncRings n u).inSomeRing n then e.deficit else 0 } ∧
    (∀ m, m ≠ n → (syncRings n u).entry? m = u.entry? m) ∧
    (∀ k j, (((syncRings n u).lane k).ring j).filter (fun m => m != n) = ((u.lane k).ring j).filter (fun m => m != n)) ∧
    (∀ (l : LaneNo) (i : Fin 6) (r : List Nat) (was : Bool), n ∉ r → (u.lane l).ring i = r ++ (if was then [n] else []) →
      ((syncRings n u).lane l).ring i = r ++ if u.meetsRing e l (i.val + 1) then [n] else []) ∧
    (∀ k, (syncRings n u).lane k = { u.lane k with rings := ((syncRings n u).lane k).rings }) ∧
    syncRings n u = { u with table := (syncRings n u).table, lanes := (syncRings n u).lanes } := by
  obtain ⟨hrings, hlanes, hentries, hframe⟩ := syncRings_spec n u
  refine ⟨?_, fun m hm => ?_, fun k j => ?_, fun l i r was hr hring => ?_, hlanes, hframe⟩
  · rw [hentries, he]
    cases (syncRings n u).inSomeRing n <;> simp
  · rw [hentries]
    simp only [if_neg (fun h : m = n ∧ _ => hm h.1)]
    cases u.entry? m <;> rfl
  · rw [hrings, ringFor_others]
  · rw [hrings, hring, ringFor_tail hr, he]
    rfl

/-- The rings that a non-spread stream belongs in once its turn is placed. -/
theorem meetsRing_home {l : LaneNo} {i : Fin 6} {e : Stream} {u : State} (h : e.place = .home l) :
    u.meetsRing e l (i.val + 1) = true ↔ e.served = true ∧ e.cls = i.val + 1 ∧ 0 < e.demand := by
  simp [State.meetsRing, State.available, h, and_assoc]

/-- A DATA turn of a non-spread stream. -/
theorem visit_home {b : Build} {d : DataStep} {i : Fin 6} {e : Stream} {rest : List Nat} {s : State}
    (hi : d.cls = i.val + 1) (hring : (s.lane b.lane).ring i = e.entry :: rest) (he : s.entry? e.entry = some e)
    (hyes : s.eligible e b.lane = true) (hhome : e.place = .home b.lane) {off len payload : Nat}
    (hfound : dataFound b e (s.available e b.lane) s = some (off, len, payload)) :
    ∃ t e', visitFill b d (inDataStep b s) = t ∧ t.entry? e.entry = some e' ∧ e'.demand = e.demand - payload ∧
      e'.turns = e.turns ++ [b.turnOf (dataTurn b e off len payload) none] ∧
      e'.deficit = (if t.inSomeRing e.entry then e.withQuantum - payload else 0) ∧
      e' = { e with demand := e'.demand, deficit := e'.deficit, turns := e'.turns, hold := e'.hold } ∧
      e'.hold = (if s.params.longTurn ≤ len ∧ 0 < s.params.holdGap then
          e.hold.set b.lane.val (some (sliceAdd (sliceAdd (sliceAdd b.start off) len) s.params.holdGap))
        else e.hold) ∧
      (t.lane b.lane).ring i = rest.filter (· != e.entry) ++
        (if e.served = true ∧ e.cls = d.cls ∧ 0 < e'.demand then [e.entry] else []) ∧
      (∀ k c, (t.ring k c).filter (· != e.entry) = (s.ring k c).filter (· != e.entry)) ∧
      (∀ k, t.lane k = { s.lane k with rings := (t.lane k).rings }) ∧
      t.builder.map (·.gaps) = some (takeSlices off len b.gaps) ∧
      t.builder.map (·.placed) = some (b.placed ++ [dataTurn b e off len payload]) ∧
      (∀ n, n ≠ e.entry → t.entry? n = s.entry? n) ∧
      t = { s with builder := t.builder, lanes := t.lanes, table := t.table } := by
  have hspread : e.isSpread = false := by simp [Stream.isSpread, Stream.homeLane, hhome]
  have hyes' : (inDataStep b s).eligible e b.lane = true := hyes
  obtain ⟨hentry, hentries⟩ := dataServed_entry hi he off len payload
  obtain ⟨hrings, hlanes, hframe⟩ := dataServed_spec hi hring off len payload
  have hothers := dataServed_others hi hring off len payload
  have hstep := visitFill_head (s := inDataStep b s) hi hring he
  rw [hyes', if_pos rfl, serveVisit_some hfound, dataPlaced_home hi hspread] at hstep
  generalize dataServed b d.cls e off len payload s = u at *
  obtain ⟨hturned, hkept, hfilter, htail, hulanes, huframe⟩ := syncRings_turned hentry
  have hb : (syncRings e.entry u).builder = some { b with
      step := 6, gaps := takeSlices off len b.gaps, placed := b.placed ++ [dataTurn b e off len payload] } :=
    (congrArg State.builder huframe).trans (congrArg State.builder hframe)
  rw [noteVisit_eq hb] at hstep
  generalize syncRings e.entry u = v at *
  have hdemand : (e.dataServed s.params b off len payload).demand = e.demand - payload := by simp [Stream.dataServed, hspread]
  refine ⟨_, _, hstep, hturned, hdemand, rfl, rfl, rfl, rfl, ?_, fun k c => ring_filter_congr (fun k j => ?_) k c, fun k => ?_, rfl, rfl,
    fun n hn => (hkept n hn).trans (hentries n hn), ?_⟩
  · have hat : (u.lane b.lane).ring i = rest.filter (fun m => m != e.entry) ++ (if true then [e.entry] else []) := by
      rw [hrings, if_pos ⟨rfl, rfl⟩, if_pos rfl]
    refine (htail b.lane i _ true (mem_rest_filter e.entry rest) hat).trans (congrArg _ (if_congr ?_ rfl rfl))
    rw [meetsRing_home (show (e.dataServed s.params b off len payload).place = .home b.lane from hhome), hi]
    rfl
  · exact (hfilter k j).trans (hothers k j)
  · refine (hulanes k).trans ?_
    rw [hlanes]
    rfl
  · rw [huframe, hframe]

end Sys2Proof.Machine
end

section
/-! PROOF. Visits of the data step to spread streams (O17). -/

namespace Sys2Proof.Machine

/-! ### An offered CLAIM -/

theorem offerClaim_offers (tag : Nat) (epoch : BitVec 8) (lane : NodeLane) (bytes : Nat) (endTick : Tick) (s : State) :
    OnlyOffers s (offerClaim tag epoch lane bytes endTick s) := by
  unfold offerClaim
  split
  · exact .of_bus rfl
  · split
    · exact .trans (.of_bus rfl) (pumpHolder_offers _)
    · exact .refl s

/-- No notice that waits is lost as the holder fills. -/
theorem pumpHolder_waits {s : State} {n : Notice} (h : n ∈ s.bus.holder.toList ++ s.bus.queue) :
    n ∈ (pumpHolder s).bus.holder.toList ++ (pumpHolder s).bus.queue := by
  obtain hsame | ⟨m, rest, -, hh, hq, hfilled⟩ := pumpHolder_cases s
  · rwa [hsame]
  · rw [hh, hq] at h
    rw [hfilled]
    obtain hserved | ⟨l, -, hserved⟩ := serveOwed_cases (modBus (fun b => { b with holder := some m, voidCount := 0, queue := rest }) s)
    · rw [hserved]
      exact h
    · rw [hserved]
      show n ∈ [m] ++ (rest ++ _)
      rw [← List.append_assoc]
      exact List.mem_append_left _ h

/-- A CLAIM that is taken joins a matching queued one, or stands in holder or queue. -/
theorem offerClaim_taken {tag : Nat} {epoch : BitVec 8} {lane : NodeLane} {s : State} (bytes : Nat) (endTick : Tick)
    (hroom : s.claimRoom tag epoch lane = true) :
    (∀ was old, .claim tag epoch lane was old ∈ s.bus.queue →
      .claim tag epoch lane (min (was + bytes) 1048575) (laterTick old endTick) ∈
        (offerClaim tag epoch lane bytes endTick s).bus.queue) ∧
    ((∀ was old, .claim tag epoch lane was old ∉ s.bus.queue) → .claim tag epoch lane bytes endTick ∈
      (offerClaim tag epoch lane bytes endTick s).bus.holder.toList ++ (offerClaim tag epoch lane bytes endTick s).bus.queue) := by
  have hmatch : ∀ was old, (Notice.claim tag epoch lane was old).claimFor tag epoch lane = true := fun was old => by
    simp [Notice.claimFor]
  refine ⟨fun was old hmem => ?_, fun hnone => ?_⟩
  · have hany : s.bus.queue.any (Notice.claimFor tag epoch lane) = true := List.any_eq_true.mpr ⟨_, hmem, hmatch was old⟩
    rw [offerClaim, if_pos hany]
    refine List.mem_map.mpr ⟨_, hmem, ?_⟩
    rw [if_pos (hmatch was old)]
    rfl
  · have hany : ¬s.bus.queue.any (Notice.claimFor tag epoch lane) = true := by
      rw [List.any_eq_true]
      rintro ⟨n, hn, hf⟩
      cases n with
      | claim t e x was old =>
        simp only [Notice.claimFor, Bool.and_eq_true, beq_iff_eq] at hf
        obtain ⟨⟨rfl, rfl⟩, rfl⟩ := hf
        exact hnone was old hn
      | _ => simp [Notice.claimFor] at hf
    have htakes : s.takesNotice = true := by
      simpa [State.claimRoom, Bool.eq_false_iff.mpr hany] using hroom
    rw [offerClaim, if_neg hany, if_pos htakes]
    refine pumpHolder_waits ?_
    show _ ∈ _ ++ (s.bus.queue ++ [_])
    simp

/-! ### A stream at the tail of a ring whose view changes -/

theorem modView_turned {tag n : Nat} {v : View} {e : Stream} {u : State} (f : View → View) (hv : u.viewOf tag = some v)
    (he : u.entry? n = some e) :
    (modView tag f u).entry? n = some { e with
      deficit := if v.entry = n ∧ (modView tag f u).inSomeRing n = false then 0 else e.deficit } ∧
    (∀ x, x ≠ n → x ≠ v.entry → (modView tag f u).entry? x = u.entry? x) ∧
    (v.entry = n → ∀ k j, (((modView tag f u).lane k).ring j).filter (fun m => m != n) = ((u.lane k).ring j).filter (fun m => m != n)) ∧
    (v.entry = n → ∀ (l : LaneNo) (i : Fin 6) (r : List Nat), n ∉ r → (u.lane l).ring i = r ++ [n] →
      ∃ was : Bool, ((modView tag f u).lane l).ring i = r ++ if was then [n] else []) ∧
    (v.entry = n → ((modView tag f u).inSomeRing n = true ↔ ∃ k j, (modView tag f u).meets n k j = true)) := by
  have hm : modView tag f u = syncRings v.entry { u with views := u.views.map fun w => if w.tag == tag then f w else w } := by
    simp only [modView, hv]
  rw [hm]
  generalize hw : ({ u with views := u.views.map fun w => if w.tag == tag then f w else w } : State) = w
  have hentry : ∀ x, w.entry? x = u.entry? x := fun x => by rw [← hw]; rfl
  have hlane : ∀ k, w.lane k = u.lane k := fun k => by rw [← hw]; rfl
  obtain ⟨hrings, -, hentries, -⟩ := syncRings_spec v.entry w
  have hmeets := fun k j => syncRings_meets v.entry n k j w
  have hsome := syncRings_inSomeRing v.entry w
  generalize syncRings v.entry w = m at *
  refine ⟨?_, fun x hx hxv => ?_, fun h => ?_, fun h l i r hr hring => ?_, fun h => ?_⟩
  · rw [hentries, hentry, he, Option.map_some]
    by_cases h : v.entry = n
    · subst h
      cases m.inSomeRing v.entry <;> simp
    · have hn : ¬n = v.entry := fun h' => h h'.symm
      simp [h, hn]
  · rw [hentries, hentry]
    simp only [if_neg (fun h : x = v.entry ∧ _ => hxv h.1)]
    cases u.entry? x <;> rfl
  · subst h
    intro k j
    rw [hrings, ringFor_others, hlane]
  · subst h
    have htail := ringFor_tail hr true ((w.entry? v.entry).any fun e => w.meetsRing e l (i.val + 1))
    rw [if_pos rfl] at htail
    exact ⟨_, by rw [hrings, hlane, hring, htail]⟩
  · subst h
    rw [hsome]
    simp only [hmeets]
    rfl

/-- Membership does not depend on what the notices change. -/
theorem OnlyOffers.meets {s t : State} (h : OnlyOffers s t) (n : Nat) (k : LaneNo) (j : Fin 6) : t.meets n k j = s.meets n k j := by
  rw [h.frame]
  rfl

/-- A placed DATA turn claims its bytes in its view. -/
def View.claimsOn (l : LaneNo) (payload : Nat) (v : View) : View :=
  { v with own := v.own.map fun o => if o.lane = l then { o with pending := o.pending + payload } else o }

/-- The build that placed a turn of a view. -/
def Build.marked (v : View) (b : Build) : Build :=
  { b with marks := if b.marks.contains v.index then b.marks else b.marks ++ [v.index] }

theorem Build.mem_marked (v : View) (b : Build) : v.index ∈ (b.marked v).marks := by
  unfold Build.marked
  split
  · next h => exact List.contains_iff_mem.mp h
  · simp

theorem claimPlaced_eq {l : LaneNo} {v : View} {b : Build} {u : State} (hb : u.builder = some b) (payload : Nat) (stop : Slice) :
    claimPlaced l v payload stop u = offerClaim v.tag v.epoch (u.nodeLane l) payload
      (tickOfSlice u.nodeTime (u.lane l) (sliceAdd stop u.params.outcomeWait))
      { modView v.tag (View.claimsOn l payload) u with builder := some (b.marked v) } := by
  obtain ⟨hlanes, hframe⟩ := modView_frame v.tag (View.claimsOn l payload) u
  have hbuilder : (modView v.tag (View.claimsOn l payload) u).builder = some b := by rw [hframe]; exact hb
  have htime : (modView v.tag (View.claimsOn l payload) u).nodeTime = u.nodeTime := by rw [hframe]
  have hboot : (modView v.tag (View.claimsOn l payload) u).boot = u.boot := by rw [hframe]
  have hmarked : modBuild (Build.marked v) (modView v.tag (View.claimsOn l payload) u) =
        { modView v.tag (View.claimsOn l payload) u with builder := some (b.marked v) } := by
    rw [modBuild, hbuilder]
    rfl
  have htick : ∀ x, tickOfSlice u.nodeTime ((modView v.tag (View.claimsOn l payload) u).lane l) x = tickOfSlice u.nodeTime (u.lane l) x :=
    fun x => by rw [hlanes]; rfl
  show offerClaim v.tag v.epoch (nodeLaneOf (modView v.tag (View.claimsOn l payload) u).boot.peerId l) payload
    (tickOfSlice (modView v.tag (View.claimsOn l payload) u).nodeTime ((modView v.tag (View.claimsOn l payload) u).lane l)
      (sliceAdd stop (modView v.tag (View.claimsOn l payload) u).boot.params.outcomeWait))
    (modBuild (Build.marked v) (modView v.tag (View.claimsOn l payload) u)) = _
  rw [hmarked, htime, hboot, htick]
  rfl

theorem eligible_spread {l : LaneNo} {e : Stream} {v : View} {s : State} (h : s.eligible e l = true) (hspread : e.isSpread = true)
    (hv : s.viewOf e.tag = some v) : s.claimRoom e.tag v.epoch (s.nodeLane l) = true := by
  simp only [State.eligible, State.spreadReady, hspread, hv, if_true, Bool.and_eq_true] at h
  exact h.2.2

theorem viewOf_tag {tag : Nat} {v : View} {s : State} (h : s.viewOf tag = some v) : v.tag = tag := by
  simpa using List.find?_some h

theorem meetsRing_spread {l : LaneNo} {i : Fin 6} {e : Stream} {u : State} (h : e.isSpread = true) :
    u.meetsRing e l (i.val + 1) = true ↔ e.served = true ∧ e.cls = i.val + 1 ∧ 0 < u.allowanceOf e l := by
  cases hp : e.place with
  | home k => simp [Stream.isSpread, Stream.homeLane, hp] at h
  | spread set j => simp [State.meetsRing, State.available, hp, and_assoc]

/-- A DATA turn of a spread stream. -/
theorem visit_spread {b : Build} {d : DataStep} {i : Fin 6} {e : Stream} {rest : List Nat} {v : View} {s : State}
    (hi : d.cls = i.val + 1) (hring : (s.lane b.lane).ring i = e.entry :: rest) (he : s.entry? e.entry = some e)
    (hyes : s.eligible e b.lane = true) (hspread : e.isSpread = true) (hv : s.viewOf e.tag = some v) {off len payload : Nat}
    (hfound : dataFound b e (s.available e b.lane) s = some (off, len, payload)) :
    ∃ t e' b', visitFill b d (inDataStep b s) = t ∧ t.entry? e.entry = some e' ∧ t.builder = some b' ∧
      e'.turns = e.turns ++ [b.turnOf (dataTurn b e off len payload) none] ∧
      e'.deficit = (if t.inSomeRing e.entry then e.withQuantum - payload else 0) ∧
      e' = { e with deficit := e'.deficit, turns := e'.turns, hold := e'.hold } ∧
      e'.hold = (if s.params.longTurn ≤ len ∧ 0 < s.params.holdGap then
          e.hold.set b.lane.val (some (sliceAdd (sliceAdd (sliceAdd b.start off) len) s.params.holdGap))
        else e.hold) ∧
      (v.entry = e.entry → t.ring b.lane d.cls = rest.filter (· != e.entry) ++
        (if e.served = true ∧ e.cls = d.cls ∧ 0 < t.allowanceOf e b.lane then [e.entry] else [])) ∧
      (v.entry = e.entry → ∀ k c, (t.ring k c).filter (· != e.entry) = (s.ring k c).filter (· != e.entry)) ∧
      (∀ k, t.lane k = { s.lane k with rings := (t.lane k).rings, owed := (t.lane k).owed }) ∧
      b'.gaps = takeSlices off len b.gaps ∧ b'.placed = b.placed ++ [dataTurn b e off len payload] ∧ v.index ∈ b'.marks ∧
      t.viewOf e.tag = some (v.claimsOn b.lane payload) ∧ (∀ tag, tag ≠ e.tag → t.viewOf tag = s.viewOf tag) ∧
      (∀ bytes old, .claim e.tag v.epoch (s.nodeLane b.lane) bytes old ∈ s.bus.queue →
        .claim e.tag v.epoch (s.nodeLane b.lane) (min (bytes + payload) 1048575) (laterTick old
          (tickOfSlice s.nodeTime (s.lane b.lane) (sliceAdd (sliceAdd (sliceAdd b.start off) len) s.params.outcomeWait))) ∈
            t.bus.queue) ∧
      ((∀ bytes old, .claim e.tag v.epoch (s.nodeLane b.lane) bytes old ∉ s.bus.queue) →
        .claim e.tag v.epoch (s.nodeLane b.lane) payload
          (tickOfSlice s.nodeTime (s.lane b.lane) (sliceAdd (sliceAdd (sliceAdd b.start off) len) s.params.outcomeWait)) ∈
            t.bus.holder.toList ++ t.bus.queue) ∧
      (∀ n, n ≠ e.entry → n ≠ v.entry → t.entry? n = s.entry? n) ∧
      t = { s with builder := t.builder, lanes := t.lanes, table := t.table, views := t.views, bus := t.bus } := by
  have htag := viewOf_tag hv
  have hyes' : (inDataStep b s).eligible e b.lane = true := hyes
  have hroom := eligible_spread hyes hspread hv
  obtain ⟨hentry, hentries⟩ := dataServed_entry hi he off len payload
  obtain ⟨hrings, hlanes, hframe⟩ := dataServed_spec hi hring off len payload
  have hothers := dataServed_others hi hring off len payload
  have hstep := visitFill_head (s := inDataStep b s) hi hring he
  rw [hyes', if_pos rfl, serveVisit_some hfound, dataPlaced_spread hi hspread hv] at hstep
  generalize dataServed b d.cls e off len payload s = u at *
  have hb : u.builder = some { b with
      step := 6, gaps := takeSlices off len b.gaps, placed := b.placed ++ [dataTurn b e off len payload] } :=
    congrArg State.builder hframe
  have hvu : u.viewOf v.tag = some v := by rw [htag, hframe]; exact hv
  have hnode : u.nodeLane b.lane = s.nodeLane b.lane := by rw [hframe]; rfl
  have htick : tickOfSlice u.nodeTime (u.lane b.lane) (sliceAdd (sliceAdd (sliceAdd b.start off) len) u.params.outcomeWait) =
      tickOfSlice s.nodeTime (s.lane b.lane) (sliceAdd (sliceAdd (sliceAdd b.start off) len) s.params.outcomeWait) := by
    rw [hlanes, State.params, congrArg State.boot hframe, congrArg State.nodeTime hframe]
    rfl
  rw [claimPlaced_eq hb, hnode, htick] at hstep
  generalize tickOfSlice s.nodeTime (s.lane b.lane) (sliceAdd (sliceAdd (sliceAdd b.start off) len) s.params.outcomeWait) = k at *
  -- the view
  obtain ⟨hmentry, hmothers, hmfilter, hmtail, hmin⟩ := modView_turned (View.claimsOn b.lane payload) hvu hentry
  obtain ⟨hmlanes, hmframe⟩ := modView_frame v.tag (View.claimsOn b.lane payload) u
  have hmview := modView_viewOf (View.claimsOn b.lane payload) (fun _ => rfl) hvu
  have hmviews : ∀ tag, tag ≠ v.tag → (modView v.tag (View.claimsOn b.lane payload) u).viewOf tag = u.viewOf tag :=
    fun tag hne => modView_viewOf_other (View.claimsOn b.lane payload) (fun _ => rfl) hne u
  generalize modView v.tag (View.claimsOn b.lane payload) u = m at *
  -- the claim
  have hcb : ∀ b', ({ m with builder := some b' } : State).claimRoom v.tag v.epoch (s.nodeLane b.lane) = true := fun b' => by
    have hbus : m.bus = s.bus := by rw [hmframe, hframe]
    rw [htag]
    simpa only [State.claimRoom, State.takesNotice, hbus] using hroom
  have hmb : ∀ b', m.bus = s.bus ∧ ({ m with builder := some b' } : State).builder = some b' := fun b' =>
    ⟨by rw [hmframe, hframe], rfl⟩
  generalize hB : Build.marked v { b with
      step := 6, gaps := takeSlices off len b.gaps, placed := b.placed ++ [dataTurn b e off len payload] } = B at *
  obtain ⟨hcoalesced, hjoined⟩ := offerClaim_taken payload k (hcb B)
  have hoffers := offerClaim_offers v.tag v.epoch (s.nodeLane b.lane) payload k { m with builder := some B }
  generalize offerClaim v.tag v.epoch (s.nodeLane b.lane) payload k { m with builder := some B } = c at *
  have hcframe := hoffers.frame
  have hclanes : ∀ k, c.lane k = { m.lane k with owed := (c.lane k).owed } := hoffers.lanes
  have hcmeets : ∀ k j, c.meets e.entry k j = m.meets e.entry k j := fun k j => hoffers.meets e.entry k j
  have hcentry : ∀ n, c.entry? n = m.entry? n := fun n => entry?_congr (by rw [hcframe]) n
  have hcviews : c.views = m.views := by rw [hcframe]
  have hcring : ∀ k j, (c.lane k).ring j = (m.lane k).ring j := fun k j => by
    rw [Lane.ring, hclanes]
    rfl
  have hce := (hcentry e.entry).trans hmentry
  -- the stream's rings
  obtain ⟨hturned, hkept, hfilter, htail, hflanes, hfframe⟩ := syncRings_turned hce
  have hin := syncRings_inSomeRing e.entry c
  have hfb : (syncRings e.entry c).builder = some B :=
    (congrArg State.builder hfframe).trans (congrArg State.builder hcframe)
  rw [noteVisit_eq hfb] at hstep
  generalize syncRings e.entry c = r at *
  have hrviews : r.views = m.views := by rw [hfframe, hcviews]
  have hdeficit : (if r.inSomeRing e.entry = true then
      if v.entry = e.entry ∧ m.inSomeRing e.entry = false then 0 else (e.dataServed s.params b off len payload).deficit else 0) =
        if r.inSomeRing e.entry = true then e.withQuantum - payload else 0 := by
    by_cases hr : r.inSomeRing e.entry = true
    · rw [if_pos hr, if_pos hr, if_neg]
      · rfl
      · rintro ⟨hve, hno⟩
        obtain ⟨k', j, hkj⟩ := hin.mp hr
        have hyesm := (hmin hve).mpr ⟨k', j, (hcmeets k' j).symm.trans hkj⟩
        rw [hno] at hyesm
        cases hyesm
    · rw [if_neg hr, if_neg hr]
  rw [hdeficit] at hturned
  have hrecord : ∀ deficit, ({ e.dataServed s.params b off len payload with deficit := deficit } : Stream) = { e with
      deficit := deficit, turns := (e.dataServed s.params b off len payload).turns,
      hold := (e.dataServed s.params b off len payload).hold } := fun deficit => by
    simp only [Stream.dataServed, hspread, if_true]
  refine ⟨_, _, _, hstep, hturned, rfl, rfl, rfl, hrecord _, rfl, fun hve => ?_, fun hve => ring_filter_congr fun k j => ?_, fun k => ?_,
    ?_, ?_, ?_, ?_, fun tag hne => ?_, fun was old hmem => ?_, fun hnone => ?_, fun n hn hnv => ?_, ?_⟩
  · rw [ring_of_class hi]
    have hat : (u.lane b.lane).ring i = rest.filter (fun m => m != e.entry) ++ [e.entry] := by
      rw [hrings, if_pos ⟨rfl, rfl⟩]
    obtain ⟨was, hwas⟩ := hmtail hve b.lane i _ (mem_rest_filter e.entry rest) hat
    refine (htail b.lane i _ was (mem_rest_filter e.entry rest) ((hcring b.lane i).trans hwas)).trans
      (congrArg _ (if_congr ?_ rfl rfl))
    rw [hi]
    have hallow : r.allowanceOf e b.lane = c.allowanceOf e b.lane := by
      rw [State.allowanceOf, State.viewOf, hrviews, congrArg State.boot hfframe, State.allowanceOf, State.viewOf, hcviews]
    refine (meetsRing_spread (e := { e.dataServed s.params b off len payload with deficit := _ }) hspread).trans ?_
    show e.served = true ∧ e.cls = i.val + 1 ∧ 0 < c.allowanceOf e b.lane ↔
      e.served = true ∧ e.cls = i.val + 1 ∧ 0 < r.allowanceOf e b.lane
    rw [hallow]
  · exact (hfilter k j).trans ((congrArg _ (hcring k j)).trans ((hmfilter hve k j).trans (hothers k j)))
  · have hk := hflanes k
    rw [hclanes, hmlanes, hlanes] at hk
    show r.lane k = { s.lane k with rings := (r.lane k).rings, owed := (r.lane k).owed }
    rw [congrArg Lane.owed (hflanes k)]
    exact hk
  · rw [← hB]
    rfl
  · rw [← hB]
    rfl
  · rw [← hB]
    exact Build.mem_marked v _
  · rw [← htag, ← hmview]
    exact congrArg (fun views : List View => views.find? fun w => w.tag == v.tag) hrviews
  · refine (congrArg (fun views : List View => views.find? fun w => w.tag == tag) hrviews).trans ((hmviews tag (htag ▸ hne)).trans ?_)
    rw [hframe]
    rfl
  · rw [congrArg State.bus hfframe, ← htag]
    refine hcoalesced was old ?_
    rw [(hmb B).1, htag]
    exact hmem
  · rw [congrArg State.bus hfframe, ← htag]
    refine hjoined fun was old => ?_
    rw [(hmb B).1, htag]
    exact hnone was old
  · exact (hkept n hn).trans ((hcentry n).trans ((hmothers n hn hnv).trans (hentries n hn)))
  · rw [hfframe, hcframe, hmframe, hframe]

/-- Settles O17: `visit_ineligible`, `visit_unplaced`, `visit_home` and `visit_spread`. -/
theorem visitRotatesOrPlacesData : Obligations.VisitRotatesOrPlacesData := by
  intro b d i e rest s hb hm hd hi hring he
  have hstep := drrVisit_exec hb hm hd
  refine ⟨fun hno hrest => ?_, fun hyes hnone => ?_, fun off len payload hyes hhome hmay hplace => ?_,
    fun off len payload v set j k hyes hspread hv hk hmay hplace => ?_⟩
  · obtain ⟨t, ht, hrest⟩ := visit_ineligible hi hring he hno hrest
    exact ⟨t, hstep.trans (congrArg _ ht), hrest⟩
  · have hfound : dataFound b e (s.available e b.lane) s = none := by
      unfold dataFound
      obtain h | h := hnone
      · rw [h]
        rfl
      · rw [h, ite_self]
    obtain ⟨t, ht, hrest⟩ := visit_unplaced hi hring he hyes hfound
    exact ⟨t, hstep.trans (congrArg _ ht), hrest⟩
  · have havailable : s.available e b.lane = e.demand := by simp [State.available, hhome]
    have hfound : dataFound b e (s.available e b.lane) s = some (off, len, payload) := by
      rw [havailable, dataFound, if_pos hmay, hplace]
    obtain ⟨t, e', ht, hrest⟩ := visit_home hi hring he hyes hhome hfound
    exact ⟨t, e', hstep.trans (congrArg _ ht), hrest⟩
  · have havailable : s.available e b.lane = allowance s.boot.peerId v b.lane := by
      simp only [State.available, hspread, State.allowanceOf, hv]
    have hfound : dataFound b e (s.available e b.lane) s = some (off, len, payload) := by
      rw [havailable, dataFound, if_pos hmay, hplace]
    subst hk
    obtain ⟨t, e', b', ht, hrest⟩ := visit_spread hi hring he hyes (by simp [Stream.isSpread, Stream.homeLane, hspread]) hv hfound
    exact ⟨t, e', b', hstep.trans (congrArg _ ht), hrest⟩

end Sys2Proof.Machine
end

section
/-! PROOF. Probe results (O23). -/

namespace Sys2Proof.Machine

/-! ### The report to the lane -/

theorem reportProbe_spec (l : LaneNo) (v : State) :
    (v.laneState l ≠ .ramp → reportProbe l v = v) ∧
    (v.laneState l = .ramp → min ((v.lane l).health.goodProbes + 1) 255 < v.params.health.rampLimit →
      reportProbe l v = modHealth l (fun h => { h with goodProbes := min (h.goodProbes + 1) 255 }) v) ∧
    (v.laneState l = .ramp → v.params.health.rampLimit ≤ min ((v.lane l).health.goodProbes + 1) 255 →
      reportProbe l v = enterLive l (modHealth l (fun h => { h with goodProbes := min (h.goodProbes + 1) 255 }) v)) := by
  have hcount : ((modHealth l (fun h => { h with goodProbes := satAdd 255 h.goodProbes 1 }) v).lane l).health.goodProbes =
      min ((v.lane l).health.goodProbes + 1) 255 := by
    rw [modHealth_lane, if_pos rfl]
    rfl
  refine ⟨fun h => if_neg h, fun h hlow => ?_, fun h hhigh => ?_⟩
  · rw [reportProbe, if_pos h, goodProbe, if_pos h]
    refine if_neg ?_
    rw [hcount]
    exact Nat.not_le.mpr hlow
  · rw [reportProbe, if_pos h, goodProbe, if_pos h]
    refine if_pos ?_
    rw [hcount]
    exact hhigh

/-- A lane that enters LIVE. -/
def liveLane (l : LaneNo) (v : State) : State := modHealth l (fun h => { h with state := .live }) v

theorem enterLive_spec (l : LaneNo) (v : State) :
    enterLive l v = offerLane l (queueStatus (.laneState l .live .rampDone) (liveLane l v)) := by
  have hstate : (liveLane l v).laneState l = .live := by
    rw [State.laneState, liveLane, modHealth_lane, if_pos rfl]
  rw [enterLive, announceState]
  show offerLane l (queueStatus (.laneState l ((liveLane l v).laneState l) .rampDone) (liveLane l v)) = _
  rw [hstate]

/-- What a report to the lane changes at most: health, owed marks, the bus and the status queue. -/
theorem reportProbe_frame (l : LaneNo) (v : State) :
    (∀ k, (reportProbe l v).lane k = { v.lane k with
      health := ((reportProbe l v).lane k).health, owed := ((reportProbe l v).lane k).owed }) ∧
    reportProbe l v = { v with
      lanes := (reportProbe l v).lanes, port := (reportProbe l v).port, bus := (reportProbe l v).bus } := by
  have hhealth : ∀ f : Health → Health, ∀ k, (modHealth l f v).lane k = { v.lane k with health := ((modHealth l f v).lane k).health } :=
    fun f k => by
      rw [modHealth_lane]
      split
      · next h => rw [h]
      · rfl
  obtain ⟨hsame, hcounted, hlive⟩ := reportProbe_spec l v
  by_cases hr : v.laneState l = .ramp
  · obtain hlow | hhigh := Nat.lt_or_ge (min ((v.lane l).health.goodProbes + 1) 255) v.params.health.rampLimit
    · rw [hcounted hr hlow]
      refine ⟨fun k => ?_, rfl⟩
      refine (hhealth (fun h => { h with goodProbes := min (h.goodProbes + 1) 255 }) k).trans ?_
      rw [modHealth_lane]
      split
      · next h => rw [h]
      · rfl
    · rw [hlive hr hhigh, enterLive_spec]
      obtain ⟨hlanes, hframe⟩ := offerLane_frame l (queueStatus (.laneState l .live .rampDone)
        (liveLane l (modHealth l (fun h => { h with goodProbes := min (h.goodProbes + 1) 255 }) v)))
      refine ⟨fun k => ?_, ?_⟩
      · rw [hlanes, queueStatus_lane, liveLane, modHealth_lane]
        split
        · next h =>
          rw [h, hhealth]
        · rw [hhealth]
      · rw [hframe, queueStatus_after]
        rfl
  · rw [hsame hr]
    exact ⟨fun _ => rfl, rfl⟩

theorem reportProbe_entry (l : LaneNo) (n : Nat) (v : State) : (reportProbe l v).entry? n = v.entry? n :=
  entry?_congr ((congrArg State.table (reportProbe_frame l v).2).trans rfl) n

/-! ### Corrections -/

/-- A correction queue once `c` is queued in it (R117). -/
def queuedIn (c : Correction) (cs : List Correction) : List Correction :=
  if ∃ d ∈ cs, d.tag = c.tag then cs.map fun d => if d.tag = c.tag then c else d else cs ++ [c]

theorem queueCorrection_eq (l : LaneNo) (c : Correction) (s : State) :
    queueCorrection l c s = modLane l (fun L => { L with corrections := queuedIn c L.corrections }) s := by
  refine modLane_congr ?_
  unfold queuedIn
  by_cases h : ∃ d ∈ (s.lane l).corrections, d.tag = c.tag
  · have hany : ((s.lane l).corrections.any fun d => d.tag == c.tag) = true := by simpa using h
    simp only [hany, if_true, if_pos h, beq_iff_eq]
  · have hany : ((s.lane l).corrections.any fun d => d.tag == c.tag) = false := by simpa using h
    simp only [hany, if_neg h, Bool.false_eq_true, if_false]

theorem queueCorrection_lane (l k : LaneNo) (c : Correction) (s : State) : (queueCorrection l c s).lane k =
    if k = l then { s.lane l with corrections := queuedIn c (s.lane l).corrections } else s.lane k := by
  rw [queueCorrection_eq, modLane_lane]

/-! ### A station retired by its alignment -/

/-- A station that fails or is lost: its ABORT, its message, and its retirement. -/
def retiredFor (e : Stream) (l : LaneNo) (said : List Message) (s : State) : State :=
  retireWithChildren .failure e.entry { queueCorrection l (abortFor e.tag) s with port := s.port.after said }

theorem failAlignment_eq (e : Stream) (l : LaneNo) (cause : JoinFail) (s : State) : failAlignment e l cause s =
    retiredFor e l (e.address.toList.map fun a => .joinFailed a l cause) s := by
  unfold failAlignment retiredFor
  cases e.address with
  | none =>
    rw [Option.toList_none, List.map_nil, OrderPort.after_nil]
    rfl
  | some a =>
    simp only [queueStatus_after]
    rfl

theorem loseStation_eq (e : Stream) (l : LaneNo) (s : State) : loseStation e l s = retiredFor e l [.stationLost e.tag .silent] s := by
  unfold loseStation retiredFor
  rw [queueStatus_after]
  rfl

theorem retiredFor_spec {e d : Stream} {l : LaneNo} {n : Nat} {s : State} (said : List Message) (hd : s.entry? n = some d)
    (hn : e.entry = n) (htag : d.tag = e.tag) (hhome : d.place = .home l) :
    (∀ m later, said = m :: later → s.port.statusQueue.length < 32 →
      ∃ more, (retiredFor e l said s).port.statusQueue = s.port.statusQueue ++ (m :: more)) ∧
    (d.isStation = true → s.servedChildren n = [] →
      ((retiredFor e l said s).lane l).corrections = queuedIn (abortFor e.tag) (s.lane l).corrections) ∧
    (d.isStation = true → e.tag ∉ ((retiredFor e l said s).lane l).provisional) ∧
    (∀ e', (retiredFor e l said s).entry? n = some e' → e'.state = .closing) ∧
    (∀ c ∈ s.table, c.parent = n → c.served = true → ∀ c', (retiredFor e l said s).entry? c.entry = some c' → c'.state = .closing) ∧
    (retiredFor e l said s).bus = s.bus ∧ (retiredFor e l said s).boot = s.boot ∧
    (retiredFor e l said s).nodeTime = s.nodeTime := by
  subst hn
  generalize hu : ({ queueCorrection l (abortFor e.tag) s with port := s.port.after said } : State) = u
  have hr : retiredFor e l said s = retireWithChildren .failure e.entry u := by rw [← hu]; rfl
  have hframe : u = { s with lanes := u.lanes, port := s.port.after said } := by rw [← hu, queueCorrection_eq]; rfl
  have hue : u.entry? e.entry = some d := (entry?_congr (congrArg State.table hframe) _).trans hd
  have hul : (u.lane l).corrections = queuedIn (abortFor e.tag) (s.lane l).corrections := by
    have hlane := queueCorrection_lane l l (abortFor e.tag) s
    rw [if_pos rfl] at hlane
    rw [← hu]
    exact congrArg Lane.corrections hlane
  have hchildren : u.servedChildren e.entry = s.servedChildren e.entry := by
    rw [State.servedChildren, congrArg State.table hframe]
    rfl
  have hshrinks := Shrinks.retireWithChildren .failure e.entry u
  rw [hr]
  refine ⟨fun m later hsaid hroom => ?_, fun hstation hnone => ?_, fun hstation => ?_, retireWithChildren_closing .failure e.entry u,
    fun c hc hparent hserved => ?_, ?_, ?_, ?_⟩
  · obtain ⟨more, hmore⟩ := hshrinks.statusQueue
    obtain ⟨later', hlater⟩ := after_first (m := m) later hroom
    refine ⟨later' ++ more, ?_⟩
    rw [hmore, congrArg State.port hframe, hsaid]
    show (OrderPort.after (m :: later) s.port).statusQueue ++ more = _
    rw [hlater, List.append_assoc]
    rfl
  · rw [retireWithChildren_corrections .failure hue hstation hhome (hchildren.trans hnone), hul]
    rfl
  · rw [← htag]
    exact retireWithChildren_provisional .failure hue hstation hhome
  · by_cases hself : c.entry = e.entry
    · rw [hself]
      exact retireWithChildren_closing .failure e.entry u
    · refine retireWithChildren_children .failure (hchildren ▸ List.mem_map.mpr ⟨c, List.mem_filter.mpr ⟨hc, ?_⟩, rfl⟩)
      simp [hparent, hself, hserved]
  · rw [hshrinks.bus, congrArg State.bus hframe]
  · rw [hshrinks.boot, congrArg State.boot hframe]
  · rw [hshrinks.nodeTime, congrArg State.nodeTime hframe]

/-! ### A completed alignment -/

/-- A stream once its record is changed and its rings follow. -/
theorem updateEntry_turned {n : Nat} {e : Stream} {f : Stream → Stream} (hf : ∀ x, (f x).entry = x.entry) {s : State}
    (he : s.entry? n = some e) :
    (updateEntry n f s).entry? n = some { f e with deficit := if (updateEntry n f s).inSomeRing n then (f e).deficit else 0 } ∧
    (∀ m, m ≠ n → (updateEntry n f s).entry? m = s.entry? m) ∧
    (∀ k c, ((updateEntry n f s).ring k c).filter (fun m => m != n) = (s.ring k c).filter (fun m => m != n)) ∧
    (∀ k, (updateEntry n f s).lane k = { s.lane k with rings := ((updateEntry n f s).lane k).rings }) := by
  have hchanged : (modEntry n f s).entry? n = some (f e) := by
    rw [modEntry_entry n n f hf s, he]
    simp
  obtain ⟨hentry, hothers, hrings, -, hlanes, -⟩ := syncRings_turned hchanged
  unfold updateEntry
  generalize syncRings n (modEntry n f s) = u at *
  refine ⟨hentry, fun m hm => (hothers m hm).trans ?_, ring_filter_congr hrings, hlanes⟩
  rw [modEntry_entry n m f hf s]
  simp only [if_neg hm]
  cases s.entry? m <;> rfl

/-- A PROVISIONAL station in default service, before its message. -/
def alignedState (e : Stream) (l : LaneNo) (s : State) : State :=
  updateEntry e.entry (Stream.aligned s.params l)
    (modLane l (fun L => { L with provisional := L.provisional.filter fun t => t != e.tag }) s)

theorem completeAlignment_eq (e : Stream) (l : LaneNo) (s : State) :
    (∀ a, e.address = some a → completeAlignment e l s = queueStatus (.joined e.tag a l) (alignedState e l s)) ∧
    completeAlignment e l s = { alignedState e l s with port := (completeAlignment e l s).port } := by
  have heq : completeAlignment e l s = match e.address with
      | some a => queueStatus (.joined e.tag a l) (alignedState e l s)
      | none => alignedState e l s := rfl
  rw [heq]
  generalize alignedState e l s = u
  cases e.address with
  | none => exact ⟨fun _ h => absurd h (by simp), rfl⟩
  | some a =>
    refine ⟨fun b hb => ?_, ?_⟩
    · obtain rfl := Option.some.inj hb
      rfl
    · exact queueStatus_frame _ _

/-! ### A result leaves nothing to free -/

theorem tryFree_modAlignment {n : Nat} {e : Stream} (f : Alignment → Alignment) {s : State} (he : s.entry? n = some e)
    (hopen : e.state ≠ .closing) : tryFree n (modAlignment n f s) = modAlignment n f s := by
  refine tryFree_not_closing (e := { e with alignment := e.alignment.map f }) ?_ hopen
  rw [modAlignment_entry, he]
  simp

theorem tryFree_retireWithChildren (cause : RetireCause) (n : Nat) (s : State) :
    tryFree n (retireWithChildren cause n s) = retireWithChildren cause n s := tryFree_twice n _

theorem alignedState_entry {e d : Stream} {l : LaneNo} {s : State} (hd : s.entry? e.entry = some d) :
    (alignedState e l s).entry? e.entry = some { d.aligned s.params l with
      deficit := if (alignedState e l s).inSomeRing e.entry then d.deficit else 0 } := by
  obtain ⟨hentry, -⟩ := updateEntry_turned (f := Stream.aligned s.params l) (fun _ => rfl)
    (s := modLane l (fun L => { L with provisional := L.provisional.filter fun t => t != e.tag }) s) hd
  exact hentry

theorem tryFree_completeAlignment {e d : Stream} {l : LaneNo} {s : State} (hd : s.entry? e.entry = some d) :
    tryFree e.entry (completeAlignment e l s) = completeAlignment e l s := by
  have hentry := alignedState_entry (l := l) hd
  obtain ⟨-, hframe⟩ := completeAlignment_eq e l s
  generalize completeAlignment e l s = t at *
  generalize alignedState e l s = u at *
  have htable : t.table = u.table := by rw [hframe]
  refine tryFree_not_closing ((entry?_congr htable e.entry).trans hentry) ?_
  simp [Stream.aligned]

theorem tryFree_failAlignment (e : Stream) (l : LaneNo) (cause : JoinFail) (s : State) :
    tryFree e.entry (failAlignment e l cause s) = failAlignment e l cause s := tryFree_retireWithChildren .failure e.entry _

/-- The state once a GOOD result of a PROVISIONAL station is measured and reported (R120). -/
def measured (e : Stream) (l : LaneNo) (timing power : Int) (s : State) : State :=
  reportProbe l (modAlignment e.entry (fun a => { a with
    attempts := (e.alignment.map (·.attempts)).getD 0 + 1, emptyRun := 0, lastTiming := timing, lastPower := power }) s)

theorem provisionalGood_eq (e : Stream) (l : LaneNo) (timing power : Int) (s : State) : provisionalGood e l timing power s =
    if withinTolerance s.params timing power then
      completeAlignment e l (queueCorrection l (correctionFor e.tag .done timing power) (measured e l timing power s))
    else if (e.alignment.map (·.attempts)).getD 0 + 1 < 16 then
      queueCorrection l (correctionFor e.tag .cont timing power) (measured e l timing power s)
    else failAlignment e l .noConverge (measured e l timing power s) := by
  have hparams : (measured e l timing power s).params = s.params := by
    obtain ⟨-, hframe⟩ := reportProbe_frame l (modAlignment e.entry (fun a => { a with
      attempts := (e.alignment.map (·.attempts)).getD 0 + 1, emptyRun := 0, lastTiming := timing, lastPower := power }) s)
    rw [measured, State.params, hframe]
    rfl
  rw [← hparams]
  rfl

theorem measured_entry {e : Stream} {l : LaneNo} {timing power : Int} {s : State} (he : s.entry? e.entry = some e) :
    (measured e l timing power s).entry? e.entry = some { e with alignment := e.alignment.map fun a => { a with
      attempts := (e.alignment.map (·.attempts)).getD 0 + 1, emptyRun := 0, lastTiming := timing, lastPower := power } } := by
  rw [measured, reportProbe_entry, modAlignment_entry, he]
  simp

theorem tryFree_provisionalGood {e : Stream} {l : LaneNo} {s : State} (timing power : Int) (he : s.entry? e.entry = some e)
    (hopen : e.state ≠ .closing) :
    tryFree e.entry (provisionalGood e l timing power s) = provisionalGood e l timing power s := by
  have hentry := measured_entry (l := l) (timing := timing) (power := power) he
  rw [provisionalGood_eq]
  generalize measured e l timing power s = u at *
  split
  · exact tryFree_completeAlignment hentry
  · split
    · exact tryFree_not_closing hentry hopen
    · exact tryFree_failAlignment _ _ _ _

theorem tryFree_provisionalMissed {e : Stream} {l : LaneNo} {s : State} (empty : Bool) (he : s.entry? e.entry = some e)
    (hopen : e.state ≠ .closing) :
    tryFree e.entry (provisionalMissed e l empty s) = provisionalMissed e l empty s := by
  unfold provisionalMissed
  generalize (if empty then (e.alignment.map (·.emptyRun)).getD 0 + 1 else 0) = run
  dsimp only
  split
  · exact tryFree_failAlignment _ _ _ _
  · split
    · exact tryFree_failAlignment _ _ _ _
    · exact tryFree_modAlignment _ he hopen

theorem tryFree_maintenanceGood {e : Stream} {l : LaneNo} {s : State} (timing power : Int) (he : s.entry? e.entry = some e)
    (hopen : e.state ≠ .closing) :
    tryFree e.entry (maintenanceGood e l timing power s) = maintenanceGood e l timing power s := by
  have hentry : ∀ f, (modAlignment e.entry f s).entry? e.entry = some { e with alignment := e.alignment.map f } := fun f => by
    rw [modAlignment_entry, he]
    simp
  unfold maintenanceGood
  refine tryFree_not_closing (e := { e with alignment := e.alignment.map fun a =>
    { a with maintenanceEmpty := 0, lastTiming := timing, lastPower := power, maintenance := some s.params.maintenancePeriod } }) ?_ hopen
  rw [reportProbe_entry]
  split
  · exact hentry _
  · exact hentry _

theorem tryFree_maintenanceMissed {e : Stream} {l : LaneNo} {s : State} (he : s.entry? e.entry = some e)
    (hopen : e.state ≠ .closing) : tryFree e.entry (maintenanceMissed e l s) = maintenanceMissed e l s := by
  unfold maintenanceMissed
  dsimp only
  split
  · exact tryFree_retireWithChildren .failure e.entry _
  · exact tryFree_modAlignment _ he hopen

/-- A probe result of a stream that is not CLOSING leaves nothing more to free. -/
theorem tryFree_applyProbe {n : Nat} {e : Stream} (r : BurstResult) (timing power : Int) {s : State} (he : s.entry? n = some e)
    (hopen : e.state ≠ .closing) : tryFree n (applyProbe n r timing power s) = applyProbe n r timing power s := by
  have hn : e.entry = n := entry?_number he
  subst hn
  have hsame : tryFree e.entry s = s := tryFree_not_closing he hopen
  unfold applyProbe
  simp only [he]
  split
  · exact tryFree_provisionalGood timing power he hopen
  · exact tryFree_provisionalMissed true he hopen
  · exact tryFree_provisionalMissed false he hopen
  · exact tryFree_maintenanceGood timing power he hopen
  · exact tryFree_maintenanceGood timing power he hopen
  · exact tryFree_maintenanceMissed he hopen
  · exact tryFree_maintenanceMissed he hopen
  · exact tryFree_modAlignment _ he hopen
  · exact tryFree_modAlignment _ he hopen
  · exact hsame

end Sys2Proof.Machine
end

section
/-! PROOF. Expiring turn list entries (O22). -/

namespace Sys2Proof.Machine

theorem turnAt_spec {e : Stream} {l : LaneNo} {x : Slice} {u : Turn} (h : e.turnAt l x = some u) : u.lane = l ∧ u.start = x := by
  have hfound := List.find?_some h
  simpa using hfound

/-- The turns of a stream once the one on lane `l` at `x` has gone. -/
def Stream.kept (l : LaneNo) (x : Slice) (e : Stream) : List Turn := e.turns.filter fun v => !(v.lane == l && v.start == x)

theorem outcomeWaitStep_eq {n : Nat} {l : LaneNo} {x : Slice} {e : Stream} {u : Turn} {s : State} (he : s.entry? n = some e)
    (hu : e.turnAt l x = some u) : outcomeWaitStep n l x s =
      if countReached (sliceAdd u.stop s.params.outcomeWait) (s.lane u.lane).slice then
        tryFree n (handProbe n u .empty 0 0 (dropTurn n l x s)) else s := by
  simp only [outcomeWaitStep, he, Option.bind_some, hu]
  rfl

theorem dropped_entry {n : Nat} {l : LaneNo} {x : Slice} {e : Stream} {s : State} (he : s.entry? n = some e) :
    (dropTurn n l x s).entry? n = some { e with turns := e.kept l x } ∧
      ∀ m, m ≠ n → (dropTurn n l x s).entry? m = s.entry? m := by
  refine ⟨?_, fun m hm => ?_⟩
  · rw [dropTurn_entry, he]
    simp [Stream.kept]
  · rw [dropTurn_entry]
    simp only [if_neg hm]
    cases s.entry? m <;> rfl

/-- An entry that is no PROBE, or of a CLOSING stream, hands nothing over. -/
theorem handProbe_none {n : Nat} {e : Stream} {u : Turn} {s : State} (he : s.entry? n = some e)
    (h : ¬(u.kind = .probe ∧ e.state ≠ .closing)) (r : BurstResult) (timing power : Int) : handProbe n u r timing power s = s := by
  simp only [handProbe, he]
  exact if_neg h

theorem handProbe_some {n : Nat} {e : Stream} {u : Turn} {s : State} (he : s.entry? n = some e) (hk : u.kind = .probe)
    (hopen : e.state ≠ .closing) (r : BurstResult) (timing power : Int) :
    handProbe n u r timing power s = probeResult n u.lane u.start r timing power s := by
  simp only [handProbe, he]
  exact if_pos ⟨hk, hopen⟩

theorem probeOut_eq {n : Nat} {e : Stream} {s : State} (he : s.entry? n = some e) :
    s.probeOut n = e.alignment.bind (·.probeOut) := by simp [State.probeOut, he]

theorem probeResult_none {n : Nat} {e : Stream} {l : LaneNo} {x : Slice} {s : State} (he : s.entry? n = some e)
    (h : ∀ a p, e.alignment = some a → a.probeOut = some p → p.lane ≠ l ∨ p.start ≠ x) (r : BurstResult) (timing power : Int) :
    probeResult n l x r timing power s = s := by
  cases hp : s.probeOut n with
  | none => simp only [probeResult, hp]
  | some p =>
    rw [probeOut_eq he] at hp
    obtain ⟨a, ha, hap⟩ := Option.bind_eq_some_iff.mp hp
    have hno : ¬(p.lane = l ∧ p.start = x) := fun ⟨hl, hx⟩ => (h a p ha hap).elim (fun h => h hl) fun h => h hx
    rw [← probeOut_eq he] at hp
    simp only [probeResult, hp, if_neg hno]

theorem probeResult_some {n : Nat} {e : Stream} {a : Alignment} {p : ProbeOut} {s : State} (he : s.entry? n = some e)
    (ha : e.alignment = some a) (hp : a.probeOut = some p) (r : BurstResult) (timing power : Int) :
    probeResult n p.lane p.start r timing power s = applyProbe n r timing power (clearProbe n s) := by
  have hout : s.probeOut n = some p := by simp [probeOut_eq he, ha, hp]
  simp only [probeResult, hout, and_self, if_true]

theorem clearProbe_entry {n : Nat} {e : Stream} {s : State} (he : s.entry? n = some e) :
    (clearProbe n s).entry? n = some { e with alignment := e.alignment.map fun a => { a with probeOut := none } } ∧
      ∀ m, m ≠ n → (clearProbe n s).entry? m = s.entry? m := by
  refine ⟨?_, fun m hm => ?_⟩
  · rw [clearProbe, modAlignment_entry, he]
    simp
  · rw [clearProbe, modAlignment_entry]
    simp only [if_neg hm]
    cases s.entry? m <;> rfl

/-! ### The last entry of a CLOSING stream -/

/-- A CLOSING stream that may not become FREE stays. -/
theorem tryFree_busy {n : Nat} {e : Stream} {s : State} (he : s.entry? n = some e)
    (h : e.turns ≠ [] ∨ e.parent = n ∧ ∃ c ∈ s.table, c.parent = n ∧ c.entry ≠ n) : tryFree n s = s := by
  have hn : e.entry = n := entry?_number he
  have hmay : s.mayFree e = false := by
    obtain hturns | ⟨hparent, c, hc, hcp, hce⟩ := h
    · simp [State.mayFree, hturns]
    · have hany : (s.table.any fun c => c.parent == e.entry && c.entry != e.entry) = true :=
        List.any_eq_true.mpr ⟨c, hc, by simp [hn, hcp, hce]⟩
      rw [State.mayFree, hany, Stream.isStation, hparent, hn]
      simp
  simp only [tryFree, he, hmay, Bool.false_eq_true, if_false]

theorem freeOne_lookupTag {m tag : Nat} {s : State} (h : s.lookupTag tag = none) : (freeOne m s).lookupTag tag = none := by
  unfold freeOne
  split
  · split
    · next d _ _ =>
      rw [freeEntry_eq]
      simp only [State.lookupTag, Option.map_eq_none_iff, List.find?_eq_none] at h ⊢
      exact fun p hp => h p (List.mem_of_mem_filter hp)
    · exact h
  · exact h

theorem freeOne_frame (m : Nat) (s : State) : freeOne m s = { s with
    table := (freeOne m s).table, tagMap := (freeOne m s).tagMap, pool := (freeOne m s).pool, builder := (freeOne m s).builder,
    port := (freeOne m s).port } := by
  unfold freeOne
  split
  · split
    · rw [freeEntry_eq]
    · rfl
  · rfl

theorem tryFree_frame (m : Nat) (s : State) : tryFree m s = { s with
    table := (tryFree m s).table, tagMap := (tryFree m s).tagMap, pool := (tryFree m s).pool, builder := (tryFree m s).builder,
    port := (tryFree m s).port } := by
  obtain h | ⟨e, -, -, h, -⟩ := tryFree_cases m s
  · rw [h]
  · rw [h, freeOne_frame, freeEntry_eq]

/-- A CLOSING stream with nothing left becomes FREE, with RETIRED. -/
theorem tryFree_free {n : Nat} {e : Stream} {s : State} (he : s.entry? n = some e) (hclosing : e.state = .closing)
    (hturns : e.turns = []) (hchildren : e.parent = n → ∀ c ∈ s.table, c.parent = n → c.entry = n) :
    (tryFree n s).entry? n = none ∧ (tryFree n s).lookupTag e.tag = none ∧
      (s.port.statusQueue.length < 32 → ∃ more, (tryFree n s).port.statusQueue = s.port.statusQueue ++ (.retired e.tag :: more)) := by
  have hn : e.entry = n := entry?_number he
  have hmay : s.mayFree e = true := by
    by_cases hstation : e.parent = n
    · have hnone : (s.table.any fun c => c.parent == n && c.entry != n) = false := by
        rw [List.any_eq_false]
        intro c hc
        simp only [Bool.and_eq_true, beq_iff_eq, bne_iff_ne, not_and, not_not]
        exact hchildren hstation c hc
      simp [State.mayFree, hclosing, hturns, hn, hnone]
    · simp [State.mayFree, hclosing, hturns, hn, Stream.isStation, hstation]
  have hfree : tryFree n s = freeOne e.parent (freeEntry e s) := by simp only [tryFree, he, hmay, if_true]
  have hgone : (freeEntry e s).entry? n = none := by rw [freeEntry_entry, if_pos hn.symm]
  have huntagged : (freeEntry e s).lookupTag e.tag = none := by
    rw [freeEntry_eq]
    simp only [State.lookupTag, Option.map_eq_none_iff, List.find?_eq_none]
    intro p hp
    simpa using (List.mem_filter.mp hp).2
  rw [hfree]
  refine ⟨freeOne_none _ hgone, freeOne_lookupTag huntagged, fun hroom => ?_⟩
  obtain ⟨more, hmore⟩ := (Shrinks.freeOne e.parent (freeEntry e s)).statusQueue
  refine ⟨more, ?_⟩
  rw [hmore, freeEntry_eq, after_room hroom]
  exact List.append_assoc _ [_] _

/-- Settles O22, by the kind of the entry and the state of its stream. -/
theorem expiryRemovesEntryOnly : Obligations.ExpiryRemovesEntryOnly := by
  intro n l x e u s he hu due kept
  have hstep : exec (.outcomeWaitExpiry n l x) s = .next (if due then tryFree n (handProbe n u .empty 0 0 (dropTurn n l x s)) else s) :=
    congrArg Host.Outcome.next (outcomeWaitStep_eq he hu)
  obtain ⟨hl, hx⟩ := turnAt_spec hu
  obtain ⟨hentry, hothers⟩ := dropped_entry (l := l) (x := x) he
  refine ⟨fun hdue => ?_, fun hdue hk hopen => ?_, fun hdue hk hopen => ?_, fun hdue hclosing => ?_⟩
  · rw [hstep, hdue]
    rfl
  · rw [hdue, if_pos rfl, handProbe_none hentry (fun h => hk h.1), tryFree_not_closing hentry hopen] at hstep
    exact ⟨_, hstep, hentry, hothers, rfl⟩
  · rw [hdue, if_pos rfl, handProbe_some hentry hk hopen, hl, hx] at hstep
    by_cases hmine : ∃ a p, e.alignment = some a ∧ a.probeOut = some p ∧ p.lane = l ∧ p.start = x
    · obtain ⟨a, p, ha, hp, rfl, rfl⟩ := hmine
      obtain ⟨hcleared, hcothers⟩ := clearProbe_entry hentry
      rw [probeResult_some hentry ha hp, tryFree_applyProbe .empty 0 0 hcleared hopen] at hstep
      refine ⟨clearProbe n (dropTurn n p.lane p.start s), _, hcleared, rfl, fun m hm => (hcothers m hm).trans (hothers m hm), rfl,
        fun a' p' ha' hp' _ _ => ⟨?_, hstep⟩, fun hno => ?_⟩
      · show Option.map _ e.alignment = _
        rw [ha']
        rfl
      · exact absurd rfl ((hno a p ha hp).elim (fun h => absurd rfl h) id)
    · have hno : ∀ a p, e.alignment = some a → a.probeOut = some p → p.lane ≠ l ∨ p.start ≠ x := fun a p ha hp => by
        by_contra hboth
        rw [not_or, not_not, not_not] at hboth
        exact hmine ⟨a, p, ha, hp, hboth⟩
      rw [probeResult_none hentry hno, tryFree_not_closing hentry hopen] at hstep
      exact ⟨_, _, hentry, rfl, hothers, rfl, fun a p ha hp hpl hpx => absurd ⟨a, p, ha, hp, hpl, hpx⟩ hmine, fun _ => ⟨rfl, hstep⟩⟩
  · rw [hdue, if_pos rfl, handProbe_none hentry (fun h => h.2 hclosing)] at hstep
    have hchild : ∀ c, c ∈ s.table → ∃ c' ∈ (dropTurn n l x s).table, c'.parent = c.parent ∧ c'.entry = c.entry := fun c hc =>
      ⟨_, List.mem_map.mpr ⟨c, hc, rfl⟩, by split <;> rfl, by split <;> rfl⟩
    have hback : ∀ c' ∈ (dropTurn n l x s).table, ∃ c ∈ s.table, c'.parent = c.parent ∧ c'.entry = c.entry := fun c' hc' => by
      obtain ⟨c, hc, rfl⟩ := List.mem_map.mp hc'
      exact ⟨c, hc, by split <;> rfl, by split <;> rfl⟩
    refine ⟨_, hstep, fun hbusy => ?_, fun hkept hchildren => ?_, ?_⟩
    · have hstays : tryFree n (dropTurn n l x s) = dropTurn n l x s := by
        refine tryFree_busy hentry (hbusy.imp id fun ⟨hparent, c, hc, hcp, hce⟩ => ⟨hparent, ?_⟩)
        obtain ⟨c', hc', hp', he'⟩ := hchild c hc
        exact ⟨c', hc', hp'.trans hcp, he' ▸ hce⟩
      rw [hstays]
      exact ⟨hentry, hothers, rfl⟩
    · refine tryFree_free (e := { e with turns := e.kept l x }) hentry hclosing hkept fun hparent c' hc' hp' => ?_
      obtain ⟨c, hc, hcp, hce⟩ := hback c' hc'
      exact hce.trans (hchildren hparent c hc (hcp ▸ hp'))
    · rw [tryFree_frame]
      rfl

end Sys2Proof.Machine
end

section
/-! PROOF. Matched burst outcomes: what each does first (R50, R57, R58). -/

namespace Sys2Proof.Machine

/-- The monitor counts of a lane after a matched outcome (R58). -/
def Health.outcomeCounted (u : Turn) (r : BurstResult) (h : Health) : Health := { h with
  emptyCount := if r = .empty ∧ u.stale = false then min (h.emptyCount + 1) 65535 else h.emptyCount,
  damageCount := if r = .damaged then min (h.damageCount + 1) 65535 else h.damageCount }

theorem modHealth_congr {l : LaneNo} {f g : Health → Health} {s : State} (h : f (s.lane l).health = g (s.lane l).health) :
    modHealth l f s = modHealth l g s := modLane_congr (congrArg (fun x => { s.lane l with health := x }) h)

theorem countOutcome_eq (l : LaneNo) (u : Turn) (r : BurstResult) (s : State) :
    countOutcome l u r s = modHealth l (Health.outcomeCounted u r) s := by
  have hkept : Health.outcomeCounted u r (s.lane l).health = (s.lane l).health → s = modHealth l (Health.outcomeCounted u r) s :=
    fun h => (modLane_of_fixed (by rw [h])).symm
  cases r with
  | good => exact hkept (by simp [Health.outcomeCounted])
  | collided => exact hkept (by simp [Health.outcomeCounted])
  | damaged =>
    refine modHealth_congr (f := fun h => { h with damageCount := satAdd 65535 h.damageCount 1 }) ?_
    simp [Health.outcomeCounted, satAdd]
  | empty =>
    cases hstale : u.stale with
    | true =>
      rw [countOutcome, hstale]
      exact hkept (by simp [Health.outcomeCounted, hstale])
    | false =>
      rw [countOutcome, hstale]
      refine modHealth_congr (f := fun h => { h with emptyCount := satAdd 65535 h.emptyCount 1 }) ?_
      simp [Health.outcomeCounted, hstale, satAdd]

/-- The state once the record has left the FIFO, its entry the turn list, and the monitors have counted. -/
def resolved (l : LaneNo) (rest : List LaneRecord) (e : Stream) (u : Turn) (r : BurstResult) (s : State) : State :=
  countOutcome l u r (dropTurn e.entry l u.start (modLane l (fun L => { L with fifo := rest }) s))

theorem resolved_spec {l : LaneNo} {rest : List LaneRecord} {e : Stream} {u : Turn} {r : BurstResult} {s : State}
    (he : s.entry? e.entry = some e) :
    (resolved l rest e u r s).entry? e.entry = some { e with turns := e.kept l u.start } ∧
    (∀ n, n ≠ e.entry → (resolved l rest e u r s).entry? n = s.entry? n) ∧
    (resolved l rest e u r s).lane l = { s.lane l with fifo := rest, health := (s.lane l).health.outcomeCounted u r } ∧
    (∀ k, k ≠ l → (resolved l rest e u r s).lane k = s.lane k) ∧
    resolved l rest e u r s = { s with lanes := (resolved l rest e u r s).lanes, table := (resolved l rest e u r s).table } := by
  obtain ⟨hentry, hothers⟩ := dropped_entry (l := l) (x := u.start) (s := modLane l (fun L => { L with fifo := rest }) s) he
  have hlane : ∀ k, (dropTurn e.entry l u.start (modLane l (fun L => { L with fifo := rest }) s)).lane k =
      if k = l then { s.lane l with fifo := rest } else s.lane k := fun k =>
    modLane_lane l k (fun L => { L with fifo := rest }) s
  rw [resolved, countOutcome_eq]
  refine ⟨hentry, hothers, ?_, fun k hk => ?_, rfl⟩
  · rw [modHealth_lane, if_pos rfl, hlane, if_pos rfl]
  · rw [modHealth_lane, if_neg hk, hlane, if_neg hk]

/-- An outcome that matches a turn list entry is resolved, and then applied to a stream that is not CLOSING. -/
theorem exec_burstOutcome_matched {l : LaneNo} {w : LaneRecord} {rest : List LaneRecord} {e : Stream} {u : Turn} {s : State}
    (hfifo : (s.lane l).fifo = w :: rest) (htype : recordType w = 2) (htag : recordTag w < 16382)
    (he : s.byTag (recordTag w) = some e) (hu : e.turnAt l (outcomeStart w) = some u) (hr : outcomeResult w ≠ .collided) :
    (e.state = .closing → exec (.burstOutcome l) s =
      .next (tryFree e.entry (resolved l rest e u (outcomeResult w) s))) ∧
    (e.state ≠ .closing → exec (.burstOutcome l) s = .next (tryFree e.entry (handOutcome e u (outcomeResult w) (outcomeTiming w)
      (outcomePower w) (streamOutcome e u (outcomeResult w) (resolved l rest e u (outcomeResult w) s))))) := by
  have hregion : ¬(recordTag w = Config.anyTag ∨ recordTag w = Config.newcomer) := by
    simp only [Config.anyTag, Config.newcomer]
    omega
  have hpopped : (modLane l (fun L => { L with fifo := rest }) s).byTag (recordTag w) = some e := he
  have hstep : exec (.burstOutcome l) s = .next (matchedOutcome l e u (outcomeResult w) (outcomeTiming w) (outcomePower w)
      (modLane l (fun L => { L with fifo := rest }) s)) := by
    rw [exec_burstOutcome_of_fifo hfifo htype]
    simp only [takeOutcome, if_neg hregion, if_neg hr, hpopped, hu]
  rw [hstep]
  exact ⟨fun h => congrArg (fun v => Host.Outcome.next (tryFree e.entry v)) (if_pos h),
    fun h => congrArg (fun v => Host.Outcome.next (tryFree e.entry v)) (if_neg h)⟩

end Sys2Proof.Machine
end

section
/-! PROOF. Probe results (O23). -/

namespace Sys2Proof.Machine

/-! ### The report of a GOOD probe -/

/-- An offered notice that finds no other of its kind, and room, stands in the holder or the queue. -/
theorem NoticeOffered.joins {same : Notice → Bool} {owes : Option LaneNo} {note : Notice} {s t : State}
    (h : NoticeOffered same owes note s t) (ha : s.bus.state = .active) (hnone : ∀ x ∈ s.bus.queue, same x = false)
    (hl : s.bus.queue.length < 64) : note ∈ t.bus.holder.toList ++ t.bus.queue := by
  obtain ⟨-, hroom⟩ := (h.2 ha).2 hnone
  obtain ⟨hheld, hempty⟩ := hroom hl
  cases hh : s.bus.holder with
  | some n =>
    rw [(hheld (by simp [hh])).1]
    simp
  | none =>
    obtain ⟨owed, hb, -⟩ := hempty hh
    rw [hb]
    cases s.bus.queue <;> simp

/-- The state of a lane that enters LIVE by its good probes, its message queued, before its notice. -/
def enteringLive (l : LaneNo) (v : State) : State :=
  queueStatus (.laneState l .live .rampDone)
    (liveLane l (modHealth l (fun h => { h with goodProbes := min (h.goodProbes + 1) 255 }) v))

theorem enteringLive_lane (l k : LaneNo) (v : State) : (enteringLive l v).lane k = if k = l then { v.lane l with
    health := { (v.lane l).health with state := .live, goodProbes := min ((v.lane l).health.goodProbes + 1) 255 } }
    else v.lane k := by
  rw [enteringLive, queueStatus_lane, liveLane, modHealth_lane, modHealth_lane, modHealth_lane, if_pos rfl]
  split
  · rfl
  · rfl

theorem enteringLive_frame (l : LaneNo) (v : State) : enteringLive l v = { v with
    lanes := (enteringLive l v).lanes, port := v.port.after [.laneState l .live .rampDone] } := by
  rw [enteringLive, queueStatus_after]
  rfl

/-! ### Which rule applies to a result -/

section
variable {n : Nat} {e : Stream} {a : Alignment} {l : LaneNo} {v : State}

theorem homeLane_of_place (h : e.place = .home l) : e.homeLane = some l := by simp [Stream.homeLane, h]

theorem applyProbe_provisional (he : v.entry? n = some e) (hl : e.place = .home l) (hs : e.state = .provisional)
    (timing power : Int) :
    applyProbe n .good timing power v = provisionalGood e l timing power v ∧
    applyProbe n .empty timing power v = provisionalMissed e l true v ∧
    applyProbe n .damaged timing power v = provisionalMissed e l false v := by
  have hh := homeLane_of_place hl
  refine ⟨?_, ?_, ?_⟩ <;> simp only [applyProbe, he, hh, hs]

theorem applyProbe_served (he : v.entry? n = some e) (hl : e.place = .home l) (hs : e.served = true) (timing power : Int) :
    applyProbe n .good timing power v = maintenanceGood e l timing power v ∧
    applyProbe n .empty timing power v = maintenanceMissed e l v ∧
    applyProbe n .damaged timing power v = maintenanceDamaged e v := by
  have hh := homeLane_of_place hl
  have hstates : e.state = .basic ∨ e.state = .admitted := by simpa [Stream.served] using hs
  obtain hb | hd := hstates
  · refine ⟨?_, ?_, ?_⟩ <;> simp only [applyProbe, he, hh, hb]
  · refine ⟨?_, ?_, ?_⟩ <;> simp only [applyProbe, he, hh, hd]

/-! ### Results of a PROVISIONAL station -/

/-- An EMPTY or DAMAGED result counts an attempt, and fails the station at either limit. -/
theorem provisionalMissed_eq (ha : e.alignment = some a) (empty : Bool) (v : State) :
    let run := if empty then a.emptyRun + 1 else 0
    let counted := modAlignment e.entry (fun x => { x with attempts := a.attempts + 1, emptyRun := run }) v
    provisionalMissed e l empty v = if run ≥ 4 then failAlignment e l .silent counted
      else if a.attempts + 1 ≥ 16 then failAlignment e l .noConverge counted else counted := by
  simp only [provisionalMissed, ha, Option.map_some, Option.getD_some]
  rfl

theorem servedChildren_map {g : Stream → Stream} (hg : ∀ c, (g c).parent = c.parent ∧ (g c).entry = c.entry ∧ (g c).served = c.served)
    {u v : State} (h : u.table = v.table.map g) (m : Nat) : u.servedChildren m = v.servedChildren m := by
  unfold State.servedChildren
  rw [h, List.filter_map, List.map_map]
  have hparent : ∀ c, (g c).parent = c.parent := fun c => (hg c).1
  have hentry : ∀ c, (g c).entry = c.entry := fun c => (hg c).2.1
  have hserved : ∀ c, (g c).served = c.served := fun c => (hg c).2.2
  simp [Function.comp_def, hparent, hentry, hserved]

theorem servedChildren_modAlignment (n m : Nat) (f : Alignment → Alignment) (v : State) :
    (modAlignment n f v).servedChildren m = v.servedChildren m :=
  servedChildren_map (g := fun c => if c.entry == n then { c with alignment := c.alignment.map f } else c)
    (fun c => by split <;> exact ⟨rfl, rfl, rfl⟩) rfl m

/-- What a failed alignment does (R123). -/
def Failed (e : Stream) (l : LaneNo) (cause : JoinFail) (y t : State) : Prop :=
  (∀ x, e.address = some x → y.port.statusQueue.length < 32 →
    ∃ more, t.port.statusQueue = y.port.statusQueue ++ (.joinFailed x l cause :: more)) ∧
  (y.servedChildren e.entry = [] → (t.lane l).corrections = queuedIn (abortFor e.tag) (y.lane l).corrections) ∧
  e.tag ∉ (t.lane l).provisional ∧ (∀ e', t.entry? e.entry = some e' → e'.state = .closing) ∧ t.bus = y.bus ∧
  t.boot = y.boot ∧ t.nodeTime = y.nodeTime

theorem failAlignment_failed {d : Stream} {cause : JoinFail} {y : State} (hd : v.entry? e.entry = some d)
    (htag : d.tag = e.tag) (hhome : d.place = .home l) (hstation : d.parent = e.entry)
    (hchildren : v.servedChildren e.entry = y.servedChildren e.entry) (hframe : v = { y with table := v.table }) :
    Failed e l cause y (failAlignment e l cause v) := by
  have hself : d.isStation = true := by
    rw [Stream.isStation, hstation, entry?_number hd]
    exact beq_self_eq_true _
  obtain ⟨hsaid, hcorrections, hprovisional, hclosing, -, hbus, hboot, htime⟩ :=
    retiredFor_spec (e.address.toList.map fun a => .joinFailed a l cause) hd rfl htag hhome
  rw [failAlignment_eq]
  have hport : v.port = y.port := ((congrArg State.port hframe).trans rfl)
  have hlanes : v.lane l = y.lane l := (congrArg (fun s => State.lane s l) hframe).trans rfl
  refine ⟨fun x hx hroom => ?_, fun hnone => ?_, hprovisional hself, hclosing, ?_, ?_, ?_⟩
  · rw [← hport] at hroom ⊢
    exact hsaid (.joinFailed x l cause) [] (by rw [hx]; rfl) hroom
  · rw [hcorrections hself (hchildren.trans hnone), hlanes]
  · exact hbus.trans (((congrArg State.bus hframe).trans rfl))
  · exact hboot.trans (((congrArg State.boot hframe).trans rfl))
  · exact htime.trans (((congrArg State.nodeTime hframe).trans rfl))

/-! ### A completed alignment -/

/-- A stream whose record meets no ring is in none afterwards. -/
theorem updateEntry_apart {f : Stream → Stream} (hf : ∀ x, (f x).entry = x.entry) (he : v.entry? n = some e)
    (hno : ∀ k c, (modEntry n f v).meetsRing (f e) k c = false) :
    (updateEntry n f v).inSomeRing n = false ∧ ∀ k c, n ∉ (updateEntry n f v).ring k c := by
  have hchanged : (modEntry n f v).entry? n = some (f e) := by
    rw [modEntry_entry n n f hf v, he]
    simp
  have hrings : ∀ k j, n ∉ ((updateEntry n f v).lane k).ring j := fun k j => by
    rw [updateEntry, (syncRings_spec n (modEntry n f v)).1, hchanged, Option.any_some, hno]
    exact fun h => by simp [ringFor] at h
  refine ⟨?_, fun k c => ?_⟩
  · rw [Bool.eq_false_iff, Ne, State.inSomeRing_iff]
    rintro ⟨k, j, h⟩
    exact hrings k j h
  · unfold State.ring
    cases ringIndex c with
    | none => exact List.not_mem_nil
    | some j => exact hrings k j

/-- What a completed alignment does (R122). -/
theorem completeAlignment_spec {d : Stream} {s : State} (hd : s.entry? e.entry = some d) (hhome : d.place = .home l) :
    ∃ e', (completeAlignment e l s).entry? e.entry = some e' ∧ e' = { d.aligned s.params l with deficit := e'.deficit } ∧
      (d.demand = 0 → e'.deficit = 0 ∧ ∀ k c, e.entry ∉ (completeAlignment e l s).ring k c) ∧
      (∀ k c, ((completeAlignment e l s).ring k c).filter (fun m => m != e.entry) = (s.ring k c).filter (fun m => m != e.entry)) ∧
      (completeAlignment e l s).lane l = { s.lane l with
        provisional := (s.lane l).provisional.filter (fun t => t != e.tag), rings := ((completeAlignment e l s).lane l).rings } ∧
      (∀ k, k ≠ l → (completeAlignment e l s).lane k = { s.lane k with rings := ((completeAlignment e l s).lane k).rings }) ∧
      (∀ x, e.address = some x → s.port.statusQueue.length < 32 → (completeAlignment e l s).port = { s.port with
        statusQueue := s.port.statusQueue ++ [.joined e.tag x l] }) ∧
      (∀ m, m ≠ e.entry → (completeAlignment e l s).entry? m = s.entry? m) ∧
      completeAlignment e l s = { s with
        lanes := (completeAlignment e l s).lanes, table := (completeAlignment e l s).table, port := (completeAlignment e l s).port } := by
  obtain ⟨hsaid, hstate⟩ := completeAlignment_eq e l s
  generalize hp : modLane l (fun L => { L with provisional := L.provisional.filter fun t => t != e.tag }) s = p at *
  have hpe : p.entry? e.entry = some d := by rw [← hp]; exact hd
  have hplane : ∀ k, p.lane k = if k = l then { s.lane l with
      provisional := (s.lane l).provisional.filter fun t => t != e.tag } else s.lane k := fun k => by
    rw [← hp]
    exact modLane_lane l k (fun L => { L with provisional := L.provisional.filter fun t => t != e.tag }) s
  have hpframe : p = { s with lanes := p.lanes } := by rw [← hp]; rfl
  have hu : alignedState e l s = updateEntry e.entry (Stream.aligned s.params l) p := by rw [← hp]; rfl
  have hf : ∀ x, (Stream.aligned s.params l x).entry = x.entry := fun _ => rfl
  obtain ⟨hentry, hothers, hrings, hlanes⟩ := updateEntry_turned hf hpe
  have hframe := updateEntry_frame e.entry (Stream.aligned s.params l) p
  have hapart : d.demand = 0 → _ := fun hzero => updateEntry_apart (n := e.entry) hf hpe fun k c => by
    have hplace : (d.aligned s.params l).place = .home l := hhome
    simp [State.meetsRing, State.available, hplace, show (d.aligned s.params l).demand = 0 from hzero]
  rw [← hu] at hentry hothers hrings hlanes hframe hapart
  generalize alignedState e l s = u at *
  generalize completeAlignment e l s = t at *
  have htlane : ∀ k, t.lane k = u.lane k := fun k => (congrArg (fun v => State.lane v k) hstate).trans rfl
  have htentry : ∀ m, t.entry? m = u.entry? m := fun m => entry?_congr ((congrArg State.table hstate).trans rfl) m
  have htring : ∀ k c, t.ring k c = u.ring k c := fun k c => (congrArg (fun v => State.ring v k c) hstate).trans rfl
  have hplanes : ∀ k c, (p.ring k c) = s.ring k c := fun k c => by
    unfold State.ring
    rw [hplane]
    split
    · split
      · next h => rw [h]; rfl
      · rfl
    · rfl
  refine ⟨_, (htentry _).trans hentry, rfl, fun hzero => ?_, fun k c => ?_, ?_, fun k hk => ?_, fun x hx hroom => ?_, fun m hm => ?_, ?_⟩
  · obtain ⟨hin, hnone⟩ := hapart hzero
    refine ⟨by rw [hin]; rfl, fun k c => ?_⟩
    rw [htring]
    exact hnone k c
  · rw [htring, hrings, hplanes]
  · rw [htlane, hlanes, hplane, if_pos rfl]
  · rw [htlane, hlanes, hplane, if_neg hk]
  · have hup : u.port = s.port := ((congrArg State.port hframe).trans rfl).trans ((congrArg State.port hpframe).trans rfl)
    rw [← hup] at hroom ⊢
    rw [hsaid x hx]
    exact queueStatus_room hroom
  · rw [htentry, hothers m hm]
    exact entry?_congr ((congrArg State.table hpframe).trans rfl) m
  · rw [hstate, hframe, hpframe]

/-! ### Results of a served station -/

/-- What the loss of a station does (R125). -/
theorem loseStation_spec {d : Stream} {u : State} (hd : u.entry? e.entry = some d) (htag : d.tag = e.tag) (hhome : d.place = .home l)
    (hparent : d.parent = e.parent) (f : Alignment → Alignment) (hu : u = modAlignment e.entry f v) :
    (v.port.statusQueue.length < 32 →
      ∃ more, (loseStation e l u).port.statusQueue = v.port.statusQueue ++ (.stationLost e.tag .silent :: more)) ∧
    (e.parent = e.entry → v.servedChildren e.entry = [] →
      ((loseStation e l u).lane l).corrections = queuedIn (abortFor e.tag) (v.lane l).corrections) ∧
    (∀ e', (loseStation e l u).entry? e.entry = some e' → e'.state = .closing) ∧
    (∀ c ∈ v.table, c.parent = e.entry → c.served = true → ∀ c', (loseStation e l u).entry? c.entry = some c' → c'.state = .closing) ∧
    (loseStation e l u).bus = v.bus ∧ (loseStation e l u).boot = v.boot ∧ (loseStation e l u).nodeTime = v.nodeTime := by
  obtain ⟨hsaid, hcorrections, -, hclosing, hchildren, hbus, hboot, htime⟩ :=
    retiredFor_spec [.stationLost e.tag .silent] hd rfl htag hhome
  rw [loseStation_eq]
  subst hu
  refine ⟨hsaid _ [] rfl, fun hstation hnone => ?_, hclosing, fun c hc hcp hcs => ?_, hbus, hboot, htime⟩
  · have hself : d.isStation = true := by
      rw [Stream.isStation, hparent, hstation, entry?_number hd]
      exact beq_self_eq_true _
    exact hcorrections hself ((servedChildren_modAlignment _ _ _ _).trans hnone)
  · have hchild := hchildren (if c.entry == e.entry then { c with alignment := c.alignment.map f } else c)
      (List.mem_map.mpr ⟨c, hc, rfl⟩) (by split <;> exact hcp) (by split <;> exact hcs)
    have hsame : (if c.entry == e.entry then { c with alignment := c.alignment.map f } else c : Stream).entry = c.entry := by
      split <;> rfl
    rwa [hsame] at hchild

/-- A GOOD maintenance probe, before its report. -/
theorem maintenanceGood_eq (timing power : Int) (he : v.entry? e.entry = some e) (ha : e.alignment = some a) :
    ∃ u, maintenanceGood e l timing power v = reportProbe l u ∧
      u.entry? e.entry = some { e with alignment := some { a with
        maintenanceEmpty := 0, lastTiming := timing, lastPower := power, maintenance := some v.params.maintenancePeriod } } ∧
      (∀ m, m ≠ e.entry → u.entry? m = v.entry? m) ∧
      (withinTolerance v.params timing power = true → u.lanes = v.lanes) ∧
      (withinTolerance v.params timing power = false →
        u.lane l = { v.lane l with corrections := queuedIn (correctionFor e.tag .cont timing power) (v.lane l).corrections } ∧
        ∀ k, k ≠ l → u.lane k = v.lane k) ∧
      u = { v with table := u.table, lanes := u.lanes } := by
  generalize hf : (fun x : Alignment => { x with
    maintenanceEmpty := 0, lastTiming := timing, lastPower := power, maintenance := some v.params.maintenancePeriod }) = f
  have hfa : f a = { a with
      maintenanceEmpty := 0, lastTiming := timing, lastPower := power, maintenance := some v.params.maintenancePeriod } := by rw [← hf]
  have heq : maintenanceGood e l timing power v = reportProbe l (if withinTolerance v.params timing power then modAlignment e.entry f v
      else queueCorrection l (correctionFor e.tag .cont timing power) (modAlignment e.entry f v)) := by
    rw [← hf]
    rfl
  have hentry : (modAlignment e.entry f v).entry? e.entry = some { e with alignment := some (f a) } := by
    rw [modAlignment_entry, he]
    simp [ha]
  have hothers : ∀ m, m ≠ e.entry → (modAlignment e.entry f v).entry? m = v.entry? m := fun m hm => by
    rw [modAlignment_entry]
    simp only [if_neg hm]
    cases v.entry? m <;> rfl
  refine ⟨_, heq, ?_⟩
  rw [← hfa]
  cases withinTolerance v.params timing power with
  | true => exact ⟨hentry, hothers, fun _ => rfl, fun h => absurd h (by simp), rfl⟩
  | false =>
    refine ⟨hentry, hothers, fun h => absurd h (by simp), fun _ => ⟨?_, fun k hk => ?_⟩, ?_⟩
    · exact (queueCorrection_lane l l _ _).trans (if_pos rfl)
    · exact (queueCorrection_lane l k _ _).trans (if_neg hk)
    · rw [if_neg (by simp), queueCorrection_eq]
      rfl

end

end Sys2Proof.Machine
end

section
/-! PROOF. Probe deadlines, probe outcomes and their results (O23). -/

namespace Sys2Proof.Machine

section
variable {n : Nat} {e : Stream} {a : Alignment} {p : ProbeOut} {l : LaneNo} {s : State}

theorem modAlignment_at (f : Alignment → Alignment) (he : s.entry? n = some e) :
    (modAlignment n f s).entry? n = some { e with alignment := e.alignment.map f } ∧
      ∀ m, m ≠ n → (modAlignment n f s).entry? m = s.entry? m := by
  refine ⟨?_, fun m hm => ?_⟩
  · rw [modAlignment_entry, he]
    simp
  · rw [modAlignment_entry]
    simp only [if_neg hm]
    cases s.entry? m <;> rfl

theorem withinTolerance_iff (q : Params) (timing power : Int) : withinTolerance q timing power = true ↔
    timing.natAbs ≤ q.timingTolerance ∧ power.natAbs ≤ q.powerTolerance := by simp [withinTolerance]

/-! ### The deadline -/

theorem probeDeadline_exec (he : s.entry? n = some e) (ha : e.alignment = some a) (hp : a.probeOut = some p) :
    exec (.probeDeadline n) s = .next (if countReached (sliceAdd p.stop s.params.outcomeWait) (s.lane p.lane).slice then
      applyProbe n .empty 0 0 (clearProbe n s) else s) := by
  have hout : s.probeOut n = some p := by simp [probeOut_eq he, ha, hp]
  have hover : s.probeOverdue n = countReached (sliceAdd p.stop s.params.outcomeWait) (s.lane p.lane).slice := by
    simp only [State.probeOverdue, hout]
  show Host.Outcome.next (if s.probeOverdue n then _ else s) = _
  rw [hover]

/-- An EMPTY result below both limits counts, and nothing else follows. -/
theorem applyProbe_empty_kept (he : s.entry? n = some e) (ha : e.alignment = some a) (hl : e.place = .home l)
    (hs : e.state = .provisional) (hrun : a.emptyRun + 1 < 4) (hattempts : a.attempts + 1 < 16) (timing power : Int) :
    applyProbe n .empty timing power s =
      modAlignment n (fun x => { x with attempts := a.attempts + 1, emptyRun := a.emptyRun + 1 }) s := by
  obtain ⟨-, hempty, -⟩ := applyProbe_provisional he hl hs timing power
  rw [hempty, provisionalMissed_eq ha, entry?_number he]
  simp only [if_true]
  rw [if_neg (by omega), if_neg (by omega)]

/-! ### The outcome -/

/-- A turn of another kind than DATA and POLL changes the runs by a GOOD outcome alone. -/
theorem streamOutcome_runs {u : Turn} {d : Stream} {v : State} (hdata : u.kind ≠ .data) (hpoll : u.kind ≠ .poll) (r : BurstResult)
    (hd : v.entry? e.entry = some d) :
    (streamOutcome e u r v).entry? e.entry = some { d with
      noShow := if r = .good then 0 else d.noShow, retry := if r = .good then 0 else d.retry } ∧
    (∀ m, m ≠ e.entry → (streamOutcome e u r v).entry? m = v.entry? m) ∧
    streamOutcome e u r v = { v with table := (streamOutcome e u r v).table } := by
  have hsame : r ≠ .good → streamOutcome e u r v = v := fun hr => by
    cases r with
    | good => exact absurd rfl hr
    | empty => exact if_neg (by simp [hdata, hpoll])
    | damaged => exact if_neg (by simp [hdata])
    | collided => rfl
  by_cases hr : r = .good
  · subst hr
    have hentry : ∀ m, (streamOutcome e u .good v).entry? m = (v.entry? m).map fun x =>
        if m = e.entry then { x with noShow := 0, retry := 0 } else x :=
      fun m => modEntry_entry e.entry m (fun x => { x with noShow := 0, retry := 0 }) (by intro x; rfl) v
    refine ⟨by rw [hentry, hd]; simp, fun m hm => ?_, rfl⟩
    rw [hentry]
    simp only [if_neg hm]
    cases v.entry? m <;> rfl
  · rw [hsame hr]
    exact ⟨hd.trans (by simp [hr]), fun _ _ => rfl, rfl⟩

/-- A PROBE outcome hands its result over where it is that of the probe out. -/
theorem burstOutcome_probe {w : LaneRecord} {rest : List LaneRecord} {u : Turn} (hfifo : (s.lane l).fifo = w :: rest)
    (htype : recordType w = 2) (htag : recordTag w < 16382) (he : s.byTag (recordTag w) = some e)
    (hu : e.turnAt l (outcomeStart w) = some u) (hk : u.kind = .probe) (hr : outcomeResult w ≠ .collided) (hopen : e.state ≠ .closing)
    (ha : e.alignment = some a) :
    ∃ v e', v.entry? e.entry = some e' ∧
      e' = { e with
        turns := e.kept l u.start,
        noShow := if outcomeResult w = .good then 0 else e.noShow, retry := if outcomeResult w = .good then 0 else e.retry,
        alignment := e'.alignment } ∧
      (∀ n, n ≠ e.entry → v.entry? n = s.entry? n) ∧
      v.lane l = { s.lane l with fifo := rest, health := (s.lane l).health.outcomeCounted u (outcomeResult w) } ∧
      (∀ k, k ≠ l → v.lane k = s.lane k) ∧ v = { s with lanes := v.lanes, table := v.table } ∧
      (∀ p, a.probeOut = some p → p.lane = l → p.start = u.start → e'.alignment = some { a with probeOut := none } ∧
        exec (.burstOutcome l) s = .next (applyProbe e.entry (outcomeResult w) (outcomeTiming w) (outcomePower w) v)) ∧
      ((∀ p, a.probeOut = some p → p.lane ≠ l ∨ p.start ≠ u.start) → e'.alignment = some a ∧
        exec (.burstOutcome l) s = .next v) := by
  obtain ⟨hul, -⟩ := turnAt_spec hu
  obtain ⟨-, hstep⟩ := exec_burstOutcome_matched hfifo htype htag he hu hr
  replace hstep := hstep hopen
  obtain ⟨hentry, hothers, hlane, hlanes, hframe⟩ := resolved_spec (l := l) (rest := rest) (u := u) (r := outcomeResult w) (byTag_entry he)
  generalize resolved l rest e u (outcomeResult w) s = q at *
  obtain ⟨hrun, hrunOthers, hrunFrame⟩ := streamOutcome_runs (u := u) (by rw [hk]; decide) (by rw [hk]; decide) (outcomeResult w) hentry
  generalize streamOutcome e u (outcomeResult w) q = v at *
  have hhand : handOutcome e u (outcomeResult w) (outcomeTiming w) (outcomePower w) v =
      handProbe e.entry u (outcomeResult w) (outcomeTiming w) (outcomePower w) v := by simp only [handOutcome, hk]
  rw [hhand, handProbe_some hrun hk hopen, hul] at hstep
  have hsame : ∀ n, n ≠ e.entry → v.entry? n = s.entry? n := fun n hn => (hrunOthers n hn).trans (hothers n hn)
  have hvlane : ∀ k, v.lane k = q.lane k := fun k => (congrArg (fun x => State.lane x k) hrunFrame).trans rfl
  have hvframe : v = { s with lanes := v.lanes, table := v.table } := by
    have hl' : v.lanes = q.lanes := (congrArg State.lanes hrunFrame).trans rfl
    rw [hrunFrame, hframe]
  by_cases hmine : ∃ p, a.probeOut = some p ∧ p.lane = l ∧ p.start = u.start
  · obtain ⟨p, hp, rfl, hps⟩ := hmine
    obtain ⟨hcleared, hclearedOthers⟩ := clearProbe_entry hrun
    rw [← hps, probeResult_some hrun ha hp, tryFree_applyProbe _ _ _ hcleared hopen] at hstep
    refine ⟨clearProbe e.entry v, _, hcleared, rfl, fun n hn => (hclearedOthers n hn).trans (hsame n hn), (hvlane p.lane).trans hlane,
      fun k hk' => (hvlane k).trans (hlanes k hk'), ?_, fun p' hp' _ _ => ⟨?_, hstep⟩, fun hno => ?_⟩
    · rw [clearProbe, hvframe]
      rfl
    · show Option.map _ e.alignment = _
      rw [ha]
      rfl
    · exact (hno p hp).elim (fun h => absurd rfl h) fun h => absurd hps h
  · have hno : ∀ p, a.probeOut = some p → p.lane ≠ l ∨ p.start ≠ u.start := fun p hp => by
      by_contra hboth
      rw [not_or, not_not, not_not] at hboth
      exact hmine ⟨p, hp, hboth⟩
    rw [probeResult_none hrun (fun a' p ha' hp => hno p (by rw [← Option.some.inj (ha.symm.trans ha')] at hp; exact hp)),
      tryFree_not_closing hrun hopen] at hstep
    exact ⟨v, _, hrun, rfl, hsame, (hvlane l).trans hlane, fun k hk' => (hvlane k).trans (hlanes k hk'), hvframe,
      fun p hp hpl hps => absurd ⟨p, hp, hpl, hps⟩ hmine, fun _ => ⟨ha, hstep⟩⟩

end

/-! ### O23 -/

/-- Settles O23: the deadline, the outcome, the result of a PROVISIONAL and of a served station, and the report. -/
theorem probeDeadlineCountsEmpty : Obligations.ProbeDeadlineCountsEmpty := by
  refine ⟨fun n e a p l s he ha hp => ?_, fun l w rest e a u s hfifo htype htag he hu hk hr hopen ha =>
    burstOutcome_probe hfifo htype htag he hu hk hr hopen ha, ?_, ?_, ?_⟩
  · have hstep := probeDeadline_exec he ha hp
    refine ⟨fun hdue => ?_, fun hdue => ?_⟩
    · rw [hstep, hdue]
      rfl
    · rw [hdue, if_pos rfl] at hstep
      refine ⟨hstep, fun hs hl hrun hattempts => ?_⟩
      obtain ⟨hcleared, hclearedOthers⟩ := clearProbe_entry he
      rw [ha] at hcleared
      have hkept := applyProbe_empty_kept hcleared rfl hl hs (show a.emptyRun + 1 < 4 by omega) (show a.attempts + 1 < 16 by omega) 0 0
      obtain ⟨hentry, hothers⟩ := modAlignment_at (fun x => { x with attempts := a.attempts + 1, emptyRun := a.emptyRun + 1 }) hcleared
      rw [hkept] at hstep
      exact ⟨_, hstep, hentry, fun m hm => (hothers m hm).trans (hclearedOthers m hm), rfl⟩
  · intro n e a l timing power v he ha hl hs
    obtain rfl : e.entry = n := entry?_number he
    intro tolerable good measured failed
    obtain ⟨hgood, hempty, hdamaged⟩ := applyProbe_provisional he hl hs timing power
    have hmeasured : Machine.measured e l timing power v = reportProbe l measured := by
      simp only [Machine.measured, ha, Option.map_some, Option.getD_some]
      rfl
    have hentry : (reportProbe l measured).entry? e.entry = some { e with alignment := some (good a) } := by
      rw [← hmeasured, measured_entry he, ha]
      rfl
    have hothers : ∀ m, m ≠ e.entry → (reportProbe l measured).entry? m = v.entry? m := fun m hm =>
      (reportProbe_entry l m measured).trans ((modAlignment_at good he).2 m hm)
    obtain ⟨hlanes, hframe⟩ := reportProbe_frame l measured
    have hparams : (reportProbe l measured).params = v.params := (congrArg State.params hframe).trans rfl
    have htolerable : withinTolerance v.params timing power = true ↔ tolerable := withinTolerance_iff _ _ _
    rw [hgood, hempty, hdamaged, provisionalGood_eq, hmeasured, provisionalMissed_eq ha, provisionalMissed_eq ha, ha]
    have hcorrections : ((reportProbe l measured).lane l).corrections = (v.lane l).corrections := by rw [hlanes]; rfl
    have hprovisional : ((reportProbe l measured).lane l).provisional = (v.lane l).provisional := by rw [hlanes]; rfl
    generalize reportProbe l measured = q at *
    have hfailed : ∀ (cause : JoinFail) (x y : State) (d : Stream), x.entry? e.entry = some d → d.tag = e.tag → d.place = .home l →
        d.parent = e.parent → x.servedChildren e.entry = y.servedChildren e.entry → x = { y with table := x.table } →
        failed cause y (failAlignment e l cause x) := fun cause x y d hd htag hhome hparent hchildren hxy hstation =>
      failAlignment_failed hd htag hhome (hparent.trans hstation) hchildren hxy
    have hmissed : ∀ (cause : JoinFail) (f : Alignment → Alignment),
        failed cause v (failAlignment e l cause (modAlignment e.entry f v)) := fun cause f =>
      hfailed cause _ _ _ (modAlignment_at f he).1 rfl hl rfl (servedChildren_modAlignment _ _ _ _) rfl
    refine ⟨fun hin => ?_, fun hout hattempts => ?_, fun hout hattempts => ?_, fun hrun => ?_, fun hrun hattempts => ?_,
      fun hattempts => ?_, fun hrun hattempts => ?_, fun hattempts => ?_⟩
    · rw [if_pos (htolerable.mpr hin)]
      generalize hc : queueCorrection l (correctionFor e.tag .done timing power) q = c
      have hclane : ∀ k, c.lane k = if k = l then { q.lane l with
          corrections := queuedIn (correctionFor e.tag .done timing power) (q.lane l).corrections } else q.lane k := fun k => by
        rw [← hc, queueCorrection_lane]
      have hcframe : c = { q with lanes := c.lanes } := by rw [← hc, queueCorrection_eq]; rfl
      have hce : ∀ m, c.entry? m = q.entry? m := fun m => entry?_congr ((congrArg State.table hcframe).trans rfl) m
      have hcrings : ∀ k, (c.lane k).rings = (v.lane k).rings := fun k => by
        have hq : ∀ k, (q.lane k).rings = (v.lane k).rings := fun k => (congrArg Lane.rings (hlanes k)).trans rfl
        rw [hclane]
        split
        · next h => exact h ▸ hq l
        · exact hq k
      have hcring : ∀ k x, c.ring k x = v.ring k x := fun k x => by simp only [State.ring, Lane.ring, hcrings]
      have hcparams : c.params = v.params := ((congrArg State.params hcframe).trans rfl).trans hparams
      have hcport : c.port = q.port := (congrArg State.port hcframe).trans rfl
      obtain ⟨e', he', hrecord, hidle, hrings, hlane, hothers', hsaid, hkept, hdone⟩ :=
        completeAlignment_spec (l := l) ((hce _).trans hentry) (e := e) hl
      generalize completeAlignment e l c = t at *
      refine ⟨t, e', rfl, he', hrecord.trans ?_, hidle, fun k x => (hrings k x).trans (by rw [hcring]), ?_, fun k hk => ?_,
        fun x hx hroom => ?_, fun m hm => ((hkept m hm).trans (hce m)).trans (hothers m hm), ?_⟩
      · rw [hcparams]
        rfl
      · rw [hlane, hclane, if_pos rfl, hcorrections, hprovisional]
        rfl
      · rw [hothers' k hk, hclane, if_neg hk]
      · rw [← hcport] at hroom ⊢
        exact hsaid x hx hroom
      · rw [hdone, hcframe]
    · rw [if_neg (mt htolerable.mp hout), Option.map_some, Option.getD_some, if_pos hattempts]
      have hlane := fun k => queueCorrection_lane l k (correctionFor e.tag .cont timing power) q
      refine ⟨_, rfl, hentry, ((hlane l).trans (if_pos rfl)).trans ?_, fun k hk => (hlane k).trans (if_neg hk), ?_⟩
      · rw [hcorrections]
        rfl
      · rw [queueCorrection_eq]
        rfl
    · rw [if_neg (mt htolerable.mp hout), Option.map_some, Option.getD_some, if_neg (by omega)]
      exact hfailed .noConverge q q _ hentry rfl hl rfl rfl rfl
    · simp only [if_true]
      rw [if_pos hrun]
      exact hmissed _ _
    · simp only [if_true]
      rw [if_neg (by omega), if_pos hattempts]
      exact hmissed _ _
    · simp only [Bool.false_eq_true, if_false]
      rw [if_neg (by omega), if_pos hattempts]
      exact hmissed _ _
    · simp only [if_true]
      rw [if_neg (by omega), if_neg (by omega)]
    · simp only [Bool.false_eq_true, if_false]
      rw [if_neg (by omega), if_neg (by omega)]
  · intro n e a l timing power v he ha hl hs
    obtain rfl : e.entry = n := entry?_number he
    obtain ⟨hgood, hempty, hdamaged⟩ := applyProbe_served he hl hs timing power
    have htolerable := withinTolerance_iff v.params timing power
    rw [hgood, hempty, hdamaged]
    refine ⟨?_, fun hrun => ?_, fun hrun => ?_, rfl⟩
    · obtain ⟨u, hu, hentry, hothers, hin, hout, hframe⟩ := maintenanceGood_eq (l := l) timing power he ha
      refine ⟨u, hu, hentry, hothers, fun ht hp => hin (htolerable.mpr ⟨ht, hp⟩), fun hfar => hout ?_, hframe⟩
      rw [Bool.eq_false_iff, Ne, htolerable]
      omega
    · simp only [maintenanceMissed, ha, Option.map_some, Option.getD_some]
      exact if_neg (by show ¬(8 ≤ _); omega)
    · have hlost : maintenanceMissed e l v = loseStation e l
          (modAlignment e.entry (fun x => { x with maintenanceEmpty := a.maintenanceEmpty + 1 }) v) := by
        simp only [maintenanceMissed, ha, Option.map_some, Option.getD_some]
        exact if_pos hrun
      rw [hlost]
      exact ⟨_, rfl, loseStation_spec (modAlignment_at _ he).1 rfl hl rfl _ rfl⟩
  · intro l v h note
    obtain ⟨hsame, hcounted, hlive⟩ := reportProbe_spec l v
    refine ⟨hsame, hcounted, fun hr hhigh => ⟨_, rfl, ?_⟩⟩
    have ht : reportProbe l v = offerLane l (enteringLive l v) := by
      rw [hlive hr hhigh, enterLive_spec]
      rfl
    obtain ⟨hlanes, hframe⟩ := offerLane_frame l (enteringLive l v)
    have hoffered := offerLane_offered l (enteringLive l v)
    have hwlane := fun k => enteringLive_lane l k v
    have hnote : (enteringLive l v).laneNotice l = note := by
      show Notice.lane l ((enteringLive l v).lane l).health.state ((enteringLive l v).lane l).health.weight = _
      rw [hwlane, if_pos rfl]
    rw [hnote] at hoffered
    have hwframe := enteringLive_frame l v
    rw [ht]
    have howed : ∀ k, ((enteringLive l v).lane k).owed = (v.lane k).owed := fun k => by
      rw [hwlane]
      split
      · next hk => rw [hk]
      · rfl
    generalize enteringLive l v = w at *
    have hbus : w.bus = v.bus := (congrArg State.bus hwframe).trans rfl
    have hport : w.port = v.port.after [.laneState l .live .rampDone] := (congrArg State.port hwframe).trans rfl
    have hjoins := fun ha => hoffered.joins ha
    generalize offerLane l w = t at *
    unfold NoticeOffered at hoffered
    simp only [hbus, howed] at hoffered hjoins
    refine ⟨?_, fun k hk => ?_, fun hroom => ?_, hoffered.1, fun ha => ⟨(hoffered.2 ha).1, fun hnone hfull => ?_, fun hnone hroom =>
      ⟨hjoins ha hnone hroom, (((hoffered.2 ha).2 hnone).2 hroom).1⟩⟩, ?_⟩
    · rw [hlanes, hwlane, if_pos rfl]
    · rw [hlanes, hwlane, if_neg hk]
    · rw [(congrArg State.port hframe).trans rfl, hport]
      exact after_room hroom
    · obtain ⟨hsameBus, hmarks⟩ := ((hoffered.2 ha).2 hnone).1 hfull
      refine ⟨hsameBus, ?_, fun k hk => ?_⟩
      · rw [hmarks]
        simp
      · rw [hmarks]
        have hne : (some l == some k) = false := by simpa using Ne.symm hk
        rw [hne, Bool.or_false]
    · rw [hframe, hwframe]

end Sys2Proof.Machine
end

section
/-! PROOF. Outcomes of turns (O34). -/

namespace Sys2Proof.Machine

/-! ### Demand given back -/

section
variable {n : Nat} {e : Stream} {s : State}

/-- The ring of a stream whose record is changed. -/
theorem updateEntry_ring {f : Stream → Stream} (hf : ∀ x, (f x).entry = x.entry) (he : s.entry? n = some e) (k : LaneNo) (j : Fin 6) :
    ((updateEntry n f s).lane k).ring j =
      ringFor n ((modEntry n f s).meetsRing (f e) k (j.val + 1)) ((s.lane k).ring j) := by
  have hchanged : (modEntry n f s).entry? n = some (f e) := by
    rw [modEntry_entry n n f hf s, he]
    simp
  rw [updateEntry, (syncRings_spec n (modEntry n f s)).1, hchanged]
  rfl

/-- A stream that meets a ring stands in it, at its place or at the tail, and keeps its deficit. -/
theorem updateEntry_meets {f : Stream → Stream} (hf : ∀ x, (f x).entry = x.entry) (he : s.entry? n = some e) {k : LaneNo} {c : Nat}
    (h1 : 1 ≤ c) (h6 : c ≤ 6) (hmeets : (modEntry n f s).meetsRing (f e) k c = true) :
    (updateEntry n f s).ring k c = (if n ∈ s.ring k c then s.ring k c else s.ring k c ++ [n]) ∧
      (updateEntry n f s).inSomeRing n = true := by
  obtain ⟨j, rfl⟩ := class_index h1 h6
  have hring := updateEntry_ring hf he k j
  rw [hmeets] at hring
  have heq : ((updateEntry n f s).lane k).ring j =
      if n ∈ (s.lane k).ring j then (s.lane k).ring j else (s.lane k).ring j ++ [n] := by
    rw [hring]
    simp [ringFor]
  refine ⟨by rw [State.ring_index, State.ring_index, heq], (State.inSomeRing_iff _ _).mpr ⟨k, j, ?_⟩⟩
  rw [heq]
  split
  · assumption
  · simp

/-- What a payload given back to an EDGE stream does to its rings (R29, R31). -/
theorem restore_rings {payload : Nat} (he : s.entry? n = some e) (hserved : e.served = true) (hspread : e.isSpread = false)
    (hedge : e.mode = .edge) :
    ∃ e', (restore n payload s).entry? n = some e' ∧ e'.demand = min (e.demand + payload) 1048575 ∧
      e' = { e with demand := e'.demand, deficit := e'.deficit } ∧
      (∀ k c, ((restore n payload s).ring k c).filter (fun m => m != n) = (s.ring k c).filter (fun m => m != n)) ∧
      (∀ k, e.place = .home k → 1 ≤ e.cls → e.cls ≤ 6 → 0 < e'.demand → e'.deficit = e.deficit ∧
        (restore n payload s).ring k e.cls = if n ∈ s.ring k e.cls then s.ring k e.cls else s.ring k e.cls ++ [n]) ∧
      (∀ m, m ≠ n → (restore n payload s).entry? m = s.entry? m) ∧
      ∀ k, (restore n payload s).lane k = { s.lane k with rings := ((restore n payload s).lane k).rings } := by
  have hr : restore n payload s = updateEntry n (fun x => { x with demand := satAdd Config.maxDemand x.demand payload }) s := by
    simp [restore, he, hserved, hspread, hedge]
  have hf : ∀ x : Stream, ({ x with demand := satAdd Config.maxDemand x.demand payload } : Stream).entry = x.entry := fun _ => rfl
  obtain ⟨hentry, hothers, hrings, hlanes⟩ := updateEntry_turned hf he
  have hmeets : ∀ k, e.place = .home k → 1 ≤ e.cls → e.cls ≤ 6 → 0 < satAdd Config.maxDemand e.demand payload → _ :=
    fun k hk h1 h6 hpos => updateEntry_meets hf he (k := k) h1 h6 (by
      simp only [State.meetsRing, State.available, hk, if_pos, Bool.and_eq_true, beq_iff_eq, decide_eq_true_eq]
      exact ⟨⟨hserved, trivial⟩, hpos⟩)
  rw [hr]
  generalize updateEntry n _ s = u at *
  refine ⟨_, hentry, rfl, rfl, hrings, fun k hk h1 h6 hpos => ?_, hothers, hlanes⟩
  obtain ⟨hring, hin⟩ := hmeets k hk h1 h6 hpos
  exact ⟨by rw [hin]; rfl, hring⟩

end

/-! ### DATA and POLL turns -/

section
variable {e d : Stream} {u : Turn} {v : State}

theorem handOutcome_plain (hk : u.kind = .data ∨ u.kind = .poll) (r : BurstResult) (timing power : Int) :
    handOutcome e u r timing power v = v := by
  obtain hk | hk := hk <;> simp only [handOutcome, hk]

/-- GOOD clears the runs. -/
theorem streamOutcome_good (hd : v.entry? e.entry = some d) :
    (streamOutcome e u .good v).entry? e.entry = some { d with noShow := 0, retry := 0 } ∧
    (∀ m, m ≠ e.entry → (streamOutcome e u .good v).entry? m = v.entry? m) ∧
    streamOutcome e u .good v = { v with table := (streamOutcome e u .good v).table } := by
  have hentry : ∀ m, (streamOutcome e u .good v).entry? m = (v.entry? m).map fun x =>
      if m = e.entry then { x with noShow := 0, retry := 0 } else x :=
    fun m => modEntry_entry e.entry m (fun x => { x with noShow := 0, retry := 0 }) (by intro x; rfl) v
  refine ⟨by rw [hentry, hd]; simp, fun m hm => ?_, rfl⟩
  rw [hentry]
  simp only [if_neg hm]
  cases v.entry? m <;> rfl

/-- EMPTY of a turn that is not stale is a no-show. -/
theorem streamOutcome_empty (hk : u.kind = .data ∨ u.kind = .poll) (hd : v.entry? e.entry = some d) :
    (streamOutcome e u .empty v).entry? e.entry =
      some (if e.served = true ∧ u.stale = false then d.noShown v.params else d) ∧
    (∀ m, m ≠ e.entry → (streamOutcome e u .empty v).entry? m = v.entry? m) ∧
    streamOutcome e u .empty v = { v with table := (streamOutcome e u .empty v).table } := by
  have hkind : (u.kind == .data || u.kind == .poll) = true := by
    obtain hk | hk := hk <;> rw [hk] <;> rfl
  by_cases hcount : e.served = true ∧ u.stale = false
  · have heq : streamOutcome e u .empty v = modEntry e.entry (Stream.noShown v.params) v := by
      simp [streamOutcome, hkind, hcount.1, hcount.2]
    have hentry := fun m => modEntry_entry e.entry m (Stream.noShown v.params) (by
      intro x
      unfold Stream.noShown
      dsimp only
      split <;> rfl) v
    rw [heq, if_pos hcount]
    refine ⟨by rw [hentry, hd]; simp, fun m hm => ?_, rfl⟩
    rw [hentry]
    simp only [if_neg hm]
    cases v.entry? m <;> rfl
  · have heq : streamOutcome e u .empty v = v := if_neg (by simpa [hkind] using hcount)
    rw [heq, if_neg hcount]
    exact ⟨hd, fun _ _ => rfl, rfl⟩

/-- The DAMAGED outcome gives a DATA payload back. -/
def restores (p : Params) (e : Stream) (u : Turn) : Prop :=
  u.kind = .data ∧ e.served = true ∧ e.isSpread = false ∧ e.mode = .edge ∧ e.retry < p.retryLimit

theorem streamOutcome_restores (h : restores v.params e u) :
    streamOutcome e u .damaged v = restore e.entry u.payload (modEntry e.entry (fun x => { x with retry := x.retry + 1 }) v) := by
  obtain ⟨hk, hserved, hspread, hedge, hretry⟩ := h
  simp [streamOutcome, damagedData, hk, hserved, hspread, hedge, hretry]

theorem streamOutcome_damaged (h : ¬restores v.params e u) : streamOutcome e u .damaged v = v := by
  rw [streamOutcome]
  split
  · next hdata =>
    simp only [Bool.and_eq_true, beq_iff_eq] at hdata
    refine if_neg fun hboth => h ?_
    simp only [Bool.and_eq_true, Bool.not_eq_true', beq_iff_eq, decide_eq_true_eq] at hboth
    exact ⟨hdata.2, hdata.1, hboth.1.1, hboth.1.2, hboth.2⟩
  · rfl

end

/-! ### CADENCE turns -/

/-- A cadence horizon reads the builder, the parameters and the lane's next plan start. -/
theorem horizon_congr {s t : State} (hbuilder : t.builder = s.builder) (hparams : t.params = s.params)
    (hlane : ∀ k, (t.lane k).nextPlanStart = (s.lane k).nextPlanStart) (k : LaneNo) : t.horizon k = s.horizon k := by
  simp only [State.horizon, State.begunStep1, State.buildOf, hbuilder, hparams, hlane]

theorem takeoverDue_congr {s t : State} {c c' : Channel} (h : ∀ k, t.horizon k = s.horizon k) (hlast : c'.lastTurn = c.lastTurn)
    (x : Channel) : takeoverDue t c' x = takeoverDue s c x := by
  simp only [takeoverDue, h, hlast]

section
variable {tag k : Nat} {c : Channel} {u : Turn} {v : State}

theorem cadenceOutcome_unowned (h : ∀ k c, u.channel = some k → v.channel? k = some c → c.owns tag u = false) (r : BurstResult) :
    cadenceOutcome tag u r v = v := by
  unfold cadenceOutcome
  split
  · next c hc =>
    obtain ⟨k, hk, hkc⟩ := Option.bind_eq_some_iff.mp hc
    rw [h k c hk hkc, if_neg (by simp)]
  · rfl

/-- The channel after one more EMPTY turn (R109). -/
def Channel.unusedOnce (c : Channel) : Channel := { c with unused := satAdd 255 c.unused 1 }

theorem cadenceOutcome_owned (hk : u.channel = some k) (hc : v.channel? k = some c) (howns : c.owns tag u = true) :
    cadenceOutcome tag u .good v = modChannel k (fun x => { x with unused := 0 }) v ∧
    cadenceOutcome tag u .damaged v = v ∧
    cadenceOutcome tag u .empty v = if v.params.unusedLimit > 0 ∧ min (c.unused + 1) 255 ≥ v.params.unusedLimit then
        endChannel c.unusedOnce .unused (modChannel k (fun _ => c.unusedOnce) v) else modChannel k (fun _ => c.unusedOnce) v := by
  have hbind : u.channel.bind v.channel? = some c := by rw [hk]; exact hc
  have hnumber : c.number = k := by simpa using List.find?_some hc
  subst hnumber
  refine ⟨?_, ?_, ?_⟩
  · simp only [cadenceOutcome, hbind, howns, if_true]
  · simp only [cadenceOutcome, hbind, howns, if_true]
  · simp only [cadenceOutcome, hbind, howns, if_true]
    rfl

theorem cadenceOutcome_frame (tag : Nat) (u : Turn) (r : BurstResult) (v : State) : cadenceOutcome tag u r v = { v with
    channels := (cadenceOutcome tag u r v).channels, port := (cadenceOutcome tag u r v).port } := by
  have hended : ∀ (c : Channel) (s : State), endChannel c .unused s = { s with
      channels := (endChannel c .unused s).channels, port := (endChannel c .unused s).port } := fun c s => by
    rw [endChannel_eq]
    split
    · obtain ⟨hnone, hsome⟩ := handover_eq c (channelEnded c .unused s)
      cases hd : (channelEnded c .unused s).successor c with
      | none => rw [hnone hd, channelEnded_eq]
      | some d => rw [hsome d hd, channelEnded_eq]; rfl
    · rw [channelEnded_eq]
  unfold cadenceOutcome
  split
  · split
    · cases r with
      | good => rfl
      | empty =>
        dsimp only
        split
        · rw [hended]
          rfl
        · rfl
      | damaged => rfl
      | collided => rfl
    · rfl
  · rfl

/-- A channel that is replaced under its own number leaves the others. -/
theorem others_modChannel {c' : Channel} (hnumber : c'.number = k) (v : State) :
    (modChannel k (fun _ => c') v).channels.filter (fun d => d.number != k) = v.channels.filter fun d => d.number != k := by
  show (v.channels.map _).filter _ = _
  induction v.channels with
  | nil => rfl
  | cons x xs ih =>
    rw [List.map_cons]
    by_cases hx : x.number = k
    · rw [List.filter_cons_of_neg (by simp [hx, hnumber]), List.filter_cons_of_neg (by simp [hx]), ih]
    · rw [List.filter_cons_of_pos (by simp [hx]), List.filter_cons_of_pos (by simp [hx]), ih]
      simp [hx]

/-- The end of an unused channel, and the STANDBY channel that takes over (R109, R101). -/
theorem unused_ended (hnumber : c.number = k) (hroom : v.port.statusQueue.length < 32) :
    let t := endChannel c.unusedOnce .unused (modChannel k (fun _ => c.unusedOnce) v)
    let others := v.channels.filter fun d => d.number != k
    let next := others.find? fun d => d.state == .standby && d.tag == c.tag && d.lane == c.lane
    t.port = { v.port with statusQueue := v.port.statusQueue ++ [.cadenceEnded k c.tag .unused] } ∧
      t.channel? k = none ∧
      (c.state = .standby ∨ next = none → t.channels = others) ∧
      (∀ d, c.state = .running ∨ c.state = .draining → next = some d → t.channels = others.map fun x =>
        if x.number == d.number then { x with state := .running, nextDue := some (takeoverDue v c x) } else x) := by
  subst hnumber
  intro t others next
  have hdue : ∀ x, takeoverDue (channelEnded c.unusedOnce .unused (modChannel c.number (fun _ => c.unusedOnce) v)) c.unusedOnce x =
      takeoverDue v c x := takeoverDue_congr (fun k => by rw [channelEnded_eq]; rfl) rfl
  have hroom' : (modChannel c.number (fun _ => c.unusedOnce) v).port.statusQueue.length < 32 := hroom
  have hended := channelEnded_eq c.unusedOnce .unused (modChannel c.number (fun _ => c.unusedOnce) v)
  rw [after_room hroom'] at hended
  have hothers : (channelEnded c.unusedOnce .unused (modChannel c.number (fun _ => c.unusedOnce) v)).channels = others := by
    rw [hended]
    exact others_modChannel rfl v
  have hport : (channelEnded c.unusedOnce .unused (modChannel c.number (fun _ => c.unusedOnce) v)).port =
      { v.port with statusQueue := v.port.statusQueue ++ [.cadenceEnded c.number c.tag .unused] } := by
    rw [hended]
    rfl
  have ht : t = if c.live then handover c.unusedOnce (channelEnded c.unusedOnce .unused (modChannel c.number (fun _ => c.unusedOnce) v))
      else channelEnded c.unusedOnce .unused (modChannel c.number (fun _ => c.unusedOnce) v) := endChannel_eq _ _ _
  obtain ⟨hnone, hsome⟩ := handover_eq c.unusedOnce
    (channelEnded c.unusedOnce .unused (modChannel c.number (fun _ => c.unusedOnce) v))
  generalize channelEnded c.unusedOnce .unused (modChannel c.number (fun _ => c.unusedOnce) v) = w at *
  have hnext : w.successor c.unusedOnce = next := by rw [State.successor, hothers]; rfl
  have hgone : w.channel? c.number = none := by
    rw [State.channel?, hothers]
    have hfiltered := channel?_filter c.number v.channels id fun _ => rfl
    rwa [List.map_id] at hfiltered
  rw [hnext] at hnone hsome
  have hlive : c.live = true ↔ c.state = .running ∨ c.state = .draining := by simp [Channel.live]
  have hstay : c.live = false ∨ next = none → t = w := fun h => by
    rw [ht]
    obtain h | h := h
    · rw [h, if_neg (by simp)]
    · split
      · exact hnone h
      · rfl
  have hmoves : ∀ d, c.live = true → next = some d → t = modChannel d.number (fun x =>
      { x with state := .running, nextDue := some (takeoverDue w c.unusedOnce x) }) w := fun d hl hd => by
    rw [ht, hl, if_pos rfl, hsome d hd]
  have hcases : t = w ∨ ∃ d : Channel, t = modChannel d.number (fun x =>
      { x with state := .running, nextDue := some (takeoverDue w c.unusedOnce x) }) w := by
    cases hl : c.live with
    | false => exact .inl (hstay (.inl hl))
    | true =>
      cases hd : next with
      | none => exact .inl (hstay (.inr hd))
      | some d => exact .inr ⟨d, hmoves d hl hd⟩
  clear_value t
  refine ⟨?_, ?_, fun h => ?_, fun d hl hd => ?_⟩
  · obtain h | ⟨d, h⟩ := hcases <;> rw [h]
    · exact hport
    · exact hport
  · obtain h | ⟨d, h⟩ := hcases <;> rw [h]
    · exact hgone
    · rw [State.channel?, modChannel, hothers]
      refine channel?_filter c.number v.channels _ fun x => ?_
      split <;> rfl
  · rw [hstay, hothers]
    refine h.imp (fun hs => ?_) id
    rw [Bool.eq_false_iff, Ne, hlive, hs]
    simp
  · rw [hmoves d (hlive.mpr hl) hd, modChannel, hothers]
    simp only [hdue]

end

/-! ### The state an outcome is applied to -/

/-- The record has left the FIFO, the entry the turn list, and the monitors have counted. -/
structure OutcomeTaken (l : LaneNo) (rest : List LaneRecord) (e : Stream) (u : Turn) (r : BurstResult) (s q : State) : Prop where
  entry : q.entry? e.entry = some { e with turns := e.kept l u.start }
  others : ∀ n, n ≠ e.entry → q.entry? n = s.entry? n
  lane : q.lane l = { s.lane l with fifo := rest, health := (s.lane l).health.outcomeCounted u r }
  lanes : ∀ k, k ≠ l → q.lane k = s.lane k
  frame : q = { s with lanes := q.lanes, table := q.table }

theorem resolved_taken {l : LaneNo} {rest : List LaneRecord} {e : Stream} {u : Turn} {r : BurstResult} {s : State}
    (he : s.entry? e.entry = some e) : OutcomeTaken l rest e u r s (resolved l rest e u r s) := by
  obtain ⟨h1, h2, h3, h4, h5⟩ := resolved_spec (l := l) (rest := rest) (u := u) (r := r) he
  exact ⟨h1, h2, h3, h4, h5⟩

section
variable {l : LaneNo} {w : LaneRecord} {rest : List LaneRecord} {e : Stream} {u : Turn} {r : BurstResult} {s q t : State}

theorem OutcomeTaken.params (h : OutcomeTaken l rest e u r s q) : q.params = s.params := (congrArg State.params h.frame).trans rfl

theorem OutcomeTaken.rings (h : OutcomeTaken l rest e u r s q) (k : LaneNo) : (q.lane k).rings = (s.lane k).rings := by
  by_cases hk : k = l
  · rw [hk, h.lane]
  · rw [h.lanes k hk]

theorem OutcomeTaken.horizon (h : OutcomeTaken l rest e u r s q) : ∀ k, q.horizon k = s.horizon k :=
  horizon_congr ((congrArg State.builder h.frame).trans rfl) h.params fun k => by
    by_cases hk : k = l
    · rw [hk, h.lane]
    · rw [h.lanes k hk]

/-- A change of the table leaves lanes and all else as the outcome left them. -/
theorem OutcomeTaken.keeps (h : OutcomeTaken l rest e u r s q) (ht : t = { q with table := t.table }) :
    t.lane l = { s.lane l with fifo := rest, health := (s.lane l).health.outcomeCounted u r } ∧
      (∀ k, k ≠ l → t.lane k = s.lane k) ∧ t = { s with lanes := t.lanes, table := t.table } := by
  have htlane : ∀ k, t.lane k = q.lane k := fun k => (congrArg (fun x => State.lane x k) ht).trans rfl
  exact ⟨(htlane l).trans h.lane, fun k hk => (htlane k).trans (h.lanes k hk), by rw [ht, h.frame]⟩

theorem outcome_good (h : OutcomeTaken l rest e u .good s q) (hopen : e.state ≠ .closing) :
    ∃ t, tryFree e.entry (streamOutcome e u .good q) = t ∧
      t.entry? e.entry = some { e with noShow := 0, retry := 0, turns := e.kept l u.start } ∧
      (∀ n, n ≠ e.entry → t.entry? n = s.entry? n) ∧ t.lane l = { s.lane l with fifo := rest } ∧
      (∀ k, k ≠ l → t.lane k = s.lane k) ∧ t = { s with lanes := t.lanes, table := t.table } := by
  obtain ⟨hgood, hothers, hframe⟩ := streamOutcome_good (u := u) h.entry
  generalize streamOutcome e u .good q = t at *
  obtain ⟨htl, htls, htf⟩ := h.keeps hframe
  have hsame : (s.lane l).health.outcomeCounted u .good = (s.lane l).health := by simp [Health.outcomeCounted]
  rw [hsame] at htl
  exact ⟨t, tryFree_not_closing hgood hopen, hgood, fun n hn => (hothers n hn).trans (h.others n hn), htl, htls, htf⟩

theorem outcome_empty (h : OutcomeTaken l rest e u .empty s q) (hk : u.kind = .data ∨ u.kind = .poll) (hopen : e.state ≠ .closing) :
    ∃ t e', tryFree e.entry (streamOutcome e u .empty q) = t ∧ t.entry? e.entry = some e' ∧
      (e.served = true → u.stale = false → min (e.noShow + 1) 15 < s.params.noShowLimit →
        e' = { e with turns := e.kept l u.start, noShow := min (e.noShow + 1) 15 }) ∧
      (e.served = true → u.stale = false → s.params.noShowLimit ≤ min (e.noShow + 1) 15 →
        e' = { e with
          turns := e.kept l u.start, noShow := min (e.noShow + 1) 15, quiet := true,
          pollCountdown := if e.isSpread then none else some s.params.quietPoll }) ∧
      (e.served = false ∨ u.stale = true → e' = { e with turns := e.kept l u.start }) ∧
      (∀ n, n ≠ e.entry → t.entry? n = s.entry? n) ∧
      t.lane l = { s.lane l with fifo := rest, health := (s.lane l).health.outcomeCounted u .empty } ∧
      (∀ k, k ≠ l → t.lane k = s.lane k) ∧ t = { s with lanes := t.lanes, table := t.table } := by
  obtain ⟨hempty, hothers, hframe⟩ := streamOutcome_empty hk h.entry
  rw [h.params] at hempty
  generalize streamOutcome e u .empty q = t at *
  have hstate : (if e.served = true ∧ u.stale = false then ({ e with turns := e.kept l u.start } : Stream).noShown s.params
      else { e with turns := e.kept l u.start }).state ≠ .closing := by
    unfold Stream.noShown
    dsimp only
    split
    · split <;> exact hopen
    · exact hopen
  refine ⟨t, _, tryFree_not_closing hempty hstate, hempty, fun h1 h2 hlow => ?_, fun h1 h2 hhigh => ?_, fun hno => ?_,
    fun n hn => (hothers n hn).trans (h.others n hn), h.keeps hframe⟩
  · exact (if_pos ⟨h1, h2⟩).trans (if_neg (Nat.not_le.mpr hlow))
  · exact (if_pos ⟨h1, h2⟩).trans (if_pos hhigh)
  · refine if_neg fun hboth => ?_
    obtain hno | hno := hno
    · simp [hno] at hboth
    · simp [hno] at hboth

theorem outcome_damaged (h : OutcomeTaken l rest e u .damaged s q) (hopen : e.state ≠ .closing) :
    ∃ t e', tryFree e.entry (streamOutcome e u .damaged q) = t ∧ t.entry? e.entry = some e' ∧
      (restores s.params e u →
        e'.demand = min (e.demand + u.payload) 1048575 ∧
        e' = { e with turns := e.kept l u.start, demand := e'.demand, retry := e.retry + 1, deficit := e'.deficit } ∧
        (∀ k c, (t.ring k c).filter (· != e.entry) = (s.ring k c).filter (· != e.entry)) ∧
        (∀ k, e.place = .home k → 1 ≤ e.cls → e.cls ≤ 6 → 0 < e'.demand → e'.deficit = e.deficit ∧
          t.ring k e.cls = if e.entry ∈ s.ring k e.cls then s.ring k e.cls else s.ring k e.cls ++ [e.entry])) ∧
      (¬restores s.params e u → e' = { e with turns := e.kept l u.start } ∧ ∀ k, (t.lane k).rings = (s.lane k).rings) ∧
      (∀ n, n ≠ e.entry → t.entry? n = s.entry? n) ∧
      t.lane l = { s.lane l with
        fifo := rest, health := (s.lane l).health.outcomeCounted u .damaged, rings := (t.lane l).rings } ∧
      (∀ k, k ≠ l → t.lane k = { s.lane k with rings := (t.lane k).rings }) ∧
      t = { s with lanes := t.lanes, table := t.table } := by
  by_cases hback : restores s.params e u
  · rw [streamOutcome_restores (by rwa [h.params])]
    have hretry : ∀ m, (modEntry e.entry (fun x => { x with retry := x.retry + 1 }) q).entry? m = (q.entry? m).map fun x =>
        if m = e.entry then { x with retry := x.retry + 1 } else x :=
      fun m => modEntry_entry e.entry m (fun x => { x with retry := x.retry + 1 }) (by intro x; rfl) q
    have hre := hretry e.entry
    rw [h.entry, Option.map_some, if_pos rfl] at hre
    have hrlane : ∀ k, (modEntry e.entry (fun x => { x with retry := x.retry + 1 }) q).lane k = q.lane k := fun _ => rfl
    have hrframe : modEntry e.entry (fun x => { x with retry := x.retry + 1 }) q = { q with
      table := (modEntry e.entry (fun x => { x with retry := x.retry + 1 }) q).table } := rfl
    generalize modEntry e.entry (fun x => { x with retry := x.retry + 1 }) q = m at *
    have hmring : ∀ k c, m.ring k c = s.ring k c := fun k c => by simp only [State.ring, Lane.ring, hrlane, h.rings]
    obtain ⟨e', he', hdemand, hrecord, hfilter, hring, hrestOthers, hrestLanes⟩ :=
      restore_rings (payload := u.payload) hre hback.2.1 hback.2.2.1 hback.2.2.2.1
    have hrestFrame := restore_frame e.entry u.payload m
    generalize restore e.entry u.payload m = t at *
    have hstate : e'.state ≠ .closing := by
      rw [hrecord]
      exact hopen
    simp only [hmring] at hfilter hring
    refine ⟨t, e', tryFree_not_closing he' hstate, he', fun _ => ⟨hdemand, hrecord, hfilter, hring⟩, fun hno => absurd hback hno,
      fun n hn => ?_, ?_, fun k hk' => ?_, ?_⟩
    · rw [hrestOthers n hn, hretry]
      simp only [if_neg hn]
      rw [h.others n hn]
      cases s.entry? n <;> rfl
    · rw [hrestLanes, hrlane, h.lane]
    · rw [hrestLanes, hrlane, h.lanes k hk']
    · rw [hrestFrame, hrframe, h.frame]
  · rw [streamOutcome_damaged (by rwa [h.params])]
    refine ⟨q, _, tryFree_not_closing h.entry hopen, h.entry, fun hyes => absurd hyes hback, fun _ => ⟨rfl, h.rings⟩, h.others, ?_,
      fun k hk' => ?_, h.frame⟩
    · rw [h.lane]
    · rw [h.lanes k hk']

end

end Sys2Proof.Machine
end

section
/-! PROOF. Outcomes of CADENCE turns and of CLOSING streams (O34). -/

namespace Sys2Proof.Machine

section
variable {l : LaneNo} {w : LaneRecord} {rest : List LaneRecord} {e : Stream} {u : Turn} {r : BurstResult} {s q t v : State}

/-- What the outcome of a CADENCE turn does to the channel it belongs to (R109). -/
theorem cadenceOutcome_channels {k : Nat} {c : Channel} (hk : u.channel = some k) (hc : v.channel? k = some c)
    (howns : c.owns e.tag u = true) :
    (r = .good → (cadenceOutcome e.tag u r v).port = v.port ∧
      (cadenceOutcome e.tag u r v).channels = v.channels.map fun x => if x.number == k then { x with unused := 0 } else x) ∧
    (r = .damaged → (cadenceOutcome e.tag u r v).port = v.port ∧ (cadenceOutcome e.tag u r v).channels = v.channels) ∧
    (r = .empty → v.params.unusedLimit = 0 ∨ min (c.unused + 1) 255 < v.params.unusedLimit →
      (cadenceOutcome e.tag u r v).port = v.port ∧ (cadenceOutcome e.tag u r v).channels =
        v.channels.map fun x => if x.number == k then { c with unused := min (c.unused + 1) 255 } else x) ∧
    (r = .empty → 0 < v.params.unusedLimit → v.params.unusedLimit ≤ min (c.unused + 1) 255 → v.port.statusQueue.length < 32 →
      let others := v.channels.filter fun d => d.number != k
      let next := others.find? fun d => d.state == .standby && d.tag == c.tag && d.lane == c.lane
      (cadenceOutcome e.tag u r v).port = { v.port with statusQueue := v.port.statusQueue ++ [.cadenceEnded k c.tag .unused] } ∧
        (cadenceOutcome e.tag u r v).channel? k = none ∧
        (c.state = .standby ∨ next = none → (cadenceOutcome e.tag u r v).channels = others) ∧
        (∀ d, c.state = .running ∨ c.state = .draining → next = some d → (cadenceOutcome e.tag u r v).channels = others.map fun x =>
          if x.number == d.number then { x with state := .running, nextDue := some (takeoverDue v c x) } else x)) := by
  obtain ⟨hgood, hdamaged, hempty⟩ := cadenceOutcome_owned hk hc howns
  have hnumber : c.number = k := by simpa using List.find?_some hc
  refine ⟨fun hr => ?_, fun hr => ?_, fun hr hlow => ?_, fun hr hpos hhigh hroom => ?_⟩
  · rw [hr, hgood]
    exact ⟨rfl, rfl⟩
  · rw [hr, hdamaged]
    exact ⟨rfl, rfl⟩
  · rw [hr, hempty, if_neg (by omega)]
    exact ⟨rfl, rfl⟩
  · rw [hr, hempty, if_pos ⟨hpos, hhigh⟩]
    exact unused_ended hnumber hroom

theorem outcome_cadence (h : OutcomeTaken l rest e u r s q) (hk : u.kind = .cadence) (hopen : e.state ≠ .closing) :
    ∃ v t, tryFree e.entry (cadenceOutcome e.tag u r (streamOutcome e u r q)) = t ∧ t = cadenceOutcome e.tag u r v ∧
      v.channels = s.channels ∧ v.port = s.port ∧ v.params = s.params ∧ (∀ k, v.horizon k = s.horizon k) ∧
      t.entry? e.entry = some (if r = .good then { e with turns := e.kept l u.start, noShow := 0, retry := 0 }
        else { e with turns := e.kept l u.start }) ∧
      (∀ n, n ≠ e.entry → t.entry? n = s.entry? n) ∧
      t.lane l = { s.lane l with fifo := rest, health := (s.lane l).health.outcomeCounted u r } ∧
      (∀ k, k ≠ l → t.lane k = s.lane k) ∧
      t = { s with lanes := t.lanes, table := t.table, channels := t.channels, port := t.port } := by
  obtain ⟨hruns, hothers, hframe⟩ := streamOutcome_runs (e := e) (u := u) (by rw [hk]; decide) (by rw [hk]; decide) r h.entry
  obtain ⟨hvl, hvls, hvf⟩ := h.keeps hframe
  generalize streamOutcome e u r q = v at *
  have hcframe := cadenceOutcome_frame e.tag u r v
  have hvparams : v.params = s.params := (congrArg State.params hvf).trans rfl
  have hvhorizon : ∀ k, v.horizon k = s.horizon k :=
    horizon_congr ((congrArg State.builder hvf).trans rfl) hvparams fun k => by
      by_cases hk : k = l
      · rw [hk, hvl]
      · rw [hvls k hk]
  refine ⟨v, cadenceOutcome e.tag u r v, ?_, rfl, (congrArg State.channels hvf).trans rfl, (congrArg State.port hvf).trans rfl,
    hvparams, hvhorizon, ?_⟩
  all_goals generalize cadenceOutcome e.tag u r v = t at *
  all_goals
    have hte : ∀ n, t.entry? n = v.entry? n := fun n => entry?_congr ((congrArg State.table hcframe).trans rfl) n
    have hstate := (hte e.entry).trans hruns
  · exact tryFree_not_closing hstate hopen
  · have htl : ∀ k, t.lane k = v.lane k := fun k => (congrArg (fun x => State.lane x k) hcframe).trans rfl
    refine ⟨hstate.trans (congrArg some ?_), fun n hn => (hte n).trans ((hothers n hn).trans (h.others n hn)),
      (htl l).trans hvl, fun k hk => (htl k).trans (hvls k hk), ?_⟩
    · split
      · rfl
      · rfl
    · rw [hcframe, hvf]

/-- A resolved entry leaves the streams' families as they are. -/
theorem resolved_families (hq : q = resolved l rest e u r s) (c : Stream) :
    (c ∈ q.table → ∃ c' ∈ s.table, c'.parent = c.parent ∧ c'.entry = c.entry) ∧
      (c ∈ s.table → ∃ c' ∈ q.table, c'.parent = c.parent ∧ c'.entry = c.entry) := by
  have htable : q.table = (dropTurn e.entry l u.start s).table := by
    rw [hq, resolved, countOutcome_eq]
    rfl
  rw [htable]
  refine ⟨fun hc => ?_, fun hc => ⟨_, List.mem_map.mpr ⟨c, hc, rfl⟩, by split <;> rfl, by split <;> rfl⟩⟩
  obtain ⟨d, hd, rfl⟩ := List.mem_map.mp hc
  exact ⟨d, hd, by split <;> rfl, by split <;> rfl⟩

theorem outcome_closing (h : OutcomeTaken l rest e u r s q) (hq : q = resolved l rest e u r s) (hclosing : e.state = .closing) :
    ∃ t, tryFree e.entry q = t ∧ t.lane l = { s.lane l with fifo := rest, health := (s.lane l).health.outcomeCounted u r } ∧
      (∀ k, k ≠ l → t.lane k = s.lane k) ∧
      (e.kept l u.start ≠ [] ∨ e.parent = e.entry ∧ (∃ c ∈ s.table, c.parent = e.entry ∧ c.entry ≠ e.entry) →
        t.entry? e.entry = some { e with turns := e.kept l u.start } ∧ (∀ n, n ≠ e.entry → t.entry? n = s.entry? n) ∧
        t = { s with lanes := t.lanes, table := t.table }) ∧
      (e.kept l u.start = [] → (e.parent = e.entry → ∀ c ∈ s.table, c.parent = e.entry → c.entry = e.entry) →
        t.entry? e.entry = none ∧ t.lookupTag e.tag = none ∧
        (s.port.statusQueue.length < 32 → ∃ more, t.port.statusQueue = s.port.statusQueue ++ (.retired e.tag :: more))) ∧
      t = { s with lanes := t.lanes, table := t.table, tagMap := t.tagMap, pool := t.pool, builder := t.builder, port := t.port } := by
  have hfamilies := fun c => resolved_families hq c
  have hfreed := tryFree_frame e.entry q
  have hbusy : e.kept l u.start ≠ [] ∨ e.parent = e.entry ∧ (∃ c ∈ s.table, c.parent = e.entry ∧ c.entry ≠ e.entry) →
      tryFree e.entry q = q := fun hb => by
    refine tryFree_busy h.entry (hb.imp id fun ⟨hparent, c, hc, hcp, hce⟩ => ⟨hparent, ?_⟩)
    obtain ⟨c', hc', hp', he'⟩ := (hfamilies c).2 hc
    exact ⟨c', hc', hp'.trans hcp, fun hsame => hce (he'.symm.trans hsame)⟩
  have hfree : e.kept l u.start = [] → (e.parent = e.entry → ∀ c ∈ s.table, c.parent = e.entry → c.entry = e.entry) → _ :=
    fun hkept hchildren => tryFree_free h.entry hclosing hkept fun hparent c' hc' hp' => by
      obtain ⟨c, hc, hcp, hce⟩ := (hfamilies c').1 hc'
      exact hce.symm.trans (hchildren hparent c hc (hcp.trans hp'))
  have hport : q.port = s.port := (congrArg State.port h.frame).trans rfl
  have hlane : ∀ k, (tryFree e.entry q).lane k = q.lane k := fun k => (congrArg (fun x => State.lane x k) hfreed).trans rfl
  refine ⟨_, rfl, (hlane l).trans h.lane, fun k hk => (hlane k).trans (h.lanes k hk), fun hb => ?_, fun hkept hchildren => ?_, ?_⟩
  · rw [hbusy hb]
    exact ⟨h.entry, h.others, h.frame⟩
  · rw [← hport]
    exact hfree hkept hchildren
  · rw [hfreed, h.frame]

end

/-- Settles O34, by the result and the kind of the turn. -/
theorem goodOutcomeResolvesTurn : Obligations.GoodOutcomeResolvesTurn := by
  intro l w rest e u s hfifo htype htag he hu kept h counted
  obtain ⟨hul, -⟩ := turnAt_spec hu
  have hmatched := exec_burstOutcome_matched hfifo htype htag he hu
  have htaken := resolved_taken (l := l) (rest := rest) (u := u) (r := outcomeResult w) (byTag_entry he)
  refine ⟨fun hr hopen hk => ?_, fun hr hopen hk => ?_, fun hr hopen hk => ?_, fun hr hopen hk => ?_, fun hr hclosing => ?_⟩
  · have hstep := (hmatched (by rw [hr]; decide)).2 hopen
    rw [handOutcome_plain hk, hr] at hstep
    rw [hr] at htaken
    obtain ⟨t, ht, hrest⟩ := outcome_good htaken hopen
    exact ⟨t, by rw [hstep, ht], hrest⟩
  · have hstep := (hmatched (by rw [hr]; decide)).2 hopen
    rw [handOutcome_plain hk, hr] at hstep
    have hcounted : (s.lane l).health.outcomeCounted u .empty = counted := by rw [← hr]; rfl
    rw [hr] at htaken
    obtain ⟨t, e', ht, hrest⟩ := outcome_empty htaken hk hopen
    rw [hcounted] at hrest
    exact ⟨t, e', by rw [hstep, ht], hrest⟩
  · have hstep := (hmatched (by rw [hr]; decide)).2 hopen
    rw [handOutcome_plain hk, hr] at hstep
    have hcounted : (s.lane l).health.outcomeCounted u .damaged = counted := by rw [← hr]; rfl
    rw [hr] at htaken
    obtain ⟨t, e', ht, hrest⟩ := outcome_damaged htaken hopen
    rw [hcounted] at hrest
    exact ⟨t, e', by rw [hstep, ht], hrest⟩
  · have hstep := (hmatched hr).2 hopen
    have hhand : ∀ v, handOutcome e u (outcomeResult w) (outcomeTiming w) (outcomePower w) v =
        cadenceOutcome e.tag u (outcomeResult w) v := fun v => by simp only [handOutcome, hk]
    rw [hhand] at hstep
    obtain ⟨v, t, ht, htv, hchannels, hport, hparams, hhorizon, hentry, hothers, hlane, hlanes, hframe⟩ := outcome_cadence htaken hk hopen
    have hchannel? : ∀ k, v.channel? k = s.channel? k := fun k => by rw [State.channel?, hchannels]; rfl
    refine ⟨t, by rw [hstep, ht], hentry, fun k c hk hc htag hcl hplan => ?_, fun hno => ?_, hothers, hlane, hlanes, hframe⟩
    · have hdone := cadenceOutcome_channels (e := e) (r := outcomeResult w) hk ((hchannel? k).trans hc)
        (by simp [Channel.owns, htag, hcl, hul, hplan])
      have hdue : ∀ x, takeoverDue v c x = takeoverDue s c x := takeoverDue_congr hhorizon rfl
      simp only [← htv, hchannels, hport, hparams, hdue] at hdone
      exact hdone
    · have hunowned := cadenceOutcome_unowned (tag := e.tag) (u := u) (v := v) (fun k c hk hc => ?_) (outcomeResult w)
      · rw [htv, hunowned]
        exact ⟨hchannels, hport⟩
      · have hmiss := hno k c hk ((hchannel? k).symm.trans hc)
        rw [Bool.eq_false_iff]
        intro howns
        simp only [Channel.owns, Bool.and_eq_true, beq_iff_eq, Bool.not_eq_true', hul] at howns
        obtain ⟨⟨h1, h2⟩, h3⟩ := howns
        simp [h1, h2, h3] at hmiss
  · obtain ⟨t, ht, hrest⟩ := outcome_closing htaken rfl hclosing
    exact ⟨t, by rw [(hmatched hr).1 hclosing, ht], hrest⟩

end Sys2Proof.Machine
end

section
/-! PROOF. Join arrivals and rejoins (O35). -/

namespace Sys2Proof.Machine

/-! ### Lowest free numbers and tags -/

theorem firstUnder_spec {p : Nat → Bool} : ∀ {fuel start k : Nat}, firstUnder p fuel start = some k →
    p k = true ∧ start ≤ k ∧ k < start + fuel
  | 0, _, _, h => by simp [firstUnder] at h
  | fuel + 1, start, k, h => by
    rw [firstUnder] at h
    split at h
    · next hp =>
      obtain rfl := Option.some.inj h
      exact ⟨hp, le_refl _, by omega⟩
    · obtain ⟨hp, hlow, hhigh⟩ := firstUnder_spec h
      exact ⟨hp, by omega, by omega⟩

theorem lowestFree_spec {s : State} {n : Nat} (h : s.lowestFree = some n) : s.entry? n = none ∧ n < Config.entries := by
  obtain ⟨hfree, -, hlow⟩ := firstUnder_spec h
  exact ⟨Option.isNone_iff_eq_none.mp hfree, by omega⟩

/-- What a search of a rising list finds is the least that fits. -/
theorem find?_least {p : Nat → Bool} {xs : List Nat} {a : Nat} (h : xs.find? p = some a) (hsorted : xs.Pairwise (· < ·)) :
    ∀ x ∈ xs, p x = true → a ≤ x := by
  induction xs with
  | nil => simp at h
  | cons b xs ih =>
    obtain ⟨hb, hsorted'⟩ := List.pairwise_cons.mp hsorted
    intro x hx hpx
    rw [List.find?_cons] at h
    cases hpb : p b with
    | true =>
      rw [hpb] at h
      obtain rfl := Option.some.inj h
      obtain rfl | hx := List.mem_cons.mp hx
      · exact le_refl _
      · exact le_of_lt (hb x hx)
    | false =>
      rw [hpb] at h
      obtain rfl | hx := List.mem_cons.mp hx
      · rw [hpb] at hpx
        cases hpx
      · exact ih h hsorted' x hx hpx

theorem correctionWaits_iff (s : State) (tag : Nat) :
    s.correctionWaits tag = false ↔ ∀ k, ∀ c ∈ (s.lane k).corrections, c.tag ≠ tag := by
  simp [State.correctionWaits, mem_allLanes]

theorem qualifyingTag_spec {s : State} {replaced : Option Nat} {tag : Nat} (h : s.qualifyingTag replaced = some tag) :
    tag ∈ s.pool ∧ replaced ≠ some tag ∧ (∀ k, ∀ c ∈ (s.lane k).corrections, c.tag ≠ tag) ∧
      (s.pool.Pairwise (· < ·) → ∀ x ∈ s.pool, replaced ≠ some x → (∀ k, ∀ c ∈ (s.lane k).corrections, c.tag ≠ x) → tag ≤ x) := by
  have hfits := List.find?_some h
  simp only [Bool.and_eq_true, Bool.not_eq_true', bne_iff_ne] at hfits
  obtain ⟨hwaits, hother⟩ := hfits
  refine ⟨List.mem_of_find?_eq_some h, hother, (correctionWaits_iff s tag).mp hwaits, fun hsorted x hx hne hno => ?_⟩
  refine find?_least h hsorted x hx ?_
  simp [(correctionWaits_iff s x).mpr hno, hne]

/-! ### A new station -/

section
variable {l : LaneNo} {a : BitVec 48} {timing power : Int} {replaced : Option Nat} {u : State}

theorem joinUnknown_full (h : u.qualifyingTag replaced = none ∨ u.lowestFree = none) :
    joinUnknown l a timing power replaced u = queueStatus (.joinFailed a l .noRoom) u := by
  unfold joinUnknown
  split
  · next ht hn =>
    obtain h | h := h
    · rw [h] at ht
      cases ht
    · rw [h] at hn
      cases hn
  · rfl

/-- What a new station is made of. -/
theorem joinUnknown_made {tag n : Nat} (htag : u.qualifyingTag replaced = some tag) (hn : u.lowestFree = some n) :
    ∃ t, joinUnknown l a timing power replaced u = t ∧
      t.entry? n = some (Stream.newStation n tag u.params.quantum a l timing power) ∧
      (t.lane l).provisional = (u.lane l).provisional ++ [tag] ∧
      (t.lane l).corrections = (u.lane l).corrections ++ [correctionFor tag .cont timing power] ∧
      t.lane l = { u.lane l with provisional := (t.lane l).provisional, corrections := (t.lane l).corrections } ∧
      (∀ k, k ≠ l → t.lane k = u.lane k) ∧ (u.lookupTag tag = none → t.lookupTag tag = some n) ∧
      t.lookupAddress a = some n ∧ tag ∉ t.pool ∧ (∀ m, m ≠ n → t.entry? m = u.entry? m) ∧
      t = { u with lanes := t.lanes, table := t.table, tagMap := t.tagMap, stationIndex := t.stationIndex, pool := t.pool } := by
  obtain ⟨-, -, hwaits, -⟩ := qualifyingTag_spec htag
  obtain ⟨hfree, -⟩ := lowestFree_spec hn
  have heq : joinUnknown l a timing power replaced u = queueCorrection l (correctionFor tag .cont timing power)
      (modLane l (fun L => { L with provisional := L.provisional ++ [tag] }) (addAddress a n
        (addEntry (Stream.newStation n tag u.params.quantum a l timing power) { u with pool := u.pool.filter fun t => t != tag }))) := by
    simp only [joinUnknown, htag, hn]
  have hnone : ¬∃ d ∈ (u.lane l).corrections, d.tag = (correctionFor tag .cont timing power).tag := fun ⟨d, hd, hdt⟩ => hwaits l d hd hdt
  have hlane := fun k => queueCorrection_lane l k (correctionFor tag .cont timing power)
    (modLane l (fun L => { L with provisional := L.provisional ++ [tag] }) (addAddress a n
      (addEntry (Stream.newStation n tag u.params.quantum a l timing power) { u with pool := u.pool.filter fun t => t != tag })))
  have hplane : ∀ k, (modLane l (fun L => { L with provisional := L.provisional ++ [tag] }) (addAddress a n
      (addEntry (Stream.newStation n tag u.params.quantum a l timing power) { u with pool := u.pool.filter fun t => t != tag }))).lane k =
      if k = l then { u.lane l with provisional := (u.lane l).provisional ++ [tag] } else u.lane k := fun k =>
    modLane_lane l k (fun L => { L with provisional := L.provisional ++ [tag] }) _
  have htl : (joinUnknown l a timing power replaced u).lane l = { u.lane l with
      provisional := (u.lane l).provisional ++ [tag],
      corrections := (u.lane l).corrections ++ [correctionFor tag .cont timing power] } := by
    rw [heq, hlane, if_pos rfl, hplane, if_pos rfl]
    exact congrArg (fun cs => { u.lane l with provisional := (u.lane l).provisional ++ [tag], corrections := cs }) (if_neg hnone)
  refine ⟨_, rfl, ?_, congrArg Lane.provisional htl, congrArg Lane.corrections htl, ?_, fun k hk => ?_, fun hunmapped => ?_, ?_, ?_,
    fun m hm => ?_, ?_⟩
  · rw [heq]
    exact find?_insertBy.2 (by simp [Stream.newStation]) hfree
  · rw [htl]
  · rw [heq, hlane, if_neg hk, hplane, if_neg hk]
  · rw [heq]
    show ((insertBy Prod.fst (tag, n) u.tagMap).find? _).map _ = _
    rw [find?_insertBy.2 (by simp) (by simpa [State.lookupTag] using hunmapped)]
    rfl
  · rw [heq]
    show (((u.stationIndex.filter fun p => p.1 != a) ++ [(a, n)]).find? fun p => p.1 == a).map (·.2) = _
    rw [List.find?_append, List.find?_eq_none.mpr (by simp)]
    simp
  · rw [heq]
    show tag ∉ u.pool.filter fun t => t != tag
    simp
  · rw [heq]
    exact find?_insertBy.1 (by simpa [Stream.newStation] using Ne.symm hm)
  · rw [heq, queueCorrection_eq]
    rfl

end

/-! ### O35 -/

theorem joinArrival_exec {l : LaneNo} {w : LaneRecord} {rest : List LaneRecord} {s : State} (hfifo : (s.lane l).fifo = w :: rest)
    (htype : recordType w = 3) : exec (.joinArrival l) s = .next (joinStation l (joinAddress w) (joinTiming w) (joinPower w)
      (modLane l (fun L => { L with fifo := rest }) s)) := by
  have hhead : s.headRecord l (· == 3) = some w := headRecord_of_fifo hfifo (by simp [htype])
  show Host.Outcome.next (joinArrivalStep l s) = _
  rw [joinArrivalStep, hhead, ← popRecord_of_fifo hfifo]

/-- The station that an address names is one. -/
theorem isStation_of_address {a : BitVec 48} {n : Nat} {e : Stream} {s : State} (ha : s.lookupAddress a = some n)
    (he : s.entry? n = some e) (htags : s.tagsOk = true) (hfam : s.familiesOk = true) : e.isStation = true := by
  obtain ⟨p, hp, hpn⟩ := Option.map_eq_some_iff.mp ha
  simp only [State.familiesOk, Bool.and_eq_true, List.all_eq_true] at hfam
  have hnamed := hfam.2 p (List.mem_of_find?_eq_some hp)
  obtain ⟨d, hd, hdn⟩ := List.any_eq_true.mp hnamed
  simp only [Bool.and_eq_true, beq_iff_eq] at hdn
  obtain ⟨⟨hentry, hstation⟩, -⟩ := hdn
  obtain ⟨-, -, hinj⟩ := s.tagsOk_spec htags
  have hsame : d = e := hinj d hd e (mem_of_entry? he) (by rw [hentry, hpn, entry?_number he])
  rwa [← hsame]

/-- Settles O35: an arrival of an unknown address, and a rejoin, which is a retirement and then such an arrival. -/
theorem joinArrivalMakesStationOrFails : Obligations.JoinArrivalMakesStationOrFails := by
  intro l w rest s hfifo htype popped said lowestTag made
  have hsaid : ∀ m u, queueStatus m u = said m u := fun m u => by
    unfold queueStatus
    show _ = modPort (fun p => if p.statusQueue.length < 32 then _ else _) u
    split
    · next h => exact congrArg (fun p => { u with port := p }) (if_pos h).symm
    · next h => exact congrArg (fun p => { u with port := p }) (if_neg h).symm
  have hmade : ∀ replaced u, made replaced u (joinUnknown l (joinAddress w) (joinTiming w) (joinPower w) replaced u) := fun replaced u => by
    refine ⟨fun hfull => (joinUnknown_full hfull).trans (hsaid _ _), fun tag n htag hn => ⟨qualifyingTag_spec htag, ?_⟩⟩
    obtain ⟨t, ht, hentry, hrest⟩ := joinUnknown_made (l := l) (a := joinAddress w) (timing := joinTiming w) (power := joinPower w) htag hn
    rw [ht]
    exact ⟨_, hentry, rfl, rfl, rfl, rfl, rfl, rfl, rfl, rfl, hrest⟩
  have hstep := joinArrival_exec hfifo htype
  refine ⟨fun hunknown => ⟨_, hstep, ?_⟩, fun n old hknown hold htags hfam => ?_⟩
  · have hnone : (popped.lookupAddress (joinAddress w)).bind popped.entry? = none := by
      show (s.lookupAddress (joinAddress w)).bind _ = none
      rw [hunknown]
      rfl
    show made none popped (joinStation _ _ _ _ popped)
    rw [joinStation, hnone]
    exact hmade none popped
  · have hsome : (popped.lookupAddress (joinAddress w)).bind popped.entry? = some old := by
      show (s.lookupAddress (joinAddress w)).bind _ = some old
      rw [hknown]
      exact hold
    rw [joinStation, hsome] at hstep
    obtain rfl : old.entry = n := entry?_number hold
    have hframe := queueStatus_frame (.stationLost old.tag .rejoin) popped
    have hretired := fun v (hv : v = { s with lanes := v.lanes, port := v.port }) =>
      retireWithChildren_retired (s := v) .rejoin (e := old) (by rw [hv]; exact htags) (by rw [hv]; exact hfam) (by rw [hv]; exact hold)
        (.inl (isStation_of_address hknown hold htags hfam))
    refine ⟨_, _, hstep, ?_, hmade _ _⟩
    rw [← hsaid]
    exact hretired _ (by rw [hframe]; rfl)

end Sys2Proof.Machine
end

section
/-! PROOF. Demand reports (O30). -/

namespace Sys2Proof.Machine

/-! ### What the rings follow from -/

/-- What the rings follow from may differ in what they do not read. -/
theorem RingsFollow.congr_left {ns : List Nat} {s s' t : State} (h : RingsFollow ns s t)
    (hrings : ∀ k, (s'.lane k).rings = (s.lane k).rings) (hentry : ∀ m, s'.entry? m = s.entry? m) : RingsFollow ns s' t := by
  have hring : ∀ k c, s'.ring k c = s.ring k c := fun k c => by simp only [State.ring, Lane.ring, hrings]
  simp only [RingsFollow, hring, hentry] at h ⊢
  exact h

section
variable {n : Nat} {l : LaneNo} {e d : Stream} {s : State}

/-- Where an entry is found, to change it and to put the changed record in its place come to the same. -/
theorem modEntry_const {f : Stream → Stream} (hf : ∀ x, (f x).entry = x.entry) (he : s.entry? n = some e) (m : Nat) :
    (modEntry n (fun _ => f e) s).entry? m = (modEntry n f s).entry? m := by
  have hn : (f e).entry = n := (hf e).trans (entry?_number he)
  have hfind : ((fun x : Stream => x.entry == m) ∘ fun x : Stream => if (x.entry == n) = true then f e else x) =
      fun x => x.entry == m := by
    funext x
    simp only [Function.comp]
    split
    · next hx => rw [hn, beq_iff_eq.mp hx]
    · rfl
  rw [modEntry_entry n m f hf s]
  simp only [State.entry?, modEntry, List.find?_map, hfind]
  by_cases hm : m = n
  · subst hm
    rw [show s.table.find? (fun x => x.entry == m) = some e from he]
    simp [entry?_number he]
  · cases h : s.table.find? fun x => x.entry == m with
    | none => rfl
    | some x =>
      have hx : x.entry = m := by simpa using List.find?_some h
      simp [hx, hm]

/-! ### What a report makes of a stream -/

theorem reported_eq (e : Stream) : e.reported = { e with
    noShow := 0, quiet := false,
    pollCountdown := if e.quiet = true ∧ e.isSpread = false then (if 0 < e.pollInterval then some e.pollInterval else none)
      else e.pollCountdown } := by
  simp only [Stream.reported, Bool.and_eq_true, Bool.not_eq_true', gt_iff_lt]

/-- A report names the stream and comes on a lane it is served on. -/
theorem demandReport_exec {w : LaneRecord} {rest : List LaneRecord} (hfifo : (s.lane l).fifo = w :: rest) (htype : recordType w = 1)
    (hkind : demandKind w ≠ 3) (he : s.byTag (recordTag w) = some e) (hserved : e.served = true) :
    let popped := modLane l (fun L => { L with fifo := rest }) s
    let carrying := if demandKind w = 1 then some (demandCarrying w) else none
    (e.place = .home l → exec (.demandReport l) s = .next (homeReport l carrying (demandAmount w) e popped)) ∧
    (∀ set i, e.place = .spread set i → s.nodeLane l ∈ set →
      exec (.demandReport l) s = .next (spreadReport (demandAmount w) e popped)) := by
  intro popped carrying
  have hpopped : popped.byTag (recordTag w) = some e := he
  have hstep : exec (.demandReport l) s = .next (applyReport l carrying (demandAmount w) e popped) := by
    rw [exec_demandReport_of_fifo hfifo htype]
    show Host.Outcome.next (takeReport l w popped) = _
    simp only [takeReport, if_neg hkind, hpopped]
    rfl
  have hstate : e.state = .basic ∨ e.state = .admitted := by simpa [Stream.served] using hserved
  refine ⟨fun hplace => ?_, fun set i hplace hset => ?_⟩
  · rw [hstep]
    obtain h | h := hstate <;> simp [applyReport, h, hplace]
  · have hset' : popped.nodeLane l ∈ set := hset
    rw [hstep]
    obtain h | h := hstate <;> simp [applyReport, h, hplace, hset']

/-- Everything a report on a non-spread stream does, once its record becomes `d`. -/
theorem homeReport_spec {carrying : Option Slice} {amount : Nat} (he : s.entry? e.entry = some e) (hserved : e.served = true)
    (hplace : e.place = .home l)
    (hd : d = match e.mode with
      | .edge => e.reported.edgeReport amount
      | .level => e.reported.levelReport l carrying amount)
    (hsame : d = { e with demand := d.demand, turns := d.turns, noShow := d.noShow, quiet := d.quiet, pollCountdown := d.pollCountdown }) :
    ∃ t e', homeReport l carrying amount e s = t ∧ t.entry? e.entry = some e' ∧ e' = { d with deficit := e'.deficit } ∧
      RingsFollow [e.entry] (modEntry e.entry (fun _ => d) s) t ∧ (∀ k, t.lane k = { s.lane k with rings := (t.lane k).rings }) ∧
      (1 ≤ e.cls → e.cls ≤ 6 → 0 < d.demand → e'.deficit = e.deficit ∧
        t.ring l e.cls = if e.entry ∈ s.ring l e.cls then s.ring l e.cls else s.ring l e.cls ++ [e.entry]) ∧
      (d.demand = 0 → e'.deficit = 0 ∧ ∀ k c, e.entry ∉ t.ring k c) ∧
      (∀ n, n ≠ e.entry → t.entry? n = s.entry? n) ∧ t = { s with lanes := t.lanes, table := t.table } := by
  generalize hf' : (fun x : Stream => match x.mode with
    | .edge => x.reported.edgeReport amount
    | .level => x.reported.levelReport l carrying amount) = f
  have hfe : f e = d := by rw [← hf', hd]
  have hf : ∀ x, (f x).entry = x.entry := fun x => by
    rw [← hf']
    dsimp only
    split <;> rfl
  have hstep : homeReport l carrying amount e s = updateEntry e.entry f s := by rw [← hf']; rfl
  obtain ⟨hentry, hothers, -, hlanes⟩ := updateEntry_turned hf he
  have hdplace : d.place = .home l := by rw [hsame]; exact hplace
  have hdserved : d.served = true := by rw [hsame]; exact hserved
  have hdcls : d.cls = e.cls := by rw [hsame]
  have hdeficit : d.deficit = e.deficit := by rw [hsame]
  have hmeets : 1 ≤ e.cls → e.cls ≤ 6 → 0 < d.demand → _ := fun h1 h6 hpos => updateEntry_meets hf he (k := l) h1 h6 (by
    simp only [State.meetsRing, State.available, hfe, hdplace, if_pos, hdserved, hdcls, Bool.true_and, beq_self_eq_true,
      decide_eq_true_eq]
    exact hpos)
  have hapart : d.demand = 0 → _ := fun hzero => updateEntry_apart hf he fun k c => by
    simp [State.meetsRing, State.available, hfe, hdplace, hzero]
  have hfollow := (syncRings_follow e.entry (modEntry e.entry f s)).congr_left (s' := modEntry e.entry (fun _ => d) s)
    (fun _ => rfl) (fun m => by rw [← hfe]; exact modEntry_const hf he m)
  have hframe := updateEntry_frame e.entry f s
  rw [hfe] at hentry
  rw [hstep]
  change RingsFollow _ _ (updateEntry e.entry f s) at hfollow
  generalize updateEntry e.entry f s = t at *
  refine ⟨t, _, rfl, hentry, rfl, hfollow, hlanes, fun h1 h6 hpos => ?_, fun hzero => ?_, hothers, hframe⟩
  · obtain ⟨hring, hin⟩ := hmeets h1 h6 hpos
    exact ⟨by rw [hin]; exact hdeficit, hring⟩
  · obtain ⟨hin, hnone⟩ := hapart hzero
    exact ⟨by rw [hin]; rfl, hnone⟩

/-- Everything a report on a spread stream does. -/
theorem spreadReport_spec {amount : Nat} {v : View} (he : s.entry? e.entry = some e) (hv : s.viewOf e.tag = some v) :
    let kept := v.claims.filter fun c => countAfter c.endTick s.nodeTime
    let wanted := amount - (kept.map (·.bytes)).sum - (v.own.map (·.pending)).sum
    ∃ t, spreadReport amount e s = t ∧
      NoticeOffered (Notice.demandFor e.tag) none (.demand e.tag (v.epoch + 1) wanted) s t ∧
      t.viewOf e.tag = some { v with claims := kept } ∧ (∀ tag, tag ≠ e.tag → t.viewOf tag = s.viewOf tag) ∧
      RingsFollow [v.entry] (modEntry e.entry (fun _ => e.reported) s) t ∧
      (∀ k, t.lane k = { s.lane k with rings := (t.lane k).rings, owed := (t.lane k).owed }) ∧
      t = { s with lanes := t.lanes, table := t.table, views := t.views, bus := t.bus } := by
  intro kept wanted
  generalize hg : (fun x : View => { x with claims := x.unexpired s.nodeTime }) = g
  have hgtag : ∀ x, (g x).tag = x.tag := fun x => by rw [← hg]
  have hgv : g v = { v with claims := kept } := by rw [← hg]; rfl
  have hreported : (modEntry e.entry Stream.reported s).viewOf e.tag = some v := hv
  have hstep : spreadReport amount e s = offerDemand e.tag (v.epoch + 1) wanted (modView e.tag g (modEntry e.entry Stream.reported s)) := by
    rw [← hg]
    simp only [spreadReport, hreported]
    rfl
  obtain ⟨hviews, hother, hfollow⟩ := modView_changes g hgtag hreported
  obtain ⟨-, -, hlanes, hframe⟩ := modView_spec g hreported
  have hfollow' := hfollow.congr_left (s' := modEntry e.entry (fun _ => e.reported) s) (fun _ => rfl)
    (modEntry_const (f := Stream.reported) (fun _ => rfl) he)
  have hlane : ∀ k, (modEntry e.entry Stream.reported s).lane k = s.lane k := fun _ => rfl
  generalize modView e.tag g (modEntry e.entry Stream.reported s) = u at *
  have hoffered := offerDemand_offered e.tag (v.epoch + 1) wanted u
  obtain ⟨htlanes, htframe⟩ := offerDemand_frame e.tag (v.epoch + 1) wanted u
  generalize offerDemand e.tag (v.epoch + 1) wanted u = t at *
  have hul : ∀ k, u.lane k = { s.lane k with rings := (u.lane k).rings } := fun k => (hlanes k).trans (by rw [hlane])
  have htviews : ∀ tag, t.viewOf tag = u.viewOf tag := fun tag => (congrArg (fun x => State.viewOf x tag) htframe).trans rfl
  have htl : ∀ k, t.lane k = { s.lane k with rings := (t.lane k).rings, owed := (t.lane k).owed } := fun k => by
    rw [htlanes, hul]
  refine ⟨t, hstep, ?_, ?_, fun tag htag => ?_, ?_, htl, ?_⟩
  · refine hoffered.congr ((congrArg State.bus hframe).trans rfl).symm (fun k => ?_) (fun k => ?_) (fun k => ?_) rfl fun _ => rfl
    · rw [hul]
    · rw [State.laneState, State.laneState, hul]
    · rw [hul]
  · rw [htviews, hviews, hgv]
  · rw [htviews]
    exact hother tag htag
  · exact hfollow'.congr (fun _ => rfl) (fun k => by rw [htlanes]) rfl ((congrArg State.table htframe).trans rfl)
      ((congrArg State.views htframe).trans rfl) ((congrArg State.boot htframe).trans rfl)
  · rw [htframe, hframe]
    rfl

end

/-- Settles O30, by the place of the stream and its report mode. -/
theorem edgeReportAddsDemand : Obligations.EdgeReportAddsDemand := by
  intro l w rest e s hfifo htype hkind he hserved popped carrying heard ringed
  have hentry : popped.entry? e.entry = some e := byTag_entry he
  have hreported : e.reported = heard := reported_eq e
  have hpring : ∀ k c, popped.ring k c = s.ring k c := fun k c => by
    have hr : ∀ k, (popped.lane k).rings = (s.lane k).rings := fun k => by
      show ((modLane l (fun L => { L with fifo := rest }) s).lane k).rings = _
      rw [modLane_lane]
      split
      · next h => rw [h]
      · rfl
    simp only [State.ring, Lane.ring, hr]
  have hpfifo : (popped.lane l).fifo = rest := by
    show ((modLane l (fun L => { L with fifo := rest }) s).lane l).fifo = rest
    rw [modLane_lane, if_pos rfl]
  obtain ⟨hhome, hspread⟩ := demandReport_exec hfifo htype hkind he hserved
  refine ⟨fun hplace hmode => ?_, fun hplace hmode => ?_, fun set i v hplace hset hv => ?_⟩
  · obtain ⟨t, e', ht, hte, hrecord, hfollow, hlanes, hring, -, hothers, hframe⟩ := homeReport_spec (carrying := carrying)
      (amount := demandAmount w) (d := heard.edgeReport (demandAmount w)) hentry hserved hplace (by rw [hmode, hreported]) rfl
    have hdemand : e'.demand = (heard.edgeReport (demandAmount w)).demand := by rw [hrecord]
    have hstep := hhome hplace
    rw [ht] at hstep
    simp only [hpring] at hring
    refine ⟨t, e', hstep, ?_, hte, hdemand, ?_, ⟨?_, hlanes⟩, ?_, fun n hn => hothers n hn, ?_⟩
    · rw [hlanes]
      exact hpfifo
    · rw [hdemand]
      exact hrecord
    · rw [hdemand]
      exact hfollow
    · rw [hdemand]
      exact hring
    · rw [hframe]
      rfl
  · obtain ⟨t, e', ht, hte, hrecord, hfollow, hlanes, hring, hidle, hothers, hframe⟩ := homeReport_spec (carrying := carrying)
      (amount := demandAmount w) (d := heard.levelReport l carrying (demandAmount w)) hentry hserved hplace (by rw [hmode, hreported]) rfl
    have hdemand : e'.demand = (heard.levelReport l carrying (demandAmount w)).demand := by rw [hrecord]
    have hturns : e'.turns = (heard.levelReport l carrying (demandAmount w)).turns := by rw [hrecord]
    have hstep := hhome hplace
    rw [ht] at hstep
    simp only [hpring] at hring
    refine ⟨t, e', hstep, ?_, hte, hdemand, hturns, ?_, ⟨?_, hlanes⟩, ?_, ?_, fun n hn => hothers n hn, ?_⟩
    · rw [hlanes]
      exact hpfifo
    · rw [hdemand, hturns]
      exact hrecord
    · rw [hdemand, hturns]
      exact hfollow
    · rw [hdemand]
      exact hring
    · rw [hdemand]
      exact hidle
    · rw [hframe]
      rfl
  · intro kept wanted
    obtain ⟨t, ht, hoffered, hview, hother, hfollow, hlanes, hframe⟩ := spreadReport_spec (amount := demandAmount w) hentry
      (show popped.viewOf e.tag = some v from hv)
    have hstep := hspread set i hplace hset
    rw [ht] at hstep
    rw [hreported] at hfollow
    refine ⟨t, hstep, ?_, hoffered, hview, hother, hfollow, hlanes, ?_⟩
    · rw [hlanes]
      exact hpfifo
    · rw [hframe]
      rfl

end Sys2Proof.Machine
end

section
/-! PROOF. AMEND (O49). -/

namespace Sys2Proof.Machine

/-! ### What an amendment makes of a record -/

/-- The poll countdown of a settled record (R26). -/
def Stream.settledCountdown (p : Params) (e : Stream) : Option Nat :=
  if e.served = true ∧ e.isSpread = false ∧ (0 < e.pollInterval ∨ e.quiet = true) then
    some (e.pollCountdown.getD (reloadValue p e)) else none

theorem settlePoll_eq (p : Params) (e : Stream) : settlePoll p e = { e with pollCountdown := e.settledCountdown p } := by
  unfold settlePoll Stream.settledCountdown
  by_cases h : e.served = true ∧ e.isSpread = false ∧ (0 < e.pollInterval ∨ e.quiet = true)
  · have hb : (e.served && !e.isSpread && (decide (e.pollInterval > 0) || e.quiet)) = true := by
      simpa [and_assoc] using h
    rw [if_pos hb, if_pos h]
    cases hc : e.pollCountdown with
    | none => rfl
    | some c => cases e; simp_all
  · have hb : ¬(e.served && !e.isSpread && (decide (e.pollInterval > 0) || e.quiet)) = true := by
      simpa [and_assoc] using h
    rw [if_neg hb, if_neg h]

/-- The mode of a record is changed by the amendment. -/
def Amendment.changesMode (a : Amendment) (e : Stream) : Bool := a.mode.any fun m => decide (m ≠ e.mode)

/-- The poll countdown of an amended record (R34). -/
def Amendment.countdown (p : Params) (a : Amendment) (e : Stream) : Option Nat :=
  if e.isSpread then e.pollCountdown
  else match a.pollInterval with
    | some n =>
      if 0 < n ∨ e.quiet = true then some (if e.pollCountdown = none ∧ e.quiet = true then p.quietPoll else n) else none
    | none => e.pollCountdown

/-- The profiles of an amended record (R34). -/
def Amendment.profiles (self : PeerNo) (a : Amendment) (e : Stream) : Vector Nat 4 :=
  (ownLanes self e).foldl (fun ps l => ps.set l.val ((a.profile l).getD ps[l.val])) e.profiles

theorem amendMode_eq (a : Amendment) (e : Stream) : e.amendMode a.mode = { e with
    mode := a.mode.getD e.mode, demand := if a.changesMode e then 0 else e.demand,
    deficit := if a.changesMode e then 0 else e.deficit,
    turns := if a.changesMode e then e.turns.map fun x => { x with stale := false } else e.turns } := by
  unfold Stream.amendMode Amendment.changesMode
  cases a.mode with
  | none => rfl
  | some m =>
    by_cases h : m = e.mode
    · subst h
      simp
    · simp [h]

theorem amendPoll_eq (p : Params) (a : Amendment) {e : Stream} (hserved : e.served = true) : e.amendPoll p a.pollInterval = { e with
    pollInterval := if e.isSpread then e.pollInterval else a.pollInterval.getD e.pollInterval,
    pollCountdown := a.countdown p e } := by
  unfold Stream.amendPoll Amendment.countdown
  cases a.pollInterval with
  | none => cases e.isSpread <;> simp
  | some n =>
    cases hs : e.isSpread with
    | true => simp
    | false =>
      simp only [Bool.false_eq_true, if_false, Option.getD_some]
      rw [settlePoll_eq, Stream.settledCountdown]
      have h1 : ({ e with pollInterval := n, pollCountdown := e.pollCountdown.map fun _ => n } : Stream).served = true := hserved
      have h2 : ({ e with pollInterval := n, pollCountdown := e.pollCountdown.map fun _ => n } : Stream).isSpread = false := hs
      simp only [h1, h2, true_and]
      cases hc : e.pollCountdown with
      | none => cases e.quiet <;> simp [reloadValue]
      | some c => simp

/-- What an amendment makes of a BASIC or ADMITTED stream, field by field (R34). -/
theorem amend_eq (p : Params) (self : PeerNo) (a : Amendment) {e : Stream} (hserved : e.served = true) : e.amend p self a = { e with
    mode := a.mode.getD e.mode, demand := if a.changesMode e then 0 else e.demand,
    turns := if a.changesMode e then e.turns.map fun x => { x with stale := false } else e.turns,
    quantum := a.quantum.getD e.quantum,
    deficit := if a.changesMode e then 0 else min e.deficit ((a.quantum.map (4 * ·)).getD e.deficit),
    cls := a.cls.getD e.cls,
    pollInterval := if e.isSpread then e.pollInterval else a.pollInterval.getD e.pollInterval,
    pollCountdown := a.countdown p e, profiles := a.profiles self e } := by
  have hquantum : ∀ x : Stream, x.amendQuantum a.quantum = { x with
      quantum := a.quantum.getD x.quantum, deficit := min x.deficit ((a.quantum.map (4 * ·)).getD x.deficit) } := fun x => by
    unfold Stream.amendQuantum
    cases a.quantum <;> simp
  unfold Stream.amend
  rw [hquantum, amendMode_eq]
  generalize hx : Stream.amendClass a.cls _ = x
  have hxserved : x.served = true := by rw [← hx]; exact hserved
  rw [amendPoll_eq p a hxserved, ← hx]
  simp only [Stream.amendProfiles, Stream.amendClass]
  cases a.changesMode e with
  | true => simp only [if_true, Nat.zero_min]; rfl
  | false => simp only [Bool.false_eq_true, if_false]; rfl

/-- A profile is set on the own lanes alone. -/
theorem profiles_get (own : List LaneNo) (profile : LaneNo → Option Nat) (l : LaneNo) : ∀ ps : Vector Nat 4,
    (own.foldl (fun ps l => ps.set l.val ((profile l).getD ps[l.val])) ps)[l.val] =
      if l ∈ own then (profile l).getD ps[l.val] else ps[l.val] := by
  induction own with
  | nil => exact fun _ => rfl
  | cons k own ih =>
    intro ps
    rw [List.foldl_cons, ih]
    by_cases hk : k = l
    · subst hk
      rw [if_pos (List.mem_cons_self ..)]
      cases hp : profile k <;> simp
    · have hval : ¬k.val = l.val := fun h => hk (Fin.ext h)
      simp [hval, Ne.symm hk]

/-! ### An amendment applied -/

theorem amend_entry (p : Params) (self : PeerNo) (a : Amendment) (e : Stream) : (e.amend p self a).entry = e.entry := by
  have hsettle : ∀ x : Stream, (settlePoll p x).entry = x.entry := fun x => by rw [settlePoll_eq]
  have hpoll : ∀ x : Stream, (x.amendPoll p a.pollInterval).entry = x.entry := fun x => by
    unfold Stream.amendPoll
    split
    · split
      · rfl
      · exact hsettle _
    · rfl
  have hquantum : ∀ x : Stream, (x.amendQuantum a.quantum).entry = x.entry := fun x => by
    unfold Stream.amendQuantum
    split <;> rfl
  show (((((e.amendMode a.mode).amendQuantum a.quantum).amendClass a.cls).amendPoll p a.pollInterval)).entry = _
  rw [hpoll]
  show ((e.amendMode a.mode).amendQuantum a.quantum).entry = _
  rw [hquantum, amendMode_eq]

/-- Everything an amendment does, for the record `new` that it makes. -/
theorem applyAmendment_spec {n : Nat} {a : Amendment} {e new : Stream} {s : State} (he : s.entry? n = some e)
    (hnew : e.amend s.params s.boot.peerId a = new) :
    ∃ t, applyAmendment n a s = t ∧
      t.entry? n = some { new with deficit := if t.inSomeRing n then new.deficit else 0 } ∧
      (∀ m, m ≠ n → t.entry? m = s.entry? m) ∧ RingsFollow [n] (modEntry n (fun _ => new) s) t ∧
      (∀ k, t.lane k = { s.lane k with rings := (t.lane k).rings }) ∧ t = { s with table := t.table, lanes := t.lanes } := by
  have hf := amend_entry s.params s.boot.peerId a
  obtain ⟨hentry, hothers, -, hlanes⟩ := updateEntry_turned hf he
  have hfollow := (syncRings_follow n (modEntry n (Stream.amend s.params s.boot.peerId a) s)).congr_left
    (s' := modEntry n (fun _ => new) s) (fun _ => rfl) (fun m => by rw [← hnew]; exact modEntry_const hf he m)
  have hframe := updateEntry_frame n (Stream.amend s.params s.boot.peerId a) s
  rw [hnew] at hentry
  change RingsFollow _ _ (updateEntry n (Stream.amend s.params s.boot.peerId a) s) at hfollow
  refine ⟨applyAmendment n a s, rfl, ?_⟩
  unfold applyAmendment
  generalize updateEntry n (Stream.amend s.params s.boot.peerId a) s = t at *
  exact ⟨hentry, hothers, hfollow, hlanes, hframe⟩

/-- An answer changes the reply holder alone. -/
theorem answered_follow {ns : List Nat} {s t : State} (h : RingsFollow ns s t) (seq : Byte) (clamped : Bool) :
    RingsFollow ns s (answerDone seq clamped t) :=
  h.congr (fun _ => rfl) (fun _ => rfl) rfl rfl rfl rfl

/-- The reply of an order that is done. -/
def orderAnswer (seq : Byte) (clamped : Bool) : Reply :=
  { seq := seq, result := if clamped then .clamped else .done, note := .none, data := [] }

theorem answerDone_port (seq : Byte) (clamped : Bool) (s : State) :
    (answerDone seq clamped s).port = { s.port with holder := .unread (orderAnswer seq clamped) } := rfl

/-! ### AMEND -/

section
variable {seq : Byte} {f : AmendFields} {e : Stream} {s : State}

theorem keeps_eq (mask : Byte) (bit : Nat) : keeps mask bit = mask.getLsbD bit := BitVec.testBit_toNat mask

theorem unlessKept_getD {α : Type} (mask : Byte) (bit : Nat) (a b : α) :
    (unlessKept mask bit a).getD b = if mask.getLsbD bit then b else a := by
  unfold unlessKept
  rw [keeps_eq]
  split <;> rfl

theorem unlessKept_any {α : Type} (mask : Byte) (bit : Nat) (a : α) (p : α → Bool) :
    (unlessKept mask bit a).any p = (!mask.getLsbD bit && p a) := by
  unfold unlessKept
  rw [keeps_eq]
  split
  · next h => rw [h]; rfl
  · next h => rw [Bool.eq_false_iff.mpr h]; rfl

theorem amend_exec (hready : s.boot.startup = .ready) :
    ((∀ e, s.byTag f.tag.toNat = some e → e.state ≠ .admitted) → exec (.amend seq f) s = .next (refuse seq .badTag s)) ∧
    ∀ e, s.byTag f.tag.toNat = some e → e.state = .admitted → exec (.amend seq f) s = .next (
      if e.isSpread = true ∧ f.keep.getLsbD 1 = false ∧ modeOf f.classMode = .edge then refuse seq .badMode s
      else answerDone seq (amendClamped s.boot.peerId f e) (applyAmendment e.entry (amendAmendment f) s)) := by
  have hexec : exec (.amend seq f) s = .next (amendStep seq f s) := rfl
  rw [hexec, amendStep, whenReady_ready hready]
  refine ⟨fun hno => ?_, fun e he hstate => ?_⟩
  · have hnone : (s.byTag f.tag.toNat).filter (fun e => e.state == .admitted) = none := by
      rw [Option.filter_eq_none_iff]
      intro e he
      simpa using hno e he
    rw [hnone]
  · have hsome : (s.byTag f.tag.toNat).filter (fun e => e.state == .admitted) = some e := by
      rw [he]
      simp [hstate]
    rw [hsome]
    refine congrArg Host.Outcome.next (if_congr (and_congr_right fun _ => ?_) rfl rfl)
    show unlessKept f.keep 1 (modeOf f.classMode) = some .edge ↔ _
    unfold unlessKept
    rw [keeps_eq]
    cases f.keep.getLsbD 1 <;> simp

/-- The record an AMEND makes, up to its profiles. -/
theorem amendAmendment_eq (hstate : e.state = .admitted) :
    let kept := fun bit : Nat => f.keep.getLsbD bit
    let changed := !kept 1 && decide (modeOf f.classMode ≠ e.mode)
    let quantum := clampQuantum f.quantum.toNat
    e.amend s.params s.boot.peerId (amendAmendment f) = { e with
      mode := if kept 1 then e.mode else modeOf f.classMode, demand := if changed then 0 else e.demand,
      turns := if changed then e.turns.map fun x => { x with stale := false } else e.turns,
      quantum := if kept 2 then e.quantum else quantum,
      deficit := if changed then 0 else if kept 2 then e.deficit else min e.deficit (4 * quantum),
      cls := if kept 0 then e.cls else f.classMode.toNat % 8,
      pollInterval := if kept 3 ∨ e.isSpread = true then e.pollInterval else f.pollInterval.toNat,
      pollCountdown := if kept 3 ∨ e.isSpread = true then e.pollCountdown
        else if 0 < f.pollInterval.toNat ∨ e.quiet = true then
          some (if e.pollCountdown = none ∧ e.quiet = true then s.params.quietPoll else f.pollInterval.toNat)
        else none,
      profiles := (amendAmendment f).profiles s.boot.peerId e } := by
  intro kept changed quantum
  rw [amend_eq _ _ _ (by simp [Stream.served, hstate])]
  have hcls : (amendAmendment f).cls.getD e.cls = if kept 0 then e.cls else f.classMode.toNat % 8 := unlessKept_getD _ _ _ _
  have hmode : (amendAmendment f).mode.getD e.mode = if kept 1 then e.mode else modeOf f.classMode := unlessKept_getD _ _ _ _
  have hchanged : (amendAmendment f).changesMode e = changed := unlessKept_any _ _ _ _
  have hquantum : (amendAmendment f).quantum.getD e.quantum = if kept 2 then e.quantum else quantum := unlessKept_getD _ _ _ _
  have hdeficit : min e.deficit (((amendAmendment f).quantum.map (4 * ·)).getD e.deficit) =
      if kept 2 then e.deficit else min e.deficit (4 * quantum) := by
    show min e.deficit (((unlessKept f.keep 2 quantum).map (4 * ·)).getD e.deficit) = if f.keep.getLsbD 2 then _ else _
    unfold unlessKept
    rw [keeps_eq]
    split
    · exact min_self _
    · rfl
  have hinterval : (if e.isSpread then e.pollInterval else (amendAmendment f).pollInterval.getD e.pollInterval) =
      if kept 3 ∨ e.isSpread = true then e.pollInterval else f.pollInterval.toNat := by
    show (if e.isSpread then e.pollInterval else (unlessKept f.keep 3 f.pollInterval.toNat).getD e.pollInterval) = _
    rw [unlessKept_getD]
    split
    · next h => exact (if_pos (.inr h)).symm
    · next h => exact if_congr (by simp [kept, h]) rfl rfl
  have hcountdown : (amendAmendment f).countdown s.params e = if kept 3 ∨ e.isSpread = true then e.pollCountdown
      else if 0 < f.pollInterval.toNat ∨ e.quiet = true then
        some (if e.pollCountdown = none ∧ e.quiet = true then s.params.quietPoll else f.pollInterval.toNat)
      else none := by
    have hinterval : (amendAmendment f).pollInterval = if kept 3 then none else some f.pollInterval.toNat := by
      show unlessKept f.keep 3 _ = if f.keep.getLsbD 3 then _ else _
      rw [unlessKept, keeps_eq]
    rw [Amendment.countdown, hinterval]
    by_cases hs : e.isSpread = true
    · rw [if_pos hs, if_pos (.inr hs)]
    · by_cases hk : kept 3 = true
      · rw [if_neg hs, if_pos hk, if_pos (.inl hk)]
      · rw [if_neg hs, if_neg hk, if_neg (not_or.mpr ⟨hk, hs⟩)]
  rw [hcls, hmode, hchanged, hquantum, hdeficit, hinterval, hcountdown]

theorem amend_profile (l : LaneNo) : ((amendAmendment f).profiles s.boot.peerId e)[l.val] =
    if l ∈ ownLanes s.boot.peerId e ∧ f.keep.getLsbD (4 + l.val) = false then min f.profiles[l.val].toNat 3 else e.profile l := by
  rw [Amendment.profiles, profiles_get]
  simp only [amendAmendment, unlessKept, keeps_eq, clampProfile]
  by_cases hl : l ∈ ownLanes s.boot.peerId e
  · cases h : f.keep.getLsbD (4 + l.val) <;> simp [hl, Stream.profile]
  · simp [hl, Stream.profile]

theorem amendClamped_iff : amendClamped s.boot.peerId f e = true ↔
    (f.keep.getLsbD 2 = false ∧ clampQuantum f.quantum.toNat ≠ f.quantum.toNat) ∨
      ∃ l ∈ ownLanes s.boot.peerId e, f.keep.getLsbD (4 + l.val) = false ∧ 3 < f.profiles[l.val].toNat := by
  simp [amendClamped, profileClamped, keeps_eq]

end

/-- Settles O49: the refusals by `amend_exec`, and the accepted order field by field. -/
theorem amendReplacesQuantum : Obligations.AmendReplacesQuantum := by
  intro seq f s hready
  obtain ⟨hbad, haccept⟩ := amend_exec (seq := seq) (f := f) hready
  refine ⟨hbad, fun e he hstate hkeep => ?_, fun e he hstate => ?_⟩
  · have hstep := haccept e he hstate
    have hbits : ∀ i, f.keep.getLsbD i = (251#8).getLsbD i := fun i => by rw [hkeep]; rfl
    have h0 : f.keep.getLsbD 0 = true := (hbits 0).trans (by decide)
    have h1 : f.keep.getLsbD 1 = true := (hbits 1).trans (by decide)
    have h2 : f.keep.getLsbD 2 = false := (hbits 2).trans (by decide)
    have h3 : f.keep.getLsbD 3 = true := (hbits 3).trans (by decide)
    have hlanes : ∀ l : LaneNo, f.keep.getLsbD (4 + l.val) = true := fun l => by
      have hset : ∀ l : Fin 4, (251#8).getLsbD (4 + l.val) = true := by decide
      rw [hbits, hset l]
    have hprofiles : (amendAmendment f).profiles s.boot.peerId e = e.profiles := Vector.ext fun i hi =>
      (amend_profile (s := s) (f := f) (e := e) ⟨i, hi⟩).trans (if_neg (by simp [hlanes ⟨i, hi⟩]))
    have hrecord : e.amend s.params s.boot.peerId (amendAmendment f) =
        { e with quantum := clampQuantum f.quantum.toNat, deficit := min e.deficit (4 * clampQuantum f.quantum.toNat) } := by
      refine (amendAmendment_eq (s := s) (f := f) hstate).trans ?_
      simp only [h0, h1, h2, h3, hprofiles, Bool.not_true, Bool.false_and, Bool.false_eq_true, if_false, if_true, true_or]
    have hclamped : amendClamped s.boot.peerId f e = true ↔ clampQuantum f.quantum.toNat ≠ f.quantum.toNat := by
      rw [amendClamped_iff]
      refine ⟨fun h => h.elim And.right fun ⟨l, _, hl, _⟩ => ?_, fun h => .inl ⟨h2, h⟩⟩
      rw [hlanes l] at hl
      cases hl
    obtain ⟨t, ht, hentry, hothers, -, -, hframe⟩ := applyAmendment_spec (byTag_entry he) hrecord
    rw [if_neg (by simp [h1]), ht] at hstep
    refine ⟨_, _, hstep, hentry, rfl, rfl, hothers,
      ⟨orderAnswer seq (amendClamped s.boot.peerId f e), ?_, rfl, ?_⟩, ?_⟩
    · rw [answerDone_port, (congrArg State.port hframe).trans rfl]
    · by_cases hq : clampQuantum f.quantum.toNat = f.quantum.toNat
      · rw [if_pos hq]
        exact if_neg (fun h => hclamped.mp h hq)
      · rw [if_neg hq]
        exact if_pos (hclamped.mpr hq)
    · rw [hframe]
      rfl
  · intro kept changed quantum
    refine ⟨fun hs h1 hm => ?_, fun hok => ?_⟩
    · rw [haccept e he hstate]
      exact congrArg Host.Outcome.next (if_pos ⟨hs, h1, hm⟩)
    · have hstep := haccept e he hstate
      have hrecord := amendAmendment_eq (s := s) (f := f) hstate
      obtain ⟨t, ht, -, -, hfollow, hlanes, hframe⟩ := applyAmendment_spec (a := amendAmendment f) (byTag_entry he) rfl
      have hprofiles : (e.amend s.params s.boot.peerId (amendAmendment f)).profiles =
          (amendAmendment f).profiles s.boot.peerId e := by rw [hrecord]
      rw [if_neg hok, ht] at hstep
      refine ⟨_, e.amend s.params s.boot.peerId (amendAmendment f), hstep, ?_, fun l => ?_, answered_follow hfollow _ _, hlanes, ?_, ?_⟩
      · rw [hprofiles]
        exact hrecord
      · rw [Stream.profile, hprofiles]
        exact amend_profile l
      · rw [answerDone_port, (congrArg State.port hframe).trans rfl]
        exact congrArg (fun r => { s.port with holder := .unread { seq := seq, note := .none, data := [], result := r } })
          (if_congr amendClamped_iff rfl rfl)
      · rw [hframe]
        rfl

end Sys2Proof.Machine
end

section
/-! PROOF. ADMIT (O48). -/

namespace Sys2Proof.Machine

section
variable {seq : Byte} {f : AdmitFields} {n i : Nat} {s : State}

/-! ### The checks -/

/-- What an ADMIT that fails no check meets. -/
theorem admitRefusal_none (h : s.admitRefusal f = none) :
    ((s.upgraded f).isSome = false → ∃ parent, s.parentOf f = some parent) ∧
    (admitSpread f = true → modeOf f.classMode = .level) ∧ s.admitLanesOk (s.upgraded f).isSome f = true := by
  unfold State.admitRefusal at h
  dsimp only at h
  split at h
  · cases h
  split at h
  · cases h
  split at h
  · cases h
  next hparent =>
  split at h
  · cases h
  next hmode =>
  split at h
  · cases h
  next hlanes =>
  refine ⟨fun hno => ?_, fun hspread => ?_, by simpa using hlanes⟩
  · rw [hno] at hparent
    exact Option.ne_none_iff_exists'.mp (by simpa using hparent)
  · cases hm : modeOf f.classMode with
    | edge => exact absurd ⟨hm, hspread⟩ hmode
    | level => rfl

theorem admit_exec (hready : s.boot.startup = .ready) (hformed : admitMalformed f = false) :
    (∀ why, s.admitRefusal f = some why → exec (.admitOrder seq f) s = .next (putReply seq .refused why [] s)) ∧
    (s.admitRefusal f = none → exec (.admitOrder seq f) s = .next (admitAccepted seq f s)) := by
  have hexec : exec (.admitOrder seq f) s = .next (admitStep seq f s) := rfl
  rw [hexec, admitStep, hformed, if_neg (by simp), whenReady_ready hready]
  refine ⟨fun why h => ?_, fun h => ?_⟩
  · rw [h]
    rfl
  · rw [h]

/-- A tag that is not mapped names no station to upgrade. -/
theorem upgraded_none (h : s.lookupTag f.tag.toNat = none) : s.upgraded f = none := by
  simp [State.upgraded, State.byTag, h]

/-- An accepted ADMIT of a new service stream. -/
theorem admitAccepted_service (hok : s.admitRefusal f = none) (hfree : s.lowestFree = some n) (hnew : s.lookupTag f.tag.toNat = none) :
    ∃ parent, s.parentOf f = some parent ∧
      admitAccepted seq f s = answerDone seq (s.admitClamped f) (admitService f n parent.entry s) := by
  have hup := upgraded_none hnew
  obtain ⟨hparent, -, -⟩ := admitRefusal_none hok
  obtain ⟨parent, hp⟩ := hparent (by rw [hup]; rfl)
  refine ⟨parent, hp, ?_⟩
  simp only [admitAccepted, hup, hp, hfree]

/-- The parent is the stream that the parent tag names. -/
theorem parentOf_byTag {parent : Stream} (h : s.parentOf f = some parent) {x : Stream} (hx : s.byTag f.parent.toNat = some x) :
    parent = x := by
  rw [State.parentOf, hx] at h
  exact (Option.some.inj (Option.eq_some_of_filter_eq_some h)).symm

/-! ### A new service stream -/

/-- The record of a new service stream. -/
theorem newService_eq (s : State) (f : AdmitFields) (n parent : Nat) : s.newService f n parent = {
    entry := n, tag := f.tag.toNat, state := .admitted, parent := parent, address := none, cls := f.classMode.toNat % 8,
    mode := modeOf f.classMode, quantum := clampQuantum f.quantum.toNat, deficit := 0, demand := 0, place := s.admitPlace f,
    profiles := f.profiles.map fun b => min b.toNat 3,
    pollInterval := if admitSpread f then 0 else f.pollInterval.toNat,
    pollCountdown := if admitSpread f = false ∧ 0 < f.pollInterval.toNat then some f.pollInterval.toNat else none,
    hold := Vector.replicate 4 none, noShow := 0, quiet := false, retry := 0, admitCountdown := none, turns := [],
    alignment := none } := by
  unfold State.newService
  rw [settlePoll_eq]
  have hplace : ∀ e : Stream, e.place = s.admitPlace f → e.isSpread = admitSpread f := fun e he => by
    rw [Stream.isSpread, Stream.homeLane, he]
    unfold State.admitPlace
    cases admitSpread f <;> rfl
  rw [Stream.settledCountdown, hplace _ rfl]
  cases admitSpread f <;> simp [Stream.served, reloadValue, classOf, clampProfile]

theorem admitService_spec (f : AdmitFields) (parent : Nat) (hfree : s.lowestFree = some n) (hnew : s.lookupTag f.tag.toNat = none) :
    (admitService f n parent s).entry? n = some (s.newService f n parent) ∧
    (∀ m, m ≠ n → (admitService f n parent s).entry? m = s.entry? m) ∧
    (admitService f n parent s).lookupTag f.tag.toNat = some n ∧
    (admitSpread f = false → admitService f n parent s = { s with
      table := (admitService f n parent s).table, tagMap := (admitService f n parent s).tagMap }) ∧
    (admitSpread f = true → admitService f n parent s = { s with
      table := (admitService f n parent s).table, tagMap := (admitService f n parent s).tagMap,
      views := insertBy View.index (View.new (s.lowestView.getD 0) s.boot.peerId (s.newService f n parent)) s.views }) := by
  have hrecord := newService_eq s f n parent
  have hentry : (s.newService f n parent).entry = n := by rw [hrecord]
  have htag : (s.newService f n parent).tag = f.tag.toNat := by rw [hrecord]
  have hplace : (s.newService f n parent).place = s.admitPlace f := by rw [hrecord]
  have hhome : admitSpread f = false → admitService f n parent s = addEntry (s.newService f n parent) s := fun h => by
    have hp : (s.newService f n parent).place = .home ((s.fittedByte f.lanes[0]).getD 0) := by
      rw [hplace, State.admitPlace, h]
      rfl
    simp only [admitService, hp]
  have hspread : admitSpread f = true → admitService f n parent s =
      addView (View.new (s.lowestView.getD 0) s.boot.peerId (s.newService f n parent)) (addEntry (s.newService f n parent) s) := fun h => by
    have hp : (s.newService f n parent).place = .spread (spreadOf f) (s.lowestView.getD 0) := by
      rw [hplace, State.admitPlace, h]
      rfl
    simp only [admitService, hp]
    rfl
  generalize s.newService f n parent = e at *
  have htable : (admitService f n parent s).table = insertBy Stream.entry e s.table ∧
      (admitService f n parent s).tagMap = insertBy Prod.fst (e.tag, e.entry) s.tagMap := by
    cases h : admitSpread f with
    | false =>
      rw [hhome h]
      exact ⟨rfl, rfl⟩
    | true =>
      rw [hspread h]
      exact ⟨rfl, rfl⟩
  refine ⟨?_, fun m hm => ?_, ?_, fun h => ?_, fun h => ?_⟩
  · rw [State.entry?, htable.1]
    exact find?_insertBy.2 (by simpa using hentry) (lowestFree_spec hfree).1
  · rw [State.entry?, htable.1]
    exact find?_insertBy.1 (by simpa [hentry] using Ne.symm hm)
  · rw [State.lookupTag, htable.2, find?_insertBy.2 (by simpa using htag) (by simpa [State.lookupTag] using hnew), Option.map_some, hentry]
  · rw [hhome h]
    rfl
  · rw [hspread h]
    rfl

/-- The views once that of a new spread stream is among them. -/
theorem viewOf_insertBy {v : View} (hnone : s.viewOf v.tag = none) {t : State}
    (ht : t.views = insertBy View.index v s.views) :
    t.viewOf v.tag = some v ∧ ∀ tag, tag ≠ v.tag → t.viewOf tag = s.viewOf tag := by
  simp only [State.viewOf, ht]
  exact ⟨find?_insertBy.2 (by simp) hnone, fun tag htag => find?_insertBy.1 (by simpa using Ne.symm htag)⟩

/-! ### An upgrade -/

/-- The record that an upgrade makes of a BASIC station. -/
theorem upgrade_eq {e : Stream} {l : LaneNo} (hplace : e.place = .home l) :
    let changed := decide (modeOf f.classMode ≠ e.mode)
    ({ e with state := .admitted, admitCountdown := none } : Stream).amend s.params s.boot.peerId (admitAmendment f) = { e with
      state := .admitted, admitCountdown := none, cls := f.classMode.toNat % 8, mode := modeOf f.classMode,
      quantum := clampQuantum f.quantum.toNat, demand := if changed then 0 else e.demand,
      deficit := if changed then 0 else min e.deficit (4 * clampQuantum f.quantum.toNat),
      turns := if changed then e.turns.map fun x => { x with stale := false } else e.turns, pollInterval := f.pollInterval.toNat,
      pollCountdown := if 0 < f.pollInterval.toNat ∨ e.quiet = true then
          some (if e.pollCountdown = none ∧ e.quiet = true then s.params.quietPoll else f.pollInterval.toNat)
        else none,
      profiles := e.profiles.set l.val (min f.profiles[l.val].toNat 3) } := by
  intro changed
  have hspread : ({ e with state := .admitted, admitCountdown := none } : Stream).isSpread = false := by
    simp [Stream.isSpread, Stream.homeLane, hplace]
  have hown : ownLanes s.boot.peerId ({ e with state := .admitted, admitCountdown := none } : Stream) = [l] := by
    simp only [ownLanes, hplace]
  rw [amend_eq _ _ _ rfl]
  simp only [hspread, Amendment.countdown, Amendment.profiles, hown]
  rfl

theorem upgradeStation_spec {e new : Stream} (he : s.entry? e.entry = some e)
    (hnew : ({ e with state := .admitted, admitCountdown := none } : Stream).amend s.params s.boot.peerId (admitAmendment f) = new) :
    ∃ t, upgradeStation e f s = t ∧ RingsFollow [e.entry] (modEntry e.entry (fun _ => new) s) t ∧
      (∀ k, t.lane k = { s.lane k with rings := (t.lane k).rings }) ∧ t = { s with table := t.table, lanes := t.lanes } := by
  have hentry := fun m => modEntry_entry e.entry m (fun x : Stream => { x with state := .admitted, admitCountdown := none })
    (by intro x; rfl) s
  have hone := hentry e.entry
  rw [he, Option.map_some, if_pos rfl] at hone
  obtain ⟨t, ht, -, -, hfollow, hlanes, hframe⟩ := applyAmendment_spec (a := admitAmendment f)
    (s := modEntry e.entry (fun x => { x with state := .admitted, admitCountdown := none }) s) hone hnew
  refine ⟨t, ht, hfollow.congr_left (fun _ => rfl) fun m => ?_, hlanes, ?_⟩
  · have hf := amend_entry s.params s.boot.peerId (admitAmendment f)
    have hu : ∀ x : Stream, ({ x with state := .admitted, admitCountdown := none } : Stream).entry = x.entry := fun _ => rfl
    have hboth := modEntry_const (f := fun x => ({ x with state := .admitted, admitCountdown := none } : Stream).amend s.params
      s.boot.peerId (admitAmendment f)) (fun x => (hf _).trans (hu x)) he m
    have htwo := modEntry_const hf hone m
    rw [hnew] at hboth htwo
    rw [hboth, htwo, modEntry_entry _ _ _ (fun x => (hf _).trans (hu x)), modEntry_entry _ _ _ hf, hentry]
    cases s.entry? m with
    | none => rfl
    | some x => by_cases hm : m = e.entry <;> simp [hm]
  · rw [hframe]
    rfl

end

/-- Settles O48, by the refusal, the place of the new stream, and the upgrade. -/
theorem admitCreatesStreamOrRefuses : Obligations.AdmitCreatesStreamOrRefuses := by
  intro seq f s hready hformed answered
  obtain ⟨hrefused, haccepted⟩ := admit_exec (seq := seq) (f := f) hready hformed
  have hanswer : ∀ t : State, t.port = s.port → answered (answerDone seq (s.admitClamped f) t) := fun t ht =>
    ⟨orderAnswer seq (s.admitClamped f), by rw [answerDone_port, ht], rfl, rfl, rfl, rfl⟩
  refine ⟨hrefused, fun n hok hcount hfree hnew => ?_, fun n i hok hcount hfree hview hnew hnoview => ?_,
    fun e l hok he hstate hstation htag hplace => ?_⟩
  · have hspread : admitSpread f = false := by simp [admitSpread, hcount]
    obtain ⟨-, -, hlanes⟩ := admitRefusal_none hok
    rw [State.admitLanesOk, hspread] at hlanes
    obtain ⟨l, hl⟩ := Option.isSome_iff_exists.mp hlanes
    obtain ⟨parent, hparent, hstep⟩ := admitAccepted_service (seq := seq) hok hfree hnew
    obtain ⟨hentry, hothers, hmap, hframe, -⟩ := admitService_spec f parent.entry hfree hnew
    replace hframe := hframe hspread
    generalize admitService f n parent.entry s = t at *
    have hrecord := newService_eq s f n parent.entry
    have hplace : s.admitPlace f = .home l := by
      rw [State.admitPlace, hspread, hl]
      rfl
    have hport : t.port = s.port := (congrArg State.port hframe).trans rfl
    have hprofile : ∀ k : LaneNo, (f.profiles.map fun b => min b.toNat 3)[k.val] = min f.profiles[k.val].toNat 3 := fun k => by simp
    rw [hplace, hspread] at hrecord
    simp only [true_and, Bool.false_eq_true, if_false] at hrecord
    refine ⟨_, _, l, (haccepted hok).trans (congrArg Host.Outcome.next hstep), hl, hentry, ?_⟩
    rw [hrecord]
    refine ⟨rfl, rfl, rfl, rfl, rfl, rfl, rfl, rfl, rfl, rfl, hmap, hothers, fun x hx => ?_, rfl, hprofile l, rfl, rfl, fun k => by simp,
      rfl, rfl, hanswer t hport, ?_⟩
    · exact congrArg Stream.entry (parentOf_byTag hparent hx)
    · rw [hframe]
      rfl
  · have hspread : admitSpread f = true := by simpa [admitSpread] using hcount
    obtain ⟨-, hlevel, -⟩ := admitRefusal_none hok
    obtain ⟨parent, hparent, hstep⟩ := admitAccepted_service (seq := seq) hok hfree hnew
    obtain ⟨hentry, hothers, hmap, -, hframe⟩ := admitService_spec f parent.entry hfree hnew
    replace hframe := hframe hspread
    rw [hview, Option.getD_some] at hframe
    have hrecord := newService_eq s f n parent.entry
    have hplace : s.admitPlace f = .spread (spreadOf f) i := by
      rw [State.admitPlace, hspread, hview]
      rfl
    have hprofile : ∀ k : LaneNo, (f.profiles.map fun b => min b.toNat 3)[k.val] = min f.profiles[k.val].toNat 3 := fun k => by simp
    rw [hplace, hspread, hlevel hspread] at hrecord
    simp only [Bool.true_eq_false, false_and, if_false, if_true] at hrecord
    generalize s.newService f n parent.entry = e at *
    have hviews := (congrArg State.views hframe).trans rfl
    generalize admitService f n parent.entry s = t at *
    have htag : e.tag = f.tag.toNat := by rw [hrecord]
    obtain ⟨hmine, hothersViews⟩ := viewOf_insertBy (v := View.new i s.boot.peerId e) (by rw [← hnoview, ← htag]; rfl) hviews
    have hport : t.port = s.port := (congrArg State.port hframe).trans rfl
    refine ⟨_, e, (haccepted hok).trans (congrArg Host.Outcome.next hstep), hentry, htag, ?_⟩
    rw [← htag] at hmap
    subst hrecord
    refine ⟨rfl, fun x hx => congrArg Stream.entry (parentOf_byTag hparent hx), rfl, rfl, rfl, rfl, rfl, rfl, rfl, rfl, rfl, rfl,
      fun k => by simp, rfl, rfl, fun k _ => hprofile k, hmine, hothersViews, hmap, hothers, hanswer t hport, ?_⟩
    rw [hframe]
    rfl
  · intro changed new
    have hup : s.upgraded f = some e := by
      simp [State.upgraded, he, hstate, Stream.isStation, hstation, htag]
    obtain ⟨t, ht, hfollow, hlanes, hframe⟩ := upgradeStation_spec (byTag_entry he) (upgrade_eq (s := s) (f := f) hplace)
    have hstep : admitAccepted seq f s = answerDone seq (s.admitClamped f) t := by
      simp only [admitAccepted, hup, ht]
    refine ⟨_, (haccepted hok).trans (congrArg Host.Outcome.next hstep), answered_follow hfollow _ _, hlanes,
      hanswer t ((congrArg State.port hframe).trans rfl), ?_⟩
    rw [hframe]
    rfl

end Sys2Proof.Machine
end

section
/-! PROOF. The safe states, part by part.

`State.safe` is one Boolean. It is taken apart into three parts that commands touch separately: what concerns lanes, bus, port and
builds; what concerns the records of streams, channels and views and the names between them; and what concerns the active rings. The
last two take the entries that an event under way still owes something. -/

namespace Sys2Proof.Machine

/-- What safety asks of the record of lane `l`, on a chip with the parameters, start-up state and bus of `s`. -/
structure Lane.Sound (s : State) (l : LaneNo) (L : Lane) : Prop where
  fifo : L.fifo.length ≤ Config.fifoDepth
  floor : L.floorOk = true
  pairs : s.fitted l = true →
    L.health.openPair.ok s.params.health.openMin = true ∧ L.health.joinPair.ok s.params.health.joinMin = true
  owed : L.owed = true → s.bus.state = .active ∧ Config.noticeDepth ≤ s.bus.queue.length ∧
    ∀ n ∈ s.bus.queue, n.forLane l = false
  plan : ∀ p, L.outQueue = some p → p.ok = true
  loading : s.boot.startup = .loading → L.health.state = .dark ∧ L.buildState = .idle
  corrections : (L.corrections.map (·.tag)).Nodup

/-- What safety asks of the notices. -/
structure Bus.Sound (b : Bus) : Prop where
  depth : b.queue.length ≤ Config.noticeDepth
  quiet : b.state = .active ∨ b.queue = [] ∧ b.holder = none
  unlike : b.queue.Pairwise fun m n => m.alike n = false

/-- What safety asks of lanes, notices, status messages and the build in flight. -/
structure State.ChipSound (s : State) : Prop where
  status : s.port.statusQueue.length ≤ Config.statusDepth
  bus : s.bus.Sound
  lane : ∀ l, (s.lane l).Sound s l
  build : ∀ b, s.builder = some b → b.ok s.params.planLength = true ∧ s.boot.startup ≠ .loading

/-- The family rule for entry `e`: a station has an address, and every other entry is an ADMITTED or CLOSING stream under a station that
is served, or CLOSING when `e` is CLOSING or one of `orphans`, whose retirement follows that of their station. -/
structure State.FamilyOf (s : State) (orphans : List Nat) (e : Stream) : Prop where
  address : e.isStation = e.address.isSome
  parent : e.isStation = false → (e.state = .admitted ∨ e.state = .closing) ∧
    ∃ p ∈ s.table, p.entry = e.parent ∧ p.isStation = true ∧
      (p.served = true ∨ p.state = .closing ∧ (e.state = .closing ∨ e.entry ∈ orphans))

/-- What safety asks of the Stream Table, its maps and the pool of tags. -/
structure State.NamesSound (orphans : List Nat) (s : State) : Prop where
  entries : s.table.Pairwise fun a b => a.entry < b.entry
  found : ∀ e ∈ s.table, s.byTag e.tag = some e
  mapped : ∀ p ∈ s.tagMap, ∃ e ∈ s.table, e.tag = p.1 ∧ e.entry = p.2
  family : ∀ e ∈ s.table, s.FamilyOf orphans e
  addresses : (s.stationIndex.map (·.1)).Nodup
  indexed : ∀ x ∈ s.stationIndex, ∃ e ∈ s.table, e.entry = x.2 ∧ e.isStation = true ∧ e.state ≠ .closing ∧ e.address = some x.1
  known : ∀ e ∈ s.table, e.isStation = true → e.state ≠ .closing →
    ∃ a, e.address = some a ∧ s.lookupAddress a = some e.entry
  pool : ∀ t ∈ s.pool, Config.lastServiceTag < t ∧ s.lookupTag t = none
  stationTag : ∀ e ∈ s.table, e.isStation = true → Config.lastServiceTag < e.tag

/-- What safety asks of the cadence channels. -/
structure State.ChannelsSound (s : State) : Prop where
  numbers : s.channels.Pairwise fun a b => a.number < b.number
  single : s.channels.Pairwise fun a b => ¬(a.live = true ∧ b.live = true ∧ b.bound a.tag a.lane = true)
  standby : ∀ c ∈ s.channels, c.state = .standby → s.pairBusy c.tag c.lane = true
  carried : ∀ c ∈ s.channels, c.carried.length ≤ Config.carriedDepth
  bound : ∀ c ∈ s.channels, ∃ e ∈ s.table, e.tag = c.tag ∧ e.served = true

/-- What safety asks of the spread views. -/
structure State.ViewsSound (s : State) : Prop where
  indexes : s.views.Pairwise fun a b => a.index < b.index
  view : ∀ v ∈ s.views, v.ok = true
  owner : ∀ v ∈ s.views, ∃ e ∈ s.table, e.entry = v.entry ∧ e.tag = v.tag ∧ e.place = .spread v.set v.index ∧ e.served = true
  viewed : ∀ e ∈ s.table, e.isSpread = true → e.served = true → (s.viewOf e.tag).isSome = true

/-- What safety asks of the records of streams, channels and views, and of the maps between them. -/
structure State.RecordsSound (orphans : List Nat) (s : State) : Prop extends
  s.NamesSound orphans, s.ChannelsSound, s.ViewsSound

/-- A stream's demand, turn list and deficit are in their ranges. -/
structure Stream.InRange (e : Stream) : Prop where
  demand : e.demand ≤ Config.maxDemand
  turns : e.turns.length ≤ Config.turnListDepth
  data : e.dataEntries ≤ Config.dataDepth
  deficit : e.deficit ≤ 4 * e.quantum

/-- The stream is in just the rings R30 gives it, and has no deficit when that is none. -/
structure State.Follows (s : State) (e : Stream) : Prop where
  deficit : s.inSomeRing e.entry = true ∨ e.deficit = 0
  member : ∀ k (i : Fin 6), e.entry ∈ (s.lane k).ring i ↔ s.meetsRing e k (i.val + 1) = true

/-- What safety asks of the values of streams and of the active rings; the rings of the entries `loose` have yet to follow. -/
structure State.StreamsSound (loose : List Nat) (s : State) : Prop where
  range : ∀ e ∈ s.table, e.InRange
  follows : ∀ e ∈ s.table, e.entry ∉ loose → s.Follows e
  nodup : ∀ k i, ((s.lane k).ring i).Nodup
  used : ∀ k i, ∀ n ∈ (s.lane k).ring i, ∃ e ∈ s.table, e.entry = n

/-- A safe state, by its three parts. -/
structure State.Sound (s : State) : Prop where
  chip : s.ChipSound
  records : s.RecordsSound []
  streams : s.StreamsSound []

/-! ### `State.safe` says the same -/

theorem mem_ringIndexes (i : Fin 6) : i ∈ ringIndexes := by fin_cases i <;> decide

theorem allLanes_all {p : LaneNo → Bool} : allLanes.all p = true ↔ ∀ l, p l = true := by
  simp [List.all_eq_true, mem_allLanes]

theorem ringIndexes_all {p : Fin 6 → Bool} : ringIndexes.all p = true ↔ ∀ i, p i = true := by
  simp [List.all_eq_true, mem_ringIndexes]

theorem entry?_isSome_iff {s : State} {n : Nat} : (s.entry? n).isSome = true ↔ ∃ e ∈ s.table, e.entry = n := by
  simp [State.entry?, List.find?_isSome]

/-- An entry in use is found under its number. -/
theorem entry?_of_mem {s : State} (h : s.table.Pairwise fun a b => a.entry < b.entry) {e : Stream} (he : e ∈ s.table) :
    s.entry? e.entry = some e :=
  entry?_mem ((List.pairwise_map.2 (h.imp fun hlt => Nat.ne_of_lt hlt))) he

theorem chipSound_iff (s : State) : s.ChipSound ↔
    s.depthsOk = true ∧ s.quietBus = true ∧ s.floorsOk = true ∧ s.backoffsOk = true ∧ s.noticesOk = true ∧ s.plansOk = true ∧
      s.correctionsOk = true := by
  simp only [State.depthsOk, State.quietBus, State.floorsOk, State.backoffsOk, State.noticesOk, State.plansOk, State.correctionsOk,
    Bool.and_eq_true, Bool.or_eq_true, decide_eq_true_eq, List.all_eq_true, mem_fittedLanes_iff, beq_iff_eq, bne_iff_ne,
    List.isEmpty_iff, Option.isNone_iff_eq_none, Option.all_eq_true, Bool.not_eq_true', List.any_eq_false, State.laneState, mem_allLanes, true_implies]
  constructor
  · rintro ⟨hstatus, ⟨hdepth, hquiet, hunlike⟩, hlane, hbuild⟩
    refine ⟨⟨⟨hstatus, hdepth⟩, fun l => (hlane l).fifo⟩, hquiet, fun l => (hlane l).floor, fun l => (hlane l).pairs,
      ⟨hunlike, fun l => ?owed⟩, ⟨⟨fun b hb => (hbuild b hb).1, fun l p => (hlane l).plan p⟩, ?loading⟩, fun l => (hlane l).corrections⟩
    case owed =>
      cases howed : (s.lane l).owed with
      | false => exact .inl rfl
      | true =>
        obtain ⟨hactive, hfull, hnone⟩ := (hlane l).owed howed
        exact .inr ⟨⟨hactive, hfull⟩, fun n hn => by simp [hnone n hn]⟩
    case loading =>
      by_cases hload : s.boot.startup = .loading
      · refine .inr ⟨?_, fun l => (hlane l).loading hload⟩
        exact Option.eq_none_iff_forall_ne_some.2 fun b hb => (hbuild b hb).2 hload
      · exact .inl hload
  · rintro ⟨⟨⟨hstatus, hdepth⟩, hfifo⟩, hquiet, hfloor, hpairs, ⟨hunlike, howed⟩, ⟨⟨hbuild, hplan⟩, hload⟩, hcorr⟩
    refine ⟨hstatus, ⟨hdepth, hquiet, hunlike⟩,
      fun l => ⟨hfifo l, hfloor l, hpairs l, fun ho => ?_, hplan l, fun hs => ?_, hcorr l⟩, fun b hb => ⟨hbuild b hb, fun hs => ?_⟩⟩
    · obtain hno | ⟨⟨hactive, hfull⟩, hnone⟩ := howed l
      · simp [ho] at hno
      · exact ⟨hactive, hfull, fun n hn => by simpa using hnone n hn⟩
    · exact (hload.resolve_left (not_not.2 hs)).2 l
    · rw [(hload.resolve_left (not_not.2 hs)).1] at hb
      cases hb

/-- An entry is found under its number as the table's record of it. -/
theorem mem_and_entry_iff {s : State} (h : s.table.Pairwise fun a b => a.entry < b.entry) {n : Nat} {e : Stream} :
    s.entry? n = some e ↔ e ∈ s.table ∧ e.entry = n := by
  constructor
  · exact fun he => ⟨mem_of_entry? he, entry?_number he⟩
  · rintro ⟨he, rfl⟩
    exact entry?_of_mem h he

/-- A record found by its tag is that of the table's one stream with the tag. -/
theorem byTag_eq_some_iff {s : State} (hfound : ∀ e ∈ s.table, s.byTag e.tag = some e)
    (hmapped : ∀ p ∈ s.tagMap, ∃ e ∈ s.table, e.tag = p.1 ∧ e.entry = p.2) {tag : Nat} {e : Stream} :
    s.byTag tag = some e ↔ e ∈ s.table ∧ e.tag = tag := by
  constructor
  · intro he
    have hmem : e ∈ s.table := mem_of_entry? (byTag_entry he)
    refine ⟨hmem, ?_⟩
    obtain ⟨n, hn, hen⟩ := Option.bind_eq_some_iff.1 he
    obtain ⟨p, hp, rfl⟩ := Option.map_eq_some_iff.1 hn
    have hkey : p.1 = tag := by simpa using List.find?_some hp
    obtain ⟨d, hd, hdt, hde⟩ := hmapped p (List.mem_of_find?_eq_some hp)
    have hdfound := hfound d hd
    rw [hdt, hkey, he] at hdfound
    rw [Option.some.inj hdfound, hdt, hkey]
  · rintro ⟨he, rfl⟩
    exact hfound e he

theorem familyOf_nil_iff {s : State} {e : Stream} : s.FamilyOf [] e ↔
    e.isStation = e.address.isSome ∧ (e.isStation = true ∨ (e.state = .admitted ∨ e.state = .closing) ∧
      ∃ p ∈ s.table, (p.entry = e.parent ∧ p.isStation = true) ∧ (p.served = true ∨ p.state = .closing ∧ e.state = .closing)) := by
  constructor
  · rintro ⟨haddress, hparent⟩
    refine ⟨haddress, ?_⟩
    cases hst : e.isStation with
    | true => exact .inl rfl
    | false => exact .inr (by simpa [and_assoc] using hparent hst)
  · rintro ⟨haddress, hparent⟩
    refine ⟨haddress, fun hst => ?_⟩
    simpa [and_assoc] using hparent.resolve_left (by simp [hst])

/-- The names of tags: what `tagsOk` says. -/
theorem tagsOk_iff {s : State} : s.tagsOk = true ↔ (s.table.Pairwise fun a b => a.entry < b.entry) ∧
    (∀ e ∈ s.table, s.byTag e.tag = some e) ∧ ∀ p ∈ s.tagMap, ∃ e ∈ s.table, e.tag = p.1 ∧ e.entry = p.2 := by
  simp [State.tagsOk, and_assoc]

theorem recordsSound_iff (s : State) : s.RecordsSound [] ↔
    s.tagsOk = true ∧ s.familiesOk = true ∧ s.addressesOk = true ∧ s.poolOk = true ∧ s.channelsOk = true ∧ s.boundOk = true ∧
      s.viewsOk = true ∧ s.spreadOk = true := by
  rw [tagsOk_iff]
  simp only [State.familiesOk, State.addressesOk, State.poolOk, State.channelsOk, State.boundOk, State.viewsOk, State.spreadOk,
    Bool.and_eq_true, Bool.or_eq_true, decide_eq_true_eq, List.all_eq_true, List.any_eq_true, beq_iff_eq, bne_iff_ne,
    Bool.not_eq_true', Option.isNone_iff_eq_none, Option.any_eq_true]
  constructor
  · intro h
    have hentry {n : Nat} {e : Stream} : s.entry? n = some e ↔ e ∈ s.table ∧ e.entry = n := mem_and_entry_iff h.entries
    refine ⟨⟨h.entries, h.found, h.mapped⟩, ⟨fun e he => familyOf_nil_iff.1 (h.family e he), fun x hx => ?indexed⟩,
      ⟨⟨h.addresses, fun x hx => ?addressed⟩, fun e he => ?known⟩, ⟨h.pool, fun e he => ?stationTag⟩,
      ⟨⟨⟨h.numbers, h.single⟩, fun c hc => ?standby⟩, h.carried⟩, fun c hc => ?bound, ⟨h.indexes, h.view⟩,
      fun v hv => ?owner, fun e he => ?viewed⟩
    case indexed =>
      obtain ⟨e, he, hen, hst, hcl, -⟩ := h.indexed x hx
      exact ⟨e, he, ⟨hen, hst⟩, hcl⟩
    case addressed =>
      obtain ⟨e, he, hen, -, -, ha⟩ := h.indexed x hx
      exact ⟨e, hentry.2 ⟨he, hen⟩, ha⟩
    case known =>
      by_cases hst : e.isStation = true
      · by_cases hcl : e.state = .closing
        · exact .inl (.inr hcl)
        · exact .inr (h.known e he hst hcl)
      · exact .inl (.inl (by simpa using hst))
    case stationTag =>
      by_cases hst : e.isStation = true
      · exact .inr (h.stationTag e he hst)
      · exact .inl (by simpa using hst)
    case standby =>
      by_cases hc' : c.state = .standby
      · exact .inr (h.standby c hc hc')
      · exact .inl hc'
    case bound =>
      obtain ⟨e, he, het, hserved⟩ := h.bound c hc
      exact ⟨e, (byTag_eq_some_iff h.found h.mapped).2 ⟨he, het⟩, hserved⟩
    case owner =>
      obtain ⟨e, he, hen, het, hplace, hserved⟩ := h.owner v hv
      exact ⟨e, hentry.2 ⟨he, hen⟩, ⟨het, hplace⟩, hserved⟩
    case viewed =>
      by_cases hsp : e.isSpread = true ∧ e.served = true
      · exact .inr (h.viewed e he hsp.1 hsp.2)
      · exact .inl (by simpa using hsp)
  · rintro ⟨⟨hentries, hfound, hmapped⟩, ⟨hfamily, hindex⟩, ⟨⟨hnodup, haddr⟩, hknown⟩, ⟨hpool, hstag⟩,
      ⟨⟨⟨hchan, hsingle⟩, hstandby⟩, hcarried⟩, hbound, ⟨hviews, hview⟩, howner, hviewed⟩
    have hentry {n : Nat} {e : Stream} : s.entry? n = some e ↔ e ∈ s.table ∧ e.entry = n := mem_and_entry_iff hentries
    refine
      { entries := hentries, found := hfound, mapped := hmapped, family := fun e he => familyOf_nil_iff.2 (hfamily e he),
        addresses := hnodup, indexed := fun x hx => ?_, known := fun e he hst hcl => ?_, pool := hpool,
        stationTag := fun e he hst => (hstag e he).resolve_left (by simp [hst]), numbers := hchan, single := hsingle,
        standby := fun c hc hs => (hstandby c hc).resolve_left (not_not.2 hs), carried := hcarried, bound := fun c hc => ?_,
        indexes := hviews, view := hview, owner := fun v hv => ?_,
        viewed := fun e he hsp hserved => (hviewed e he).resolve_left (by simp [hsp, hserved]) }
    · obtain ⟨e, he, ⟨hen, hst⟩, hcl⟩ := hindex x hx
      obtain ⟨d, hd, hda⟩ := haddr x hx
      obtain rfl : e = d := Option.some.inj ((hentry.2 ⟨he, hen⟩).symm.trans hd)
      exact ⟨e, he, hen, hst, hcl, hda⟩
    · exact (hknown e he).resolve_left (by simp [hst, hcl])
    · obtain ⟨e, he, hserved⟩ := hbound c hc
      obtain ⟨hmem, het⟩ := (byTag_eq_some_iff hfound hmapped).1 he
      exact ⟨e, hmem, het, hserved⟩
    · obtain ⟨e, he, ⟨het, hplace⟩, hserved⟩ := howner v hv
      obtain ⟨hmem, hen⟩ := hentry.1 he
      exact ⟨e, hmem, hen, het, hplace, hserved⟩

theorem streamsSound_iff (s : State) : s.StreamsSound [] ↔ s.streamsOk = true := by
  have hbeq (a b : Bool) : (a == b) = true ↔ (a = true ↔ b = true) := by cases a <;> cases b <;> decide
  have hok (e : Stream) : e.ok s = true ↔ e.InRange ∧ s.Follows e := by
    simp only [Stream.ok, Bool.and_eq_true, Bool.or_eq_true, decide_eq_true_eq, allLanes_all, ringIndexes_all, hbeq,
      List.contains_iff_mem, beq_iff_eq (a := e.deficit)]
    exact ⟨fun ⟨⟨⟨⟨⟨hd, ht⟩, hn⟩, hq⟩, hdef⟩, hmem⟩ => ⟨⟨hd, ht, hn, hq⟩, hdef, hmem⟩,
      fun ⟨⟨hd, ht, hn, hq⟩, hdef, hmem⟩ => ⟨⟨⟨⟨⟨hd, ht⟩, hn⟩, hq⟩, hdef⟩, hmem⟩⟩
  simp only [State.streamsOk, Bool.and_eq_true, decide_eq_true_eq, List.all_eq_true, hok, entry?_isSome_iff, mem_allLanes,
    mem_ringIndexes, true_implies]
  exact ⟨fun h => ⟨fun e he => ⟨h.range e he, h.follows e he (by simp)⟩, fun k i => ⟨h.nodup k i, h.used k i⟩⟩,
    fun h => ⟨fun e he => (h.1 e he).1, fun e he _ => (h.1 e he).2, fun k i => (h.2 k i).1, fun k i => (h.2 k i).2⟩⟩

/-- A state is safe just when its three parts are sound. -/
theorem safe_iff_sound (s : State) : s.safe = true ↔ s.Sound := by
  have hparts : s.Sound ↔ s.ChipSound ∧ s.RecordsSound [] ∧ s.StreamsSound [] :=
    ⟨fun h => ⟨h.chip, h.records, h.streams⟩, fun ⟨hc, hr, hs⟩ => ⟨hc, hr, hs⟩⟩
  rw [hparts, chipSound_iff, recordsSound_iff, streamsSound_iff, State.safe]
  simp only [Bool.and_eq_true]
  tauto

end Sys2Proof.Machine
end

section
/-! PROOF. The state after a full reset (R190). -/

namespace Sys2Proof.Machine

/-- The tags of a chip's block are station tags. -/
theorem lastServiceTag_lt_of_mem {self : PeerNo} {tag : Nat} (h : tag ∈ Config.stationTags self) : Config.lastServiceTag < tag := by
  have hbase : Config.stationBase self ≤ tag := (List.mem_range'_1.1 h).1
  rw [Config.stationBase] at hbase
  rw [Config.lastServiceTag]
  omega

/-- A full reset leaves a safe state, whatever the straps and the node time are. -/
theorem resetFor_sound (self : PeerNo) (now : Tick) (waiting : List Instr) :
    ({ State.resetFor self now with pending := waiting } : State).Sound where
  chip :=
    { status := Nat.zero_le _, bus := ⟨Nat.zero_le _, .inr ⟨rfl, rfl⟩, .nil⟩, build := fun b hb => by cases hb
      lane := fun l => by
        change ((State.resetFor self now).lane l).Sound _ l
        rw [resetFor_lane]
        exact
          { fifo := Nat.zero_le _, floor := rfl, pairs := fun _ => ⟨rfl, rfl⟩, owed := fun h => (by cases h)
            plan := fun p hp => (by cases hp), loading := fun _ => ⟨rfl, rfl⟩, corrections := .nil } }
  records := ⟨⟨.nil, List.forall_mem_nil _, List.forall_mem_nil _, List.forall_mem_nil _, .nil,
      List.forall_mem_nil _, List.forall_mem_nil _, fun t ht => ⟨lastServiceTag_lt_of_mem ht, rfl⟩, List.forall_mem_nil _⟩,
    ⟨.nil, .nil, List.forall_mem_nil _, List.forall_mem_nil _, List.forall_mem_nil _⟩,
    ⟨.nil, List.forall_mem_nil _, List.forall_mem_nil _, List.forall_mem_nil _⟩⟩
  streams := by
    have hring (k : LaneNo) (i : Fin 6) : (({ State.resetFor self now with pending := waiting } : State).lane k).ring i = [] := by
      change ((State.resetFor self now).lane k).ring i = []
      rw [resetFor_lane, Lane.reset_ring]
    exact ⟨List.forall_mem_nil _, List.forall_mem_nil _, fun k i => (by rw [hring]; exact .nil),
      fun k i n hn => (by rw [hring] at hn; cases hn)⟩

/-- Settles O60: every part of safety holds of the reset values. -/
theorem resetIsSafe : Obligations.ResetIsSafe := (safe_iff_sound _).2 (resetFor_sound 0 0 [])

end Sys2Proof.Machine
end

section
/-! PROOF. Safety of lanes, notices and builds. -/

namespace Sys2Proof.Machine

/-- A lane's record is judged by the start-up state, the parameters and the bus alone. -/
theorem Lane.Sound.of_same {s t : State} {l : LaneNo} {L : Lane} (h : L.Sound s l) (hboot : t.boot = s.boot) (hbus : t.bus = s.bus) :
    L.Sound t l := by
  obtain ⟨hfifo, hfloor, hpairs, howed, hplan, hload, hcorr⟩ := h
  exact ⟨hfifo, hfloor, by simpa [State.fitted, State.params, hboot] using hpairs, by rwa [hbus], hplan, by rwa [hboot], hcorr⟩

namespace State.ChipSound

/-- A command that keeps start-up, parameters, bus and builder keeps this part of safety, if each lane's record stays sound. -/
theorem of_lanes {s t : State} (h : s.ChipSound) (hboot : t.boot = s.boot) (hbus : t.bus = s.bus) (hbuild : t.builder = s.builder)
    (hport : t.port.statusQueue.length ≤ Config.statusDepth) (hlane : ∀ k, (t.lane k).Sound s k) : t.ChipSound where
  status := hport
  bus := hbus ▸ h.bus
  lane k := (hlane k).of_same hboot hbus
  build b hb := by
    have hsound := h.build b (hbuild ▸ hb)
    rwa [State.params, hboot]

/-- Nothing of lanes, bus, builder and start-up changes. -/
theorem of_same {s t : State} (h : s.ChipSound) (hboot : t.boot = s.boot) (hbus : t.bus = s.bus) (hbuild : t.builder = s.builder)
    (hport : t.port.statusQueue.length ≤ Config.statusDepth) (hlanes : t.lanes = s.lanes) : t.ChipSound :=
  h.of_lanes hboot hbus hbuild hport fun k => by
    have hk : t.lane k = s.lane k := by rw [State.lane, State.lane]; simp only [hlanes]
    exact hk ▸ h.lane k

/-- Lanes change in their rings alone. -/
theorem of_rings {s t : State} (h : s.ChipSound) (hboot : t.boot = s.boot) (hbus : t.bus = s.bus) (hbuild : t.builder = s.builder)
    (hport : t.port = s.port) (hlane : ∀ k, t.lane k = { s.lane k with rings := (t.lane k).rings }) : t.ChipSound :=
  h.of_lanes hboot hbus hbuild (hport ▸ h.status) fun k => hlane k ▸ { h.lane k with }

theorem modLane {s : State} (h : s.ChipSound) {l : LaneNo} {f : Lane → Lane} (hf : (f (s.lane l)).Sound s l) :
    (modLane l f s).ChipSound :=
  h.of_lanes rfl rfl rfl h.status fun k => by
    rw [modLane_lane]
    split
    · next hk => exact hk ▸ hf
    · exact h.lane k

theorem modHealth {s : State} (h : s.ChipSound) {l : LaneNo} {f : Health → Health}
    (hfloor : (f (s.lane l).health).floor ≤ 5 ∧ ((f (s.lane l).health).state = .live ∨ (f (s.lane l).health).floor = 0))
    (hpairs : s.fitted l = true → (f (s.lane l).health).openPair.ok s.params.health.openMin = true ∧
      (f (s.lane l).health).joinPair.ok s.params.health.joinMin = true)
    (hload : s.boot.startup = .loading → (f (s.lane l).health).state = .dark) : (modHealth l f s).ChipSound :=
  h.modLane { h.lane l with
    floor := by simpa [Lane.floorOk] using hfloor
    pairs := hpairs
    loading := fun hs => ⟨hload hs, ((h.lane l).loading hs).2⟩ }

theorem floor {s : State} (h : s.ChipSound) (l : LaneNo) :
    (s.lane l).health.floor ≤ 5 ∧ ((s.lane l).health.state = .live ∨ (s.lane l).health.floor = 0) := by
  simpa [Lane.floorOk] using (h.lane l).floor

/-- A change of a lane's health that leaves its state, floor and pairs. -/
theorem modHealth_same {s : State} (h : s.ChipSound) {l : LaneNo} {f : Health → Health}
    (hstate : (f (s.lane l).health).state = (s.lane l).health.state) (hfloor : (f (s.lane l).health).floor = (s.lane l).health.floor)
    (hopen : (f (s.lane l).health).openPair = (s.lane l).health.openPair)
    (hjoin : (f (s.lane l).health).joinPair = (s.lane l).health.joinPair) : (Sys2Proof.Machine.modHealth l f s).ChipSound :=
  h.modHealth (by rw [hfloor, hstate]; exact h.floor l) (by rw [hopen, hjoin]; exact (h.lane l).pairs)
    (by rw [hstate]; exact fun hs => ((h.lane l).loading hs).1)

theorem modPort {s : State} (h : s.ChipSound) {f : OrderPort → OrderPort}
    (hf : (f s.port).statusQueue.length ≤ Config.statusDepth) : (modPort f s).ChipSound :=
  h.of_same rfl rfl rfl hf rfl

theorem modBuild {s : State} (h : s.ChipSound) {f : Build → Build}
    (hf : ∀ b, s.builder = some b → (f b).ok s.params.planLength = true) : (modBuild f s).ChipSound where
  status := h.status
  bus := h.bus
  lane k := (h.lane k).of_same rfl rfl
  build b hb := by
    obtain ⟨c, hc, rfl⟩ := Option.map_eq_some_iff.1 hb
    exact ⟨hf c hc, (h.build c hc).2⟩

/-- A change of the build that leaves its turns and its gaps. -/
theorem modBuild_same {s : State} (h : s.ChipSound) {f : Build → Build}
    (hf : ∀ b, (f b).placed = b.placed ∧ (f b).gaps = b.gaps) : (Sys2Proof.Machine.modBuild f s).ChipSound :=
  h.modBuild fun b hb => by
    have hok := (h.build b hb).1
    rwa [Build.ok, (hf b).1, (hf b).2, ← Build.ok]

theorem queueStatus {s : State} (h : s.ChipSound) (m : Message) : (queueStatus m s).ChipSound :=
  h.of_same (queueStatus_boot m s) (queueStatus_bus m s) (queueStatus_builder m s) (queueStatus_bound m s h.status)
    (queueStatus_lanes m s)

theorem setFlag {s : State} (h : s.ChipSound) (l : LaneNo) (g : Flag) : (setFlag l g s).ChipSound := by
  obtain ⟨-, heq⟩ | ⟨-, heq⟩ := setFlag_cases l g s
  · rwa [heq]
  · rw [heq]
    exact (h.modHealth_same rfl rfl rfl rfl).modPort h.status

/-- The bus changes and no lane record does. -/
theorem modBus {s : State} (h : s.ChipSound) {f : Bus → Bus} (hf : (f s.bus).Sound)
    (howed : ∀ l, (s.lane l).owed = true → (f s.bus).state = .active ∧ Config.noticeDepth ≤ (f s.bus).queue.length ∧
      ∀ n ∈ (f s.bus).queue, n.forLane l = false) : (modBus f s).ChipSound where
  status := h.status
  bus := hf
  lane l := { h.lane l with owed := howed l }
  build := h.build

/-- A change of the bus that leaves state, queue and holder. -/
theorem modBus_same {s : State} (h : s.ChipSound) {f : Bus → Bus} (hstate : (f s.bus).state = s.bus.state)
    (hqueue : (f s.bus).queue = s.bus.queue) (hholder : (f s.bus).holder = s.bus.holder) :
    (Sys2Proof.Machine.modBus f s).ChipSound := by
  refine h.modBus ?_ ?_
  · obtain ⟨hdepth, hquiet, hunlike⟩ := h.bus
    exact ⟨by rwa [hqueue], by rwa [hstate, hqueue, hholder], by rwa [hqueue]⟩
  · rw [hstate, hqueue]
    exact fun l => (h.lane l).owed

end State.ChipSound

/-! ### The notice queue keeps one notice of a kind (R137, R138, R139) -/

theorem Notice.alike_comm (m n : Notice) : m.alike n = n.alike m := by
  cases m <;> cases n <;>
    simp only [Notice.alike, Notice.forLane, Notice.demandFor, Notice.claimFor, Bool.beq_comm]

/-- Two notices are of a kind: the same offers take their place. -/
structure Notice.SameKind (m n : Notice) : Prop where
  lane : ∀ l, m.forLane l = n.forLane l
  demand : ∀ t, m.demandFor t = n.demandFor t
  claim : ∀ t e k, m.claimFor t e k = n.claimFor t e k

theorem Notice.SameKind.refl (m : Notice) : m.SameKind m := ⟨fun _ => rfl, fun _ => rfl, fun _ _ _ => rfl⟩

theorem Notice.SameKind.alike_right {m n : Notice} (h : m.SameKind n) (x : Notice) : x.alike m = x.alike n := by
  cases x with
  | lane => exact h.lane _
  | release => rfl
  | claim => exact h.claim _ _ _
  | demand => exact h.demand _

theorem Notice.SameKind.alike {m n m' n' : Notice} (h : m.SameKind m') (h' : n.SameKind n') : m.alike n = m'.alike n' :=
  calc m.alike n = m.alike n' := h'.alike_right m
    _ = n'.alike m := alike_comm _ _
    _ = n'.alike m' := h.alike_right n'
    _ = m'.alike n' := alike_comm _ _

theorem laneNotice_sameKind {l : LaneNo} {n : Notice} (s : State) (h : n.forLane l = true) : (s.laneNotice l).SameKind n := by
  cases n with
  | lane k =>
    obtain rfl : k = l := by simpa [Notice.forLane] using h
    exact ⟨fun _ => rfl, fun _ => rfl, fun _ _ _ => rfl⟩
  | release => cases h
  | claim => cases h
  | demand => cases h

theorem demand_sameKind {tag : Nat} {n : Notice} (epoch : BitVec 8) (amount : Nat) (h : n.demandFor tag = true) :
    (Notice.demand tag epoch amount).SameKind n := by
  cases n with
  | demand t =>
    obtain rfl : t = tag := by simpa [Notice.demandFor] using h
    exact ⟨fun _ => rfl, fun _ => rfl, fun _ _ _ => rfl⟩
  | lane => cases h
  | release => cases h
  | claim => cases h

theorem coalesce_sameKind (bytes : Nat) (endTick : Tick) (n : Notice) : (n.coalesce bytes endTick).SameKind n := by
  cases n <;> exact ⟨fun _ => rfl, fun _ => rfl, fun _ _ _ => rfl⟩

/-- The head `n` of the queue is in the transmit holder, void count 0, and `rest` is left. -/
def Bus.popped (n : Notice) (rest : List Notice) (b : Bus) : Bus := { b with holder := some n, voidCount := 0, queue := rest }

namespace State.ChipSound

theorem owed_eq_false {s : State} (h : s.ChipSound) (hroom : s.takesNotice = true) (l : LaneNo) : (s.lane l).owed = false := by
  have hlt : s.bus.queue.length < Config.noticeDepth := by
    simp only [State.takesNotice, Bool.and_eq_true, decide_eq_true_eq] at hroom
    exact hroom.2
  refine Bool.eq_false_iff.2 fun howed => ?_
  have := ((h.lane l).owed howed).2.1
  omega

/-- Notices of the queue give place to notices of their kind. -/
theorem mapQueue {s : State} (h : s.ChipSound) {f : Notice → Notice} (hf : ∀ n, (f n).SameKind n) : (mapQueue f s).ChipSound := by
  refine h.modBus ⟨?_, ?_, ?_⟩ fun l howed => ?_
  · simpa using h.bus.depth
  · exact h.bus.quiet.imp_right fun hq => ⟨by simp [hq.1], hq.2⟩
  · exact List.pairwise_map.2 (h.bus.unlike.imp fun hmn => ((hf _).alike (hf _)).trans hmn)
  · obtain ⟨hactive, hfull, hnone⟩ := (h.lane l).owed howed
    refine ⟨hactive, by simpa using hfull, fun n hn => ?_⟩
    obtain ⟨m, hm, rfl⟩ := List.mem_map.1 hn
    exact ((hf m).lane l).trans (hnone m hm)

/-- A notice unlike those of the queue joins its tail while there is room. -/
theorem pushNotice {s : State} (h : s.ChipSound) {n : Notice} (hroom : s.takesNotice = true)
    (hnew : ∀ m ∈ s.bus.queue, m.alike n = false) : (pushNotice n s).ChipSound := by
  have htakes := hroom
  simp only [State.takesNotice, Bool.and_eq_true, beq_iff_eq, decide_eq_true_eq] at htakes
  refine h.modBus ⟨?_, .inl htakes.1, ?_⟩ fun l howed => ?_
  · simpa using htakes.2
  · exact List.pairwise_append.2 ⟨h.bus.unlike, List.pairwise_singleton .., fun m hm x hx => by
      obtain rfl := List.mem_singleton.1 hx
      exact hnew m hm⟩
  · simp [h.owed_eq_false hroom l] at howed

/-- A LANE owed mark takes the place that frees at the head of the queue (R139). -/
theorem serveOwed_popped {s : State} (h : s.ChipSound) {n : Notice} {rest : List Notice} (hactive : s.bus.state = .active)
    (hqueue : s.bus.queue = n :: rest) :
    (serveOwed (Sys2Proof.Machine.modBus (Bus.popped n rest) s)).ChipSound := by
  have hdepth : rest.length < Config.noticeDepth := by simpa [hqueue] using h.bus.depth
  have hunlike : rest.Pairwise fun a b => a.alike b = false := by
    have := h.bus.unlike
    rw [hqueue] at this
    exact (List.pairwise_cons.1 this).2
  have hbus : (s.bus.popped n rest).Sound := ⟨hdepth.le, .inl hactive, hunlike⟩
  rw [serveOwed]
  cases howed : (Sys2Proof.Machine.modBus (Bus.popped n rest) s).lowestOwed with
  | none =>
    have hnone (l : LaneNo) : (s.lane l).owed = false := by
      have := List.find?_eq_none.1 howed l (mem_allLanes l)
      simpa using this
    exact h.modBus hbus fun l hl => by simp [hnone l] at hl
  | some l =>
    have hl : (s.lane l).owed = true := by simpa using (lowestOwed_some howed).1
    have hroom : (Sys2Proof.Machine.modBus (Bus.popped n rest) s).takesNotice = true := by
      simp [State.takesNotice, Bus.popped, hactive, hdepth]
    obtain ⟨-, hfull, hclear⟩ := (h.lane l).owed hl
    dsimp only
    rw [if_pos hroom]
    refine
      { status := h.status, bus := ⟨by simpa [Sys2Proof.Machine.pushNotice, Bus.popped] using Nat.succ_le_of_lt hdepth, .inl hactive, ?_⟩, lane := fun k => ?_, build := h.build }
    · refine List.pairwise_append.2 ⟨hunlike, List.pairwise_singleton .., fun m hm x hx => ?_⟩
      obtain rfl := List.mem_singleton.1 hx
      have hm' := hclear m (by rw [hqueue]; exact List.mem_cons_of_mem n hm)
      rw [Notice.alike_comm]
      exact hm'
    · rw [modLane_lane]
      split
      · next hk => exact { h.lane l with owed := fun hf => (by cases hf), pairs := hk ▸ (h.lane l).pairs }
      · next hk =>
        refine { h.lane k with owed := fun hko => ⟨hactive, ?_, fun m hm => ?_⟩ }
        · rw [hqueue] at hfull
          simpa [Sys2Proof.Machine.pushNotice, Bus.popped] using hfull
        · obtain hm | hm := List.mem_append.1 hm
          · exact ((h.lane k).owed hko).2.2 m (by rw [hqueue]; exact List.mem_cons_of_mem n hm)
          · obtain rfl := List.mem_singleton.1 hm
            simpa [State.laneNotice, Notice.forLane] using fun hlk => hk hlk.symm

theorem pumpHolder {s : State} (h : s.ChipSound) : (pumpHolder s).ChipSound := by
  obtain heq | ⟨n, rest, hactive, -, hqueue, heq⟩ := pumpHolder_cases s
  · rwa [heq]
  · rw [heq]
    exact h.serveOwed_popped hactive hqueue

theorem offerLane {s : State} (h : s.ChipSound) (l : LaneNo) : (offerLane l s).ChipSound := by
  rw [Sys2Proof.Machine.offerLane]
  split
  · next hactive =>
    split
    · refine h.mapQueue fun n => ?_
      split
      · next hn => exact laneNotice_sameKind s hn
      · exact .refl n
    · next hnone =>
      have hnew : ∀ n ∈ s.bus.queue, n.forLane l = false := by simpa using hnone
      split
      · next hroom =>
        refine (h.pushNotice (by simp [State.takesNotice, hactive, hroom]) fun m hm => ?_).pumpHolder
        rw [Notice.alike_comm]
        exact hnew m hm
      · next hfull => exact h.modLane { h.lane l with owed := fun _ => ⟨hactive, Nat.le_of_not_lt hfull, hnew⟩ }
  · exact h

theorem offerDemand {s : State} (h : s.ChipSound) (tag : Nat) (epoch : BitVec 8) (amount : Nat) :
    (offerDemand tag epoch amount s).ChipSound := by
  rw [Sys2Proof.Machine.offerDemand]
  split
  · next hactive =>
    split
    · refine h.mapQueue fun n => ?_
      split
      · next hn => exact demand_sameKind epoch amount hn
      · exact .refl n
    · next hnone =>
      have hnew : ∀ n ∈ s.bus.queue, n.demandFor tag = false := by simpa using hnone
      split
      · next hroom =>
        refine (h.pushNotice (by simp [State.takesNotice, hactive, hroom]) fun m hm => ?_).pumpHolder
        rw [Notice.alike_comm]
        exact hnew m hm
      · exact h
  · exact h

theorem offerClaim {s : State} (h : s.ChipSound) (tag : Nat) (epoch : BitVec 8) (lane : NodeLane) (bytes : Nat) (endTick : Tick) :
    (offerClaim tag epoch lane bytes endTick s).ChipSound := by
  rw [Sys2Proof.Machine.offerClaim]
  split
  · refine h.mapQueue fun n => ?_
    split
    · exact coalesce_sameKind bytes endTick n
    · exact .refl n
  · next hnone =>
    have hnew : ∀ n ∈ s.bus.queue, n.claimFor tag epoch lane = false := by simpa using hnone
    split
    · next hroom =>
      refine (h.pushNotice hroom fun m hm => ?_).pumpHolder
      rw [Notice.alike_comm]
      exact hnew m hm
    · exact h

end State.ChipSound

end Sys2Proof.Machine
end

section
/-! PROOF. Safety of the records: updates that leave every stream what it is. -/

namespace Sys2Proof.Machine

/-- The record `d` stands for the same stream as `e`: same names, place and family, and the same state, but that a station in use may
have become BASIC or ADMITTED. -/
structure Stream.Kin (e d : Stream) : Prop where
  entry : d.entry = e.entry
  tag : d.tag = e.tag
  parent : d.parent = e.parent
  address : d.address = e.address
  place : d.place = e.place
  state : d.state = e.state ∨
    e.address.isSome = true ∧ e.state ≠ .closing ∧ d.served = true ∧ (e.served = true ∨ e.isSpread = false)

namespace Stream.Kin

theorem refl (e : Stream) : e.Kin e := ⟨rfl, rfl, rfl, rfl, rfl, .inl rfl⟩

theorem isStation {e d : Stream} (h : e.Kin d) : d.isStation = e.isStation := by
  rw [Stream.isStation, Stream.isStation, h.parent, h.entry]

theorem isSpread {e d : Stream} (h : e.Kin d) : d.isSpread = e.isSpread := by
  rw [Stream.isSpread, Stream.isSpread, Stream.homeLane, Stream.homeLane, h.place]

theorem served {e d : Stream} (h : e.Kin d) (he : e.served = true) : d.served = true := by
  obtain hs | ⟨-, -, hs, -⟩ := h.state
  · rwa [Stream.served, hs, ← Stream.served]
  · exact hs

theorem closing_iff {e d : Stream} (h : e.Kin d) : d.state = .closing ↔ e.state = .closing := by
  obtain hs | ⟨-, hcl, hs, -⟩ := h.state
  · rw [hs]
  · refine ⟨fun hd => ?_, fun he => absurd he hcl⟩
    simp [Stream.served, hd] at hs

/-- A record change that keeps names, place, family and state. -/
theorem of_same {e d : Stream} (hentry : d.entry = e.entry) (htag : d.tag = e.tag) (hparent : d.parent = e.parent)
    (haddress : d.address = e.address) (hplace : d.place = e.place) (hstate : d.state = e.state) : e.Kin d :=
  ⟨hentry, htag, hparent, haddress, hplace, .inl hstate⟩

end Stream.Kin

/-- Entry numbers are distinct, so a tag leads to its entry's number. -/
theorem State.NamesSound.lookupTag {o : List Nat} {s : State} (h : s.NamesSound o) {e : Stream} (he : e ∈ s.table) :
    s.lookupTag e.tag = some e.entry := by
  obtain ⟨n, hn, hen⟩ := Option.bind_eq_some_iff.1 (h.found e he)
  rw [hn, entry?_number hen]

theorem State.NamesSound.entry?_eq_some {o : List Nat} {s : State} (h : s.NamesSound o) {n : Nat} {e : Stream} :
    s.entry? n = some e ↔ e ∈ s.table ∧ e.entry = n :=
  mem_and_entry_iff h.entries

theorem State.NamesSound.byTag_eq_some {o : List Nat} {s : State} (h : s.NamesSound o) {tag : Nat} {e : Stream} :
    s.byTag tag = some e ↔ e ∈ s.table ∧ e.tag = tag :=
  byTag_eq_some_iff h.found h.mapped

theorem State.NamesSound.eq_of_entry {o : List Nat} {s : State} (h : s.NamesSound o) {e d : Stream} (he : e ∈ s.table)
    (hd : d ∈ s.table) (hed : e.entry = d.entry) : e = d :=
  Option.some.inj ((h.entry?_eq_some.2 ⟨he, rfl⟩).symm.trans (h.entry?_eq_some.2 ⟨hd, hed.symm⟩))

theorem State.NamesSound.eq_of_tag {o : List Nat} {s : State} (h : s.NamesSound o) {e d : Stream} (he : e ∈ s.table)
    (hd : d ∈ s.table) (hed : e.tag = d.tag) : e = d :=
  Option.some.inj ((h.found e he).symm.trans (h.byTag_eq_some.2 ⟨hd, hed.symm⟩))

/-- What is found when the tag leads to the entry's number. -/
theorem byTag_of_lookup {s : State} (hentries : s.table.Pairwise fun a b => a.entry < b.entry) {e : Stream} (he : e ∈ s.table)
    (hl : s.lookupTag e.tag = some e.entry) : s.byTag e.tag = some e := by
  rw [State.byTag, hl]
  exact entry?_of_mem hentries he

/-- The updates of this section: the records of the table become those of the same streams. -/
structure Recorded (f : Stream → Stream) (s t : State) : Prop where
  table : t.table = s.table.map f
  kin : ∀ e ∈ s.table, e.Kin (f e)
  tagMap : t.tagMap = s.tagMap
  stationIndex : t.stationIndex = s.stationIndex
  pool : t.pool = s.pool

theorem Recorded.mem {f : Stream → Stream} {s t : State} (h : Recorded f s t) {d : Stream} :
    d ∈ t.table ↔ ∃ e ∈ s.table, f e = d := by
  rw [h.table]; exact List.mem_map

theorem State.NamesSound.recorded {o : List Nat} {f : Stream → Stream} {s t : State} (h : s.NamesSound o) (hr : Recorded f s t) :
    t.NamesSound o := by
  have hlookup (tag : Nat) : t.lookupTag tag = s.lookupTag tag := by rw [State.lookupTag, State.lookupTag, hr.tagMap]
  have hentries : t.table.Pairwise fun a b => a.entry < b.entry := by
    rw [hr.table, List.pairwise_map]
    exact h.entries.imp_of_mem fun ha hb hlt => by rwa [(hr.kin _ ha).entry, (hr.kin _ hb).entry]
  refine
    { entries := hentries, found := fun d hd => byTag_of_lookup hentries hd ?found, mapped := fun p hp => ?mapped,
      family := fun d hd => ?family, addresses := hr.stationIndex ▸ h.addresses, indexed := fun x hx => ?indexed,
      known := fun d hd hst hcl => ?known, pool := fun tag htag => ?pool, stationTag := fun d hd hst => ?stationTag }
  case found =>
    obtain ⟨e, he, rfl⟩ := hr.mem.1 hd
    rw [hlookup, (hr.kin e he).tag, (hr.kin e he).entry, h.lookupTag he]
  case mapped =>
    obtain ⟨e, he, het, hen⟩ := h.mapped p (hr.tagMap ▸ hp)
    exact ⟨f e, hr.mem.2 ⟨e, he, rfl⟩, (hr.kin e he).tag.trans het, (hr.kin e he).entry.trans hen⟩
  case family =>
    obtain ⟨e, he, rfl⟩ := hr.mem.1 hd
    have hk := hr.kin e he
    refine ⟨by rw [hk.isStation, hk.address]; exact (h.family e he).address, fun hst => ?_⟩
    rw [hk.isStation] at hst
    obtain ⟨hstate, p, hp, hpe, hpst, hpstate⟩ := (h.family e he).parent hst
    have hkp := hr.kin p hp
    have hkeep : (f e).state = e.state := by
      refine hk.state.resolve_right fun hup => ?_
      rw [← (h.family e he).address, hst] at hup
      exact Bool.noConfusion hup.1
    refine ⟨hkeep ▸ hstate, f p, hr.mem.2 ⟨p, hp, rfl⟩, ?_, hkp.isStation.trans hpst, ?_⟩
    · rw [hkp.entry, hpe, hk.parent]
    · rw [hk.closing_iff, hkp.closing_iff, hk.entry]
      exact hpstate.imp_left hkp.served
  case indexed =>
    obtain ⟨e, he, hen, hst, hcl, ha⟩ := h.indexed x (hr.stationIndex ▸ hx)
    have hk := hr.kin e he
    exact ⟨f e, hr.mem.2 ⟨e, he, rfl⟩, hk.entry.trans hen, hk.isStation.trans hst, mt hk.closing_iff.1 hcl, hk.address.trans ha⟩
  case known =>
    obtain ⟨e, he, rfl⟩ := hr.mem.1 hd
    have hk := hr.kin e he
    obtain ⟨a, ha, hla⟩ := h.known e he (hk.isStation ▸ hst) (mt hk.closing_iff.2 hcl)
    exact ⟨a, hk.address.trans ha, by rw [State.lookupAddress, hr.stationIndex, hk.entry]; exact hla⟩
  case pool =>
    rw [hlookup]
    exact h.pool tag (hr.pool ▸ htag)
  case stationTag =>
    obtain ⟨e, he, rfl⟩ := hr.mem.1 hd
    have hk := hr.kin e he
    rw [hk.tag]
    exact h.stationTag e he (hk.isStation ▸ hst)

/-- The channels stay, and the streams that are served stay served. -/
theorem State.ChannelsSound.of_table {s t : State} (h : s.ChannelsSound) (hchan : t.channels = s.channels)
    (hserved : ∀ e ∈ s.table, e.served = true → ∃ d ∈ t.table, d.tag = e.tag ∧ d.served = true) : t.ChannelsSound where
  numbers := hchan ▸ h.numbers
  single := hchan ▸ h.single
  standby c hc hs := by
    rw [State.pairBusy, hchan]
    exact h.standby c (hchan ▸ hc) hs
  carried := hchan ▸ h.carried
  bound c hc := by
    obtain ⟨e, he, het, hs⟩ := h.bound c (hchan ▸ hc)
    obtain ⟨d, hd, hdt, hds⟩ := hserved e he hs
    exact ⟨d, hd, hdt.trans het, hds⟩

theorem State.ChannelsSound.recorded {f : Stream → Stream} {s t : State} (h : s.ChannelsSound) (hr : Recorded f s t)
    (hchan : t.channels = s.channels) : t.ChannelsSound :=
  h.of_table hchan fun e he hs => ⟨f e, hr.mem.2 ⟨e, he, rfl⟩, (hr.kin e he).tag, (hr.kin e he).served hs⟩

theorem State.ViewsSound.recorded {f : Stream → Stream} {s t : State} (h : s.ViewsSound) (hr : Recorded f s t)
    (hviews : t.views = s.views) : t.ViewsSound where
  indexes := hviews ▸ h.indexes
  view := hviews ▸ h.view
  owner v hv := by
    obtain ⟨e, he, hen, het, hplace, hs⟩ := h.owner v (hviews ▸ hv)
    have hk := hr.kin e he
    exact ⟨f e, hr.mem.2 ⟨e, he, rfl⟩, hk.entry.trans hen, hk.tag.trans het, hk.place.trans hplace, hk.served hs⟩
  viewed d hd hsp hs := by
    obtain ⟨e, he, rfl⟩ := hr.mem.1 hd
    have hk := hr.kin e he
    rw [hk.isSpread] at hsp
    rw [State.viewOf, hviews, hk.tag]
    refine h.viewed e he hsp ?_
    obtain hsame | ⟨-, -, -, hup⟩ := hk.state
    · rwa [Stream.served, hsame, ← Stream.served] at hs
    · exact hup.resolve_right (by simp [hsp])

theorem State.RecordsSound.recorded {o : List Nat} {f : Stream → Stream} {s t : State} (h : s.RecordsSound o) (hr : Recorded f s t)
    (hchan : t.channels = s.channels) (hviews : t.views = s.views) : t.RecordsSound o :=
  ⟨h.toNamesSound.recorded hr, h.toChannelsSound.recorded hr hchan, h.toViewsSound.recorded hr hviews⟩

/-- No record, channel or view changes. -/
theorem State.RecordsSound.of_same {o : List Nat} {s t : State} (h : s.RecordsSound o) (htable : t.table = s.table)
    (htag : t.tagMap = s.tagMap) (hindex : t.stationIndex = s.stationIndex) (hpool : t.pool = s.pool)
    (hchan : t.channels = s.channels) (hviews : t.views = s.views) : t.RecordsSound o :=
  h.recorded (f := id) ⟨by simpa using htable, fun e _ => .refl e, htag, hindex, hpool⟩ hchan hviews

end Sys2Proof.Machine
end

section
/-! PROOF. Safety of the active rings (R30, R31). -/

namespace Sys2Proof.Machine

/-- Bringing the rings of an entry up to date touches the table in that entry's deficit alone. -/
theorem syncRings_table (n : Nat) (s : State) : (syncRings n s).table = s.table.map fun e =>
    if e.entry = n ∧ (syncRings n s).inSomeRing n = false then { e with deficit := 0 } else e := by
  have htable (ls : List LaneNo) : (ls.foldl (fun s l => ringIndexes.foldl (fun s i => syncRing n l i s) s) s).table = s.table :=
    foldl_keeps State.table _ (fun s l => foldl_keeps State.table _ (fun s i => syncRing_table n l i s) ringIndexes s) ls s
  rw [syncRings]
  have hu := htable allLanes
  generalize allLanes.foldl (fun s l => ringIndexes.foldl (fun s i => syncRing n l i s) s) s = u at hu ⊢
  split
  · next hin => simp [hin, hu]
  · next hout =>
    have hstill : (modEntry n (fun e => { e with deficit := 0 }) u).inSomeRing n = false := by
      rw [← Bool.not_eq_true]; exact hout
    rw [hstill, ← hu]
    simp only [and_true, ← beq_iff_eq (b := n)]
    rfl

theorem syncRings_recorded (n : Nat) (s : State) :
    Recorded (fun e => if e.entry = n ∧ (syncRings n s).inSomeRing n = false then { e with deficit := 0 } else e) s (syncRings n s) where
  table := syncRings_table n s
  kin e _ := by split <;> exact .of_same rfl rfl rfl rfl rfl rfl
  tagMap := syncRings_tagMap n s
  stationIndex := syncRings_stationIndex n s
  pool := syncRings_pool n s

theorem State.ChipSound.syncRings {s : State} (h : s.ChipSound) (n : Nat) : (syncRings n s).ChipSound :=
  h.of_rings (syncRings_boot n s) (syncRings_bus n s) (syncRings_builder n s) (syncRings_port n s) (syncRings_spec n s).2.1

theorem State.RecordsSound.syncRings {o : List Nat} {s : State} (h : s.RecordsSound o) (n : Nat) : (syncRings n s).RecordsSound o :=
  h.recorded (syncRings_recorded n s) (syncRings_channels n s) (syncRings_views n s)

/-- What R30 looks at. -/
theorem meetsRing_congr {s t : State} {d e : Stream} (hviews : t.views = s.views) (hboot : t.boot = s.boot)
    (hserved : d.served = e.served) (hcls : d.cls = e.cls) (hplace : d.place = e.place) (hdemand : d.demand = e.demand)
    (htag : d.tag = e.tag) (k : LaneNo) (c : Nat) : t.meetsRing d k c = s.meetsRing e k c := by
  have havailable : t.available d k = s.available e k := by
    rw [State.available, State.available, hplace]
    cases e.place with
    | home l => simp only [hdemand]
    | spread set i => simp only [State.allowanceOf, State.viewOf, hviews, hboot, htag]
  rw [State.meetsRing, State.meetsRing, hserved, hcls, havailable]

theorem ring_congr {s t : State} (h : ∀ k, (t.lane k).rings = (s.lane k).rings) (k : LaneNo) (i : Fin 6) :
    (t.lane k).ring i = (s.lane k).ring i := by
  rw [Lane.ring, Lane.ring]; simp only [h k]

theorem inSomeRing_congr {s t : State} {n : Nat} (h : ∀ k i, n ∈ (t.lane k).ring i ↔ n ∈ (s.lane k).ring i) :
    t.inSomeRing n = s.inSomeRing n := by
  rw [Bool.eq_iff_iff, State.inSomeRing_iff, State.inSomeRing_iff]
  simp only [h]

theorem ringFor_nodup {n : Nat} {b : Bool} {r : List Nat} (h : r.Nodup) : (ringFor n b r).Nodup := by
  rw [ringFor]
  split
  · split
    · exact h
    · next hn => exact List.concat_eq_append ▸ h.concat (by simpa using hn)
  · exact h.filter _

theorem mem_ringFor {n m : Nat} {b : Bool} {r : List Nat} : m ∈ ringFor n b r ↔ if m = n then b = true else m ∈ r := by
  by_cases hm : m = n
  · rw [if_pos hm, hm, ringFor_mem]
  · rw [if_neg hm, ringFor]
    split
    · split <;> simp [hm]
    · simp [hm]

/-- Ring memberships after an entry's rings were brought up to date. -/
theorem mem_ring_syncRings {s : State} {n m : Nat} {k : LaneNo} {i : Fin 6} : m ∈ ((syncRings n s).lane k).ring i ↔
    if m = n then ∃ e, s.entry? n = some e ∧ s.meetsRing e k (i.val + 1) = true else m ∈ (s.lane k).ring i := by
  rw [(syncRings_spec n s).1 k i, mem_ringFor]
  simp only [Option.any_eq_true]

namespace State.StreamsSound

/-- What each record becomes, when its rings stay: in its ranges, and meeting R30 as before unless its rings have yet to follow. -/
structure Kept (loose : List Nat) (s : State) (e d : Stream) : Prop where
  range : d.InRange
  same : e.entry ∉ loose → d.served = e.served ∧ d.cls = e.cls ∧ d.demand = e.demand ∧
    (s.inSomeRing e.entry = true ∨ (e.deficit = 0 → d.deficit = 0))

theorem recorded {loose loose' : List Nat} {f : Stream → Stream} {s t : State} (h : s.StreamsSound loose) (hr : Recorded f s t)
    (hrings : ∀ k, (t.lane k).rings = (s.lane k).rings) (hviews : t.views = s.views) (hboot : t.boot = s.boot)
    (hsub : loose ⊆ loose') (hkept : ∀ e ∈ s.table, Kept loose' s e (f e)) : t.StreamsSound loose' where
  range d hd := by
    obtain ⟨e, he, rfl⟩ := hr.mem.1 hd
    exact (hkept e he).range
  follows d hd hloose := by
    obtain ⟨e, he, rfl⟩ := hr.mem.1 hd
    have hk := hr.kin e he
    rw [hk.entry] at hloose
    obtain ⟨hserved, hcls, hdemand, hdeficit⟩ := (hkept e he).same hloose
    have hf := h.follows e he (fun hmem => hloose (hsub hmem))
    refine ⟨?_, fun k i => ?_⟩
    · rw [hk.entry, inSomeRing_congr (s := s) fun k i => by rw [ring_congr hrings]]
      obtain hin | hzero := hf.deficit
      · exact .inl hin
      · exact hdeficit.imp_right fun hd => hd hzero
    · rw [hk.entry, ring_congr hrings, meetsRing_congr hviews hboot hserved hcls hk.place hdemand hk.tag]
      exact hf.member k i
  nodup k i := by rw [ring_congr hrings]; exact h.nodup k i
  used k i n hn := by
    rw [ring_congr hrings] at hn
    obtain ⟨e, he, rfl⟩ := h.used k i n hn
    exact ⟨f e, hr.mem.2 ⟨e, he, rfl⟩, (hr.kin e he).entry⟩

/-- Neither records nor rings nor allowances change. -/
theorem of_same {loose : List Nat} {s t : State} (h : s.StreamsSound loose) (htable : t.table = s.table)
    (hrings : ∀ k, (t.lane k).rings = (s.lane k).rings) (hviews : t.views = s.views) (hboot : t.boot = s.boot) :
    t.StreamsSound loose where
  range e he := h.range e (htable ▸ he)
  follows e he hl := by
    obtain ⟨hdef, hmem⟩ := h.follows e (htable ▸ he) hl
    refine ⟨by rwa [inSomeRing_congr (s := s) fun k i => by rw [ring_congr hrings]], fun k i => ?_⟩
    rw [ring_congr hrings, meetsRing_congr hviews hboot rfl rfl rfl rfl rfl]
    exact hmem k i
  nodup k i := by rw [ring_congr hrings]; exact h.nodup k i
  used k i n hn := by
    rw [ring_congr hrings] at hn
    rw [htable]
    exact h.used k i n hn

/-- Fewer entries may be asked to follow. -/
theorem mono {loose loose' : List Nat} {s : State} (h : s.StreamsSound loose) (hsub : loose ⊆ loose') : s.StreamsSound loose' where
  range := h.range
  follows e he hl := h.follows e he fun hmem => hl (hsub hmem)
  nodup := h.nodup
  used := h.used

/-- Once brought up to date, the rings of an entry follow. -/
theorem syncRings {o : List Nat} {loose : List Nat} {n : Nat} {s : State} (hn : s.NamesSound o) (h : s.StreamsSound (n :: loose)) :
    (syncRings n s).StreamsSound loose where
  range d hd := by
    obtain ⟨e, he, rfl⟩ := (syncRings_recorded n s).mem.1 hd
    obtain ⟨hdemand, hturns, hdata, hdeficit⟩ := h.range e he
    split
    · exact ⟨hdemand, hturns, hdata, Nat.zero_le _⟩
    · exact ⟨hdemand, hturns, hdata, hdeficit⟩
  follows d hd hloose := by
    have hviews := syncRings_views n s
    have hboot := syncRings_boot n s
    obtain ⟨e, he, rfl⟩ := (syncRings_recorded n s).mem.1 hd
    by_cases hen : e.entry = n
    · have hmember (k : LaneNo) (i : Fin 6) : n ∈ ((Sys2Proof.Machine.syncRings n s).lane k).ring i ↔
          s.meetsRing e k (i.val + 1) = true := by
        rw [mem_ring_syncRings, if_pos rfl, hn.entry?_eq_some.2 ⟨he, hen⟩]
        simp
      split
      · next hout => exact ⟨.inr rfl, fun k i => by
          rw [meetsRing_congr (e := e) (d := { e with deficit := 0 }) hviews hboot rfl rfl rfl rfl rfl, ← hmember]
          simp [hen]⟩
      · next hin =>
        refine ⟨.inl ?_, fun k i => ?_⟩
        · simpa [hen] using hin
        · rw [meetsRing_congr hviews hboot rfl rfl rfl rfl rfl, ← hmember, hen]
    · simp only [hen, false_and, if_false] at hloose ⊢
      obtain ⟨hdef, hmem⟩ := h.follows e he (by simp [hen, hloose])
      have hring (k : LaneNo) (i : Fin 6) :
          e.entry ∈ ((Sys2Proof.Machine.syncRings n s).lane k).ring i ↔ e.entry ∈ (s.lane k).ring i := by
        rw [mem_ring_syncRings, if_neg hen]
      refine ⟨by rwa [inSomeRing_congr hring], fun k i => ?_⟩
      rw [hring, meetsRing_congr hviews hboot rfl rfl rfl rfl rfl]
      exact hmem k i
  nodup k i := by
    rw [(syncRings_spec n s).1 k i]
    exact ringFor_nodup (h.nodup k i)
  used k i m hm := by
    have hmem : ∃ e ∈ s.table, e.entry = m := by
      rw [mem_ring_syncRings] at hm
      split at hm
      · next hmn =>
        obtain ⟨e, he, -⟩ := hm
        exact ⟨e, mem_of_entry? he, (entry?_number he).trans hmn.symm⟩
      · exact h.used k i m hm
    obtain ⟨e, he, rfl⟩ := hmem
    exact ⟨_, (syncRings_recorded n s).mem.2 ⟨e, he, rfl⟩, ((syncRings_recorded n s).kin e he).entry⟩

end State.StreamsSound

end Sys2Proof.Machine
end

section
/-! PROOF. Safety under the shared updates of one stream. -/

namespace Sys2Proof.Machine

/-- The record of entry `n` changes, that of the same stream. -/
theorem modEntry_recorded {n : Nat} {f : Stream → Stream} {s : State} (hf : ∀ e ∈ s.table, e.entry = n → e.Kin (f e)) :
    Recorded (fun e => if e.entry == n then f e else e) s (modEntry n f s) where
  table := rfl
  kin e he := by
    split
    · next hen => exact hf e he (by simpa using hen)
    · exact .refl e
  tagMap := rfl
  stationIndex := rfl
  pool := rfl

namespace State.StreamsSound

/-- A record that keeps what R20, R27, R30 and R31 look at. -/
theorem Kept.of_same {loose : List Nat} {s : State} {e d : Stream} (hr : e.InRange) (hserved : d.served = e.served)
    (hcls : d.cls = e.cls) (hdemand : d.demand = e.demand) (hdeficit : d.deficit = e.deficit) (hquantum : d.quantum = e.quantum)
    (hturns : d.turns.length ≤ Config.turnListDepth) (hdata : d.dataEntries ≤ Config.dataDepth) : Kept loose s e d where
  range := ⟨hdemand ▸ hr.demand, hturns, hdata, by rw [hdeficit, hquantum]; exact hr.deficit⟩
  same _ := ⟨hserved, hcls, hdemand, .inr fun h => hdeficit.trans h⟩

theorem Kept.refl {loose : List Nat} {s : State} {e : Stream} (hr : e.InRange) : Kept loose s e e :=
  .of_same hr rfl rfl rfl rfl rfl hr.turns hr.data

/-- The one record that changes may have to follow in the rings. -/
theorem modEntry {n : Nat} {loose : List Nat} {f : Stream → Stream} {s : State} (h : s.StreamsSound loose)
    (hf : ∀ e ∈ s.table, e.entry = n → e.Kin (f e)) (hrange : ∀ e ∈ s.table, e.entry = n → (f e).InRange) :
    (modEntry n f s).StreamsSound (n :: loose) :=
  h.recorded (modEntry_recorded hf) (fun _ => rfl) rfl rfl (List.subset_cons_self n loose) fun e he => by
    split
    · next hen => exact ⟨hrange e he (by simpa using hen), fun hl => absurd (by simpa using .inl (by simpa using hen)) hl⟩
    · exact .refl (h.range e he)

/-- The one record that changes need not follow in the rings. -/
theorem modEntry_kept {n : Nat} {loose : List Nat} {f : Stream → Stream} {s : State} (h : s.StreamsSound loose)
    (hf : ∀ e ∈ s.table, e.entry = n → e.Kin (f e)) (hkept : ∀ e ∈ s.table, e.entry = n → Kept loose s e (f e)) :
    (Sys2Proof.Machine.modEntry n f s).StreamsSound loose :=
  h.recorded (modEntry_recorded hf) (fun _ => rfl) rfl rfl (List.Subset.refl _) fun e he => by
    split
    · next hen => exact hkept e he (by simpa using hen)
    · exact .refl (h.range e he)

end State.StreamsSound

/-- An entry's record changes to another of the same stream, and its rings follow. -/
theorem State.Sound.updateEntry {s : State} (h : s.Sound) {n : Nat} {f : Stream → Stream}
    (hf : ∀ e ∈ s.table, e.entry = n → e.Kin (f e)) (hrange : ∀ e ∈ s.table, e.entry = n → (f e).InRange) :
    (updateEntry n f s).Sound := by
  have hrecords : (modEntry n f s).RecordsSound [] := h.records.recorded (modEntry_recorded hf) rfl rfl
  have hchip : (modEntry n f s).ChipSound := h.chip.of_same rfl rfl rfl h.chip.status rfl
  have hstreams : (modEntry n f s).StreamsSound [n] := h.streams.modEntry hf hrange
  exact ⟨hchip.syncRings n, hrecords.syncRings n, hstreams.syncRings hrecords.toNamesSound⟩

/-- An entry's record changes in what its rings do not depend on. -/
theorem State.Sound.modEntry {s : State} (h : s.Sound) {n : Nat} {f : Stream → Stream}
    (hf : ∀ e ∈ s.table, e.entry = n → e.Kin (f e)) (hkept : ∀ e ∈ s.table, e.entry = n → State.StreamsSound.Kept [] s e (f e)) :
    (modEntry n f s).Sound :=
  ⟨h.chip.of_same rfl rfl rfl h.chip.status rfl, h.records.recorded (modEntry_recorded hf) rfl rfl, h.streams.modEntry_kept hf hkept⟩

/-- The whole table's records change in what rings do not depend on. -/
theorem State.Sound.mapTable {s : State} (h : s.Sound) {f : Stream → Stream} (hf : ∀ e ∈ s.table, e.Kin (f e))
    (hkept : ∀ e ∈ s.table, State.StreamsSound.Kept [] s e (f e)) : ({ s with table := s.table.map f } : State).Sound :=
  have hr : Recorded f s { s with table := s.table.map f } := ⟨rfl, hf, rfl, rfl, rfl⟩
  ⟨h.chip.of_same rfl rfl rfl h.chip.status rfl, h.records.recorded hr rfl rfl,
    h.streams.recorded hr (fun _ => rfl) rfl rfl (List.Subset.refl _) hkept⟩

/-- A change of lanes, bus, port and builder alone. -/
theorem State.Sound.of_chip {s t : State} (h : s.Sound) (hchip : t.ChipSound) (htable : t.table = s.table)
    (htag : t.tagMap = s.tagMap) (hindex : t.stationIndex = s.stationIndex) (hpool : t.pool = s.pool)
    (hchan : t.channels = s.channels) (hviews : t.views = s.views) (hboot : t.boot = s.boot)
    (hrings : ∀ k, (t.lane k).rings = (s.lane k).rings) : t.Sound :=
  ⟨hchip, h.records.of_same htable htag hindex hpool hchan hviews, h.streams.of_same htable hrings hviews hboot⟩

theorem queuedIn_nodup (c : Correction) {waiting : List Correction} (h : (waiting.map (·.tag)).Nodup) :
    ((queuedIn c waiting).map (·.tag)).Nodup := by
  rw [queuedIn]
  split
  · have hsame : ((fun d : Correction => d.tag) ∘ fun d => if d.tag = c.tag then c else d) = fun d => d.tag := by
      funext d
      by_cases hd : d.tag = c.tag <;> simp [hd]
    rw [List.map_map, hsame]
    exact h
  · next hnone =>
    rw [List.map_append]
    exact h.append (List.nodup_singleton _) (by simpa using hnone)

namespace State.Sound

theorem modLane {s : State} (h : s.Sound) {l : LaneNo} {f : Lane → Lane} (hf : (f (s.lane l)).Sound s l)
    (hrings : (f (s.lane l)).rings = (s.lane l).rings) : (modLane l f s).Sound :=
  h.of_chip (h.chip.modLane hf) rfl rfl rfl rfl rfl rfl rfl fun k => by
    rw [modLane_lane]
    split
    · next hk => rw [hrings, hk]
    · rfl

theorem modHealth_same {s : State} (h : s.Sound) {l : LaneNo} {f : Health → Health}
    (hstate : (f (s.lane l).health).state = (s.lane l).health.state) (hfloor : (f (s.lane l).health).floor = (s.lane l).health.floor)
    (hopen : (f (s.lane l).health).openPair = (s.lane l).health.openPair)
    (hjoin : (f (s.lane l).health).joinPair = (s.lane l).health.joinPair) : (modHealth l f s).Sound :=
  h.of_chip (h.chip.modHealth_same hstate hfloor hopen hjoin) rfl rfl rfl rfl rfl rfl rfl fun k => by
    rw [modHealth_lane]
    split
    · next hk => rw [hk]
    · rfl

theorem modPort {s : State} (h : s.Sound) {f : OrderPort → OrderPort} (hf : (f s.port).statusQueue.length ≤ Config.statusDepth) :
    (modPort f s).Sound :=
  h.of_chip (h.chip.modPort hf) rfl rfl rfl rfl rfl rfl rfl fun _ => rfl

theorem modBuild_same {s : State} (h : s.Sound) {f : Build → Build} (hf : ∀ b, (f b).placed = b.placed ∧ (f b).gaps = b.gaps) :
    (modBuild f s).Sound :=
  h.of_chip (h.chip.modBuild_same hf) rfl rfl rfl rfl rfl rfl rfl fun _ => rfl

theorem modBus_same {s : State} (h : s.Sound) {f : Bus → Bus} (hstate : (f s.bus).state = s.bus.state)
    (hqueue : (f s.bus).queue = s.bus.queue) (hholder : (f s.bus).holder = s.bus.holder) : (modBus f s).Sound :=
  h.of_chip (h.chip.modBus_same hstate hqueue hholder) rfl rfl rfl rfl rfl rfl rfl fun _ => rfl

theorem putReply {s : State} (h : s.Sound) (seq : Byte) (result : ReplyResult) (note : ReplyNote) (data : List Byte) :
    (putReply seq result note data s).Sound :=
  h.modPort h.chip.status

theorem refuse {s : State} (h : s.Sound) (seq : Byte) (reason : ReplyNote) : (refuse seq reason s).Sound :=
  h.putReply seq _ _ _

theorem answerDone {s : State} (h : s.Sound) (seq : Byte) (clamped : Bool) : (answerDone seq clamped s).Sound :=
  h.putReply seq _ _ _

theorem queueStatus {s : State} (h : s.Sound) (m : Message) : (queueStatus m s).Sound :=
  h.of_chip (h.chip.queueStatus m) (queueStatus_table m s) (queueStatus_tagMap m s) (queueStatus_stationIndex m s)
    (queueStatus_pool m s) (queueStatus_channels m s) (queueStatus_views m s) (queueStatus_boot m s) fun k => by
      rw [queueStatus_lane]

theorem setFlag {s : State} (h : s.Sound) (l : LaneNo) (g : Flag) : (setFlag l g s).Sound := by
  obtain ⟨-, heq⟩ | ⟨-, heq⟩ := setFlag_cases l g s
  · rwa [heq]
  · rw [heq]
    exact (h.modHealth_same (l := l) rfl rfl rfl rfl).modPort h.chip.status

theorem pumpHolder {s : State} (h : s.Sound) : (pumpHolder s).Sound :=
  h.of_chip h.chip.pumpHolder (pumpHolder_table s) (pumpHolder_tagMap s) (pumpHolder_stationIndex s) (pumpHolder_pool s)
    (pumpHolder_channels s) (pumpHolder_views s) (pumpHolder_boot s) fun k => by rw [(pumpHolder_frame s).1 k]

theorem offerLane {s : State} (h : s.Sound) (l : LaneNo) : (offerLane l s).Sound :=
  h.of_chip (h.chip.offerLane l) (offerLane_table l s) (offerLane_tagMap l s) (offerLane_stationIndex l s) (offerLane_pool l s)
    (offerLane_channels l s) (offerLane_views l s) (offerLane_boot l s) fun k => by rw [(offerLane_frame l s).1 k]

theorem offerDemand {s : State} (h : s.Sound) (tag : Nat) (epoch : BitVec 8) (amount : Nat) : (offerDemand tag epoch amount s).Sound :=
  h.of_chip (h.chip.offerDemand tag epoch amount) (offerDemand_table ..) (offerDemand_tagMap ..)
    (offerDemand_stationIndex ..) (offerDemand_pool ..) (offerDemand_channels ..) (offerDemand_views ..) (offerDemand_boot ..)
    fun k => by rw [(offerDemand_frame tag epoch amount s).1 k]

/-- A correction takes the place of a waiting one for its tag, or joins the tail: one for each tag (R117). -/
theorem queueCorrection {s : State} (h : s.Sound) (l : LaneNo) (c : Correction) : (queueCorrection l c s).Sound := by
  rw [queueCorrection_eq]
  exact h.modLane { h.chip.lane l with corrections := queuedIn_nodup c (h.chip.lane l).corrections } rfl

/-- Record changes of the turn list, of countdowns, marks and the alignment record. -/
theorem modAlignment {s : State} (h : s.Sound) (n : Nat) (f : Alignment → Alignment) : (modAlignment n f s).Sound :=
  h.modEntry (fun _ _ _ => .of_same rfl rfl rfl rfl rfl rfl)
    fun e he _ => .of_same (h.streams.range e he) rfl rfl rfl rfl rfl (h.streams.range e he).turns (h.streams.range e he).data

theorem dropTurn {s : State} (h : s.Sound) (n : Nat) (l : LaneNo) (start : Slice) : (dropTurn n l start s).Sound :=
  h.modEntry (fun _ _ _ => .of_same rfl rfl rfl rfl rfl rfl) fun e he _ =>
    .of_same (h.streams.range e he) rfl rfl rfl rfl rfl
      ((List.length_filter_le _ _).trans (h.streams.range e he).turns)
      (((List.filter_sublist).filter _).length_le.trans (h.streams.range e he).data)

/-- R20: a restore keeps within the largest demand. -/
theorem restore {s : State} (h : s.Sound) (n payload : Nat) : (restore n payload s).Sound := by
  rw [Sys2Proof.Machine.restore]
  split
  · split
    · refine h.updateEntry (fun _ _ _ => .of_same rfl rfl rfl rfl rfl rfl) fun e he _ => ?_
      exact { h.streams.range e he with demand := Nat.min_le_right _ _ }
    · exact h
  · exact h

end State.Sound

end Sys2Proof.Machine
end

section
/-! PROOF. Splits and views (R144 to R151). -/

namespace Sys2Proof.Machine

/-- A view's values are in range, as propositions. -/
structure View.Sound (v : View) : Prop where
  set : v.set.Nodup
  live : (v.live.map (·.lane)).Nodup
  claimed : ∀ x ∈ v.live, x.claimed ≤ x.share
  shares : (v.live.map (·.share)).sum ≤ v.announced
  lanes : ∀ x ∈ v.live, x.lane ∈ v.set
  claims : v.claims.length ≤ Config.claimDepth

theorem View.ok_iff (v : View) : v.ok = true ↔ v.Sound := by
  simp only [View.ok, Bool.and_eq_true, decide_eq_true_eq, List.all_eq_true, List.contains_iff_mem]
  exact ⟨fun ⟨⟨⟨⟨⟨hs, hl⟩, hc⟩, hsum⟩, hm⟩, hcl⟩ => ⟨hs, hl, hc, hsum, hm, hcl⟩,
    fun ⟨hs, hl, hc, hsum, hm, hcl⟩ => ⟨⟨⟨⟨⟨hs, hl⟩, hc⟩, hsum⟩, hm⟩, hcl⟩⟩

namespace View.Sound

theorem unexpired_length {v : View} (h : v.Sound) (now : Tick) : (v.unexpired now).length ≤ Config.claimDepth :=
  (List.length_filter_le _ _).trans h.claims

/-- R147: a heard DEMAND announces its amount and splits all of it. -/
theorem heardDemand {v : View} (h : v.Sound) (s : State) (epoch : BitVec 8) (amount : Nat) : (v.heardDemand s epoch amount).Sound where
  set := h.set
  live := by
    simp only [View.heardDemand, List.map_map, Function.comp_def, List.map_id']
    exact h.set.filter _
  claimed x hx := by
    obtain ⟨n, -, rfl⟩ := List.mem_map.1 hx
    exact Nat.zero_le _
  shares := by
    simp only [View.heardDemand, List.map_map, Function.comp_def]
    exact splitPart_sum_le (h.set.filter _)
  lanes x hx := by
    obtain ⟨n, hn, rfl⟩ := List.mem_map.1 hx
    exact List.mem_of_mem_filter hn
  claims := h.unexpired_length _

/-- R148: a claim that joins a full list makes the earliest one leave. -/
theorem dropEarliest_length {now : Tick} {claims : List Claim} (h : claims.length ≤ Config.claimDepth) :
    (dropEarliest now claims).length + 1 ≤ Config.claimDepth := by
  obtain ⟨hshort, hfull⟩ := dropEarliest_split now claims
  by_cases hlt : claims.length < 16
  · rw [hshort hlt]; exact hlt
  · obtain ⟨older, old, newer, rfl, heq, -, -⟩ := hfull (Nat.le_of_not_lt hlt)
    rw [heq]
    simp only [List.length_append, List.length_cons] at h ⊢
    omega

theorem heardClaim {v : View} (h : v.Sound) (s : State) (epoch : BitVec 8) (n : NodeLane) (bytes : Nat) (endTick : Tick) :
    (v.heardClaim s epoch n bytes endTick).Sound := by
  have hlive (x : Share) (epoch' : BitVec 8) :
      (if epoch = epoch' ∧ x.lane = n then { x with claimed := min (x.claimed + bytes) x.share } else x).lane = x.lane ∧
      (if epoch = epoch' ∧ x.lane = n then { x with claimed := min (x.claimed + bytes) x.share } else x).share = x.share := by
    split <;> exact ⟨rfl, rfl⟩
  refine ⟨h.set, ?_, fun x hx => ?_, ?_, fun x hx => ?_, ?_⟩
  · simp only [View.heardClaim, List.map_map, Function.comp_def, hlive]
    exact h.live
  · obtain ⟨y, hy, rfl⟩ := List.mem_map.1 hx
    split
    · exact Nat.min_le_right _ _
    · exact h.claimed y hy
  · simp only [View.heardClaim, List.map_map, Function.comp_def, hlive]
    exact h.shares
  · obtain ⟨y, hy, rfl⟩ := List.mem_map.1 hx
    rw [(hlive y _).1]
    exact h.lanes y hy
  · simp only [View.heardClaim, List.length_append, List.length_singleton]
    exact dropEarliest_length (h.unexpired_length _)

/-- Only the elements that meet `p` count. -/
theorem sum_map_ite {α : Type} (p : α → Bool) (g : α → Nat) (l : List α) :
    (l.map fun x => if p x then g x else 0).sum = ((l.filter p).map g).sum := by
  induction l with
  | nil => rfl
  | cons a l ih =>
    rw [List.map_cons, List.sum_cons, ih, List.filter_cons]
    split <;> simp

/-- What one live lane becomes at an admitted RELEASE of `amount` from lane `n`, which splits over `others` (R150). -/
def released (s : State) (n : NodeLane) (amount : Nat) (others : List NodeLane) (y : Share) : Share :=
  if y.lane = n then { y with share := y.share - amount, excluded := true }
  else if y.excluded then y
  else { y with share := y.share + splitPart s.weightOf amount others y.lane }

theorem released_lane (s : State) (n : NodeLane) (amount : Nat) (others : List NodeLane) (y : Share) :
    (released s n amount others y).lane = y.lane ∧ (released s n amount others y).claimed = y.claimed := by
  rw [released]
  split
  · exact ⟨rfl, rfl⟩
  · split <;> exact ⟨rfl, rfl⟩

/-- The released amount leaves the lane's share, and what the others take of it joins theirs. -/
theorem released_sum {v : View} (h : v.Sound) (s : State) {n : NodeLane} {x : Share} (hx : x ∈ v.live) (hxn : x.lane = n) {amount : Nat}
    (hamount : amount ≤ x.share) {others : List NodeLane}
    (hothers : others = (v.live.filter fun y => !y.excluded && y.lane != n).map (·.lane)) :
    (v.live.map fun y => (released s n amount others y).share).sum + amount =
      (v.live.map (·.share)).sum + (others.map (splitPart s.weightOf amount others)).sum := by
  have hone (y : Share) (hy : y ∈ v.live) (hyn : y.lane = n) : y = x :=
    List.inj_on_of_nodup_map h.live hy hx (hyn.trans hxn.symm)
  have hmoved : ∀ y ∈ v.live, (released s n amount others y).share + (if y.lane = n then amount else 0) =
      y.share + if !y.excluded && y.lane != n then splitPart s.weightOf amount others y.lane else 0 := by
    intro y hy
    by_cases hyn : y.lane = n
    · obtain rfl := hone y hy hyn
      simp only [released, hyn, if_true, bne_self_eq_false, Bool.and_false]
      simp only [Bool.false_eq_true, if_false]
      omega
    · cases hex : y.excluded <;> simp [released, hyn, hex]
  have htaken : (v.live.map fun y => if y.lane = n then amount else 0).sum = amount := by
    have hmem : n ∈ v.live.map (·.lane) := List.mem_map.2 ⟨x, hx, hxn⟩
    calc (v.live.map fun y => if y.lane = n then amount else 0).sum
        = ((v.live.map (·.lane)).map fun m => if m = n then amount else 0).sum := by rw [List.map_map]; rfl
      _ = amount := by rw [sum_map_single h.live, if_pos hmem]
  have hgiven : (v.live.map fun y => if !y.excluded && y.lane != n then splitPart s.weightOf amount others y.lane else 0).sum =
      (others.map (splitPart s.weightOf amount others)).sum := by
    rw [sum_map_ite]
    conv_rhs => rw [hothers, List.map_map]
    rw [← hothers]
    rfl
  have hsum := congrArg List.sum (List.map_congr_left hmoved)
  rw [List.sum_map_add, List.sum_map_add, htaken, hgiven] at hsum
  exact hsum

theorem heardRelease {v : View} (h : v.Sound) (s : State) (epoch : BitVec 8) (n : NodeLane) (bytes : Nat) :
    (v.heardRelease s epoch n bytes).Sound := by
  rw [View.heardRelease]
  split
  · next x hshare =>
    split
    · next hadmits =>
      have hx : x ∈ v.live := List.mem_of_find?_eq_some hshare
      have hxn : x.lane = n := by simpa using List.find?_some hshare
      have hclaimed := h.claimed x hx
      have hothers : ((v.live.filter fun y => !y.excluded && y.lane != n).map (·.lane)).Nodup :=
        h.live.sublist ((List.filter_sublist).map _)
      have hsum := released_sum h s hx hxn (amount := min bytes (x.share - x.claimed)) (by omega) rfl
      have hgiven := splitPart_sum_le (weight := s.weightOf) (x := min bytes (x.share - x.claimed)) hothers
      have hshares := h.shares
      refine ⟨h.set, ?_, fun y hy => ?_, ?_, fun y hy => ?_, h.claims⟩
      · have hlane := fun y => (released_lane s n (min bytes (x.share - x.claimed))
          ((v.live.filter fun y => !y.excluded && y.lane != n).map (·.lane)) y).1
        change ((v.live.map (released s n _ _)).map (·.lane)).Nodup
        simp only [List.map_map, Function.comp_def, hlane]
        exact h.live
      · obtain ⟨z, hz, rfl⟩ := List.mem_map.1 hy
        have hzc := h.claimed z hz
        change (released s n _ _ z).claimed ≤ (released s n _ _ z).share
        rw [released]
        split
        · next hzn =>
          obtain rfl := List.inj_on_of_nodup_map h.live hz hx (hzn.trans hxn.symm)
          dsimp only
          omega
        · split
          · exact hzc
          · exact hzc.trans (Nat.le_add_right _ _)
      · change ((v.live.map (released s n _ _)).map (·.share)).sum ≤ _
        rw [List.map_map]
        dsimp only
        split
        · next hnone =>
          rw [List.isEmpty_iff.1 hnone] at hsum ⊢
          simp only [List.map_nil, List.sum_nil] at hsum
          change (v.live.map fun y => (released s n _ _ y).share).sum ≤ _
          omega
        · change (v.live.map fun y => (released s n _ _ y).share).sum ≤ _
          omega
      · obtain ⟨z, hz, rfl⟩ := List.mem_map.1 hy
        change (released s n _ _ z).lane ∈ _
        rw [(released_lane s n _ _ z).1]
        exact h.lanes z hz
    · exact h
  · exact h

/-- R151: what is left of the shares is announced anew and split over the live lanes that stay. -/
theorem rebase {v : View} (h : v.Sound) (s : State) (leaving : List NodeLane) : (v.rebase s leaving).Sound := by
  have hstay : ((v.live.filter fun x => !leaving.contains x.lane).map (·.lane)).Nodup := h.live.sublist ((List.filter_sublist).map _)
  refine ⟨h.set, ?_, fun x hx => ?_, ?_, fun x hx => ?_, h.claims⟩
  · simp only [View.rebase, List.map_map, Function.comp_def]
    exact hstay
  · obtain ⟨y, -, rfl⟩ := List.mem_map.1 hx
    exact Nat.zero_le _
  · simp only [View.rebase, List.map_map, Function.comp_def]
    generalize (v.live.map fun x => x.share - x.claimed).sum = remaining
    generalize v.live.filter (fun x => !leaving.contains x.lane) = stay at hstay ⊢
    calc (stay.map fun x => if x.excluded then 0
          else splitPart s.weightOf remaining ((stay.filter fun x => !x.excluded).map (·.lane)) x.lane).sum
        = (stay.map fun x => if !x.excluded then
            splitPart s.weightOf remaining ((stay.filter fun x => !x.excluded).map (·.lane)) x.lane else 0).sum := by
          congr 1; exact List.map_congr_left fun x _ => by cases x.excluded <;> rfl
      _ = (((stay.filter fun x => !x.excluded).map (·.lane)).map
            (splitPart s.weightOf remaining ((stay.filter fun x => !x.excluded).map (·.lane)))).sum := by
          rw [sum_map_ite, List.map_map]; rfl
      _ ≤ remaining := splitPart_sum_le (hstay.sublist ((List.filter_sublist).map _))
  · obtain ⟨y, hy, rfl⟩ := List.mem_map.1 hx
    exact h.lanes y (List.mem_of_mem_filter hy)

theorem muted {v : View} (h : v.Sound) : v.muted.Sound :=
  ⟨h.set, List.nodup_nil, fun _ hx => absurd hx (List.not_mem_nil), Nat.zero_le _, fun _ hx => absurd hx (List.not_mem_nil),
    Nat.zero_le _⟩

/-- Own lanes and claims that leave change no share. -/
theorem of_own {v w : View} (h : v.Sound) (hset : w.set = v.set) (hlive : w.live = v.live) (hannounced : w.announced = v.announced)
    (hclaims : w.claims.length ≤ v.claims.length) : w.Sound :=
  ⟨hset ▸ h.set, hlive ▸ h.live, hlive ▸ h.claimed, by rw [hlive, hannounced]; exact h.shares,
    by rw [hlive, hset]; exact h.lanes, hclaims.trans h.claims⟩

end View.Sound

end Sys2Proof.Machine
end

section
/-! PROOF. Safety under changes of views, and of the bus. -/

namespace Sys2Proof.Machine

/-- The view is that of the same stream. -/
structure View.SameStream (v w : View) : Prop where
  index : w.index = v.index
  tag : w.tag = v.tag
  entry : w.entry = v.entry
  set : w.set = v.set

theorem View.SameStream.refl (v : View) : v.SameStream v := ⟨rfl, rfl, rfl, rfl⟩

/-- The view of a tag after views became those of the same streams. -/
theorem viewOf_mapped {s t : State} {g : View → View} (hviews : t.views = s.views.map g) (hg : ∀ v : View, v.SameStream (g v)) (tag : Nat) :
    t.viewOf tag = (s.viewOf tag).map g := by
  rw [State.viewOf, hviews, List.find?_map]
  congr 2
  funext v
  simp only [Function.comp_apply, (hg v).tag]

theorem State.ViewsSound.mapped {s t : State} {g : View → View} (h : s.ViewsSound) (hviews : t.views = s.views.map g)
    (htable : t.table = s.table) (hg : ∀ v : View, v.SameStream (g v)) (hok : ∀ v ∈ s.views, (g v).Sound) : t.ViewsSound where
  indexes := by
    rw [hviews, List.pairwise_map]
    exact h.indexes.imp fun hlt => by rwa [(hg _).index, (hg _).index]
  view w hw := by
    rw [hviews] at hw
    obtain ⟨v, hv, rfl⟩ := List.mem_map.1 hw
    exact (View.ok_iff _).2 (hok v hv)
  owner w hw := by
    rw [hviews] at hw
    obtain ⟨v, hv, rfl⟩ := List.mem_map.1 hw
    obtain ⟨e, he, hen, het, hplace, hs⟩ := h.owner v hv
    exact ⟨e, htable ▸ he, hen.trans (hg v).entry.symm, het.trans (hg v).tag.symm, by rw [hplace, (hg v).set, (hg v).index], hs⟩
  viewed e he hsp hs := by
    rw [viewOf_mapped hviews hg, Option.isSome_map]
    exact h.viewed e (htable ▸ he) hsp hs

theorem State.RecordsSound.mapViews {o : List Nat} {s t : State} {g : View → View} (h : s.RecordsSound o)
    (hviews : t.views = s.views.map g) (htable : t.table = s.table) (htag : t.tagMap = s.tagMap)
    (hindex : t.stationIndex = s.stationIndex) (hpool : t.pool = s.pool) (hchan : t.channels = s.channels)
    (hg : ∀ v : View, v.SameStream (g v)) (hok : ∀ v ∈ s.views, (g v).Sound) : t.RecordsSound o :=
  have hr : Recorded id s t := ⟨by simpa using htable, fun e _ => .refl e, htag, hindex, hpool⟩
  ⟨h.toNamesSound.recorded hr, h.toChannelsSound.recorded hr hchan, h.toViewsSound.mapped hviews htable hg hok⟩

/-- The stream of a view is the one that carries its tag. -/
theorem State.RecordsSound.entry_of_viewOf {o : List Nat} {s : State} (h : s.RecordsSound o) {e : Stream} (he : e ∈ s.table) {v : View}
    (hv : s.viewOf e.tag = some v) : v ∈ s.views ∧ v.entry = e.entry := by
  have hmem : v ∈ s.views := List.mem_of_find?_eq_some hv
  have htag : v.tag = e.tag := by simpa using List.find?_some hv
  obtain ⟨d, hd, hden, hdet, -, -⟩ := h.owner v hmem
  obtain rfl := h.eq_of_tag hd he (hdet.trans htag)
  exact ⟨hmem, hden.symm⟩

/-- Two views of one tag are of one entry. -/
theorem State.RecordsSound.entry_of_tag {o : List Nat} {s : State} (h : s.RecordsSound o) {v w : View} (hv : v ∈ s.views)
    (hw : w ∈ s.views) (hvw : v.tag = w.tag) : v.entry = w.entry := by
  obtain ⟨e, he, hen, het, -, -⟩ := h.owner v hv
  obtain ⟨d, hd, hdn, hdt, -, -⟩ := h.owner w hw
  obtain rfl := h.eq_of_tag he hd (by rw [het, hdt, hvw])
  exact hen.symm.trans hdn

/-- Views change, and the rings of their streams have yet to follow. -/
theorem State.StreamsSound.mapViews {o loose : List Nat} {s t : State} {g : View → View} (h : s.StreamsSound loose)
    (hrec : s.RecordsSound o) (hviews : t.views = s.views.map g) (htable : t.table = s.table) (hboot : t.boot = s.boot)
    (hrings : ∀ k, (t.lane k).rings = (s.lane k).rings) (hg : ∀ v : View, v.SameStream (g v)) {ns : List Nat}
    (hchanged : ∀ v ∈ s.views, v.entry ∉ ns → g v = v) : t.StreamsSound (ns ++ loose) where
  range e he := h.range e (htable ▸ he)
  follows e he hl := by
    rw [htable] at he
    obtain ⟨hns, hloose⟩ := not_or.1 (mt List.mem_append.2 hl)
    obtain ⟨hdef, hmem⟩ := h.follows e he hloose
    have hview : t.viewOf e.tag = s.viewOf e.tag := by
      rw [viewOf_mapped hviews hg]
      cases hv : s.viewOf e.tag with
      | none => rfl
      | some v =>
        obtain ⟨hvmem, hven⟩ := hrec.entry_of_viewOf he hv
        rw [Option.map_some, hchanged v hvmem (hven ▸ hns)]
    have havailable (k : LaneNo) : t.available e k = s.available e k := by
      simp only [State.available, State.allowanceOf, hview, hboot]
    refine ⟨by rwa [inSomeRing_congr (s := s) fun k i => by rw [ring_congr hrings]], fun k i => ?_⟩
    rw [ring_congr hrings, hmem k i, State.meetsRing, State.meetsRing, havailable]
  nodup k i := by rw [ring_congr hrings]; exact h.nodup k i
  used k i n hn := by
    rw [ring_congr hrings] at hn
    rw [htable]
    exact h.used k i n hn

/-- A state whose records are sound, and whose rings are but for those of the entries `ns`, which are then brought up to date. -/
theorem State.Sound.of_syncs {ns : List Nat} {s : State} (hchip : s.ChipSound) (hrec : s.RecordsSound [])
    (hstreams : s.StreamsSound ns) : (ns.foldl (fun s n => syncRings n s) s).Sound := by
  induction ns generalizing s with
  | nil => exact State.Sound.mk hchip hrec hstreams
  | cons n ns ih =>
    rw [List.foldl_cons]
    exact ih (hchip.syncRings n) (hrec.syncRings n) (hstreams.syncRings hrec.toNamesSound)

theorem State.Sound.of_sync {n : Nat} {s : State} (hchip : s.ChipSound) (hrec : s.RecordsSound []) (hstreams : s.StreamsSound [n]) :
    (syncRings n s).Sound :=
  State.Sound.mk (hchip.syncRings n) (hrec.syncRings n) (hstreams.syncRings hrec.toNamesSound)

namespace State.Sound

/-- R145: one view changes, and its stream's rings follow. -/
theorem modView {s : State} (h : s.Sound) (tag : Nat) {f : View → View} (hf : ∀ v : View, v.SameStream (f v))
    (hok : ∀ v : View, v.Sound → (f v).Sound) : (modView tag f s).Sound := by
  rw [Sys2Proof.Machine.modView]
  split
  · next v hv =>
    have hvmem : v ∈ s.views := List.mem_of_find?_eq_some hv
    have hvtag : v.tag = tag := by simpa using List.find?_some hv
    have hsame (w : View) : w.SameStream (if w.tag == tag then f w else w) := by
      split
      · exact hf w
      · exact .refl w
    have hsound : ∀ w ∈ s.views, (if w.tag == tag then f w else w).Sound := fun w hw => by
      have hw' := (View.ok_iff w).1 (h.records.view w hw)
      split
      · exact hok w hw'
      · exact hw'
    have hchip : ({ s with views := s.views.map fun w => if w.tag == tag then f w else w } : State).ChipSound :=
      h.chip.of_same rfl rfl rfl h.chip.status rfl
    have hrec : ({ s with views := s.views.map fun w => if w.tag == tag then f w else w } : State).RecordsSound [] :=
      h.records.mapViews rfl rfl rfl rfl rfl rfl hsame hsound
    have hstreams : ({ s with views := s.views.map fun w => if w.tag == tag then f w else w } : State).StreamsSound [v.entry] :=
      h.streams.mapViews (ns := [v.entry]) (loose := [])
        (t := { s with views := s.views.map fun w => if w.tag == tag then f w else w }) h.records rfl rfl rfl (fun _ => rfl) hsame fun w hw hwn => by
        refine if_neg fun hwt => hwn (List.mem_singleton.2 ?_)
        exact h.records.entry_of_tag hw hvmem ((by simpa using hwt : w.tag = tag).trans hvtag.symm)
    exact State.Sound.of_sync hchip hrec hstreams
  · exact h

theorem changeViews {s : State} (h : s.Sound) (p : View → Bool) {f : View → View} (hf : ∀ v : View, v.SameStream (f v))
    (hok : ∀ v : View, v.Sound → (f v).Sound) : (changeViews p f s).Sound := by
  have hsame (w : View) : w.SameStream (if p w then f w else w) := by
    split
    · exact hf w
    · exact .refl w
  have hsound : ∀ w ∈ s.views, (if p w then f w else w).Sound := fun w hw => by
    have hw' := (View.ok_iff w).1 (h.records.view w hw)
    split
    · exact hok w hw'
    · exact hw'
  have hchip : ({ s with views := s.views.map fun w => if p w then f w else w } : State).ChipSound :=
    h.chip.of_same rfl rfl rfl h.chip.status rfl
  have hrec : ({ s with views := s.views.map fun w => if p w then f w else w } : State).RecordsSound [] :=
    h.records.mapViews rfl rfl rfl rfl rfl rfl hsame hsound
  have hstreams : ({ s with views := s.views.map fun w => if p w then f w else w } : State).StreamsSound
      ((s.views.filter p).map (·.entry)) := by
    have := h.streams.mapViews (ns := (s.views.filter p).map (·.entry))
      (t := { s with views := s.views.map fun w => if p w then f w else w }) h.records rfl rfl rfl (fun _ => rfl) hsame
      fun w hw hwn => if_neg fun hpw => hwn (List.mem_map.2 ⟨w, List.mem_filter.2 ⟨hw, hpw⟩, rfl⟩)
    simpa using this
  have hfold := State.Sound.of_syncs hchip hrec hstreams
  rwa [List.foldl_map] at hfold

theorem rebaseViews {s : State} (h : s.Sound) (leaving : List NodeLane) : (rebaseViews leaving s).Sound :=
  h.changeViews _ (fun _ => ⟨rfl, rfl, rfl, rfl⟩) fun _ hv => hv.rebase s leaving

theorem clearViews {s : State} (h : s.Sound) : (clearViews s).Sound :=
  h.changeViews _ (fun _ => ⟨rfl, rfl, rfl, rfl⟩) fun _ hv => hv.muted

theorem setDirectory {s : State} (h : s.Sound) (n : NodeLane) (a : Option LaneAd) : (setDirectory n a s).Sound :=
  h.modBus_same rfl rfl rfl

theorem setPeer {s : State} (h : s.Sound) (p : PeerNo) (e : PeerState) : (setPeer p e s).Sound :=
  h.modBus_same rfl rfl rfl

theorem heardLane {s : State} (h : s.Sound) (n : NodeLane) (st : LaneState) (weight : Nat) : (heardLane n st weight s).Sound := by
  rw [Sys2Proof.Machine.heardLane]
  split
  · exact (h.setDirectory n _).rebaseViews [n]
  · exact h.setDirectory n _

/-- R142, R147, R148, R150: a heard notice keeps the chip safe. -/
theorem applyNotice {s : State} (h : s.Sound) (p : PeerNo) (n : Notice) : (applyNotice p n s).Sound := by
  cases n with
  | lane l st w => exact h.heardLane _ st w
  | release tag e m b =>
    refine h.modView tag (fun v => ?_) fun v hv => hv.heardRelease s e m b
    unfold View.heardRelease
    split
    · split
      · exact ⟨rfl, rfl, rfl, rfl⟩
      · exact .refl v
    · exact .refl v
  | claim tag e m b k => exact h.modView tag (fun _ => ⟨rfl, rfl, rfl, rfl⟩) fun v hv => hv.heardClaim s e m b k
  | demand tag e a => exact h.modView tag (fun _ => ⟨rfl, rfl, rfl, rfl⟩) fun v hv => hv.heardDemand s e a

theorem applyFrame {s : State} (h : s.Sound) (bits : List Bool) : (applyFrame bits s).Sound := by
  rw [Sys2Proof.Machine.applyFrame]
  split
  · exact h.applyNotice _ _
  · exact h

theorem peerMessage {s : State} (h : s.Sound) (p : PeerNo) (present : Bool) : (peerMessage p present s).Sound := by
  rw [Sys2Proof.Machine.peerMessage]
  split
  · exact h.queueStatus _
  · exact h

theorem hearPeer {s : State} (h : s.Sound) (p : PeerNo) : (hearPeer p s).Sound := by
  rw [Sys2Proof.Machine.hearPeer]
  split
  · exact (h.setPeer p _).peerMessage p true
  · exact h.setPeer p _

/-- A fold of updates that each keep the chip safe. -/
theorem foldl {α : Type} {f : State → α → State} (hf : ∀ s a, s.Sound → (f s a).Sound) (as : List α) {s : State} (h : s.Sound) :
    (as.foldl f s).Sound := by
  induction as generalizing s with
  | nil => exact h
  | cons a as ih => exact ih (hf s a h)

theorem losePeer {s : State} (h : s.Sound) (p : PeerNo) : (losePeer p s).Sound :=
  (foldl (fun _ n hs => State.Sound.setDirectory hs n none) (peerLanes p) ((h.setPeer p .absent).peerMessage p false)).rebaseViews _

theorem peerSilenceStep {s : State} (h : s.Sound) (p : PeerNo) : (peerSilenceStep p s).Sound := by
  rw [Sys2Proof.Machine.peerSilenceStep]
  split
  · exact h.losePeer p
  · exact h

/-- The bus with no notice and no attempt under way. -/
theorem modBus_quiet {s : State} (h : s.Sound) {f : Bus → Bus} (hqueue : (f s.bus).queue = []) (hholder : (f s.bus).holder = none)
    (howed : ∀ l, (s.lane l).owed = false) : (modBus f s).Sound :=
  h.of_chip (h.chip.modBus ⟨by simp [hqueue], .inr ⟨hqueue, hholder⟩, by simp [hqueue]⟩ fun l hl => by simp [howed l] at hl)
    rfl rfl rfl rfl rfl rfl rfl fun _ => rfl

/-- Marks of owed LANE notices go. -/
theorem clearOwed {s : State} (h : s.Sound) (l : LaneNo) : (Sys2Proof.Machine.modLane l (fun L => { L with owed := false }) s).Sound :=
  h.modLane { h.chip.lane l with owed := fun hf => by cases hf } rfl

end State.Sound

/-- The owed marks of the lanes in a list are cleared. -/
theorem clearOwed_lane (ls : List LaneNo) (s : State) (k : LaneNo) :
    (ls.foldl (fun s l => modLane l (fun L => { L with owed := false }) s) s).lane k =
      if k ∈ ls then { s.lane k with owed := false } else s.lane k := by
  induction ls generalizing s with
  | nil => simp
  | cons l ls ih =>
    rw [List.foldl_cons, ih, modLane_lane]
    by_cases hk : k = l <;> by_cases hm : k ∈ ls <;> simp [hk, hm]

theorem clearOwed_bus (ls : List LaneNo) (s : State) :
    (ls.foldl (fun s l => modLane l (fun L => { L with owed := false }) s) s).bus = s.bus :=
  foldl_keeps State.bus (fun s l => modLane l (fun L => { L with owed := false }) s) (fun _ _ => rfl) ls s

/-- A change of the bus and the clearing of every owed mark may be made in either order. -/
theorem clearOwed_modBus (ls : List LaneNo) (f : Bus → Bus) (s : State) :
    ls.foldl (fun s l => modLane l (fun L => { L with owed := false }) s) (modBus f s) =
      modBus f (ls.foldl (fun s l => modLane l (fun L => { L with owed := false }) s) s) := by
  induction ls generalizing s with
  | nil => rfl
  | cons l ls ih => exact ih (modLane l (fun L => { L with owed := false }) s)

namespace State.Sound

/-- R134: a mute leaves neither notice nor owed mark. -/
theorem enterMute {s : State} (h : s.Sound) (cause : MuteCause) : (enterMute cause s).Sound := by
  have hcleared := foldl (fun _ l hs => State.Sound.clearOwed hs l) allLanes h
  have howed (l : LaneNo) :
      ((allLanes.foldl (fun s l => Sys2Proof.Machine.modLane l (fun L => { L with owed := false }) s) s).lane l).owed = false := by
    rw [clearOwed_lane, if_pos (mem_allLanes l)]
  rw [Sys2Proof.Machine.enterMute, clearOwed_modBus]
  exact ((hcleared.modBus_quiet rfl rfl howed).queueStatus _).clearViews

theorem owed_of_not_active {s : State} (h : s.Sound) (hs : s.bus.state ≠ .active) (l : LaneNo) : (s.lane l).owed = false :=
  Bool.eq_false_iff.2 fun ho => hs ((h.chip.lane l).owed ho).1

theorem quiet_of_not_active {s : State} (h : s.Sound) (hs : s.bus.state ≠ .active) : s.bus.queue = [] ∧ s.bus.holder = none :=
  h.chip.bus.quiet.resolve_left hs

theorem clashDetected {s : State} (h : s.Sound) : (clashDetected s).Sound := by
  rw [Sys2Proof.Machine.clashDetected]
  split
  · exact h.enterMute _
  · exact h.modBus_same rfl rfl rfl
  · next hmute =>
    have hna : s.bus.state ≠ .active := by simp [hmute]
    exact (h.modBus_quiet (h.quiet_of_not_active hna).1 (h.quiet_of_not_active hna).2 (h.owed_of_not_active hna)).queueStatus _
  · exact h

theorem frameEnds {s : State} (h : s.Sound) : (frameEnds s).Sound := h.modBus_same rfl rfl rfl

/-- The bus stays ACTIVE with its queue, whatever is in the holder. -/
theorem modBus_active {s : State} (h : s.Sound) {f : Bus → Bus} (hactive : (f s.bus).state = .active)
    (hqueue : (f s.bus).queue = s.bus.queue) : (modBus f s).Sound :=
  h.of_chip (h.chip.modBus ⟨by rw [hqueue]; exact h.chip.bus.depth, .inl hactive, by rw [hqueue]; exact h.chip.bus.unlike⟩ fun l hl => by
      obtain ⟨-, hfull, hnone⟩ := (h.chip.lane l).owed hl
      exact ⟨hactive, by rw [hqueue]; exact hfull, by rw [hqueue]; exact hnone⟩)
    rfl rfl rfl rfl rfl rfl rfl fun _ => rfl

theorem enterActive {s : State} (h : s.Sound) : (enterActive s).Sound :=
  foldl (fun _ l hs => State.Sound.offerLane hs l) _ ((h.modBus_active rfl rfl).queueStatus _)

theorem muteRecoveryStep {s : State} (h : s.Sound) : (muteRecoveryStep s).Sound := by
  rw [Sys2Proof.Machine.muteRecoveryStep]
  split
  · exact h.enterActive
  · exact h

theorem refreshStep {s : State} (h : s.Sound) : (refreshStep s).Sound := by
  rw [Sys2Proof.Machine.refreshStep]
  split
  · exact State.Sound.offerLane (h.modBus_same rfl rfl rfl) _
  · exact h

theorem beginFrame {s : State} (h : s.Sound) (n : Notice) (rivals : List Rival) : (beginFrame n rivals s).Sound := by
  rw [Sys2Proof.Machine.beginFrame]
  exact h.modBus_same rfl rfl rfl

theorem transmitStartStep {s : State} (h : s.Sound) (before : List Bool) (rivals : List Rival) :
    (transmitStartStep before rivals s).Sound := by
  have hread : (setReader (s.bus.reader.readAll before) s).Sound := h.modBus_same rfl rfl rfl
  rw [Sys2Proof.Machine.transmitStartStep]
  dsimp only
  split
  · split
    · split
      · exact hread.beginFrame _ rivals
      · exact hread
    · exact hread
  · exact h

theorem echoFrame {s : State} (h : s.Sound) (hactive : s.bus.state = .active) (bits : List Bool) : (echoFrame bits s).Sound :=
  ((h.modBus_active hactive rfl).applyFrame bits).pumpHolder

theorem frameDeliveryStep {s : State} (h : s.Sound) (bits : List Bool) : (frameDeliveryStep bits s).Sound := by
  rw [Sys2Proof.Machine.frameDeliveryStep]
  dsimp only
  split
  · split
    · split
      · next hecho =>
        refine h.frameEnds.echoFrame ?_ bits
        by_contra hna
        have hnone := (h.quiet_of_not_active hna).2
        simp [State.isEcho, hnone] at hecho
      · exact h.frameEnds.clashDetected
    · exact (h.frameEnds.hearPeer _).applyFrame bits
  · exact h

theorem voidedAttempt {s : State} (h : s.Sound) : (voidedAttempt s).Sound := by
  rw [Sys2Proof.Machine.voidedAttempt]
  split
  · exact h.enterMute _
  · exact h.modBus_same rfl rfl rfl

theorem frameVoidedStep {s : State} (h : s.Sound) (bits : List Bool) : (frameVoidedStep bits s).Sound := by
  rw [Sys2Proof.Machine.frameVoidedStep]
  split
  · exact h.frameEnds.enterMute _
  · split
    · exact h
    · split
      · exact h.frameEnds.voidedAttempt
      · exact h.frameEnds

end State.Sound

end Sys2Proof.Machine
end

section
/-! PROOF. Safety of the cadence channels (R99, R101). -/

namespace Sys2Proof.Machine

theorem Channel.live_iff (c : Channel) : c.live = true ↔ c.state ≠ .standby := by
  rw [Channel.live]
  cases c.state <;> simp

/-- The channel holds the same program of the same pair of tag and lane, in STANDBY as before or not, with room for its carried dues. -/
structure Channel.Kin (c d : Channel) : Prop where
  number : d.number = c.number
  tag : d.tag = c.tag
  lane : d.lane = c.lane
  live : d.live = c.live
  carried : d.carried.length ≤ Config.carriedDepth

theorem Channel.Kin.bound {c d : Channel} (h : c.Kin d) (tag : Nat) (l : LaneNo) : d.bound tag l = c.bound tag l := by
  rw [Channel.bound, Channel.bound, h.tag, h.lane]

theorem pairBusy_iff {s : State} {tag : Nat} {l : LaneNo} :
    s.pairBusy tag l = true ↔ ∃ c ∈ s.channels, c.live = true ∧ c.bound tag l = true := by
  simp [State.pairBusy]

namespace State.ChannelsSound

/-- Channels change to their kin. -/
theorem mapped {s t : State} {f : Channel → Channel} (h : s.ChannelsSound) (hchan : t.channels = s.channels.map f)
    (htable : t.table = s.table) (hf : ∀ c ∈ s.channels, c.Kin (f c)) : t.ChannelsSound := by
  have hmem {d : Channel} : d ∈ t.channels ↔ ∃ c ∈ s.channels, f c = d := by rw [hchan]; exact List.mem_map
  refine ⟨?_, ?_, fun d hd hs => ?_, fun d hd => ?_, fun d hd => ?_⟩
  · rw [hchan, List.pairwise_map]
    exact h.numbers.imp_of_mem fun ha hb hlt => by rwa [(hf _ ha).number, (hf _ hb).number]
  · rw [hchan, List.pairwise_map]
    exact h.single.imp_of_mem fun ha hb hno => by
      rwa [(hf _ ha).live, (hf _ hb).live, (hf _ hb).bound, (hf _ ha).tag, (hf _ ha).lane]
  · obtain ⟨c, hc, rfl⟩ := hmem.1 hd
    have hk := hf c hc
    have hcs : c.state = .standby := by
      by_contra hne
      exact absurd hs ((Channel.live_iff _).1 (hk.live.trans ((Channel.live_iff c).2 hne)))
    obtain ⟨x, hx, hlive, hbound⟩ := pairBusy_iff.1 (h.standby c hc hcs)
    refine pairBusy_iff.2 ⟨f x, hmem.2 ⟨x, hx, rfl⟩, (hf x hx).live.trans hlive, ?_⟩
    rwa [(hf x hx).bound, hk.tag, hk.lane]
  · obtain ⟨c, hc, rfl⟩ := hmem.1 hd
    exact (hf c hc).carried
  · obtain ⟨c, hc, rfl⟩ := hmem.1 hd
    rw [(hf c hc).tag, htable]
    exact h.bound c hc

theorem eq_of_number {s : State} (h : s.ChannelsSound) {c d : Channel} (hc : c ∈ s.channels) (hd : d ∈ s.channels)
    (hcd : c.number = d.number) : c = d :=
  State.Numbered.eq h.numbers hc hd hcd

/-- Two channels of a pair that are RUNNING or DRAINING are one. -/
theorem eq_of_live {s : State} (h : s.ChannelsSound) {c d : Channel} (hc : c ∈ s.channels) (hd : d ∈ s.channels)
    (hcl : c.live = true) (hdl : d.live = true) (hbound : d.bound c.tag c.lane = true) : c = d := by
  by_contra hne
  have hsym : ∀ {x y : Channel}, ¬(x.live = true ∧ y.live = true ∧ y.bound x.tag x.lane = true) →
      ¬(y.live = true ∧ x.live = true ∧ x.bound y.tag y.lane = true) := fun hxy ⟨hy, hx, hb⟩ => hxy ⟨hx, hy, by
    simp only [Channel.bound, Bool.and_eq_true, beq_iff_eq] at hb ⊢
    exact ⟨hb.1.symm, hb.2.symm⟩⟩
  have : Std.Symm fun a b : Channel => ¬(a.live = true ∧ b.live = true ∧ b.bound a.tag a.lane = true) := ⟨fun _ _ => hsym⟩
  exact h.single.forall hc hd hne ⟨hcl, hdl, hbound⟩

/-- One channel becomes IDLE: what stays is sound, but for the STANDBY channels of its pair when it was RUNNING or DRAINING. -/
theorem idled {s : State} (h : s.ChannelsSound) {c : Channel} (hc : c ∈ s.channels) {d : Channel}
    (hd : d ∈ s.channels.filter fun x => x.number != c.number) (hs : d.state = .standby)
    (hpair : ¬(c.live = true ∧ d.bound c.tag c.lane = true)) :
    ∃ x ∈ s.channels.filter (fun x => x.number != c.number), x.live = true ∧ x.bound d.tag d.lane = true := by
  obtain ⟨x, hx, hlive, hbound⟩ := pairBusy_iff.1 (h.standby d (List.mem_of_mem_filter hd) hs)
  refine ⟨x, List.mem_filter.2 ⟨hx, ?_⟩, hlive, hbound⟩
  simp only [bne_iff_ne]
  intro hnum
  obtain rfl := h.eq_of_number hx hc hnum
  refine hpair ⟨hlive, ?_⟩
  simp only [Channel.bound, Bool.and_eq_true, beq_iff_eq] at hbound ⊢
  exact ⟨hbound.1.symm, hbound.2.symm⟩

/-- A channel ends, and a STANDBY one of its pair takes over when it was RUNNING or DRAINING (R100, R101). -/
theorem ended {s t : State} (h : s.ChannelsSound) {c : Channel} (hc : c ∈ s.channels) {g : Channel → Channel}
    (hg : ∀ x, (g x).number = x.number ∧ (g x).tag = x.tag ∧ (g x).lane = x.lane ∧ (g x).live = true ∧ (g x).carried = x.carried)
    (htable : t.table = s.table)
    (hchan : t.channels = match (s.channels.filter fun x => x.number != c.number).find? fun x =>
        c.live && (x.state == .standby && x.bound c.tag c.lane) with
      | some d => (s.channels.filter fun x => x.number != c.number).map fun x => if x.number == d.number then g x else x
      | none => s.channels.filter fun x => x.number != c.number) : t.ChannelsSound := by
  have hleft : (s.channels.filter fun x => x.number != c.number).Sublist s.channels := List.filter_sublist
  have hnumbers := h.numbers.sublist hleft
  have hsingle := h.single.sublist hleft
  cases hfind : (s.channels.filter fun x => x.number != c.number).find? fun x =>
      c.live && (x.state == .standby && x.bound c.tag c.lane) with
  | none =>
    rw [hfind] at hchan
    dsimp only at hchan
    refine ⟨hchan ▸ hnumbers, hchan ▸ hsingle, fun d hd hs => ?_, fun d hd => ?_, fun d hd => ?_⟩
    · rw [hchan] at hd
      rw [pairBusy_iff, hchan]
      refine h.idled hc hd hs fun ⟨hlive, hbound⟩ => ?_
      have := List.find?_eq_none.1 hfind d hd
      simp [hlive, hs, hbound] at this
    · exact h.carried d (hleft.subset (hchan ▸ hd))
    · rw [htable]
      exact h.bound d (hleft.subset (hchan ▸ hd))
  | some d =>
    rw [hfind] at hchan
    dsimp only at hchan
    have hd := List.mem_of_find?_eq_some hfind
    obtain ⟨hlive, hds, hdb⟩ : c.live = true ∧ d.state = .standby ∧ d.bound c.tag c.lane = true := by
      simpa using List.find?_some hfind
    have hdc : d.tag = c.tag ∧ d.lane = c.lane := by simpa [Channel.bound] using hdb
    have hnew (x : Channel) : (if x.number == d.number then g x else x).number = x.number ∧
        (if x.number == d.number then g x else x).tag = x.tag ∧ (if x.number == d.number then g x else x).lane = x.lane ∧
        (if x.number == d.number then g x else x).carried = x.carried := by
      obtain ⟨hn, ht, hl, -, hcar⟩ := hg x
      split
      · exact ⟨hn, ht, hl, hcar⟩
      · exact ⟨rfl, rfl, rfl, rfl⟩
    -- no other channel of the pair is RUNNING or DRAINING any more
    have hnone : ∀ x ∈ s.channels.filter (fun x => x.number != c.number), x.live = true → x.bound c.tag c.lane = false := by
      intro x hx hxl
      refine Bool.eq_false_iff.2 fun hxb => ?_
      obtain rfl := h.eq_of_live hc (hleft.subset hx) hlive hxl hxb
      simp at hx
    have hmem {y : Channel} : y ∈ t.channels ↔
        ∃ x ∈ s.channels.filter (fun x => x.number != c.number), (if x.number == d.number then g x else x) = y := by
      rw [hchan]; exact List.mem_map
    refine ⟨?_, ?_, fun y hy hs => ?_, fun y hy => ?_, fun y hy => ?_⟩
    · rw [hchan, List.pairwise_map]
      exact hnumbers.imp fun hlt => by rwa [(hnew _).1, (hnew _).1]
    · rw [hchan, List.pairwise_map]
      refine (hsingle.and hnumbers).imp_of_mem fun {x y} hx hy hxy => ?_
      rw [(hnew x).2.1, (hnew x).2.2.1]
      rintro ⟨hxl, hyl, hyb⟩
      have hyb : y.bound x.tag x.lane = true := by
        rwa [Channel.bound, (hnew y).2.1, (hnew y).2.2.1, ← Channel.bound] at hyb
      have hpair : y.tag = x.tag ∧ y.lane = x.lane := by simpa [Channel.bound] using hyb
      by_cases hxd : x.number = d.number
      · obtain rfl := h.eq_of_number (hleft.subset hx) (hleft.subset hd) hxd
        have hyd : y.number ≠ x.number := (Nat.ne_of_lt hxy.2).symm
        rw [if_neg (by simpa using hyd)] at hyl
        have := hnone y hy hyl
        simp [Channel.bound, hpair, hdc] at this
      · rw [if_neg (by simpa using hxd)] at hxl
        by_cases hyd : y.number = d.number
        · obtain rfl := h.eq_of_number (hleft.subset hy) (hleft.subset hd) hyd
          have := hnone x hx hxl
          simp [Channel.bound, ← hpair.1, ← hpair.2, hdc] at this
        · rw [if_neg (by simpa using hyd)] at hyl
          exact hxy.1 ⟨hxl, hyl, hyb⟩
    · obtain ⟨x, hx, rfl⟩ := hmem.1 hy
      have hxd : x.number ≠ d.number := fun hxd => by
        rw [if_pos (by simpa using hxd)] at hs
        exact (Channel.live_iff _).1 (hg x).2.2.2.1 hs
      rw [if_neg (by simpa using hxd)] at hs ⊢
      rw [pairBusy_iff]
      by_cases hxb : x.bound c.tag c.lane = true
      · refine ⟨g d, hmem.2 ⟨d, hd, if_pos (by simp)⟩, (hg d).2.2.2.1, ?_⟩
        have hxc : x.tag = c.tag ∧ x.lane = c.lane := by simpa [Channel.bound] using hxb
        simp [Channel.bound, (hg d).2.1, (hg d).2.2.1, hdc, hxc]
      · obtain ⟨z, hz, hzl, hzb⟩ := h.idled hc hx hs fun ⟨_, hb⟩ => hxb hb
        have hzd : z.number ≠ d.number := fun hzd => by
          obtain rfl := h.eq_of_number (hleft.subset hz) (hleft.subset hd) hzd
          exact (Channel.live_iff _).1 hzl hds
        exact ⟨z, hmem.2 ⟨z, hz, if_neg (by simpa using hzd)⟩, hzl, hzb⟩
    · obtain ⟨x, hx, rfl⟩ := hmem.1 hy
      rw [(hnew x).2.2.2]
      exact h.carried x (hleft.subset hx)
    · obtain ⟨x, hx, rfl⟩ := hmem.1 hy
      rw [(hnew x).2.1, htable]
      exact h.bound x (hleft.subset hx)

end State.ChannelsSound

/-- Channels alone change, and messages are queued. -/
theorem State.Sound.of_channels {s t : State} (h : s.Sound) (hchan : t.ChannelsSound) (hport : t.port.statusQueue.length ≤ Config.statusDepth)
    (hboot : t.boot = s.boot) (hlanes : t.lanes = s.lanes) (htable : t.table = s.table) (htag : t.tagMap = s.tagMap)
    (hindex : t.stationIndex = s.stationIndex) (hpool : t.pool = s.pool) (hbuild : t.builder = s.builder) (hviews : t.views = s.views)
    (hbus : t.bus = s.bus) : t.Sound := by
  have hr : Recorded id s t := ⟨by simpa using htable, fun e _ => .refl e, htag, hindex, hpool⟩
  have hlane (k : LaneNo) : t.lane k = s.lane k := by rw [State.lane, State.lane]; simp only [hlanes]
  exact ⟨h.chip.of_same hboot hbus hbuild hport hlanes,
    ⟨h.records.toNamesSound.recorded hr, hchan, h.records.toViewsSound.recorded hr hviews⟩,
    h.streams.of_same htable (fun k => by rw [hlane]) hviews hboot⟩

namespace State.Sound

theorem mapChannels {s : State} (h : s.Sound) {f : Channel → Channel} (hf : ∀ c ∈ s.channels, c.Kin (f c)) :
    ({ s with channels := s.channels.map f } : State).Sound :=
  h.of_channels (h.records.toChannelsSound.mapped rfl rfl hf) h.chip.status rfl rfl rfl rfl rfl rfl rfl rfl rfl

theorem modChannel {s : State} (h : s.Sound) {k : Nat} {f : Channel → Channel} (hf : ∀ c ∈ s.channels, c.number = k → c.Kin (f c)) :
    (modChannel k f s).Sound :=
  h.mapChannels fun c hc => by
    split
    · next hk => exact hf c hc (by simpa using hk)
    · exact ⟨rfl, rfl, rfl, rfl, h.records.carried c hc⟩

end State.Sound

/-- What becomes of the channels when one ends. -/
theorem endChannel_channels (c : Channel) (cause : EndCause) (s : State) :
    (endChannel c cause s).channels = match (s.channels.filter fun x => x.number != c.number).find? fun x =>
        c.live && (x.state == .standby && x.bound c.tag c.lane) with
      | some d => (s.channels.filter fun x => x.number != c.number).map fun x => if x.number == d.number then
          { x with state := .running, nextDue := some (takeoverDue (idleChannel c.number (queueStatus (.cadenceEnded c.number c.tag cause) s)) c x) }
          else x
      | none => s.channels.filter fun x => x.number != c.number := by
  rw [endChannel]
  cases hlive : c.live with
  | true =>
    rw [if_pos rfl, handover]
    simp only [Bool.true_and]
    have hidle : (idleChannel c.number (queueStatus (.cadenceEnded c.number c.tag cause) s)).channels =
        s.channels.filter fun x => x.number != c.number := by rw [idleChannel, queueStatus_channels]
    rw [hidle]
    cases (s.channels.filter fun x => x.number != c.number).find? (fun x => x.state == .standby && x.bound c.tag c.lane) with
    | none => exact hidle
    | some d => dsimp only [modChannel]; rw [hidle]
  | false =>
    have hnone : (s.channels.filter fun x => x.number != c.number).find? (fun x => false && (x.state == .standby && x.bound c.tag c.lane))
        = none := List.find?_eq_none.2 fun _ _ => by simp
    rw [if_neg (by simp), hnone]
    simp [idleChannel]

theorem endChannel_frame (c : Channel) (cause : EndCause) (s : State) :
    endChannel c cause s = { s with channels := (endChannel c cause s).channels, port := (queueStatus (.cadenceEnded c.number c.tag cause) s).port } := by
  have hq : queueStatus (.cadenceEnded c.number c.tag cause) s =
      { s with port := (queueStatus (.cadenceEnded c.number c.tag cause) s).port } := by
    obtain ⟨-, heq⟩ | ⟨-, heq⟩ := queueStatus_cases (.cadenceEnded c.number c.tag cause) s <;> rw [heq]
  have hidle : idleChannel c.number (queueStatus (.cadenceEnded c.number c.tag cause) s) =
      { s with port := (queueStatus (.cadenceEnded c.number c.tag cause) s).port, channels := s.channels.filter fun x => x.number != c.number } := by
    rw [idleChannel, queueStatus_channels]
    conv_lhs => rw [hq]
  rw [endChannel]
  split
  · rw [handover]
    split
    · rw [hidle]; rfl
    · rw [hidle]
  · rw [hidle]

namespace State.Sound

/-- R100, R101: a channel that ends, as one of the list that holds the program stands for it. -/
theorem endChannel {s : State} (h : s.Sound) {c₀ c : Channel} (hc₀ : c₀ ∈ s.channels) (hnumber : c.number = c₀.number)
    (htag : c.tag = c₀.tag) (hlane : c.lane = c₀.lane) (hlive : c.live = c₀.live) (cause : EndCause) : (endChannel c cause s).Sound := by
  have hframe := endChannel_frame c cause s
  have hchan : (Sys2Proof.Machine.endChannel c cause s).ChannelsSound := by
    refine h.records.toChannelsSound.ended hc₀ (g := fun x => { x with
      state := .running,
      nextDue := some (takeoverDue (idleChannel c.number (Sys2Proof.Machine.queueStatus (.cadenceEnded c.number c.tag cause) s)) c x) })
      (fun x => ⟨rfl, rfl, rfl, rfl, rfl⟩) (by rw [hframe]) ?_
    rw [← hnumber, ← htag, ← hlane, ← hlive]
    exact endChannel_channels c cause s
  have hstatus := queueStatus_bound (.cadenceEnded c.number c.tag cause) s h.chip.status
  refine h.of_channels hchan ?_ ?_ ?_ ?_ ?_ ?_ ?_ ?_ ?_ ?_
  all_goals rw [hframe]
  exact hstatus

end State.Sound

end Sys2Proof.Machine
end

section
/-! PROOF. Safety under retirement and freeing (R36, R37). -/

namespace Sys2Proof.Machine

/-- A safe state, but that the entries `orphans` may be served under a station that is CLOSING. -/
structure State.SoundBut (orphans : List Nat) (s : State) : Prop where
  chip : s.ChipSound
  records : s.RecordsSound orphans
  streams : s.StreamsSound []

theorem State.soundBut_nil_iff {s : State} : s.SoundBut [] ↔ s.Sound :=
  ⟨fun h => ⟨h.chip, h.records, h.streams⟩, fun h => ⟨h.chip, h.records, h.streams⟩⟩

/-- Orphans matter only as entries of the table that are not CLOSING. -/
theorem State.SoundBut.mono {o o' : List Nat} {s : State} (h : s.SoundBut o)
    (hsub : ∀ e ∈ s.table, e.state ≠ .closing → e.entry ∈ o → e.entry ∈ o') : s.SoundBut o' where
  chip := h.chip
  records := { h.records with family := fun e he => ⟨(h.records.family e he).address, fun hst => by
    obtain ⟨hstate, p, hp, hpe, hpst, hps⟩ := (h.records.family e he).parent hst
    refine ⟨hstate, p, hp, hpe, hpst, hps.imp_right fun ⟨hpc, hec⟩ => ⟨hpc, ?_⟩⟩
    by_cases hcl : e.state = .closing
    · exact .inl hcl
    · exact .inr (hsub e he hcl (hec.resolve_left hcl))⟩ }
  streams := h.streams

theorem find?_filter_of_some {α : Type} {p q : α → Bool} {l : List α} {a : α} (h : l.find? p = some a) (hq : q a = true) :
    (l.filter q).find? p = some a := by
  induction l with
  | nil => cases h
  | cons b l ih =>
    rw [List.find?_cons] at h
    cases hb : p b with
    | true =>
      rw [hb] at h
      obtain rfl := Option.some.inj h
      rw [List.filter_cons, if_pos hq, List.find?_cons, hb]
    | false =>
      rw [hb] at h
      rw [List.filter_cons]
      split
      · rw [List.find?_cons, hb]; exact ih h
      · exact ih h

/-- Leaving out elements that `p` does not meet changes nothing of what it finds. -/
theorem find?_filter_of_imp {α : Type} {p q : α → Bool} {l : List α} (h : ∀ a ∈ l, p a = true → q a = true) :
    (l.filter q).find? p = l.find? p := by
  cases hp : l.find? p with
  | none =>
    rw [List.find?_eq_none] at hp ⊢
    exact fun a ha => hp a (List.mem_of_mem_filter ha)
  | some a => exact find?_filter_of_some hp (h a (List.mem_of_find?_eq_some hp) (List.find?_some hp))

theorem OrderPort.after_length (ms : List Message) {p : OrderPort} (h : p.statusQueue.length ≤ Config.statusDepth) :
    (p.after ms).statusQueue.length ≤ Config.statusDepth := by
  simp only [OrderPort.after, List.length_append, List.length_take]
  rw [Config.statusDepth] at h ⊢
  omega

theorem retiredCorrections_nodup (cause : RetireCause) (tag : Nat) {waiting : List Correction} (h : (waiting.map (·.tag)).Nodup) :
    ((retiredCorrections cause tag waiting).map (·.tag)).Nodup := by
  have habort : ((queuedIn (abortFor tag) waiting).map (·.tag)).Nodup := queuedIn_nodup _ h
  cases cause with
  | rejoin => exact h.sublist ((List.filter_sublist).map _)
  | failure => exact h
  | laneDown => exact h
  | order => exact habort
  | admitExpiry => exact habort
  | parent => exact habort

/-- A build is judged by its turns and gaps. -/
theorem Build.ok_of_marks {a b : Option Build} (h : (a.map fun x => { x with marks := [], reloaded := [] }) =
    b.map fun x => { x with marks := [], reloaded := [] }) {planLength : Nat} {x : Build} (hx : a = some x) :
    ∃ y, b = some y ∧ x.ok planLength = y.ok planLength := by
  rw [hx, Option.map_some] at h
  obtain ⟨y, hy, hxy⟩ := Option.map_eq_some_iff.1 h.symm
  have hplaced : y.placed = x.placed := (congrArg Build.placed hxy :)
  have hgaps : y.gaps = x.gaps := (congrArg Build.gaps hxy :)
  exact ⟨y, hy, by rw [Build.ok, Build.ok, hplaced, hgaps]⟩

/-- What a retirement of the entry of `e` keeps of a record: names, place and family. -/
theorem retired_keeps (e x : Stream) : (e.retired x).entry = x.entry ∧ (e.retired x).tag = x.tag ∧ (e.retired x).parent = x.parent ∧
    (e.retired x).address = x.address ∧ (e.retired x).place = x.place ∧ (e.retired x).state = .closing :=
  ⟨rfl, rfl, rfl, rfl, rfl, rfl⟩

namespace State.SoundBut

theorem entry?_eq_some {o : List Nat} {s : State} (h : s.SoundBut o) {n : Nat} {e : Stream} :
    s.entry? n = some e ↔ e ∈ s.table ∧ e.entry = n :=
  h.records.entry?_eq_some

/-- The records of the table after a retirement. -/
theorem retired_records {o o' : List Nat} {s t : State} (h : s.SoundBut o) {n : Nat} {e : Stream} (he : e ∈ s.table) (hen : e.entry = n)
    (htable : t.table = s.table.map fun x => if x.entry == n then e.retired x else x) (htag : t.tagMap = s.tagMap)
    (hpool : t.pool = s.pool)
    (hindex : t.stationIndex = if e.isStation then s.stationIndex.filter fun p => p.2 != n else s.stationIndex)
    (horphans : ∀ m ∈ o, m = n ∨ m ∈ o')
    (hchildren : e.isStation = true → ∀ d ∈ s.table, d.parent = n → d.entry ≠ n → d.served = true → d.entry ∈ o') :
    t.NamesSound o' := by
  have hrec := h.records
  have hmem {d : Stream} : d ∈ t.table ↔ ∃ x ∈ s.table, (if x.entry == n then e.retired x else x) = d := by
    rw [htable]; exact List.mem_map
  have hkeep (x : Stream) : (if x.entry == n then e.retired x else x).entry = x.entry ∧
      (if x.entry == n then e.retired x else x).tag = x.tag ∧ (if x.entry == n then e.retired x else x).parent = x.parent ∧
      (if x.entry == n then e.retired x else x).address = x.address := by
    split <;> exact ⟨rfl, rfl, rfl, rfl⟩
  have hstation (x : Stream) : (if x.entry == n then e.retired x else x).isStation = x.isStation := by
    rw [Stream.isStation, (hkeep x).1, (hkeep x).2.2.1, ← Stream.isStation]
  have hself {x : Stream} (hx : x ∈ s.table) (hxn : x.entry = n) : x = e := hrec.eq_of_entry hx he (hxn.trans hen.symm)
  have hother {x : Stream} (hxn : x.entry ≠ n) : (if x.entry == n then e.retired x else x) = x := if_neg (by simpa using hxn)
  have hclosed {x : Stream} (hxn : x.entry = n) : (if x.entry == n then e.retired x else x).state = .closing := by
    rw [if_pos (by simpa using hxn)]; rfl
  have hlookup (tag : Nat) : t.lookupTag tag = s.lookupTag tag := by rw [State.lookupTag, State.lookupTag, htag]
  have hsub : t.stationIndex.Sublist s.stationIndex := by
    rw [hindex]; split
    · exact List.filter_sublist
    · exact List.Sublist.refl _
  have hindexed : ∀ x ∈ t.stationIndex, x.2 ≠ n := by
    intro x hx hxn
    cases hst : e.isStation with
    | true =>
      rw [hindex, if_pos hst] at hx
      simpa [hxn] using List.of_mem_filter hx
    | false =>
      obtain ⟨d, hd, hdn, hdst, -⟩ := hrec.indexed x (hsub.subset hx)
      rw [hself hd (hdn.trans hxn), hst] at hdst
      cases hdst
  have hentries : t.table.Pairwise fun a b => a.entry < b.entry := by
    rw [htable, List.pairwise_map]
    exact hrec.entries.imp fun hlt => by rwa [(hkeep _).1, (hkeep _).1]
  refine
    { entries := hentries, found := fun d hd => byTag_of_lookup hentries hd ?found, mapped := fun p hp => ?mapped,
      family := fun d hd => ?family, addresses := hrec.addresses.sublist (hsub.map _), indexed := fun x hx => ?indexed,
      known := fun d hd hst hcl => ?known, pool := fun tag ht => ?pool, stationTag := fun d hd hst => ?stationTag }
  case found =>
    obtain ⟨x, hx, rfl⟩ := hmem.1 hd
    rw [hlookup, (hkeep x).2.1, (hkeep x).1]
    exact hrec.lookupTag hx
  case mapped =>
    obtain ⟨x, hx, hxt, hxn⟩ := hrec.mapped p (htag ▸ hp)
    exact ⟨_, hmem.2 ⟨x, hx, rfl⟩, (hkeep x).2.1.trans hxt, (hkeep x).1.trans hxn⟩
  case family =>
    obtain ⟨x, hx, rfl⟩ := hmem.1 hd
    refine ⟨by rw [hstation, (hkeep x).2.2.2]; exact (hrec.family x hx).address, fun hst => ?_⟩
    rw [hstation] at hst
    obtain ⟨hstate, p, hp, hpe, hpst, hps⟩ := (hrec.family x hx).parent hst
    refine ⟨?_, _, hmem.2 ⟨p, hp, rfl⟩, ?_, (hstation p).trans hpst, ?_⟩
    · by_cases hxn : x.entry = n
      · exact .inr (hclosed hxn)
      · rwa [hother hxn]
    · rw [(hkeep p).1, hpe, (hkeep x).2.2.1]
    · by_cases hxn : x.entry = n
      · -- the retired stream is no station, so its parent is another entry
        have hpn : p.entry ≠ n := fun hpn => by
          rw [Stream.isStation, ← hpe, hpn, hxn, beq_self_eq_true] at hst
          cases hst
        rw [hother hpn]
        exact hps.imp_right fun hc => ⟨hc.1, .inl (hclosed hxn)⟩
      · rw [hother hxn]
        by_cases hpn : p.entry = n
        · refine .inr ⟨hclosed hpn, ?_⟩
          refine hstate.symm.imp id fun hadmitted => ?_
          rw [hself hp hpn] at hpst
          exact hchildren hpst x hx (hpe ▸ hpn) hxn (by simp [Stream.served, hadmitted])
        · rw [hother hpn]
          exact hps.imp_right fun hc => ⟨hc.1, hc.2.imp_right fun ho => (horphans _ ho).resolve_left hxn⟩
  case indexed =>
    obtain ⟨d, hd, hdn, hrest⟩ := hrec.indexed x (hsub.subset hx)
    have hdn' : d.entry ≠ n := hdn ▸ hindexed x hx
    exact ⟨d, hmem.2 ⟨d, hd, hother hdn'⟩, hdn, hrest⟩
  case known =>
    obtain ⟨x, hx, rfl⟩ := hmem.1 hd
    have hxn : x.entry ≠ n := fun hxn => hcl (hclosed hxn)
    rw [hother hxn] at hst hcl ⊢
    obtain ⟨a, ha, hla⟩ := hrec.known x hx hst hcl
    refine ⟨a, ha, ?_⟩
    obtain ⟨p, hp, hpx⟩ := Option.map_eq_some_iff.1 hla
    rw [State.lookupAddress, hindex]
    split
    · rw [find?_filter_of_some hp (by simpa [hpx] using hxn), Option.map_some, hpx]
    · exact hla
  case pool =>
    rw [hlookup]
    exact hrec.pool tag (hpool ▸ ht)
  case stationTag =>
    obtain ⟨x, hx, rfl⟩ := hmem.1 hd
    rw [(hkeep x).2.1]
    rw [hstation] at hst
    exact hrec.stationTag x hx hst

/-- The view found for a tag stays when the views of another tag go. -/
theorem viewOf_filter {s t : State} {tag tag' : Nat} (hviews : t.views = s.views.filter fun v => v.tag != tag) (hne : tag' ≠ tag) :
    t.viewOf tag' = s.viewOf tag' := by
  rw [State.viewOf, State.viewOf, hviews]
  refine find?_filter_of_imp fun v _ hv => ?_
  have hvt : v.tag = tag' := by simpa using hv
  simpa [hvt] using hne

/-- One entry is retired: CLOSING, out of its rings, its view and its channels gone (R36). Its served children are orphans until they are
retired too. -/
theorem retireEntry {o o' : List Nat} {s : State} (h : s.SoundBut o) (cause : RetireCause) {n : Nat} {e : Stream}
    (he : s.entry? n = some e) (horphans : ∀ m ∈ o, m = n ∨ m ∈ o')
    (hchildren : e.isStation = true → ∀ d ∈ s.table, d.parent = n → d.entry ≠ n → d.served = true → d.entry ∈ o') :
    (retireEntry cause n s).SoundBut o' := by
  have hrec := h.records
  obtain ⟨hmem, hen⟩ := hrec.entry?_eq_some.1 he
  obtain ⟨htable, hrings, hlanes, hindex, hviews, hchan, hport, hbuild, hframe⟩ := retireEntry_spec cause he
  generalize Sys2Proof.Machine.retireEntry cause n s = t at *
  have hboot : t.boot = s.boot := by rw [hframe]
  have htag : t.tagMap = s.tagMap := by rw [hframe]
  have hpool : t.pool = s.pool := by rw [hframe]
  have hbus : t.bus = s.bus := by rw [hframe]
  have hself {x : Stream} (hx : x ∈ s.table) (hxn : x.entry = n) : x = e := hrec.eq_of_entry hx hmem (hxn.trans hen.symm)
  have hother {x : Stream} (hxn : x.entry ≠ n) : (if x.entry == n then e.retired x else x) = x := if_neg (by simpa using hxn)
  have htmem {d : Stream} : d ∈ t.table ↔ ∃ x ∈ s.table, (if x.entry == n then e.retired x else x) = d := by
    rw [htable]; exact List.mem_map
  have hstays {x : Stream} (hx : x ∈ s.table) (hxn : x.entry ≠ n) : x ∈ t.table := htmem.2 ⟨x, hx, hother hxn⟩
  have htags {x : Stream} (hx : x ∈ s.table) (hxn : x.entry ≠ n) : x.tag ≠ e.tag := fun ht => hxn (by rw [hrec.eq_of_tag hx hmem ht, hen])
  -- a stream that is not the retired one finds the view it found
  have hviewOf {x : Stream} (hx : x ∈ s.table) (hxn : x.entry ≠ n) : t.viewOf x.tag = s.viewOf x.tag := by
    cases hsp : e.isSpread with
    | true => exact viewOf_filter (by rw [hviews, if_pos hsp]) (htags hx hxn)
    | false => rw [State.viewOf, hviews, hsp]; rfl
  refine ⟨?chip, ⟨h.retired_records hmem hen htable htag hpool hindex horphans hchildren, ?channels, ?views⟩, ?streams⟩
  case chip =>
    refine ⟨hport ▸ OrderPort.after_length _ h.chip.status, hbus ▸ h.chip.bus, fun k => ?_, fun b hb => ?_⟩
    · have hk : ({ s.lane k with
          rings := (t.lane k).rings
          provisional := if e.isStation && e.homedOn k then (s.lane k).provisional.filter fun x => x != e.tag else (s.lane k).provisional
          corrections := if e.isStation && e.homedOn k then retiredCorrections cause e.tag (s.lane k).corrections
            else (s.lane k).corrections } : Lane).Sound s k := { h.chip.lane k with
        corrections := by
          dsimp only
          split
          · exact retiredCorrections_nodup _ _ (h.chip.lane k).corrections
          · exact (h.chip.lane k).corrections }
      rw [← hlanes k] at hk
      exact hk.of_same hboot hbus
    · obtain ⟨c, hc, hcb⟩ := Build.ok_of_marks hbuild hb (planLength := t.params.planLength)
      have hok := h.chip.build c hc
      rw [State.params, hboot] at hcb ⊢
      exact ⟨hcb.trans hok.1, hok.2⟩
  case channels =>
    have hsub : t.channels.Sublist s.channels := hchan ▸ List.filter_sublist
    refine ⟨hrec.numbers.sublist hsub, hrec.single.sublist hsub, fun c hc hs => ?_, fun c hc => hrec.carried c (hsub.subset hc),
      fun c hc => ?_⟩
    · obtain ⟨x, hx, hlive, hbound⟩ := pairBusy_iff.1 (hrec.standby c (hsub.subset hc) hs)
      refine pairBusy_iff.2 ⟨x, ?_, hlive, hbound⟩
      rw [hchan] at hc ⊢
      have hxt : x.tag = c.tag := (by simpa [Channel.bound] using hbound : x.tag = c.tag ∧ x.lane = c.lane).1
      have hce : c.tag ≠ e.tag := by simpa using List.of_mem_filter hc
      exact List.mem_filter.2 ⟨hx, by simpa [hxt] using hce⟩
    · obtain ⟨d, hd, hdt, hs⟩ := hrec.bound c (hsub.subset hc)
      have hdn : d.entry ≠ n := fun hdn => by
        rw [hchan] at hc
        have hce : c.tag ≠ e.tag := by simpa using List.of_mem_filter hc
        exact hce (by rw [← hdt, hself hd hdn])
      exact ⟨d, hstays hd hdn, hdt, hs⟩
  case views =>
    have hsub : t.views.Sublist s.views := by
      rw [hviews]; split
      · exact List.filter_sublist
      · exact List.Sublist.refl _
    refine ⟨hrec.indexes.sublist hsub, fun v hv => hrec.view v (hsub.subset hv), fun v hv => ?_, fun d hd hsp hs => ?_⟩
    · obtain ⟨d, hd, hdn', hdt, hplace, hs⟩ := hrec.owner v (hsub.subset hv)
      have hdn : d.entry ≠ n := fun hdn => by
        obtain rfl := hself hd hdn
        have hsp : d.isSpread = true := by simp [Stream.isSpread, Stream.homeLane, hplace]
        rw [hviews, if_pos hsp] at hv
        have hvt : v.tag ≠ d.tag := by simpa using List.of_mem_filter hv
        exact hvt hdt.symm
      exact ⟨d, hstays hd hdn, hdn', hdt, hplace, hs⟩
    · obtain ⟨x, hx, rfl⟩ := htmem.1 hd
      have hxn : x.entry ≠ n := fun hxn => by
        rw [if_pos (by simpa using hxn)] at hs
        cases hs
      rw [hother hxn] at hsp hs ⊢
      rw [hviewOf hx hxn]
      exact hrec.viewed x hx hsp hs
  case streams =>
    have hring {x : Nat} {k : LaneNo} {i : Fin 6} (hxn : x ≠ n) : x ∈ (t.lane k).ring i ↔ x ∈ (s.lane k).ring i := by
      simp [hrings k i, hxn]
    refine ⟨fun d hd => ?_, fun d hd _ => ?_, fun k i => ?_, fun k i m hm => ?_⟩
    · obtain ⟨x, hx, rfl⟩ := htmem.1 hd
      have hr := h.streams.range x hx
      split
      · exact ⟨Nat.zero_le _, hr.turns, hr.data, Nat.zero_le _⟩
      · exact hr
    · obtain ⟨x, hx, rfl⟩ := htmem.1 hd
      by_cases hxn : x.entry = n
      · rw [if_pos (by simpa using hxn)]
        refine ⟨.inr rfl, fun k i => ⟨fun hin => ?_, fun hmeets => ?_⟩⟩
        · have hin' : x.entry ∈ (t.lane k).ring i := hin
          simp [hrings k i, hxn] at hin'
        · simp [State.meetsRing, Stream.served, (retired_keeps e x).2.2.2.2.2] at hmeets
      · rw [hother hxn]
        obtain ⟨hdef, hmember⟩ := h.streams.follows x hx (by simp)
        refine ⟨by rwa [inSomeRing_congr fun k i => hring hxn], fun k i => ?_⟩
        have havailable : t.available x k = s.available x k := by
          simp only [State.available, State.allowanceOf, hviewOf hx hxn, hboot]
        rw [hring hxn, hmember k i, State.meetsRing, State.meetsRing, havailable]
    · rw [hrings k i]; exact (h.streams.nodup k i).filter _
    · rw [hrings k i] at hm
      obtain ⟨hm, hmn⟩ := List.mem_filter.1 hm
      obtain ⟨x, hx, rfl⟩ := h.streams.used k i m hm
      exact ⟨x, hstays hx (by simpa using hmn), rfl⟩

end State.SoundBut

end Sys2Proof.Machine
end

section
/-! PROOF. Freeing, and the retirement of a family (R36, R37). -/

namespace Sys2Proof.Machine

/-- A list that rises in a key still does after an element with a new key was inserted. -/
theorem pairwise_insertBy {α : Type} {key : α → Nat} {a : α} {l : List α} (h : l.Pairwise fun x y => key x < key y)
    (hnew : ∀ x ∈ l, key x ≠ key a) : (insertBy key a l).Pairwise fun x y => key x < key y := by
  induction l with
  | nil => simp [insertBy]
  | cons b bs ih =>
    obtain ⟨hb, hbs⟩ := List.pairwise_cons.1 h
    rw [insertBy]
    split
    · next hab =>
      refine List.pairwise_cons.2 ⟨fun x hx => ?_, h⟩
      obtain rfl | hx := List.mem_cons.1 hx
      · exact hab
      · exact hab.trans (hb x hx)
    · next hab =>
      refine List.pairwise_cons.2 ⟨fun x hx => ?_, ih hbs fun x hx => hnew x (List.mem_cons_of_mem b hx)⟩
      obtain rfl | hx := mem_insertBy.1 hx
      · exact lt_of_le_of_ne (Nat.le_of_not_lt hab) (hnew b List.mem_cons_self)
      · exact hb x hx

namespace State.SoundBut

/-- A CLOSING entry with an empty turn list, and of a station no child, becomes FREE (R37). -/
theorem freeEntry {o : List Nat} {s : State} (h : s.SoundBut o) {e : Stream} (he : e ∈ s.table) (hfree : s.mayFree e = true) :
    (freeEntry e s).SoundBut o := by
  have hrec := h.records
  simp only [State.mayFree, Bool.and_eq_true, beq_iff_eq, Bool.or_eq_true, Bool.not_eq_true'] at hfree
  obtain ⟨⟨hclosing, -⟩, hchildren⟩ := hfree
  rw [freeEntry_eq]
  set t : State := { s with
    table := s.table.filter fun c => c.entry != e.entry, tagMap := s.tagMap.filter fun p => p.1 != e.tag,
    pool := if e.isStation then insertBy id e.tag s.pool else s.pool,
    builder := s.builder.map fun b => { b with reloaded := b.reloaded.filter fun m => m != e.entry },
    port := s.port.after [.retired e.tag] }
  have hsub : t.table.Sublist s.table := List.filter_sublist
  have hstays {d : Stream} (hd : d ∈ s.table) (hne : d ≠ e) : d ∈ t.table :=
    List.mem_filter.2 ⟨hd, by simpa using fun hde => hne (hrec.eq_of_entry hd he hde)⟩
  have hleft {d : Stream} (hd : d ∈ t.table) : d ∈ s.table ∧ d ≠ e := by
    refine ⟨hsub.subset hd, fun hde => ?_⟩
    simpa [hde] using List.of_mem_filter hd
  have hother {d : Stream} (hd : d ∈ s.table) (hs : d.state ≠ .closing) : d ∈ t.table := hstays hd fun hde => hs (hde ▸ hclosing)
  have hserved {d : Stream} (hd : d ∈ s.table) (hs : d.served = true) : d ∈ t.table :=
    hother hd fun hcl => by simp [Stream.served, hcl] at hs
  have hentries : t.table.Pairwise fun a b => a.entry < b.entry := hrec.entries.sublist hsub
  have hlookup {tag : Nat} (hne : tag ≠ e.tag) : t.lookupTag tag = s.lookupTag tag := by
    rw [State.lookupTag, State.lookupTag]
    congr 1
    refine find?_filter_of_imp fun p _ hp => ?_
    have hpt : p.1 = tag := by simpa using hp
    simpa [hpt] using hne
  have hgone : t.lookupTag e.tag = none := by
    rw [State.lookupTag, Option.map_eq_none_iff, List.find?_eq_none]
    intro p hp
    simpa using List.of_mem_filter hp
  refine ⟨⟨OrderPort.after_length _ h.chip.status, h.chip.bus, fun k => (h.chip.lane k).of_same rfl rfl, fun b hb => ?build⟩,
    ⟨{ entries := hentries, found := fun d hd => byTag_of_lookup hentries hd ?found, mapped := fun p hp => ?mapped,
       family := fun d hd => ?family, addresses := hrec.addresses, indexed := fun x hx => ?indexed,
       known := fun d hd => hrec.known d (hsub.subset hd), pool := fun tag ht => ?pool,
       stationTag := fun d hd => hrec.stationTag d (hsub.subset hd) },
     hrec.toChannelsSound.of_table rfl fun d hd hs => ⟨d, hserved hd hs, rfl, hs⟩,
     ⟨hrec.indexes, hrec.view, fun v hv => ?owner, fun d hd => hrec.viewed d (hsub.subset hd)⟩⟩,
    ⟨fun d hd => h.streams.range d (hsub.subset hd), fun d hd hl => ?follows, h.streams.nodup, fun k i m hm => ?used⟩⟩
  case build =>
    obtain ⟨c, hc, rfl⟩ := Option.map_eq_some_iff.1 hb
    exact h.chip.build c hc
  case found =>
    obtain ⟨hds, hde⟩ := hleft hd
    rw [hlookup fun ht => hde (hrec.eq_of_tag hds he ht)]
    exact hrec.lookupTag hds
  case mapped =>
    obtain ⟨hps, hpe⟩ := List.mem_filter.1 hp
    obtain ⟨d, hd, hdt, hdn⟩ := hrec.mapped p hps
    refine ⟨d, hstays hd fun hde => ?_, hdt, hdn⟩
    rw [hde] at hdt
    simp [hdt] at hpe
  case family =>
    obtain ⟨hds, hde⟩ := hleft hd
    refine ⟨(hrec.family d hds).address, fun hst => ?_⟩
    obtain ⟨hstate, p, hp, hpe, hpst, hps⟩ := (hrec.family d hds).parent hst
    refine ⟨hstate, p, hstays hp fun hpe' => ?_, hpe, hpst, hps⟩
    rw [hpe'] at hpe hpst
    have hnone := hchildren.resolve_left (by simp [hpst])
    rw [List.any_eq_false] at hnone
    have hdn : d.entry ≠ e.entry := fun hdn => hde (hrec.eq_of_entry hds he hdn)
    exact hnone d hds (by simp [← hpe, hdn])
  case indexed =>
    obtain ⟨d, hd, hdn, hst, hcl, ha⟩ := hrec.indexed x hx
    exact ⟨d, hother hd hcl, hdn, hst, hcl, ha⟩
  case pool =>
    have hold {tag : Nat} (hmem : tag ∈ s.pool) : Config.lastServiceTag < tag ∧ t.lookupTag tag = none := by
      by_cases hte : tag = e.tag
      · exact ⟨(hrec.pool tag hmem).1, hte ▸ hgone⟩
      · exact ⟨(hrec.pool tag hmem).1, (hlookup hte).trans (hrec.pool tag hmem).2⟩
    cases hst : e.isStation with
    | false =>
      have hpool : t.pool = s.pool := by simp [t, hst]
      exact hold (hpool ▸ ht)
    | true =>
      have hpool : t.pool = insertBy id e.tag s.pool := by simp [t, hst]
      rw [hpool] at ht
      obtain rfl | hmem := mem_insertBy.1 ht
      · exact ⟨hrec.stationTag e he hst, hgone⟩
      · exact hold hmem
  case owner =>
    obtain ⟨d, hd, hdn, hdt, hplace, hs⟩ := hrec.owner v hv
    exact ⟨d, hserved hd hs, hdn, hdt, hplace, hs⟩
  case follows =>
    obtain ⟨hdef, hmember⟩ := h.streams.follows d (hsub.subset hd) hl
    exact ⟨hdef, hmember⟩
  case used =>
    obtain ⟨d, hd, rfl⟩ := h.streams.used k i m hm
    refine ⟨d, hother hd fun hcl => ?_, rfl⟩
    have hmeets := ((h.streams.follows d hd (by simp)).member k i).1 hm
    simp [State.meetsRing, Stream.served, hcl] at hmeets

theorem freeOne {o : List Nat} {s : State} (h : s.SoundBut o) (n : Nat) : (freeOne n s).SoundBut o := by
  rw [Sys2Proof.Machine.freeOne]
  split
  · next e he =>
    split
    · next hfree => exact h.freeEntry (mem_of_entry? he) hfree
    · exact h
  · exact h

theorem tryFree {o : List Nat} {s : State} (h : s.SoundBut o) (n : Nat) : (tryFree n s).SoundBut o := by
  obtain heq | ⟨e, he, hfree, heq, -⟩ := tryFree_cases n s
  · rwa [heq]
  · rw [heq]
    exact (h.freeEntry (mem_of_entry? he) hfree).freeOne e.parent

/-- The children of a retired station are retired one after another; none is an orphan then. -/
theorem retireChildren {cs : List Nat} {s : State} (h : s.SoundBut cs)
    (hcs : ∀ c ∈ cs, ∀ e ∈ s.table, e.entry = c → e.isStation = false) :
    (cs.foldl (fun s c => Sys2Proof.Machine.retireEntry .parent c s) s).SoundBut [] := by
  induction cs generalizing s with
  | nil => exact h
  | cons c cs ih =>
    rw [List.foldl_cons]
    cases he : s.entry? c with
    | none =>
      have hsame : Sys2Proof.Machine.retireEntry .parent c s = s := by rw [Sys2Proof.Machine.retireEntry, he]
      rw [hsame]
      refine ih (h.mono fun d hd _ hmem => ?_) fun m hm => hcs m (List.mem_cons_of_mem c hm)
      obtain hdc | hmem := List.mem_cons.1 hmem
      · rw [h.entry?_eq_some.2 ⟨hd, hdc⟩] at he
        cases he
      · exact hmem
    | some e =>
      have hst : e.isStation = false := hcs c List.mem_cons_self e (mem_of_entry? he) (entry?_number he)
      refine ih (h.retireEntry .parent he (fun m hm => List.mem_cons.1 hm) fun hst' => by simp [hst] at hst') fun m hm d hd hdm => ?_
      rw [(retireEntry_spec .parent he).1] at hd
      obtain ⟨x, hx, rfl⟩ := List.mem_map.1 hd
      have hkeep : (if x.entry == c then e.retired x else x).entry = x.entry ∧
          (if x.entry == c then e.retired x else x).isStation = x.isStation := by split <;> exact ⟨rfl, rfl⟩
      rw [hkeep.2]
      exact hcs m (List.mem_cons_of_mem c hm) x hx (hkeep.1.symm.trans hdm)

end State.SoundBut

/-- A fold of updates that each keep a state safe but for orphans. -/
theorem State.SoundBut.foldl {α : Type} {o : List Nat} {f : State → α → State} (hf : ∀ s a, s.SoundBut o → (f s a).SoundBut o)
    (as : List α) {s : State} (h : s.SoundBut o) : (as.foldl f s).SoundBut o := by
  induction as generalizing s with
  | nil => exact h
  | cons a as ih => exact ih (hf s a h)

namespace State.Sound

theorem tryFree {s : State} (h : s.Sound) (n : Nat) : (tryFree n s).Sound :=
  State.soundBut_nil_iff.1 ((State.soundBut_nil_iff.2 h).tryFree n)

/-- R36, R37: a retirement with the served children keeps the chip safe. -/
theorem retireWithChildren {s : State} (h : s.Sound) (cause : RetireCause) (n : Nat) : (retireWithChildren cause n s).Sound := by
  have hchild {m : Nat} (hm : m ∈ s.servedChildren n) : ∀ e ∈ s.table, e.entry = m → e.isStation = false := by
    intro e he hem
    obtain ⟨c, hc, hcm⟩ := List.mem_map.1 hm
    obtain ⟨hcs, hp⟩ := List.mem_filter.1 hc
    obtain ⟨⟨hparent, hne⟩, -⟩ : (c.parent = n ∧ c.entry ≠ n) ∧ c.served = true := by simpa using hp
    obtain rfl := h.records.eq_of_entry he hcs (hem.trans hcm.symm)
    simpa [Stream.isStation, hparent] using fun hn => hne hn.symm
  have hretired : (retireEntry cause n s).SoundBut (s.servedChildren n) ∧
      ∀ m ∈ s.servedChildren n, ∀ e ∈ (retireEntry cause n s).table, e.entry = m → e.isStation = false := by
    cases he : s.entry? n with
    | none =>
      have hsame : retireEntry cause n s = s := by rw [retireEntry, he]
      rw [hsame]
      exact ⟨(State.soundBut_nil_iff.2 h).mono fun _ _ _ hm => absurd hm (by simp), fun m hm => hchild hm⟩
    | some e =>
      refine ⟨(State.soundBut_nil_iff.2 h).retireEntry cause he (fun m hm => absurd hm (by simp)) fun _ d hd hdp hdn hds => ?_,
        fun m hm d hd hdm => ?_⟩
      · exact List.mem_map.2 ⟨d, List.mem_filter.2 ⟨hd, by simp [hdp, hdn, hds]⟩, rfl⟩
      · rw [(retireEntry_spec cause he).1] at hd
        obtain ⟨x, hx, rfl⟩ := List.mem_map.1 hd
        have hkeep : (if x.entry == n then e.retired x else x).entry = x.entry ∧
            (if x.entry == n then e.retired x else x).isStation = x.isStation := by split <;> exact ⟨rfl, rfl⟩
        rw [hkeep.2]
        exact hchild hm x hx (hkeep.1.symm.trans hdm)
  have hchildren := hretired.1.retireChildren hretired.2
  exact State.soundBut_nil_iff.1
    ((State.SoundBut.foldl (fun _ c hs => hs.tryFree c) (s.servedChildren n) hchildren).tryFree n)

end State.Sound

/-! ### New entries (R24, R33, R115) -/

/-- An entry is filled under a tag that was not mapped (R21, R23). -/
structure Entered (e : Stream) (s t : State) : Prop where
  free : s.entry? e.entry = none
  unmapped : s.lookupTag e.tag = none
  table : t.table = insertBy Stream.entry e s.table
  tagMap : t.tagMap = insertBy Prod.fst (e.tag, e.entry) s.tagMap

namespace Entered

theorem mem {e : Stream} {s t : State} (h : Entered e s t) {d : Stream} : d ∈ t.table ↔ d = e ∨ d ∈ s.table := by
  rw [h.table]; exact mem_insertBy

theorem entry_ne {e : Stream} {s t : State} (h : Entered e s t) {d : Stream} (hd : d ∈ s.table) : d.entry ≠ e.entry := fun hde => by
  have := List.find?_eq_none.1 h.free d hd
  simp [hde] at this

theorem lookupTag_self {e : Stream} {s t : State} (h : Entered e s t) : t.lookupTag e.tag = some e.entry := by
  have hnone : s.tagMap.find? (fun p => p.1 == e.tag) = none := by simpa [State.lookupTag] using h.unmapped
  rw [State.lookupTag, h.tagMap, find?_insertBy.2 (by simp) hnone]
  rfl

theorem lookupTag_other {e : Stream} {s t : State} (h : Entered e s t) {tag : Nat} (hne : tag ≠ e.tag) :
    t.lookupTag tag = s.lookupTag tag := by
  rw [State.lookupTag, State.lookupTag, h.tagMap, find?_insertBy.1 (by simpa using Ne.symm hne)]

theorem tag_ne {o : List Nat} {e : Stream} {s t : State} (h : Entered e s t) (hn : s.NamesSound o) {d : Stream} (hd : d ∈ s.table) :
    d.tag ≠ e.tag := fun hde => by
  have hl := hn.lookupTag hd
  rw [hde, h.unmapped] at hl
  cases hl

/-- The names after an entry was filled; `indexed` to `pool` are left to the kind of entry. -/
theorem names {e : Stream} {s t : State} (h : Entered e s t) (hn : s.NamesSound []) (hfamily : t.FamilyOf [] e)
    (haddresses : (t.stationIndex.map (·.1)).Nodup)
    (hindexed : ∀ x ∈ t.stationIndex, x ∈ s.stationIndex ∨
      e.entry = x.2 ∧ e.isStation = true ∧ e.state ≠ .closing ∧ e.address = some x.1)
    (hknown : ∀ a, e.address = some a → e.isStation = true → e.state ≠ .closing → t.lookupAddress a = some e.entry)
    (hothers : ∀ d ∈ s.table, ∀ a, d.address = some a → s.lookupAddress a = some d.entry → t.lookupAddress a = some d.entry)
    (hpool : ∀ tag ∈ t.pool, tag ∈ s.pool ∧ tag ≠ e.tag)
    (hstation : e.isStation = true → Config.lastServiceTag < e.tag) : t.NamesSound [] := by
  have hentries : t.table.Pairwise fun a b => a.entry < b.entry := by
    rw [h.table]
    exact pairwise_insertBy hn.entries fun x hx => h.entry_ne hx
  refine
    { entries := hentries, found := fun d hd => byTag_of_lookup hentries hd ?found, mapped := fun p hp => ?mapped,
      family := fun d hd => ?family, addresses := haddresses, indexed := fun x hx => ?indexed,
      known := fun d hd hst hcl => ?known, pool := fun tag ht => ?pool, stationTag := fun d hd hst => ?stationTag }
  case found =>
    obtain rfl | hd := h.mem.1 hd
    · exact h.lookupTag_self
    · rw [h.lookupTag_other (h.tag_ne hn hd)]
      exact hn.lookupTag hd
  case mapped =>
    rw [h.tagMap] at hp
    obtain rfl | hp := mem_insertBy.1 hp
    · exact ⟨e, h.mem.2 (.inl rfl), rfl, rfl⟩
    · obtain ⟨d, hd, hrest⟩ := hn.mapped p hp
      exact ⟨d, h.mem.2 (.inr hd), hrest⟩
  case family =>
    obtain rfl | hd := h.mem.1 hd
    · exact hfamily
    · refine ⟨(hn.family d hd).address, fun hst => ?_⟩
      obtain ⟨hstate, p, hp, hrest⟩ := (hn.family d hd).parent hst
      exact ⟨hstate, p, h.mem.2 (.inr hp), hrest⟩
  case indexed =>
    obtain hx | ⟨hen, hrest⟩ := hindexed x hx
    · obtain ⟨d, hd, hrest⟩ := hn.indexed x hx
      exact ⟨d, h.mem.2 (.inr hd), hrest⟩
    · exact ⟨e, h.mem.2 (.inl rfl), hen, hrest⟩
  case known =>
    obtain rfl | hd := h.mem.1 hd
    · have hsome : d.address.isSome = true := by rw [← hfamily.address]; exact hst
      obtain ⟨a, ha⟩ := Option.isSome_iff_exists.1 hsome
      exact ⟨a, ha, hknown a ha hst hcl⟩
    · obtain ⟨a, ha, hla⟩ := hn.known d hd hst hcl
      exact ⟨a, ha, hothers d hd a ha hla⟩
  case pool =>
    obtain ⟨hmem, hne⟩ := hpool tag ht
    exact ⟨(hn.pool tag hmem).1, (h.lookupTag_other hne).trans (hn.pool tag hmem).2⟩
  case stationTag =>
    obtain rfl | hd := h.mem.1 hd
    · exact hstation hst
    · exact hn.stationTag d hd hst

theorem channels {e : Stream} {s t : State} (h : Entered e s t) (hc : s.ChannelsSound) (hchan : t.channels = s.channels) :
    t.ChannelsSound :=
  hc.of_table hchan fun d hd hs => ⟨d, h.mem.2 (.inr hd), rfl, hs⟩

/-- An entry with no demand and no allowance is in no ring. -/
theorem streams {e : Stream} {s t : State} (h : Entered e s t) (hs : s.StreamsSound []) (hrings : ∀ k, (t.lane k).rings = (s.lane k).rings)
    (hboot : t.boot = s.boot) (hviews : ∀ d ∈ s.table, t.viewOf d.tag = s.viewOf d.tag) (hrange : e.InRange) (hdeficit : e.deficit = 0)
    (hnone : ∀ k c, t.meetsRing e k c = false) : t.StreamsSound [] where
  range d hd := by
    obtain rfl | hd := h.mem.1 hd
    · exact hrange
    · exact hs.range d hd
  follows d hd hl := by
    obtain rfl | hd := h.mem.1 hd
    · refine ⟨.inr hdeficit, fun k i => ?_⟩
      rw [ring_congr hrings, hnone]
      refine ⟨fun hin => ?_, fun hf => by cases hf⟩
      obtain ⟨x, hx, hxd⟩ := hs.used k i _ hin
      exact absurd hxd (h.entry_ne hx)
    · obtain ⟨hdef, hmember⟩ := hs.follows d hd hl
      have havailable (k : LaneNo) : t.available d k = s.available d k := by
        simp only [State.available, State.allowanceOf, hviews d hd, hboot]
      refine ⟨by rwa [inSomeRing_congr (s := s) fun k i => by rw [ring_congr hrings]], fun k i => ?_⟩
      rw [ring_congr hrings, hmember k i, State.meetsRing, State.meetsRing, havailable]
  nodup k i := by rw [ring_congr hrings]; exact hs.nodup k i
  used k i n hn := by
    rw [ring_congr hrings] at hn
    obtain ⟨d, hd, rfl⟩ := hs.used k i n hn
    exact ⟨d, h.mem.2 (.inr hd), rfl⟩

end Entered

end Sys2Proof.Machine
end

section
/-! PROOF. Safety under the lane's health, its plans and its channels (1, 6, 9). -/

namespace Sys2Proof.Machine

/-- R169: a pair in its range stays in it. -/
theorem Backoff.ok_moved {least : Nat} {b : Backoff} (h : b.ok least = true) (high low c : Nat) :
    (b.moved high low least c).ok least = true := by
  simp only [Backoff.ok, Bool.and_eq_true, decide_eq_true_eq] at h ⊢
  obtain ⟨⟨hleast, hle⟩, htop⟩ := h
  obtain hhigh | hhigh := le_or_gt high c
  · rw [moved_of_high b hhigh]
    dsimp only
    omega
  · obtain hlow | hlow := le_or_gt c low
    · rw [moved_of_low b hhigh hlow]
      dsimp only
      omega
    · rw [moved_of_between b hhigh hlow]
      exact ⟨⟨hleast, hle⟩, htop⟩

theorem movedFloor_le (lim : HealthLimits) (st : LaneState) (backlog : Nat) {floor : Nat} (h : floor ≤ 5) :
    movedFloor lim st backlog floor ≤ 5 := by
  rw [movedFloor]
  split
  · split
    · exact Nat.min_le_right _ _
    · split <;> omega
  · exact h

/-- R168: the floor of a lane that is not LIVE stays. -/
theorem movedFloor_of_not_live {lim : HealthLimits} {st : LaneState} {backlog floor : Nat} (h : st ≠ .live) :
    movedFloor lim st backlog floor = floor :=
  if_neg h

theorem modHealth_queueStatus (l : LaneNo) (f : Health → Health) (m : Message) (s : State) :
    modHealth l f (queueStatus m s) = queueStatus m (modHealth l f s) :=
  apply_ite (modHealth l f) _ _ _

namespace State.Sound

/-- A lane that has left DARK is past the boot read. -/
theorem not_loading {s : State} (h : s.Sound) {l : LaneNo} (hl : s.laneState l ≠ .dark) : s.boot.startup ≠ .loading :=
  fun hload => hl ((h.chip.lane l).loading hload).1

theorem modHealth {s : State} (h : s.Sound) {l : LaneNo} {f : Health → Health}
    (hfloor : (f (s.lane l).health).floor ≤ 5 ∧ ((f (s.lane l).health).state = .live ∨ (f (s.lane l).health).floor = 0))
    (hpairs : s.fitted l = true → (f (s.lane l).health).openPair.ok s.params.health.openMin = true ∧
      (f (s.lane l).health).joinPair.ok s.params.health.joinMin = true)
    (hload : s.boot.startup = .loading → (f (s.lane l).health).state = .dark) : (modHealth l f s).Sound :=
  h.of_chip (h.chip.modHealth hfloor hpairs hload) rfl rfl rfl rfl rfl rfl rfl fun k => by
    rw [modHealth_lane]
    split
    · next hk => rw [hk]
    · rfl

theorem announceState {s : State} (h : s.Sound) (l : LaneNo) (cause : LaneCause) : (announceState l cause s).Sound :=
  (h.queueStatus _).offerLane l

theorem enterLive {s : State} (h : s.Sound) {l : LaneNo} (hl : s.laneState l = .ramp) : (enterLive l s).Sound :=
  (h.modHealth ⟨(h.chip.floor l).1, .inl rfl⟩ (h.chip.lane l).pairs fun hload =>
    absurd hload (h.not_loading (l := l) (by simp [hl]))).announceState l _

theorem goodProbe {s : State} (h : s.Sound) (l : LaneNo) : (goodProbe l s).Sound := by
  have hcount : (Machine.modHealth l (fun h => { h with goodProbes := satAdd 255 h.goodProbes 1 }) s).Sound :=
    h.modHealth_same rfl rfl rfl rfl
  rw [Machine.goodProbe]
  split
  · next hl =>
    dsimp only
    split
    · refine hcount.enterLive (l := l) ?_
      rw [State.laneState, modHealth_lane, if_pos rfl]
      exact hl
    · exact hcount
  · exact h

theorem reportProbe {s : State} (h : s.Sound) (l : LaneNo) : (reportProbe l s).Sound := by
  rw [Machine.reportProbe]
  split
  · exact h.goodProbe l
  · exact h

theorem setFlagIf {s : State} (h : s.Sound) (p : Bool) (l : LaneNo) (f : Flag) : (setFlagIf p l f s).Sound := by
  rw [Machine.setFlagIf]
  split
  · exact h.setFlag l f
  · exact h

/-- R167 to R170: an evaluation keeps floor and pairs in their ranges. -/
theorem evaluateLane {s : State} (h : s.Sound) (l : LaneNo) : (evaluateLane l s).Sound := by
  have hlane := h.chip.lane l
  have hfloor := h.chip.floor l
  have hset : (Machine.modHealth l (Health.evaluated s.params.health (s.backlogReading l)) s).Sound := by
    refine h.modHealth ⟨movedFloor_le _ _ _ hfloor.1, ?_⟩ (fun hl => ?_) fun hload => (hlane.loading hload).1
    · by_cases hlive : (s.lane l).health.state = .live
      · exact .inl hlive
      · exact .inr ((movedFloor_of_not_live hlive).trans (hfloor.2.resolve_left hlive))
    · exact ⟨Backoff.ok_moved (hlane.pairs hl).1 _ _ _, Backoff.ok_moved (hlane.pairs hl).2 _ _ _⟩
  exact ((((hset.setFlagIf _ l _).setFlagIf _ l _).setFlagIf _ l _).setFlagIf _ l _).setFlagIf _ l _

theorem healthCompletion {s : State} (h : s.Sound) (l : LaneNo) : (healthCompletion l s).Sound := by
  have hcount : (Machine.modHealth l (fun h => { h with rampBuilds := satAdd 255 h.rampBuilds 1 }) s).Sound :=
    h.modHealth_same rfl rfl rfl rfl
  rw [Machine.healthCompletion]
  split
  · exact h
  · exact h.evaluateLane l
  · dsimp only
    split
    · exact hcount
    · exact hcount.evaluateLane l

/-! ### Channels -/

/-- A channel that keeps its program, state and carried dues. -/
theorem kin_of_state {s : State} (h : s.Sound) {c d : Channel} (hc : c ∈ s.channels) (hnumber : d.number = c.number)
    (htag : d.tag = c.tag) (hlane : d.lane = c.lane) (hstate : d.state = c.state) (hcarried : d.carried.length ≤ c.carried.length) :
    c.Kin d :=
  ⟨hnumber, htag, hlane, by rw [Channel.live, Channel.live, hstate], hcarried.trans (h.records.carried c hc)⟩

theorem missInterval {s : State} (h : s.Sound) (l : LaneNo) (start : Slice) : (missInterval l start s).Sound := by
  refine h.mapChannels fun c hc => ?_
  split
  · obtain ⟨_, -, hmissed, -⟩ := missDues_spec start s.params.planLength dueFuel c.missCarried rfl (Nat.min_le_right _ _)
    rw [hmissed]
    exact h.kin_of_state hc rfl rfl rfl rfl (Nat.zero_le _)
  · exact h.kin_of_state hc rfl rfl rfl rfl le_rfl

theorem darkChannels {s : State} (h : s.Sound) (l : LaneNo) : (darkChannels l s).Sound := by
  refine h.mapChannels fun c hc => ?_
  have hmiss : c.Kin (if c.state = .running then c.missCarried else c) := by
    split
    · exact h.kin_of_state hc rfl rfl rfl rfl (Nat.zero_le _)
    · exact h.kin_of_state hc rfl rfl rfl rfl le_rfl
  split
  · dsimp only
    generalize (if c.state = .running then c.missCarried else c) = d at hmiss ⊢
    split
    · exact ⟨hmiss.number, hmiss.tag, hmiss.lane, hmiss.live, hmiss.carried⟩
    · exact hmiss
  · exact h.kin_of_state hc rfl rfl rfl rfl le_rfl

theorem rampChannels {s : State} (h : s.Sound) (l : LaneNo) : (rampChannels l s).Sound := by
  refine h.mapChannels fun c hc => ?_
  split
  · exact h.kin_of_state hc rfl rfl rfl rfl le_rfl
  · exact h.kin_of_state hc rfl rfl rfl rfl le_rfl

/-- R108: a channel that lost its final turn is RUNNING, as it was DRAINING. -/
theorem loseFinal_kin {s : State} (h : s.Sound) {c : Channel} (hc : c ∈ s.channels) (hdraining : c.state = .draining) :
    c.Kin c.loseFinal :=
  ⟨rfl, rfl, rfl, by simp [Channel.live, Channel.loseFinal, hdraining], h.records.carried c hc⟩

theorem unwindRounds {s : State} (h : s.Sound) (l : LaneNo) (pn : PlanNo) : (unwindRounds l pn s).Sound := by
  refine h.mapChannels fun c hc => ?_
  split
  · next hfinal =>
    refine h.loseFinal_kin hc ?_
    simp only [Channel.finalIn, Bool.and_eq_true, beq_iff_eq] at hfinal
    exact hfinal.1.1
  · exact h.kin_of_state hc rfl rfl rfl rfl le_rfl

theorem unwindCadence {s : State} (h : s.Sound) (tag : Nat) (t : Turn) : (unwindCadence tag t s).Sound := by
  rw [Machine.unwindCadence]
  split
  · refine h.modChannel fun c hc _ => ?_
    split
    · rw [Channel.unwind]
      split
      · next hfinal => exact h.loseFinal_kin hc hfinal.1
      · dsimp only
        split
        · next hdraining =>
          refine ⟨rfl, rfl, rfl, ?_, h.records.carried c hc⟩
          have hdraining : c.state = .draining := hdraining
          simp [Channel.live, hdraining]
        · exact h.kin_of_state hc rfl rfl rfl rfl le_rfl
    · exact h.kin_of_state hc rfl rfl rfl rfl le_rfl
  · exact h

end State.Sound

end Sys2Proof.Machine
end

section
/-! PROOF. Safety under unwinding, and of a lane that enters RAMP or goes DARK (1.5, 2.8, 9.4). -/

namespace Sys2Proof.Machine

namespace State.Sound

/-- The whole table changes in what names, families, rings and ranges do not depend on. -/
theorem mapTable_kept {s : State} (h : s.Sound) {f : Stream → Stream}
    (hf : ∀ e, e.Kin (f e) ∧ (f e).served = e.served ∧ (f e).cls = e.cls ∧ (f e).demand = e.demand ∧ (f e).deficit = e.deficit ∧
      (f e).quantum = e.quantum ∧ (f e).turns = e.turns) : ({ s with table := s.table.map f } : State).Sound :=
  h.mapTable (fun e _ => (hf e).1) fun e he => by
    obtain ⟨-, hserved, hcls, hdemand, hdeficit, hquantum, hturns⟩ := hf e
    have hr := h.streams.range e he
    exact .of_same hr hserved hcls hdemand hdeficit hquantum (hturns ▸ hr.turns) (by rw [Stream.dataEntries, hturns]; exact hr.data)

theorem clearProbe {s : State} (h : s.Sound) (n : Nat) : (clearProbe n s).Sound := h.modAlignment n _

theorem unwindProbe {s : State} (h : s.Sound) (n : Nat) (t : Turn) : (unwindProbe n t s).Sound := by
  rw [Machine.unwindProbe]
  split
  · split
    · exact h.clearProbe n
    · exact h
  · exact h

/-- R16: the unwinding of a placed turn keeps the chip safe. -/
theorem unwindTurn {s : State} (h : s.Sound) (l : LaneNo) (pn : PlanNo) (planStart : Slice) (t : PlanTurn) :
    (unwindTurn l pn planStart t s).Sound := by
  rw [Machine.unwindTurn]
  split
  · next e _ =>
    split
    · next x _ =>
      have hdropped := h.dropTurn e.entry l x.start
      refine State.Sound.tryFree ?_ e.entry
      split
      · exact hdropped.restore _ _
      · exact hdropped.unwindCadence _ _
      · exact hdropped.unwindProbe _ _
      · exact hdropped
    · exact h
  · exact h

theorem unwindTurns {s : State} (h : s.Sound) (l : LaneNo) (pn : PlanNo) (planStart : Slice) (turns : List PlanTurn) :
    (unwindTurns l pn planStart turns s).Sound :=
  (State.Sound.foldl (fun _ t hs => hs.unwindTurn l pn planStart t) turns h).unwindRounds l pn

theorem unwindPlan {s : State} (h : s.Sound) (l : LaneNo) (p : Plan) : (unwindPlan l p s).Sound := h.unwindTurns ..

/-- The output queue of a lane is emptied. -/
theorem noPlan {s : State} (h : s.Sound) (l : LaneNo) : (Machine.modLane l (fun L => { L with outQueue := none }) s).Sound :=
  h.modLane { h.chip.lane l with plan := fun p hp => by cases hp } rfl

theorem lapsePlan {s : State} (h : s.Sound) (l : LaneNo) : (lapsePlan l s).Sound := by
  rw [Machine.lapsePlan]
  split
  · exact ((h.noPlan l).unwindPlan l _).setFlag l _
  · exact h

theorem withdrawPlan {s : State} (h : s.Sound) (l : LaneNo) : (withdrawPlan l s).Sound := by
  rw [Machine.withdrawPlan]
  split
  · exact (h.noPlan l).unwindPlan l _
  · exact h

/-- The builder is free. -/
theorem noBuild {s : State} (h : s.Sound) : ({ s with builder := none } : State).Sound :=
  h.of_chip ⟨h.chip.status, h.chip.bus, fun k => (h.chip.lane k).of_same rfl rfl, fun b hb => by cases hb⟩
    rfl rfl rfl rfl rfl rfl rfl fun _ => rfl

theorem abandonBuild {s : State} (h : s.Sound) (l : LaneNo) : (abandonBuild l s).Sound := by
  rw [Machine.abandonBuild]
  split
  · exact h.noBuild.unwindTurns ..
  · exact h

theorem darkPlans {s : State} (h : s.Sound) (l : LaneNo) : (darkPlans l s).Sound := by
  have habandoned := h.abandonBuild l
  refine State.Sound.withdrawPlan (habandoned.modLane ?_ rfl) l
  exact { habandoned.chip.lane l with loading := fun hload => ⟨((habandoned.chip.lane l).loading hload).1, rfl⟩ }

theorem purgeTurn {s : State} (h : s.Sound) (n : Nat) (t : Turn) : (purgeTurn n t s).Sound := by
  rw [Machine.purgeTurn]
  split
  · exact (h.dropTurn n t.lane t.start).restore n t.payload
  · exact h.dropTurn n t.lane t.start

theorem dropHolds {s : State} (h : s.Sound) (l : LaneNo) : (dropHolds l s).Sound :=
  h.mapTable_kept fun _ => ⟨.of_same rfl rfl rfl rfl rfl rfl, rfl, rfl, rfl, rfl, rfl, rfl⟩

/-- R38: the turns and hold-untils of a dark lane go. -/
theorem darkTurns {s : State} (h : s.Sound) (l : LaneNo) : (darkTurns l s).Sound := by
  have hpurged : (s.table.foldl (purgeStream l) s).Sound :=
    State.Sound.foldl (fun _ e hs => State.Sound.foldl (fun _ t hu => hu.purgeTurn e.entry t) _ hs) s.table h
  exact State.Sound.foldl (fun _ e hs => hs.tryFree e.entry) _ (hpurged.dropHolds l)

/-- The provisional list of a lane is no part of safety. -/
theorem modProvisional {s : State} (h : s.Sound) (l : LaneNo) (f : List Nat → List Nat) :
    (Machine.modLane l (fun L => { L with provisional := f L.provisional }) s).Sound :=
  h.modLane { h.chip.lane l with } rfl

/-- R127: corrections, probes out and provisional stations of a dark lane go. -/
theorem darkStations {s : State} (h : s.Sound) (l : LaneNo) : (darkStations l s).Sound := by
  have hcleared : (Machine.modLane l (fun L => { L with corrections := [] }) s).Sound :=
    h.modLane { h.chip.lane l with corrections := List.nodup_nil } rfl
  have hprobes := hcleared.mapTable_kept (f := fun e =>
    if e.homedOn l then { e with alignment := e.alignment.map fun a => { a with probeOut := none } } else e) fun e => by
      split
      · exact ⟨.of_same rfl rfl rfl rfl rfl rfl, rfl, rfl, rfl, rfl, rfl, rfl⟩
      · exact ⟨.refl e, rfl, rfl, rfl, rfl, rfl, rfl⟩
  refine State.Sound.modProvisional (State.Sound.foldl (fun u t hu => ?_) _ hprobes) l fun _ => []
  split
  · next e _ =>
    refine State.Sound.retireWithChildren ?_ .laneDown e.entry
    split
    · exact hu.queueStatus _
    · exact hu
  · exact hu

/-- R165: a lane goes DARK. -/
theorem goDark {s : State} (h : s.Sound) (l : LaneNo) (cause : LaneCause) : (goDark l cause s).Sound := by
  have hdark : (Machine.modHealth l Health.darkened (darkMessage l cause s)).Sound := by
    rw [darkMessage, modHealth_queueStatus]
    refine State.Sound.queueStatus ?_ _
    have hone : Machine.modHealth l Health.darkened (Machine.modHealth l (fun h => { h with state := .dark }) s) =
        Machine.modHealth l (fun h => Health.darkened { h with state := .dark }) s := modLane_modLane l _ _ s
    rw [hone]
    exact h.modHealth ⟨Nat.zero_le _, .inr rfl⟩ (h.chip.lane l).pairs fun _ => rfl
  have hplans := (hdark.offerLane l).darkPlans l
  have hempty := hplans.modLane (l := l) (f := fun L => { L with fifo := [] })
    { hplans.chip.lane l with fifo := Nat.zero_le _ } rfl
  exact ((hempty.darkTurns l).darkStations l).darkChannels l

theorem rampMaintenance {s : State} (h : s.Sound) (l : LaneNo) : (rampMaintenance l s).Sound :=
  h.mapTable_kept fun e => by
    split
    · exact ⟨.of_same rfl rfl rfl rfl rfl rfl, rfl, rfl, rfl, rfl, rfl, rfl⟩
    · exact ⟨.refl e, rfl, rfl, rfl, rfl, rfl, rfl⟩

/-- R164: a lane enters RAMP, past the boot read. -/
theorem enterRamp {s : State} (h : s.Sound) (hready : s.boot.startup ≠ .loading) (l : LaneNo) (cause : LaneCause) :
    (enterRamp l cause s).Sound := by
  have hramp : (Machine.modHealth l (fun h => { h with state := .ramp, floor := 0, goodProbes := 0, rampBuilds := 0 }) s).Sound :=
    h.modHealth ⟨Nat.zero_le _, .inr rfl⟩ (h.chip.lane l).pairs fun hload => absurd hload hready
  have hboot : (Machine.announceState l cause
      (Machine.modHealth l (fun h => { h with state := .ramp, floor := 0, goodProbes := 0, rampBuilds := 0 }) s)).boot = s.boot := by
    rw [Machine.announceState, offerLane_boot, queueStatus_boot]
    rfl
  rw [Machine.enterRamp]
  have hannounced := hramp.announceState l cause
  generalize Machine.announceState l cause _ = u at hannounced hboot ⊢
  refine State.Sound.rampChannels (State.Sound.rampMaintenance (hannounced.modLane ?_ rfl) l) l
  exact { hannounced.chip.lane l with loading := fun hload => absurd (hboot ▸ hload) hready }

theorem carrierChange {s : State} (h : s.Sound) (hready : s.boot.startup ≠ .loading) (l : LaneNo) (c : Carrier) :
    (carrierChange l c s).Sound := by
  have hcarrier : (Machine.modHealth l (fun h => { h with carrier := c }) s).Sound := h.modHealth_same rfl rfl rfl rfl
  simp only [Machine.carrierChange]
  split
  · split
    · exact hcarrier.enterRamp hready l _
    · exact hcarrier
  · exact hcarrier.goDark l _
  · exact hcarrier.goDark l _
  · exact hcarrier

theorem laneUp {s : State} (h : s.Sound) (hready : s.boot.startup ≠ .loading) (l : LaneNo) (weight : Nat) :
    (laneUp l weight s).Sound := by
  have hup : (Machine.modHealth l (fun h => { h with enable := true, weight := if weight = 0 then h.weight else weight }) s).Sound :=
    h.modHealth_same rfl rfl rfl rfl
  rw [Machine.laneUp]
  split
  · exact hup.enterRamp hready l _
  · split
    · exact hup.offerLane l
    · exact hup

theorem laneDown {s : State} (h : s.Sound) (l : LaneNo) : (laneDown l s).Sound := by
  have hdown : (Machine.modHealth l (fun h => { h with enable := false }) s).Sound := h.modHealth_same rfl rfl rfl rfl
  rw [Machine.laneDown]
  split
  · exact hdown
  · exact hdown.goDark l _

theorem failRamp {s : State} (h : s.Sound) (l : LaneNo) : (failRamp l s).Sound :=
  State.Sound.goDark ((h.setFlag l _).modHealth_same rfl rfl rfl rfl) l _

end State.Sound

end Sys2Proof.Machine
end

section
/-! PROOF. Safety under joining, alignment and probe results (7). -/

namespace Sys2Proof.Machine

/-- A station that is not served has no deficit: it is in no ring (R31). -/
theorem State.Sound.deficit_of_unserved {s : State} (h : s.Sound) {e : Stream} (he : e ∈ s.table) (hs : e.served = false) :
    e.deficit = 0 := by
  obtain ⟨hdeficit, hmember⟩ := h.streams.follows e he (by simp)
  refine hdeficit.resolve_left fun hin => ?_
  obtain ⟨k, i, hki⟩ := (State.inSomeRing_iff _ _).1 hin
  have hmeets := (hmember k i).1 hki
  simp [State.meetsRing, hs] at hmeets

/-- A PROVISIONAL entry is a station, and has an address. -/
theorem State.Sound.address_of_provisional {s : State} (h : s.Sound) {e : Stream} (he : e ∈ s.table) (hs : e.state = .provisional) :
    e.address.isSome = true := by
  have hfamily := h.records.family e he
  rw [← hfamily.address]
  by_contra hst
  obtain hstate | hstate := (hfamily.parent (by simpa using hst)).1 <;> simp [hs] at hstate

namespace State.Sound

/-- R122: a PROVISIONAL station becomes BASIC, in default service. -/
theorem completeAlignment {s : State} (h : s.Sound) {e d : Stream} (l : LaneNo) (hd : s.entry? e.entry = some d)
    (hprovisional : d.state = .provisional) (hhome : d.isSpread = false) : (completeAlignment e l s).Sound := by
  have hlist := h.modProvisional l fun ts => ts.filter fun t => t != e.tag
  have hone : ∀ x ∈ s.table, x.entry = e.entry → x = d := fun x hx hxe =>
    Option.some.inj ((h.records.entry?_eq_some.2 ⟨hx, hxe⟩).symm.trans hd)
  have hdmem := mem_of_entry? hd
  have hunserved : d.served = false := by simp [Stream.served, hprovisional]
  have haligned : ∀ p : Params, (Machine.updateEntry e.entry (Stream.aligned p l)
      (Machine.modLane l (fun L => { L with provisional := L.provisional.filter fun t => t != e.tag }) s)).Sound := fun p => by
    refine hlist.updateEntry (fun x hx hxe => ?_) fun x hx hxe => ?_
    · rw [hone x hx hxe]
      exact ⟨rfl, rfl, rfl, rfl, rfl, .inr ⟨h.address_of_provisional hdmem hprovisional, by simp [hprovisional], rfl, .inr hhome⟩⟩
    · rw [hone x hx hxe]
      have hr := h.streams.range d hdmem
      refine { hr with deficit := ?_ }
      show d.deficit ≤ _
      rw [h.deficit_of_unserved hdmem hunserved]
      exact Nat.zero_le _
  rw [Machine.completeAlignment]
  split
  · exact (haligned _).queueStatus _
  · exact haligned _

theorem failAlignment {s : State} (h : s.Sound) (e : Stream) (l : LaneNo) (cause : JoinFail) : (failAlignment e l cause s).Sound := by
  rw [Machine.failAlignment]
  refine State.Sound.retireWithChildren ?_ _ _
  split
  · exact (h.queueCorrection l _).queueStatus _
  · exact h.queueCorrection l _

theorem loseStation {s : State} (h : s.Sound) (e : Stream) (l : LaneNo) : (loseStation e l s).Sound :=
  ((h.queueCorrection l _).queueStatus _).retireWithChildren _ _

/-- R120: a GOOD result of a PROVISIONAL station. -/
theorem provisionalGood {s : State} (h : s.Sound) {e : Stream} (l : LaneNo) (timing power : Int) (he : s.entry? e.entry = some e)
    (hprovisional : e.state = .provisional) (hhome : e.isSpread = false) : (provisionalGood e l timing power s).Sound := by
  rw [Machine.provisionalGood]
  generalize hf : (fun a : Alignment => ({ a with attempts := _, emptyRun := 0, lastTiming := timing, lastPower := power } : Alignment)) = f
  have hreported := (h.modAlignment e.entry f).reportProbe l
  have hentry : (Machine.reportProbe l (Machine.modAlignment e.entry f s)).entry? e.entry =
      some { e with alignment := e.alignment.map f } := by
    rw [reportProbe_entry, (modAlignment_at f he).1]
  split
  · exact (hreported.queueCorrection l _).completeAlignment l hentry hprovisional hhome
  · split
    · exact hreported.queueCorrection l _
    · exact hreported.failAlignment e l _

theorem provisionalMissed {s : State} (h : s.Sound) (e : Stream) (l : LaneNo) (empty : Bool) : (provisionalMissed e l empty s).Sound := by
  rw [Machine.provisionalMissed]
  generalize (if empty then (e.alignment.map (·.emptyRun)).getD 0 + 1 else 0) = run
  split
  · exact (h.modAlignment e.entry _).failAlignment e l _
  · split
    · exact (h.modAlignment e.entry _).failAlignment e l _
    · exact h.modAlignment e.entry _

theorem maintenanceGood {s : State} (h : s.Sound) (e : Stream) (l : LaneNo) (timing power : Int) :
    (maintenanceGood e l timing power s).Sound := by
  rw [Machine.maintenanceGood]
  refine State.Sound.reportProbe ?_ l
  split
  · exact h.modAlignment e.entry _
  · exact (h.modAlignment e.entry _).queueCorrection l _

theorem maintenanceMissed {s : State} (h : s.Sound) (e : Stream) (l : LaneNo) : (maintenanceMissed e l s).Sound := by
  rw [Machine.maintenanceMissed]
  split
  · exact (h.modAlignment e.entry _).loseStation e l
  · exact h.modAlignment e.entry _

/-- R120, R121, R125: a probe result. -/
theorem applyProbe {s : State} (h : s.Sound) (n : Nat) (r : BurstResult) (timing power : Int) : (applyProbe n r timing power s).Sound := by
  rw [Machine.applyProbe]
  split
  · next e he =>
    have hself : s.entry? e.entry = some e := by rw [entry?_number he]; exact he
    split
    · next l hhome hstate => exact h.provisionalGood l timing power hself hstate (by simp [Stream.isSpread, hhome])
    · exact h.provisionalMissed e _ true
    · exact h.provisionalMissed e _ false
    · exact h.maintenanceGood e _ timing power
    · exact h.maintenanceGood e _ timing power
    · exact h.maintenanceMissed e _
    · exact h.maintenanceMissed e _
    · exact h.modAlignment e.entry _
    · exact h.modAlignment e.entry _
    · exact h
  · exact h

theorem probeResult {s : State} (h : s.Sound) (n : Nat) (l : LaneNo) (start : Slice) (r : BurstResult) (timing power : Int) :
    (probeResult n l start r timing power s).Sound := by
  rw [Machine.probeResult]
  split
  · split
    · exact (h.clearProbe n).applyProbe n r timing power
    · exact h
  · exact h

theorem probeDeadlineStep {s : State} (h : s.Sound) (n : Nat) : (probeDeadlineStep n s).Sound := by
  rw [Machine.probeDeadlineStep]
  split
  · exact (h.clearProbe n).applyProbe n _ _ _
  · exact h

/-! ### New stations (R115, R116) -/

end State.Sound

/-- An entry that needs no view leaves the views sound. -/
theorem Entered.views {e : Stream} {s t : State} (h : Entered e s t) (hv : s.ViewsSound) (hviews : t.views = s.views)
    (hnone : e.isSpread = false ∨ e.served = false) : t.ViewsSound where
  indexes := hviews ▸ hv.indexes
  view := hviews ▸ hv.view
  owner v hvm := by
    obtain ⟨d, hd, hrest⟩ := hv.owner v (hviews ▸ hvm)
    exact ⟨d, h.mem.2 (.inr hd), hrest⟩
  viewed d hd hsp hs := by
    obtain rfl | hd := h.mem.1 hd
    · simp [hsp, hs] at hnone
    · rw [State.viewOf, hviews]
      exact hv.viewed d hd hsp hs

namespace State.Sound

/-- In a safe state the station index names no address of an entry that is FREE. -/
theorem lookupAddress_eq_none {s : State} (h : s.Sound) {a : BitVec 48} (hnone : (s.lookupAddress a).bind s.entry? = none) :
    s.lookupAddress a = none := by
  cases ha : s.lookupAddress a with
  | none => rfl
  | some n =>
    obtain ⟨p, hp, rfl⟩ := Option.map_eq_some_iff.1 ha
    obtain ⟨e, he, hen, -⟩ := h.records.indexed p (List.mem_of_find?_eq_some hp)
    rw [ha, Option.bind_some, h.records.entry?_eq_some.2 ⟨he, hen⟩] at hnone
    cases hnone

/-- R24, R115: a new PROVISIONAL station. -/
theorem newStation {s : State} (h : s.Sound) {a : BitVec 48} {tag n : Nat} (hnew : s.lookupAddress a = none) (htag : tag ∈ s.pool)
    (hfree : s.entry? n = none) (l : LaneNo) (timing power : Int) :
    (addAddress a n (addEntry (Stream.newStation n tag s.params.quantum a l timing power)
      { s with pool := s.pool.filter fun t => t != tag })).Sound := by
  set e := Stream.newStation n tag s.params.quantum a l timing power with he
  set t := addAddress a n (addEntry e { s with pool := s.pool.filter fun t => t != tag }) with ht
  have hunmapped := (h.records.pool tag htag).2
  have hentered : Entered e s t := ⟨hfree, hunmapped, rfl, rfl⟩
  have hstation : e.isStation = true := by simp [he, Stream.isStation, Stream.newStation]
  have habsent : ∀ p ∈ s.stationIndex, p.1 ≠ a := fun p hp => by
    have := List.find?_eq_none.1 (Option.map_eq_none_iff.1 hnew) p hp
    simpa using this
  have hindex : t.stationIndex = s.stationIndex ++ [(a, n)] := by
    show (s.stationIndex.filter fun p => p.1 != a) ++ [(a, n)] = _
    rw [List.filter_eq_self.2 fun p hp => by simpa using habsent p hp]
  refine ⟨h.chip.of_same rfl rfl rfl h.chip.status rfl, ⟨hentered.names h.records.toNamesSound ?family ?addresses ?indexed ?known
    ?others ?pool fun _ => (h.records.pool tag htag).1, hentered.channels h.records.toChannelsSound rfl,
    hentered.views h.records.toViewsSound rfl (.inr rfl)⟩,
    hentered.streams h.streams (fun _ => rfl) rfl (fun _ _ => rfl) ⟨Nat.zero_le _, Nat.zero_le _, Nat.zero_le _, Nat.zero_le _⟩ rfl
      fun _ _ => rfl⟩
  case family => exact ⟨hstation, fun hst => by simp [hstation] at hst⟩
  case addresses =>
    rw [hindex, List.map_append]
    exact h.records.addresses.append (List.nodup_singleton a) (by simpa using fun m hm => habsent (a, m) hm rfl)
  case indexed =>
    intro x hx
    rw [hindex] at hx
    obtain hx | hx := List.mem_append.1 hx
    · exact .inl hx
    · obtain rfl := List.mem_singleton.1 hx
      exact .inr ⟨rfl, hstation, by simp [he, Stream.newStation], rfl⟩
  case known =>
    intro b hb _ _
    obtain rfl : a = b := Option.some.inj hb
    rw [State.lookupAddress, hindex, List.find?_append, Option.map_eq_none_iff.1 hnew]
    simp [he, Stream.newStation]
  case others =>
    intro d _ b _ hb
    obtain ⟨p, hp, hpd⟩ := Option.map_eq_some_iff.1 hb
    rw [State.lookupAddress, hindex, List.find?_append, hp]
    exact congrArg some hpd
  case pool =>
    intro x hx
    obtain ⟨hmem, hne⟩ := List.mem_filter.1 hx
    exact ⟨hmem, bne_iff_ne.1 hne⟩

/-- R115: an arrival of an unknown address. -/
theorem joinUnknown {s : State} (h : s.Sound) {a : BitVec 48} (hnew : s.lookupAddress a = none) (l : LaneNo) (timing power : Int)
    (replaced : Option Nat) : (joinUnknown l a timing power replaced s).Sound := by
  rw [Machine.joinUnknown]
  split
  · next tag n htag hn =>
    have hstation := h.newStation hnew (qualifyingTag_spec htag).1 (lowestFree_spec hn).1 l timing power
    exact (hstation.modProvisional l fun ts => ts ++ [tag]).queueCorrection l _
  · exact h.queueStatus _

/-- R36, R116: the address of a retired station is no longer known. -/
theorem lookupAddress_retired {s : State} (h : s.Sound) {a : BitVec 48} {old : Stream}
    (hold : (s.lookupAddress a).bind s.entry? = some old) (cause : RetireCause) :
    (Machine.retireWithChildren cause old.entry s).lookupAddress a = none := by
  obtain ⟨n, hn, hentry⟩ := Option.bind_eq_some_iff.1 hold
  obtain rfl : old.entry = n := entry?_number hentry
  obtain ⟨p, hp, hpn⟩ := Option.map_eq_some_iff.1 hn
  have hpm := List.mem_of_find?_eq_some hp
  have hpa : p.1 = a := by simpa using List.find?_some hp
  obtain ⟨e, he, hen, hst, -⟩ := h.records.indexed p hpm
  obtain rfl : e = old := h.records.eq_of_entry he (mem_of_entry? hentry) (hen.trans hpn)
  obtain ⟨htags, hfamilies, -⟩ := (recordsSound_iff s).1 h.records
  have hindex := (retireWithChildren_retired cause htags hfamilies hentry (.inl hst)).address
  rw [if_pos hst] at hindex
  rw [State.lookupAddress, hindex, Option.map_eq_none_iff, List.find?_eq_none]
  intro q hq hqa
  obtain ⟨hqm, hqn⟩ := List.mem_filter.1 hq
  have hqp : q = p := List.inj_on_of_nodup_map h.records.addresses hqm hpm (by rw [hpa]; simpa using hqa)
  simp [hqp, hpn] at hqn

/-- R116: an arrival, of an unknown address or of the station it names. -/
theorem joinStation {s : State} (h : s.Sound) (l : LaneNo) (a : BitVec 48) (timing power : Int) :
    (joinStation l a timing power s).Sound := by
  rw [Machine.joinStation]
  split
  · next old hold =>
    have hlost := h.queueStatus (.stationLost old.tag .rejoin)
    have hknown : ((Machine.queueStatus (.stationLost old.tag .rejoin) s).lookupAddress a).bind
        (Machine.queueStatus (.stationLost old.tag .rejoin) s).entry? = some old := by
      have hentries : (Machine.queueStatus (.stationLost old.tag .rejoin) s).entry? = s.entry? :=
        funext fun m => entry?_congr (queueStatus_table _ _) m
      rw [hentries, State.lookupAddress, queueStatus_stationIndex]
      exact hold
    exact (hlost.retireWithChildren .rejoin old.entry).joinUnknown (hlost.lookupAddress_retired hknown .rejoin) l timing power _
  · next hnone => exact h.joinUnknown (h.lookupAddress_eq_none hnone) l timing power none

end State.Sound

end Sys2Proof.Machine
end

section
/-! PROOF. Safety under takes, records and expiries (1.5, 3, 6.6). -/

namespace Sys2Proof.Machine

namespace State.Sound

/-! ### Outcomes and rounds of channels -/

theorem cadenceOutcome {s : State} (h : s.Sound) (tag : Nat) (t : Turn) (r : BurstResult) : (cadenceOutcome tag t r s).Sound := by
  rw [Machine.cadenceOutcome]
  split
  · next c hfound =>
    obtain ⟨k, -, hk⟩ := Option.bind_eq_some_iff.1 hfound
    have hc : c ∈ s.channels := List.mem_of_find?_eq_some hk
    split
    · split
      · exact h.modChannel fun x hx _ => h.kin_of_state hx rfl rfl rfl rfl le_rfl
      · have hcounted : (Machine.modChannel c.number (fun _ => { c with unused := satAdd 255 c.unused 1 }) s).Sound :=
          h.modChannel fun x hx hxn => by
            rw [h.records.eq_of_number hx hc hxn]
            exact h.kin_of_state hc rfl rfl rfl rfl le_rfl
        dsimp only
        split
        · refine hcounted.endChannel (c₀ := { c with unused := satAdd 255 c.unused 1 }) ?_ rfl rfl rfl rfl _
          exact List.mem_map.2 ⟨c, hc, if_pos (by simp)⟩
        · exact hcounted
      · exact h
    · exact h
  · exact h

/-- R106: the end of the round of a DRAINING channel. -/
theorem endRound {s : State} (h : s.Sound) {c : Channel} (hc : c ∈ s.channels) (hdraining : c.state = .draining) :
    (endRound c s).Sound := by
  rw [Machine.endRound]
  split
  · exact h.endChannel (c := { c with finalMark := none }) hc rfl rfl rfl rfl _
  · have hqueued := h.queueStatus (.cadenceEnded c.number c.tag .count)
    refine hqueued.modChannel fun x hx hxn => ?_
    rw [queueStatus_channels] at hx
    rw [h.records.eq_of_number hx hc hxn, Channel.reloaded]
    split
    · exact ⟨rfl, rfl, rfl, by simp [Channel.live, hdraining], h.records.carried c hc⟩
    · exact h.kin_of_state hc rfl rfl rfl rfl le_rfl

theorem foldl_endRound {ends : List Channel} {s : State} (h : s.Sound) (hends : RoundsEnd ends s) :
    (ends.foldl (fun s c => Machine.endRound c s) s).Sound := by
  induction ends generalizing s with
  | nil => exact h
  | cons c ends ih =>
    obtain ⟨hc, hdraining⟩ := hends.held c List.mem_cons_self
    exact ih (h.endRound hc hdraining) hends.next.1

/-- R99: the DRAINING channels that a plan ends are of different tags. -/
theorem roundsEnd {s : State} (h : s.Sound) (l : LaneNo) (pn : PlanNo) : RoundsEnd (s.channels.filter fun c => c.finalIn l pn) s := by
  have hfinal : ∀ c ∈ s.channels.filter (fun c => c.finalIn l pn), c ∈ s.channels ∧ c.state = .draining ∧ c.lane = l := by
    intro c hc
    obtain ⟨hmem, hf⟩ := List.mem_filter.1 hc
    simp only [Channel.finalIn, Bool.and_eq_true, beq_iff_eq] at hf
    exact ⟨hmem, hf.1⟩
  refine ⟨h.records.numbers, fun c hc => ⟨(hfinal c hc).1, (hfinal c hc).2.1⟩, ?_⟩
  refine (h.records.single.sublist List.filter_sublist).imp_of_mem fun {c d} hc hd hno htag => hno ?_
  obtain ⟨-, hcs, hcl⟩ := hfinal c hc
  obtain ⟨-, hds, hdl⟩ := hfinal d hd
  simp [Channel.live, Channel.bound, hcs, hds, htag, hcl, hdl]

theorem endRounds {s : State} (h : s.Sound) (l : LaneNo) (pn : PlanNo) : (endRounds l pn s).Sound :=
  h.foldl_endRound (h.roundsEnd l pn)

theorem takeStep {s : State} (h : s.Sound) : (takeStep s).Sound := by
  rw [Machine.takeStep]
  split
  · rw [takePlan]
    split
    · exact (h.noPlan _).endRounds _ _
    · exact h
  · exact h

/-! ### Expiries -/

theorem handProbe {s : State} (h : s.Sound) (n : Nat) (t : Turn) (r : BurstResult) (timing power : Int) :
    (handProbe n t r timing power s).Sound := by
  rw [Machine.handProbe]
  split
  · split
    · exact h.probeResult n _ _ r timing power
    · exact h
  · exact h

theorem outcomeWaitStep {s : State} (h : s.Sound) (n : Nat) (l : LaneNo) (start : Slice) : (outcomeWaitStep n l start s).Sound := by
  rw [Machine.outcomeWaitStep]
  split
  · split
    · exact ((h.dropTurn n l start).handProbe n _ _ _ _).tryFree n
    · exact h
  · exact h

theorem admitExpiryStep {s : State} (h : s.Sound) (n : Nat) : (admitExpiryStep n s).Sound := by
  rw [Machine.admitExpiryStep]
  split
  · split
    · exact (h.queueStatus _).retireWithChildren _ n
    · exact h
  · exact h

/-! ### Arrivals -/

theorem recordArrivalStep {s : State} (h : s.Sound) (l : LaneNo) (w : LaneRecord) : (recordArrivalStep l w s).Sound := by
  rw [Machine.recordArrivalStep]
  split
  · split
    · next hroom => exact h.modLane { h.chip.lane l with fifo := by simpa using hroom } rfl
    · exact h.setFlag l _
  · exact h

/-- A lane's carrier copy at the intake is no part of safety. -/
theorem modCarrier {s : State} (h : s.Sound) (l : LaneNo) (c : Carrier) :
    (Machine.modLane l (fun L => { L with carrier := c }) s).Sound :=
  h.modLane { h.chip.lane l with } rfl

theorem carrierRecordStep {s : State} (h : s.Sound) (l : LaneNo) (w : LaneRecord) : (carrierRecordStep l w s).Sound := by
  rw [Machine.carrierRecordStep]
  split
  · rw [takeCarrier]
    split
    · exact h
    · dsimp only
      split
      · next hready => exact (h.modCarrier l _).carrierChange (fun hload => by cases hready.symm.trans hload) l _
      · exact h.modCarrier l _
  · exact h

theorem popRecord {s : State} (h : s.Sound) (l : LaneNo) : (popRecord l s).Sound :=
  h.modLane { h.chip.lane l with fifo := (List.drop_sublist 1 _).length_le.trans (h.chip.lane l).fifo } rfl

end State.Sound

/-! ### Demand reports -/

/-- Marks leave the kinds of turns. -/
theorem markStale_kinds (l : LaneNo) (carrying : Option Slice) (amount sum : Nat) (ts : List Turn) :
    (markStale l carrying amount sum ts).1.map (·.kind) = ts.map (·.kind) := by
  induction ts with
  | nil => rfl
  | cons t ts ih =>
    rw [markStale]
    split <;> simp [ih]

/-- A turn list of the same kinds is as long, with as many DATA and POLL entries. -/
theorem dataEntries_of_kinds {e d : Stream} (h : d.turns.map (·.kind) = e.turns.map (·.kind)) :
    d.turns.length = e.turns.length ∧ d.dataEntries = e.dataEntries := by
  have hcount (ts : List Turn) : (ts.filter fun t => t.kind == .data || t.kind == .poll).length =
      ((ts.map (·.kind)).filter fun k => k == .data || k == .poll).length := by
    rw [List.filter_map, List.length_map]
    rfl
  refine ⟨by simpa using congrArg List.length h, ?_⟩
  rw [Stream.dataEntries, Stream.dataEntries, hcount, hcount, h]

namespace State.Sound

/-- Runs, marks and countdowns of an entry are no part of safety. -/
theorem modRuns {s : State} (h : s.Sound) (n : Nat) {f : Stream → Stream}
    (hf : ∀ e, e.Kin (f e) ∧ (f e).served = e.served ∧ (f e).cls = e.cls ∧ (f e).demand = e.demand ∧ (f e).deficit = e.deficit ∧
      (f e).quantum = e.quantum ∧ (f e).turns = e.turns) : (Machine.modEntry n f s).Sound :=
  h.modEntry (fun e _ _ => (hf e).1) fun e he _ => by
    obtain ⟨-, hserved, hcls, hdemand, hdeficit, hquantum, hturns⟩ := hf e
    have hr := h.streams.range e he
    exact .of_same hr hserved hcls hdemand hdeficit hquantum (hturns ▸ hr.turns) (by rw [Stream.dataEntries, hturns]; exact hr.data)

theorem homeReport {s : State} (h : s.Sound) (l : LaneNo) (carrying : Option Slice) {amount : Nat} (hamount : amount ≤ Config.maxDemand)
    (e : Stream) : (homeReport l carrying amount e s).Sound := by
  refine h.updateEntry (fun d _ _ => ?_) fun d hd _ => ?_
  · split
    · exact .of_same rfl rfl rfl rfl rfl rfl
    · exact .of_same rfl rfl rfl rfl rfl rfl
  · have hr := h.streams.range d hd
    split
    · exact { hr with demand := Nat.min_le_right _ _ }
    · obtain ⟨hlength, hdata⟩ := dataEntries_of_kinds (e := d) (d := d.reported.levelReport l carrying amount)
        (markStale_kinds l carrying amount (inFlightSum l carrying d.turns) d.turns)
      exact ⟨(Nat.sub_le _ _).trans hamount, hlength.le.trans hr.turns, hdata.le.trans hr.data, hr.deficit⟩

theorem spreadReport {s : State} (h : s.Sound) (amount : Nat) (e : Stream) : (spreadReport amount e s).Sound := by
  have hreported : (Machine.modEntry e.entry Stream.reported s).Sound :=
    h.modRuns e.entry fun _ => ⟨.of_same rfl rfl rfl rfl rfl rfl, rfl, rfl, rfl, rfl, rfl, rfl⟩
  rw [Machine.spreadReport]
  generalize Machine.modEntry e.entry Stream.reported s = u at hreported ⊢
  dsimp only
  split
  · have hexpired := hreported.modView e.tag (f := fun v => { v with claims := v.unexpired u.nodeTime }) (fun _ => ⟨rfl, rfl, rfl, rfl⟩)
      fun v hv => hv.of_own rfl rfl rfl (List.length_filter_le _ _)
    exact hexpired.offerDemand _ _ _
  · exact hreported

theorem applyReport {s : State} (h : s.Sound) (l : LaneNo) (carrying : Option Slice) {amount : Nat}
    (hamount : amount ≤ Config.maxDemand) (e : Stream) : (applyReport l carrying amount e s).Sound := by
  rw [Machine.applyReport]
  split
  · exact h.setFlag l _
  · exact h
  · split
    · exact h.homeReport l carrying hamount e
    · exact h.setFlag l _
  · split
    · exact h.spreadReport amount e
    · exact h.setFlag l _

theorem demandReportStep {s : State} (h : s.Sound) (l : LaneNo) : (demandReportStep l s).Sound := by
  have hpopped := h.popRecord l
  rw [Machine.demandReportStep]
  split
  · rw [takeReport]
    split
    · exact hpopped.setFlag l _
    · split
      · exact hpopped.applyReport l _ (Nat.min_le_right _ _) _
      · exact hpopped.setFlag l _
  · exact h

/-! ### Burst outcomes -/

theorem regionOutcome {s : State} (h : s.Sound) (l : LaneNo) (tag : Nat) (r : BurstResult) : (regionOutcome l tag r s).Sound := by
  unfold Machine.regionOutcome
  split
  · split <;> exact h.modHealth_same rfl rfl rfl rfl
  · exact h.modHealth_same rfl rfl rfl rfl
  · exact h

theorem countOutcome {s : State} (h : s.Sound) (l : LaneNo) (t : Turn) (r : BurstResult) : (countOutcome l t r s).Sound := by
  unfold Machine.countOutcome
  split
  · exact h.modHealth_same rfl rfl rfl rfl
  · split
    · exact h
    · exact h.modHealth_same rfl rfl rfl rfl
  · exact h

theorem streamOutcome {s : State} (h : s.Sound) (e : Stream) (t : Turn) (r : BurstResult) : (streamOutcome e t r s).Sound := by
  unfold Machine.streamOutcome
  split
  · exact h.modRuns e.entry fun _ => ⟨.of_same rfl rfl rfl rfl rfl rfl, rfl, rfl, rfl, rfl, rfl, rfl⟩
  · split
    · refine h.modRuns e.entry fun d => ?_
      rw [Stream.noShown]
      split <;> exact ⟨.of_same rfl rfl rfl rfl rfl rfl, rfl, rfl, rfl, rfl, rfl, rfl⟩
    · exact h
  · split
    · rw [damagedData]
      split
      · refine State.Sound.restore (h.modRuns e.entry fun _ => ?_) _ _
        exact ⟨.of_same rfl rfl rfl rfl rfl rfl, rfl, rfl, rfl, rfl, rfl, rfl⟩
      · exact h
    · exact h
  · exact h

theorem handOutcome {s : State} (h : s.Sound) (e : Stream) (t : Turn) (r : BurstResult) (timing power : Int) :
    (handOutcome e t r timing power s).Sound := by
  rw [Machine.handOutcome]
  split
  · exact h.cadenceOutcome _ t r
  · exact h.handProbe _ t r timing power
  · exact h

theorem matchedOutcome {s : State} (h : s.Sound) (l : LaneNo) (e : Stream) (t : Turn) (r : BurstResult) (timing power : Int) :
    (matchedOutcome l e t r timing power s).Sound := by
  have hcounted := (h.dropTurn e.entry l t.start).countOutcome l t r
  rw [Machine.matchedOutcome]
  refine State.Sound.tryFree ?_ e.entry
  split
  · exact hcounted
  · exact (hcounted.streamOutcome e t r).handOutcome e t r timing power

theorem burstOutcomeStep {s : State} (h : s.Sound) (l : LaneNo) : (burstOutcomeStep l s).Sound := by
  have hpopped := h.popRecord l
  rw [Machine.burstOutcomeStep]
  split
  · rw [takeOutcome]
    split
    · exact hpopped.regionOutcome l _ _
    · split
      · exact hpopped.setFlag l _
      · split
        · split
          · exact hpopped.matchedOutcome l _ _ _ _ _
          · exact hpopped.setFlag l _
        · exact hpopped.setFlag l _
  · exact h

theorem unknownTypeStep {s : State} (h : s.Sound) (l : LaneNo) : (unknownTypeStep l s).Sound := by
  rw [Machine.unknownTypeStep]
  split
  · exact (h.popRecord l).setFlag l _
  · exact h

theorem joinArrivalStep {s : State} (h : s.Sound) (l : LaneNo) : (joinArrivalStep l s).Sound := by
  rw [Machine.joinArrivalStep]
  split
  · exact (h.popRecord l).joinStation l _ _ _
  · exact h

end State.Sound

end Sys2Proof.Machine
end

section
/-! PROOF. Safety on the plan timeline, but for fills and completions (1.4). -/

namespace Sys2Proof.Machine

namespace State.Sound

/-- The build state of a lane, on a chip past the boot read. -/
theorem modBuildState {s : State} (h : s.Sound) (hready : s.boot.startup ≠ .loading) (l : LaneNo) {f : Lane → Lane}
    (hf : ∀ L, f L = { L with buildState := (f L).buildState, deferred := (f L).deferred, nextPlanStart := (f L).nextPlanStart }) :
    (Machine.modLane l f s).Sound := by
  refine h.modLane ?_ (by rw [hf])
  rw [hf]
  exact { h.chip.lane l with loading := fun hload => absurd hload hready }

/-- A lane with a build waiting or under way is past the boot read. -/
theorem not_loading_of_build {s : State} (h : s.Sound) {l : LaneNo} (hl : (s.lane l).buildState ≠ .idle) : s.boot.startup ≠ .loading :=
  fun hload => hl ((h.chip.lane l).loading hload).2

theorem buildPointStep {s : State} (h : s.Sound) (l : LaneNo) : (buildPointStep l s).Sound := by
  rw [Machine.buildPointStep]
  split
  · next hdue =>
    simp only [State.buildPointDue, Bool.and_eq_true, bne_iff_ne] at hdue
    exact h.modBuildState (h.not_loading hdue.1.2) l fun _ => rfl
  · split
    · next hdue =>
      simp only [State.deferralDue, Bool.and_eq_true, beq_iff_eq] at hdue
      exact h.modBuildState (h.not_loading_of_build (l := l) (by simp [hdue.1.1])) l fun _ => rfl
    · exact h

theorem cutDeadlineStep {s : State} (h : s.Sound) (l : LaneNo) : (cutDeadlineStep l s).Sound := by
  rw [Machine.cutDeadlineStep]
  split
  · next hdue =>
    simp only [State.cutDue, Bool.and_eq_true, beq_iff_eq] at hdue
    have hready := h.not_loading_of_build (l := l) (by simp [hdue.1])
    rw [skipInterval]
    split
    · exact ((h.modBuildState hready l fun _ => rfl).missInterval l _).setFlag l _
    · exact h
  · exact h

theorem marginPointStep {s : State} (h : s.Sound) (l : LaneNo) : (marginPointStep l s).Sound := by
  rw [Machine.marginPointStep]
  split
  · exact h.lapsePlan l
  · split
    · exact h.modBuild_same fun _ => ⟨rfl, rfl⟩
    · exact h

/-- R6, R7: a build starts with one gap, the whole interval. -/
theorem startBuild {s : State} (h : s.Sound) {l : LaneNo} (hpending : (s.lane l).buildState = .pending) (start : Slice) :
    (startBuild l start s).Sound := by
  have hready := h.not_loading_of_build (l := l) (by simp [hpending])
  have hbuilt : ({ s with builder := some (s.newBuild l start) } : State).Sound := by
    refine h.of_chip ⟨h.chip.status, h.chip.bus, fun k => (h.chip.lane k).of_same rfl rfl, fun b hb => ?_⟩
      rfl rfl rfl rfl rfl rfl rfl fun _ => rfl
    obtain rfl := Option.some.inj hb
    exact ⟨by simp [Build.ok, spansOk, State.newBuild, Gap.span, State.params], hready⟩
  have hbuilding := hbuilt.modBuildState hready l (f := fun L => { L with buildState := .building }) fun _ => rfl
  rw [Machine.startBuild]
  split
  · exact hbuilding.missInterval l start
  · exact hbuilding

theorem buildStartStep {s : State} (h : s.Sound) : (buildStartStep s).Sound := by
  rw [Machine.buildStartStep]
  split
  · exact h
  · split
    · next l hl =>
      split
      · refine h.startBuild ?_ _
        have := (List.mem_filter.1 (leastBy_mem hl)).2
        simpa using this
      · exact h
    · exact h

/-! ### Offers of the builder -/

theorem offerClaim {s : State} (h : s.Sound) (tag : Nat) (epoch : BitVec 8) (n : NodeLane) (bytes : Nat) (endTick : Tick) :
    (offerClaim tag epoch n bytes endTick s).Sound :=
  h.of_chip (h.chip.offerClaim tag epoch n bytes endTick) (offerClaim_table ..) (offerClaim_tagMap ..)
    (offerClaim_stationIndex ..) (offerClaim_pool ..) (offerClaim_channels ..) (offerClaim_views ..) (offerClaim_boot ..)
    fun k => by rw [(offerClaim_offers tag epoch n bytes endTick s).lanes k]

/-- Nothing that safety asks for changes. -/
theorem of_same {s t : State} (h : s.Sound) (hboot : t.boot = s.boot) (hbus : t.bus = s.bus) (hbuild : t.builder = s.builder)
    (hport : t.port = s.port) (hlanes : t.lanes = s.lanes) (htable : t.table = s.table) (htag : t.tagMap = s.tagMap)
    (hindex : t.stationIndex = s.stationIndex) (hpool : t.pool = s.pool) (hchan : t.channels = s.channels)
    (hviews : t.views = s.views) : t.Sound :=
  h.of_chip (h.chip.of_same hboot hbus hbuild (hport ▸ h.chip.status) hlanes) htable htag hindex hpool hchan hviews hboot
    fun k => by rw [State.lane, State.lane]; simp only [hlanes]

/-- R154: a RELEASE is offered, and the wait is served. -/
theorem releaseWaitStep {s : State} (h : s.Sound) (i : Nat) (l : LaneNo) : (releaseWaitStep i l s).Sound := by
  rw [Machine.releaseWaitStep]
  split
  · have hserved : ({ s with releaseDue := s.releaseDue.filter fun d => d != (i, l) } : State).Sound :=
      h.of_same rfl rfl rfl rfl rfl rfl rfl rfl rfl rfl rfl
    generalize ({ s with releaseDue := s.releaseDue.filter fun d => d != (i, l) } : State) = u at hserved ⊢
    dsimp only
    split
    · next v _ =>
      split
      · next hdue =>
        simp only [Bool.and_eq_true] at hdue
        have hsent := hserved.modView v.tag
          (f := fun v => { v with own := v.own.map fun o => if o.lane = l then { o with sent := true } else o })
          (fun _ => ⟨rfl, rfl, rfl, rfl⟩) fun w hw => hw.of_own rfl rfl rfl le_rfl
        generalize hw : Machine.modView v.tag _ u = w at hsent ⊢
        have htakes : w.takesNotice = true := by
          rw [← hw, State.takesNotice, modView_bus]
          exact hdue.2
        refine State.Sound.pumpHolder (hsent.of_chip (hsent.chip.pushNotice htakes fun m _ => ?_) rfl rfl rfl rfl rfl rfl rfl fun _ => rfl)
        cases m <;> rfl
      · exact hserved
    · exact hserved
  · exact h

end State.Sound

end Sys2Proof.Machine
end

section
/-! PROOF. Placed turns and gaps of a build do not overlap (R73, R74). -/

namespace Sys2Proof.Machine

/-- Two runs of slices do not overlap. -/
def SpansApart (x y : Nat × Nat) : Prop := x.1 + x.2 ≤ y.1 ∨ y.1 + y.2 ≤ x.1

theorem SpansApart.symm {x y : Nat × Nat} (h : SpansApart x y) : SpansApart y x := Or.symm h

/-- The first run lies in the second. -/
def SpanWithin (x y : Nat × Nat) : Prop := y.1 ≤ x.1 ∧ x.1 + x.2 ≤ y.1 + y.2

theorem SpansApart.within {x y z : Nat × Nat} (h : SpansApart x y) (hz : SpanWithin z y) : SpansApart x z :=
  h.imp (fun hxy => hxy.trans hz.1) fun hyx => hz.2.trans hyx

theorem spansOk_iff {len : Nat} {spans : List (Nat × Nat)} :
    spansOk len spans = true ↔ (∀ x ∈ spans, x.1 + x.2 ≤ len) ∧ spans.Pairwise SpansApart := by
  simp only [spansOk, Bool.and_eq_true, List.all_eq_true, decide_eq_true_eq]
  exact Iff.rfl

/-- What `Build.ok` says, turns and gaps apart. -/
structure Build.Laid (planLength : Nat) (b : Build) : Prop where
  turns : ∀ t ∈ b.placed, t.offset + t.length ≤ planLength
  gaps : ∀ g ∈ b.gaps, g.start + g.length ≤ planLength
  turnsApart : b.placed.Pairwise fun t u => SpansApart t.span u.span
  gapsApart : b.gaps.Pairwise fun g h => SpansApart g.span h.span
  between : ∀ t ∈ b.placed, ∀ g ∈ b.gaps, SpansApart t.span g.span
  count : b.placed.length ≤ Config.planTurns

theorem Build.ok_iff {planLength : Nat} {b : Build} : b.ok planLength = true ↔ b.Laid planLength := by
  rw [Build.ok, Bool.and_eq_true, decide_eq_true_eq, spansOk_iff, List.pairwise_append, List.pairwise_map, List.pairwise_map]
  simp only [List.mem_append, List.mem_map, or_imp, forall_and, forall_exists_index, and_imp, forall_apply_eq_imp_iff₂]
  exact ⟨fun ⟨⟨⟨ht, hg⟩, hta, hga, hb⟩, hc⟩ => ⟨ht, hg, hta, hga, hb, hc⟩,
    fun ⟨ht, hg, hta, hga, hb, hc⟩ => ⟨⟨⟨ht, hg⟩, hta, hga, hb⟩, hc⟩⟩

/-- The slices from `off` on for `len` lie in the gap. -/
def Gap.covers (off len : Nat) (g : Gap) : Prop := g.start ≤ off ∧ off + len ≤ g.start + g.length

theorem Gap.within_of_mem_without {off len : Nat} {g h : Gap} (hh : h ∈ g.without off len) : SpanWithin h.span g.span := by
  rw [Gap.without] at hh
  split at hh
  · next hcov =>
    obtain ⟨hh, -⟩ := List.mem_filter.1 hh
    obtain rfl | hh := List.mem_cons.1 hh
    · simp only [SpanWithin, Gap.span]
      omega
    · obtain rfl := List.mem_singleton.1 hh
      simp only [SpanWithin, Gap.span]
      omega
  · obtain rfl := List.mem_singleton.1 hh
    exact ⟨le_rfl, le_rfl⟩

/-- What a placement leaves of the gap it was made in does not meet the placed slices. -/
theorem Gap.apart_of_covers {off len : Nat} {g h : Gap} (hcov : g.covers off len) (hh : h ∈ g.without off len) :
    SpansApart (off, len) h.span := by
  obtain ⟨hstart, hstop⟩ := hcov
  rw [Gap.without, if_pos ⟨hstart, hstop⟩] at hh
  obtain ⟨hh, -⟩ := List.mem_filter.1 hh
  obtain rfl | hh := List.mem_cons.1 hh
  · simp only [SpansApart, Gap.span]
    omega
  · obtain rfl := List.mem_singleton.1 hh
    simp only [SpansApart, Gap.span]
    omega

theorem Gap.without_pairwise (off len : Nat) (g : Gap) : (g.without off len).Pairwise fun h k => SpansApart h.span k.span := by
  rw [Gap.without]
  split
  · next hcov =>
    refine List.Pairwise.sublist List.filter_sublist (List.pairwise_pair.2 (.inl ?_))
    simp only [Gap.span]
    omega
  · exact List.pairwise_singleton ..

/-- R74: a turn placed in a gap, below the entry limit, keeps the layout. -/
theorem Build.Laid.place {planLength : Nat} {b : Build} (h : b.Laid planLength) {t : PlanTurn} {g : Gap} (hg : g ∈ b.gaps)
    (hcov : g.covers t.offset t.length) (hroom : b.full = false) :
    ({ b with gaps := takeSlices t.offset t.length b.gaps, placed := b.placed ++ [t] } : Build).Laid planLength := by
  have hwithin : SpanWithin t.span g.span := hcov
  have hpieces {k : Gap} (hk : k ∈ takeSlices t.offset t.length b.gaps) : ∃ p ∈ b.gaps, k ∈ p.without t.offset t.length :=
    List.mem_flatMap.1 hk
  have hfull : b.placed.length < Config.planTurns := by simpa [Build.full] using hroom
  -- the turn does not meet what is left of any gap
  have hleft {p k : Gap} (hp : p ∈ b.gaps) (hk : k ∈ p.without t.offset t.length) : SpansApart t.span k.span := by
    by_cases hpc : p.covers t.offset t.length
    · exact Gap.apart_of_covers hpc hk
    · have hne : p ≠ g := fun hpg => hpc (hpg ▸ hcov)
      have hsymm : Std.Symm fun a b : Gap => SpansApart a.span b.span := ⟨fun _ _ => SpansApart.symm⟩
      have hapart : SpansApart p.span g.span := h.gapsApart.forall hp hg hne
      exact (hapart.within hwithin).symm.within (Gap.within_of_mem_without hk)
  refine ⟨fun u hu => ?turns, fun k hk => ?gaps, ?turnsApart, ?gapsApart, fun u hu k hk => ?between, ?count⟩
  case turns =>
    obtain hu | hu := List.mem_append.1 hu
    · exact h.turns u hu
    · obtain rfl := List.mem_singleton.1 hu
      exact hcov.2.trans (h.gaps g hg)
  case gaps =>
    obtain ⟨p, hp, hk⟩ := hpieces hk
    exact (Gap.within_of_mem_without hk).2.trans (h.gaps p hp)
  case turnsApart =>
    refine List.pairwise_append.2 ⟨h.turnsApart, List.pairwise_singleton .., fun u hu x hx => ?_⟩
    obtain rfl := List.mem_singleton.1 hx
    exact (h.between u hu g hg).within hwithin
  case gapsApart =>
    refine List.pairwise_flatMap.2 ⟨fun p _ => p.without_pairwise _ _, h.gapsApart.imp fun {p q} hpq k hk m hm => ?_⟩
    exact (hpq.within (Gap.within_of_mem_without hm)).symm.within (Gap.within_of_mem_without hk) |>.symm
  case between =>
    obtain ⟨p, hp, hk⟩ := hpieces hk
    obtain hu | hu := List.mem_append.1 hu
    · exact (h.between u hu p hp).within (Gap.within_of_mem_without hk)
    · obtain rfl := List.mem_singleton.1 hu
      exact hleft hp hk
  case count =>
    simpa using hfull

/-- R95: the finished plan of a build. -/
theorem Build.Laid.plan_ok {planLength : Nat} {b : Build} (h : b.Laid planLength) {corrections : List Correction}
    (hcorr : corrections.length ≤ Config.planCorrections) : (b.plan planLength corrections).ok = true := by
  obtain ⟨hperm, hsorted⟩ := Build.turns_spec b
  simp only [Plan.ok, Bool.and_eq_true, decide_eq_true_eq, spansOk_iff]
  refine ⟨⟨⟨⟨fun x hx => ?_, ?_⟩, hsorted⟩, ?_⟩, hcorr⟩
  · obtain ⟨t, ht, rfl⟩ := List.mem_map.1 hx
    exact h.turns t (hperm.mem_iff.1 ht)
  · rw [List.pairwise_map]
    exact (hperm.pairwise_iff fun hxy => SpansApart.symm hxy).2 h.turnsApart
  · exact hperm.length_eq.le.trans h.count

/-- The build in flight has the turns and gaps of `b`. -/
def State.BuildsAs (s : State) (b : Build) : Prop := ∃ c, s.builder = some c ∧ c.gaps = b.gaps ∧ c.placed = b.placed

theorem State.BuildsAs.of_builder {s t : State} {b : Build} (h : s.BuildsAs b) (hbuild : t.builder = s.builder) : t.BuildsAs b := by
  rwa [State.BuildsAs, hbuild]

theorem State.BuildsAs.modBuild {s : State} {b : Build} (h : s.BuildsAs b) {f : Build → Build}
    (hf : ∀ c, (f c).gaps = c.gaps ∧ (f c).placed = c.placed) : (modBuild f s).BuildsAs b := by
  obtain ⟨c, hc, hgaps, hplaced⟩ := h
  exact ⟨f c, by simp [Machine.modBuild, hc], (hf c).1.trans hgaps, (hf c).2.trans hplaced⟩

/-- The turn list of an entry after a turn joined it (R27). -/
theorem appended_inRange {e : Stream} (hr : e.InRange) {t : Turn} {evict : Bool}
    (hroom : (evict = true ∧ t.kind ≠ .data ∧ t.kind ≠ .poll) ∨ e.listHasRoom = true) {kept : List Turn}
    (hkept : kept = if evict && decide (e.turns.length ≥ Config.turnListDepth) then e.turns.drop 1 else e.turns) :
    (kept ++ [t]).length ≤ Config.turnListDepth ∧
      ((kept ++ [t]).filter fun x => x.kind == .data || x.kind == .poll).length ≤ Config.dataDepth := by
  have hdata := hr.data
  have hturns := hr.turns
  rw [Stream.dataEntries] at hdata
  have hsub : kept.Sublist e.turns := by
    rw [hkept]
    split
    · exact List.drop_sublist ..
    · exact List.Sublist.refl _
  have hcounted := (hsub.filter fun x => x.kind == .data || x.kind == .poll).length_le
  rw [List.filter_append, List.length_append, List.length_append]
  obtain ⟨hevict, hd, hp⟩ | hlist := hroom
  · have hnone : [t].filter (fun x => x.kind == .data || x.kind == .poll) = [] := by simp [hd, hp]
    have hlength : kept.length < Config.turnListDepth := by
      rw [hkept, hevict, Bool.true_and]
      split
      · rw [List.length_drop]
        rw [Config.turnListDepth] at hturns ⊢
        omega
      · next hless => simpa using hless
    rw [hnone]
    exact ⟨hlength, hcounted.trans hdata⟩
  · simp only [Stream.listHasRoom, Bool.and_eq_true, decide_eq_true_eq] at hlist
    have hfew : (e.turns.filter fun x => x.kind == .data || x.kind == .poll).length < Config.dataDepth := hlist.2
    have hone := List.length_filter_le (fun x : Turn => x.kind == .data || x.kind == .poll) [t]
    have hlength := hsub.length_le
    rw [List.length_singleton] at hone ⊢
    omega

namespace State.Sound

theorem modBuild {s : State} (h : s.Sound) {f : Build → Build} (hf : ∀ b, s.builder = some b → (f b).ok s.params.planLength = true) :
    (modBuild f s).Sound :=
  h.of_chip (h.chip.modBuild hf) rfl rfl rfl rfl rfl rfl rfl fun _ => rfl

theorem placeRegion {s : State} (h : s.Sound) {b : Build} (hb : s.BuildsAs b) {t : PlanTurn} {g : Gap} (hg : g ∈ b.gaps)
    (hcov : g.covers t.offset t.length) (hroom : b.full = false) : (placeRegion t s).Sound := by
  refine h.modBuild fun c hc => ?_
  obtain ⟨c', hc', hgaps, hplaced⟩ := hb
  obtain rfl := Option.some.inj (hc.symm.trans hc')
  refine Build.ok_iff.2 ((Build.ok_iff.1 (h.chip.build c hc).1).place (hgaps ▸ hg) hcov ?_)
  rwa [Build.full, hplaced, ← Build.full]

/-- R27: a turn joins the tail of a turn list that has room for it, or is not counted and may have the oldest entry leave. -/
theorem appendTurn {s : State} (h : s.Sound) (n : Nat) (t : Turn) (evict : Bool)
    (hroom : (evict = true ∧ t.kind ≠ .data ∧ t.kind ≠ .poll) ∨ ∀ e ∈ s.table, e.entry = n → e.listHasRoom = true) :
    (appendTurn n t evict s).Sound := by
  refine h.modEntry (fun _ _ _ => .of_same rfl rfl rfl rfl rfl rfl) fun e he hen => ?_
  have hr := h.streams.range e he
  obtain ⟨hturns, hdata⟩ := appended_inRange hr (hroom.imp_right fun hroom => hroom e he hen) rfl
  exact .of_same hr rfl rfl rfl rfl rfl hturns hdata

end State.Sound

end Sys2Proof.Machine
end

section
/-! PROOF. Safety under the fill steps of a build (5). -/

namespace Sys2Proof.Machine

theorem Build.room_spec {b : Build} {n : Nat} {g : Gap} (h : b.room n = some g) : b.full = false ∧ g ∈ b.gaps ∧ n ≤ g.length := by
  rw [Build.room] at h
  split at h
  · cases h
  · next hroom => exact ⟨by simpa using hroom, firstGap_spec h⟩

theorem Gap.fit_covers {due : Int} {jitter len off : Nat} {g : Gap} (h : g.fit due jitter len = some off) : g.covers off len :=
  ⟨(Gap.fit_spec h).1, (Gap.fit_spec h).2.1⟩

theorem Gap.after_within {off : Nat} {g h : Gap} (hafter : g.after off = some h) : SpanWithin h.span g.span := by
  rw [Gap.after] at hafter
  split at hafter
  · cases hafter
  · split at hafter
    · obtain rfl := Option.some.inj hafter
      exact ⟨le_rfl, le_rfl⟩
    · obtain rfl := Option.some.inj hafter
      simp only [SpanWithin, Gap.span]
      omega

/-- R89: a DATA turn is placed in a part of a gap. -/
theorem dataPlace_covers {z : Sizing} {profile g start off len payload : Nat} {gaps : List Gap}
    (h : dataPlace z profile g (gaps.filterMap (Gap.after start)) = some (off, len, payload)) : ∃ k ∈ gaps, k.covers off len := by
  have hpart {k : Gap} (hk : k ∈ gaps.filterMap (Gap.after start)) {n : Nat} (hn : n ≤ k.length) :
      ∃ m ∈ gaps, m.covers k.start n := by
    obtain ⟨m, hm, hmk⟩ := List.mem_filterMap.1 hk
    obtain ⟨hstart, hstop⟩ := Gap.after_within hmk
    exact ⟨m, hm, hstart, (Nat.add_le_add_left hn _).trans hstop⟩
  rw [dataPlace] at h
  split at h
  · next k hk =>
    simp only [Option.some.injEq, Prod.mk.injEq] at h
    obtain ⟨rfl, rfl, -⟩ := h
    exact hpart (firstGap_spec hk).1 (firstGap_spec hk).2
  · obtain ⟨k, hk, heq⟩ := Option.map_eq_some_iff.1 h
    simp only [Prod.mk.injEq] at heq
    obtain ⟨rfl, rfl, -⟩ := heq
    exact hpart (List.mem_of_find?_eq_some hk) le_rfl

/-- R77: a request is that of a RUNNING channel. -/
theorem nextCadence_running {s : State} {b : Build} {r : CadenceReq} (h : s.nextCadence b = some r) :
    r.channel ∈ s.channels ∧ r.channel.state = .running := by
  have hrunning {c : Channel} (hc : c ∈ s.runningOn b.lane) : c ∈ s.channels ∧ c.state = .running := by
    obtain ⟨hmem, hp⟩ := List.mem_filter.1 hc
    simp only [Bool.and_eq_true, beq_iff_eq] at hp
    exact ⟨hmem, hp.1⟩
  have hdue (hd : s.nextDueReq b = some r) : r.channel ∈ s.channels ∧ r.channel.state = .running := by
    obtain ⟨c, hc, hcr⟩ := List.mem_filterMap.1 (leastBy_mem hd)
    split at hcr
    · split at hcr
      · obtain rfl := Option.some.inj hcr
        exact hrunning hc
      · cases hcr
    · cases hcr
  rw [State.nextCadence] at h
  split at h
  · split at h
    · exact hdue h
    · obtain hcarried | ⟨-, hd⟩ := Option.or_eq_some_iff.1 h
      · obtain ⟨c, hc, hcr⟩ := List.mem_flatMap.1 (leastBy_mem hcarried)
        obtain ⟨d, -, rfl⟩ := List.mem_map.1 hcr
        exact hrunning hc
      · exact hdue hd
  · cases h

namespace State.Sound

theorem placeTurn {s : State} (h : s.Sound) {b : Build} (hb : s.BuildsAs b) {n : Nat} {t : PlanTurn} {channel : Option Nat}
    {evict : Bool} {g : Gap} (hg : g ∈ b.gaps) (hcov : g.covers t.offset t.length) (hroom : b.full = false)
    (hlist : (evict = true ∧ t.kind ≠ .data ∧ t.kind ≠ .poll) ∨ ∀ e ∈ s.table, e.entry = n → e.listHasRoom = true) :
    (placeTurn b n t channel evict s).Sound :=
  (h.placeRegion hb hg hcov hroom).appendTurn n _ evict hlist

/-! ### Steps 1 to 5 and 7 -/

/-- R103, R104: an answered channel keeps its program, and is RUNNING or DRAINING. -/
theorem answered_kin {s : State} (h : s.Sound) {c : Channel} (hc : c ∈ s.channels) (hrunning : c.state = .running) (pn : PlanNo)
    (r : CadenceReq) (a : CadenceAnswer) (ha : a = .carried → r.carried = false ∧ c.carried.length < Config.carriedDepth) :
    c.Kin (c.answered pn r a) := by
  have hgone : c.Kin (r.gone c) ∧ (r.gone c).state = .running := by
    rw [CadenceReq.gone]
    split
    · exact ⟨h.kin_of_state hc rfl rfl rfl rfl (List.length_erase_le ..), hrunning⟩
    · exact ⟨h.kin_of_state hc rfl rfl rfl rfl le_rfl, hrunning⟩
  obtain ⟨⟨hnumber, htag, hlane, hlive, hcarried⟩, -⟩ := hgone
  have hclive : c.live = true := by simp [Channel.live, hrunning]
  cases a with
  | placed start =>
    rw [answered_placed]
    refine ⟨hnumber, htag, hlane, ?_, hcarried⟩
    rw [hclive, Channel.live_iff]
    have hstate : ∀ final : Bool, (if final then ChannelState.draining else c.state) ≠ .standby := fun final => by
      cases final <;> simp [hrunning]
    exact hstate _
  | carried =>
    rw [answered_carried pn (ha rfl).1]
    exact ⟨hnumber, htag, hlane, hlive, by simpa using (ha rfl).2⟩
  | missed =>
    rw [answered_missed]
    exact ⟨hnumber, htag, hlane, hlive, hcarried⟩

theorem answerCadence {s : State} (h : s.Sound) (b : Build) {r : CadenceReq} (hr : r.channel ∈ s.channels)
    (hrunning : r.channel.state = .running) (a : CadenceAnswer)
    (ha : a = .carried → r.carried = false ∧ r.channel.carried.length < Config.carriedDepth) : (answerCadence b r a s).Sound :=
  h.modChannel fun c hc hcn => by
    rw [h.records.eq_of_number hc hr hcn]
    exact h.answered_kin hr hrunning b.planNo r a ha

theorem serveCadence {s : State} (h : s.Sound) {b : Build} (hb : s.BuildsAs b) {r : CadenceReq} (hr : r.channel ∈ s.channels)
    (hrunning : r.channel.state = .running) (hroom : b.full = false) (e : Stream) : (serveCadence b r e s).Sound := by
  rw [Machine.serveCadence]
  dsimp only
  split
  · next off hoff =>
    obtain ⟨g, hg, hfit⟩ := List.exists_of_findSome?_eq_some hoff
    have hplaced := h.placeTurn hb (n := e.entry) (channel := some r.channel.number) (evict := true)
      (t := { tag := e.tag, kind := .cadence, offset := off,
              length := (wholeTurn (s.lane b.lane).table (e.profile b.lane) r.channel.payload).1, profile := e.profile b.lane,
              payload := (wholeTurn (s.lane b.lane).table (e.profile b.lane) r.channel.payload).2 })
      hg (Gap.fit_covers hfit) hroom (.inl ⟨rfl, TurnKind.noConfusion, TurnKind.noConfusion⟩)
    exact hplaced.answerCadence b hr hrunning _ fun hc => by cases hc
  · split
    · next hcarry => exact h.answerCadence b hr hrunning _ fun _ => ⟨by simpa using hcarry.1, hcarry.2.2⟩
    · exact h.answerCadence b hr hrunning _ fun hc => by cases hc

theorem cadenceFill {s : State} (h : s.Sound) {b : Build} (hb : s.BuildsAs b) {r : CadenceReq} (hr : r.channel ∈ s.channels)
    (hrunning : r.channel.state = .running) : (cadenceFill b r s).Sound := by
  have hmarked : (if r.carried then s else Machine.modBuild (fun b => { b with cadenceDue := true }) s).Sound ∧
      (if r.carried then s else Machine.modBuild (fun b => { b with cadenceDue := true }) s).BuildsAs b ∧
      r.channel ∈ (if r.carried then s else Machine.modBuild (fun b => { b with cadenceDue := true }) s).channels := by
    split
    · exact ⟨h, hb, hr⟩
    · exact ⟨h.modBuild_same fun _ => ⟨rfl, rfl⟩, hb.modBuild fun _ => ⟨rfl, rfl⟩, hr⟩
  rw [Machine.cadenceFill]
  generalize (if r.carried then s else Machine.modBuild (fun b => { b with cadenceDue := true }) s) = u at hmarked ⊢
  obtain ⟨hu, hbu, hru⟩ := hmarked
  have hmissed := hu.answerCadence b hru hrunning .missed fun hc => by cases hc
  split
  · exact hmissed
  · split
    · exact hmissed
    · next hroom =>
      split
      · exact hu.serveCadence hbu hru hrunning (by simpa using hroom) _
      · exact hmissed

theorem probeFill {s : State} (h : s.Sound) {b : Build} (hb : s.BuildsAs b) (tag : Nat) : (probeFill b tag s).Sound := by
  rw [Machine.probeFill]
  dsimp only
  split
  · next g e hg _ =>
    split at hg
    · cases hg
    · obtain ⟨hroom, hmem, hlen⟩ := Build.room_spec hg
      have hplaced := h.placeTurn hb (n := e.entry) (channel := none) (evict := true)
        (t := { tag := tag, kind := .probe, offset := g.start, length := s.params.probeLength, profile := 0, payload := 0 })
        hmem ⟨le_rfl, Nat.add_le_add_left hlen _⟩ hroom (.inl ⟨rfl, TurnKind.noConfusion, TurnKind.noConfusion⟩)
      refine State.Sound.modBuild_same (hplaced.modAlignment e.entry _) fun c => ?_
      rw [passProbe]
      split <;> exact ⟨rfl, rfl⟩
  · exact h.modBuild_same fun _ => ⟨rfl, rfl⟩

theorem joinFill {s : State} (h : s.Sound) {b : Build} (hb : s.BuildsAs b) : (joinFill b s).Sound := by
  have htried : (Machine.modBuild (fun b => { b with joinTried := true }) s).Sound := h.modBuild_same fun _ => ⟨rfl, rfl⟩
  have hbt : (Machine.modBuild (fun b => { b with joinTried := true }) s).BuildsAs b := hb.modBuild fun _ => ⟨rfl, rfl⟩
  rw [Machine.joinFill]
  generalize Machine.modBuild (fun b => { b with joinTried := true }) s = u at htried hbt ⊢
  dsimp only
  split
  · next g hg =>
    obtain ⟨hroom, hmem, hlen⟩ := Build.room_spec hg
    have hplaced := htried.placeRegion hbt
      (t := { tag := Config.newcomer, kind := .joinRegion, offset := g.start, length := u.params.joinLength, profile := 0, payload := 0 })
      hmem ⟨le_rfl, Nat.add_le_add_left hlen _⟩ hroom
    have hset := hplaced.modBuild_same (f := fun b => { b with joinSet := true }) fun _ => ⟨rfl, rfl⟩
    exact hset.modLane { hset.chip.lane b.lane with } rfl
  · exact htried

theorem openFill {s : State} (h : s.Sound) {b : Build} (hb : s.BuildsAs b) : (openFill b s).Sound := by
  have htried : (Machine.modBuild (fun b => { b with openTried := true }) s).Sound := h.modBuild_same fun _ => ⟨rfl, rfl⟩
  have hbt : (Machine.modBuild (fun b => { b with openTried := true }) s).BuildsAs b := hb.modBuild fun _ => ⟨rfl, rfl⟩
  rw [Machine.openFill]
  generalize Machine.modBuild (fun b => { b with openTried := true }) s = u at htried hbt ⊢
  split
  · next g hg =>
    obtain ⟨hroom, hmem, hlen⟩ := Build.room_spec hg
    exact htried.placeRegion hbt hmem ⟨le_rfl, Nat.add_le_add_left hlen _⟩ hroom
  · exact htried.setFlag b.lane _

theorem leftoverFill {s : State} (h : s.Sound) {b : Build} (hb : s.BuildsAs b) : (leftoverFill b s).Sound := by
  rw [Machine.leftoverFill]
  split
  · next g hg =>
    obtain ⟨hroom, hmem, -⟩ := Build.room_spec hg
    exact h.placeRegion hb hmem ⟨le_rfl, le_rfl⟩ hroom
  · exact h

theorem reloadPoll {s : State} (h : s.Sound) (n : Nat) : (reloadPoll n s).Sound := by
  refine State.Sound.modBuild_same (h.modRuns n fun e => ?_) fun _ => ⟨rfl, rfl⟩
  exact ⟨.of_same rfl rfl rfl rfl rfl rfl, rfl, rfl, rfl, rfl, rfl, rfl⟩

theorem pollFill {s : State} (h : s.Sound) {b : Build} (hb : s.BuildsAs b) {e : Stream} (he : e ∈ s.table) : (pollFill b e s).Sound := by
  have hfrom : (Machine.modBuild (fun b => { b with pollFrom := e.entry + 1 }) s).Sound := h.modBuild_same fun _ => ⟨rfl, rfl⟩
  have hbf : (Machine.modBuild (fun b => { b with pollFrom := e.entry + 1 }) s).BuildsAs b := hb.modBuild fun _ => ⟨rfl, rfl⟩
  have hef : e ∈ (Machine.modBuild (fun b => { b with pollFrom := e.entry + 1 }) s).table := he
  rw [Machine.pollFill]
  generalize Machine.modBuild (fun b => { b with pollFrom := e.entry + 1 }) s = u at hfrom hbf hef ⊢
  dsimp only
  split
  · exact hfrom.reloadPoll e.entry
  · split
    · next g hg =>
      split at hg
      · next hlist =>
        obtain ⟨hroom, hmem, hlen⟩ := Build.room_spec hg
        refine State.Sound.reloadPoll (hfrom.placeTurn hbf hmem ?_ hroom (.inr fun x hx hxe => ?_)) e.entry
        · exact ⟨le_rfl, Nat.add_le_add_left hlen _⟩
        · rw [hfrom.records.eq_of_entry hx hef hxe]
          exact hlist
      · cases hg
    · exact hfrom

end State.Sound

end Sys2Proof.Machine
end

section
/-! PROOF. Safety under the data step, and under the fills as commands (5.7, 5.8). -/

namespace Sys2Proof.Machine

theorem ringIndex_spec {cls : Nat} {i : Fin 6} (h : ringIndex cls = some i) : cls = i.val + 1 := by
  rw [ringIndex] at h
  split at h
  · obtain rfl := Option.some.inj h
    dsimp only
    omega
  · cases h

/-- The members of the rings stay, in whatever order. -/
theorem State.StreamsSound.of_members {loose : List Nat} {s t : State} (h : s.StreamsSound loose) (htable : t.table = s.table)
    (hmem : ∀ k i m, m ∈ (t.lane k).ring i ↔ m ∈ (s.lane k).ring i) (hnodup : ∀ k i, ((t.lane k).ring i).Nodup)
    (hviews : t.views = s.views) (hboot : t.boot = s.boot) : t.StreamsSound loose where
  range e he := h.range e (htable ▸ he)
  follows e he hl := by
    obtain ⟨hdef, hmember⟩ := h.follows e (htable ▸ he) hl
    refine ⟨by rwa [inSomeRing_congr fun k i => hmem k i e.entry], fun k i => ?_⟩
    rw [hmem, meetsRing_congr hviews hboot rfl rfl rfl rfl rfl]
    exact hmember k i
  nodup := hnodup
  used k i n hn := by
    rw [htable]
    exact h.used k i n ((hmem k i n).1 hn)

theorem holdSet_hold (p : Params) (l : LaneNo) (len : Nat) (stop : Slice) (e : Stream) :
    holdSet p l len stop e = { e with hold := (holdSet p l len stop e).hold } := by
  rw [holdSet]
  split <;> rfl

/-- A member of a ring that moves to its tail. -/
theorem rotate_keeps {s : State} {l : LaneNo} {cls n : Nat} (hn : n ∈ s.ring l cls) :
    (∀ k j m, m ∈ ((rotate l cls n s).lane k).ring j ↔ m ∈ (s.lane k).ring j) ∧
    ((∀ k j, ((s.lane k).ring j).Nodup) → ∀ k j, (((rotate l cls n s).lane k).ring j).Nodup) ∧
    (∀ k, (rotate l cls n s).lane k = { s.lane k with rings := ((rotate l cls n s).lane k).rings }) ∧
    rotate l cls n s = { s with lanes := (rotate l cls n s).lanes } := by
  cases hi : ringIndex cls with
  | none =>
    have hsame : rotate l cls n s = s := by rw [rotate, hi]
    rw [hsame]
    exact ⟨fun _ _ _ => Iff.rfl, id, fun _ => rfl, rfl⟩
  | some i =>
    have hcls := ringIndex_spec hi
    rw [ring_of_class hcls] at hn
    obtain ⟨hrings, hlanes, -, hframe⟩ := rotate_spec (l := l) (n := n) (s := s) hcls
    refine ⟨fun k j m => ?_, fun hnodup k j => ?_, hlanes, hframe⟩
    · rw [hrings]
      split
      · next hkj =>
        rw [hkj.1, hkj.2]
        by_cases hm : m = n <;> simp [hm, hn]
      · rfl
    · rw [hrings]
      split
      · exact ((hnodup l i).filter _).append (List.nodup_singleton n) (by simp)
      · exact hnodup k j

namespace State.Sound

theorem syncRings {s : State} (h : s.Sound) (n : Nat) : (syncRings n s).Sound :=
  State.Sound.of_sync h.chip h.records (h.streams.mono (List.nil_subset _))

theorem inSomeRing_of_mem {s : State} {l : LaneNo} {cls n : Nat} (h : n ∈ s.ring l cls) : s.inSomeRing n = true := by
  rw [State.ring] at h
  split at h
  · next i _ => exact (State.inSomeRing_iff s n).2 ⟨l, i, h⟩
  · cases h

/-- R87, R90: a member of a ring moves to its tail. -/
theorem rotate {s : State} (h : s.Sound) {l : LaneNo} {cls n : Nat} (hn : n ∈ s.ring l cls) : (rotate l cls n s).Sound := by
  obtain ⟨hmem, hnodup, hlanes, hframe⟩ := rotate_keeps hn
  generalize Machine.rotate l cls n s = t at hmem hnodup hlanes hframe ⊢
  rw [hframe]
  exact ⟨h.chip.of_rings rfl rfl rfl rfl hlanes, h.records.of_same rfl rfl rfl rfl rfl rfl,
    h.streams.of_members (t := { s with lanes := t.lanes }) rfl hmem (hnodup h.streams.nodup) rfl rfl⟩

theorem noteVisit {s : State} (h : s.Sound) (d : DataStep) (visits : Nat) : (noteVisit d visits s).Sound :=
  h.modBuild_same fun _ => ⟨rfl, rfl⟩

theorem claimPlaced {s : State} (h : s.Sound) (l : LaneNo) (v : View) (payload : Nat) (stop : Slice) :
    (claimPlaced l v payload stop s).Sound := by
  have hpending := h.modView v.tag
    (f := fun v => { v with own := v.own.map fun o => if o.lane = l then { o with pending := o.pending + payload } else o })
    (fun _ => ⟨rfl, rfl, rfl, rfl⟩) fun w hw => hw.of_own rfl rfl rfl le_rfl
  rw [Machine.claimPlaced]
  generalize Machine.modView v.tag _ s = u at hpending ⊢
  have hmarked := hpending.modBuild_same
    (f := fun b => { b with marks := if b.marks.contains v.index then b.marks else b.marks ++ [v.index] }) fun _ => ⟨rfl, rfl⟩
  exact hmarked.offerClaim _ _ _ _ _

/-- R90, R92: what a placed DATA turn does to its stream. -/
theorem dataPlaced {s : State} (h : s.Sound) (b : Build) {cls : Nat} {e x : Stream} (hring : e.entry ∈ s.ring b.lane cls)
    (hx : s.entry? e.entry = some x) (hspread : x.isSpread = e.isSpread) (len payload : Nat) (stop : Slice) :
    (dataPlaced b cls e len payload stop s).Sound := by
  have hrotated := h.rotate hring
  obtain ⟨hmem, -, -, hframe⟩ := rotate_keeps hring
  have hin : (Machine.rotate b.lane cls e.entry s).inSomeRing e.entry = true :=
    (inSomeRing_congr fun k i => hmem k i e.entry).trans (inSomeRing_of_mem hring)
  have htable : (Machine.rotate b.lane cls e.entry s).table = s.table := by rw [hframe]
  clear hmem hframe
  rw [Machine.dataPlaced]
  generalize Machine.rotate b.lane cls e.entry s = u at hrotated hin htable ⊢
  have hone : ∀ y ∈ u.table, y.entry = e.entry → y.isSpread = e.isSpread := fun y hy hye => by
    rw [htable] at hy
    obtain rfl : y = x := Option.some.inj ((h.records.entry?_eq_some.2 ⟨hy, hye⟩).symm.trans hx)
    exact hspread
  cases hsp : e.isSpread with
  | false =>
    simp only [Bool.false_eq_true, if_false]
    refine hrotated.updateEntry (fun y _ _ => ?_) fun y hy _ => ?_
    · rw [holdSet_hold]
      exact .of_same rfl rfl rfl rfl rfl rfl
    · rw [holdSet_hold]
      have hr := hrotated.streams.range y hy
      refine ⟨?_, hr.turns, hr.data, (Nat.sub_le _ _).trans hr.deficit⟩
      show (if y.isSpread then y.demand else y.demand - payload) ≤ _
      split
      · exact hr.demand
      · exact (Nat.sub_le _ _).trans hr.demand
  | true =>
    simp only [if_true]
    have htaken : (Machine.modEntry e.entry (fun y => holdSet u.params b.lane len stop
        { y with deficit := y.deficit - payload, demand := if y.isSpread then y.demand else y.demand - payload }) u).Sound := by
      refine hrotated.modEntry (fun y _ _ => ?_) fun y hy hye => ?_
      · rw [holdSet_hold]
        exact .of_same rfl rfl rfl rfl rfl rfl
      · rw [holdSet_hold, hone y hy hye, hsp]
        have hr := hrotated.streams.range y hy
        exact ⟨⟨hr.demand, hr.turns, hr.data, (Nat.sub_le _ _).trans hr.deficit⟩, fun _ => ⟨rfl, rfl, rfl, .inl (hye ▸ hin)⟩⟩
    refine State.Sound.syncRings ?_ e.entry
    split
    · exact htaken.claimPlaced b.lane _ payload stop
    · exact htaken

/-- R88 to R90: the visit of an eligible stream. -/
theorem serveVisit {s : State} (h : s.Sound) {b : Build} (hb : s.BuildsAs b) (hroom : b.full = false) {d : DataStep} {e : Stream}
    (hring : e.entry ∈ s.ring b.lane d.cls) (he : s.entry? e.entry = some e) (hlist : e.listHasRoom = true) :
    (serveVisit b d e s).Sound := by
  have hone : ∀ x ∈ s.table, x.entry = e.entry → x = e := fun x hx hxe =>
    Option.some.inj ((h.records.entry?_eq_some.2 ⟨hx, hxe⟩).symm.trans he)
  have hquantum : (Machine.modEntry e.entry (fun x => { x with deficit := x.withQuantum }) s).Sound := by
    refine h.modEntry (fun _ _ _ => .of_same rfl rfl rfl rfl rfl rfl) fun x hx hxe => ?_
    have hr := h.streams.range x hx
    exact ⟨⟨hr.demand, hr.turns, hr.data, Nat.min_le_right _ _⟩, fun _ => ⟨rfl, rfl, rfl, .inl (hxe ▸ inSomeRing_of_mem hring)⟩⟩
  rw [Machine.serveVisit]
  dsimp only
  split
  · next off len payload hfound =>
    split at hfound
    · obtain ⟨g, hg, hcov⟩ := dataPlace_covers hfound
      have hplaced := hquantum.placeTurn (hb.of_builder rfl) (n := e.entry) (t := dataTurn b e off len payload) (channel := none)
        (evict := false) hg hcov hroom (.inr fun y hy hye => by
          obtain ⟨x, hx, rfl⟩ := List.mem_map.1 hy
          have hxe : x.entry = e.entry := by
            revert hye
            split <;> exact id
          rw [if_pos (by simpa using hxe), hone x hx hxe]
          exact hlist)
      have hentry : (Machine.placeTurn b e.entry (dataTurn b e off len payload) none false
          (Machine.modEntry e.entry (fun x => { x with deficit := x.withQuantum }) s)).entry? e.entry =
          some { e with deficit := e.withQuantum, turns := e.turns ++ [b.turnOf (dataTurn b e off len payload) none] } := by
        have hregion : (Machine.placeRegion (dataTurn b e off len payload)
            (Machine.modEntry e.entry (fun x => { x with deficit := x.withQuantum }) s)).entry? e.entry =
            (Machine.modEntry e.entry (fun x => { x with deficit := x.withQuantum }) s).entry? e.entry := rfl
        have htaken := modEntry_entry e.entry e.entry (fun x => { x with deficit := x.withQuantum }) (fun _ => rfl) s
        rw [placeTurn_eq, appendTurn_entry, hregion, htaken, he]
        simp
      exact State.Sound.noteVisit (hplaced.dataPlaced b hring hentry rfl len payload _) d 0
    · cases hfound
  · exact State.Sound.noteVisit (hquantum.rotate hring) d _

theorem visitFill {s : State} (h : s.Sound) {b : Build} (hb : s.BuildsAs b) (hroom : b.full = false) (d : DataStep) :
    (visitFill b d s).Sound := by
  rw [Machine.visitFill]
  split
  · next n hn =>
    have hring : n ∈ s.ring b.lane d.cls := List.mem_of_mem_head? hn
    split
    · next e he =>
      obtain rfl : e.entry = n := entry?_number he
      split
      · next helig =>
        simp only [State.eligible, Bool.and_eq_true] at helig
        exact h.serveVisit hb hroom hring he helig.1.2
      · exact State.Sound.noteVisit (h.rotate hring) d _
    · exact State.Sound.noteVisit (h.rotate hring) d _
  · exact h

end State.Sound

end Sys2Proof.Machine
end

section
/-! PROOF. Safety under the fill commands and the completion of a build (1.4, 5, 9.5). -/

namespace Sys2Proof.Machine

theorem nextVisit_room {s : State} {b : Build} {d : DataStep} (h : s.nextVisit b = some d) : b.full = false := by
  rw [State.nextVisit] at h
  split at h
  · next hroom =>
    obtain ⟨g, hg⟩ := Option.isSome_iff_exists.1 hroom.2
    exact (Build.room_spec hg).1
  · cases h

/-- The views change in what no allowance depends on. -/
theorem State.StreamsSound.of_available {loose : List Nat} {s t : State} (h : s.StreamsSound loose) (htable : t.table = s.table)
    (hrings : ∀ k, (t.lane k).rings = (s.lane k).rings) (havailable : ∀ e k, t.available e k = s.available e k) :
    t.StreamsSound loose where
  range e he := h.range e (htable ▸ he)
  follows e he hl := by
    obtain ⟨hdef, hmem⟩ := h.follows e (htable ▸ he) hl
    refine ⟨by rwa [inSomeRing_congr (s := s) fun k i => by rw [ring_congr hrings]], fun k i => ?_⟩
    rw [ring_congr hrings, State.meetsRing, havailable, ← State.meetsRing]
    exact hmem k i
  nodup k i := by rw [ring_congr hrings]; exact h.nodup k i
  used k i n hn := by
    rw [ring_congr hrings] at hn
    rw [htable]
    exact h.used k i n hn

namespace State.Sound

/-- A fill step is that of the build in flight. -/
theorem fillStep {s : State} (h : s.Sound) (k : Nat) {fill : Build → State → State}
    (hfill : ∀ b u, u.Sound → u.BuildsAs b → (fill b u).Sound) : (fillStep k fill s).Sound := by
  rw [Machine.fillStep]
  split
  · next b hb =>
    have hbuilder : s.builder = some b := Option.eq_some_of_filter_eq_some hb
    have hbuilds : s.BuildsAs b := ⟨b, hbuilder, rfl, rfl⟩
    exact hfill b _ (h.modBuild_same fun _ => ⟨rfl, rfl⟩) (hbuilds.modBuild fun _ => ⟨rfl, rfl⟩)
  · exact h

theorem cadenceRequestStep {s : State} (h : s.Sound) : (cadenceRequestStep s).Sound :=
  h.fillStep 1 fun b u hu hb => by
    split
    · next r hr =>
      obtain ⟨hmem, hrunning⟩ := nextCadence_running hr
      exact hu.cadenceFill hb hmem hrunning
    · exact hu

theorem probePlacementStep {s : State} (h : s.Sound) : (probePlacementStep s).Sound :=
  h.fillStep 2 fun b u hu hb => by
    split
    · exact hu.probeFill hb _
    · exact hu

theorem joinRegionStep {s : State} (h : s.Sound) : (joinRegionStep s).Sound := h.fillStep 3 fun _ _ hu hb => hu.joinFill hb

theorem minimumOpenStep {s : State} (h : s.Sound) : (minimumOpenStep s).Sound := h.fillStep 4 fun _ _ hu hb => hu.openFill hb

theorem pollStep {s : State} (h : s.Sound) : (pollStep s).Sound :=
  h.fillStep 5 fun b u hu hb => by
    split
    · next e he =>
      rw [State.nextPoll] at he
      split at he
      · exact hu.pollFill hb (List.mem_of_find?_eq_some he)
      · cases he
    · exact hu

theorem drrVisitStep {s : State} (h : s.Sound) : (drrVisitStep s).Sound :=
  h.fillStep 6 fun b u hu hb => by
    split
    · next d hd => exact hu.visitFill hb (nextVisit_room hd) d
    · exact hu

theorem leftoverStep {s : State} (h : s.Sound) : (leftoverStep s).Sound := h.fillStep 7 fun _ _ hu hb => hu.leftoverFill hb

/-! ### Completions -/

/-- R26, R91, R124: the countdowns and hold-untils of a completed build. -/
theorem countBuild {s : State} (h : s.Sound) (b : Build) :
    (countBuild b.lane b.reloaded (sliceAdd b.start s.params.planLength) s).Sound := by
  have hkept := h.mapTable_kept (f := Stream.builtOn b.lane b.reloaded (sliceAdd b.start s.params.planLength))
    fun e => ⟨.of_same rfl rfl rfl rfl rfl rfl, rfl, rfl, rfl, rfl, rfl, rfl⟩
  rwa [← counted_table b s] at hkept

/-- R154: release waits count, and no allowance changes. -/
theorem countReleaseWaits {s : State} (h : s.Sound) (l : LaneNo) (marks : List Nat) : (countReleaseWaits l marks s).Sound := by
  have hsame (v : View) : v.SameStream (v.countWait s.boot.peerId l (marks.contains v.index)) := ⟨rfl, rfl, rfl, rfl⟩
  refine State.Sound.mk (h.chip.of_same rfl rfl rfl h.chip.status rfl)
    (h.records.mapViews rfl rfl rfl rfl rfl rfl hsame fun v hv => ((View.ok_iff v).1 (h.records.view v hv)).of_own rfl rfl rfl le_rfl)
    (h.streams.of_available rfl (fun _ => rfl) fun e k => ?_)
  have hview : (Machine.countReleaseWaits l marks s).viewOf e.tag = _ := viewOf_mapped rfl hsame e.tag
  rw [State.available, State.available, State.allowanceOf, State.allowanceOf, hview]
  cases s.viewOf e.tag with
  | none => rfl
  | some v => simp only [Option.map_some, ← allowance_countWait s.boot.peerId l k (marks.contains v.index) v]; rfl

/-- R9, R95: the lane of a completed build. -/
theorem completedLane {s : State} (h : s.Sound) {b : Build} (hb : s.builder = some b) :
    (Machine.modLane b.lane (fun L => (L.completed s.params b).countJoin b.joinSet) s).Sound := by
  obtain ⟨hok, hready⟩ := h.chip.build b hb
  have hcompleted : ((s.lane b.lane).completed s.params b).Sound s b.lane :=
    { h.chip.lane b.lane with
      plan := fun p hp => by
        obtain rfl := Option.some.inj hp
        exact (Build.ok_iff.1 hok).plan_ok (List.length_take_le _ _)
      loading := fun hload => absurd hload hready
      corrections := (h.chip.lane b.lane).corrections.sublist ((List.drop_sublist _ _).map _) }
  refine h.modLane ?_ ?_
  · rw [Lane.countJoin]
    split
    · exact hcompleted
    · exact { hcompleted with }
  · rw [Lane.countJoin]
    split <;> rfl

/-- R9, R10, R163: the completion of the build in flight. -/
theorem completeBuild {s : State} (h : s.Sound) {b : Build} (hb : s.builder = some b) : (completeBuild b s).Sound := by
  have hcounted := (((h.completedLane hb).countBuild b).countReleaseWaits b.lane b.marks).healthCompletion b.lane
  have hfree := hcounted.noBuild
  rw [Machine.completeBuild]
  generalize ({ Machine.healthCompletion b.lane _ with builder := none } : State) = u at hfree ⊢
  split
  · split
    · exact (hfree.lapsePlan _).failRamp _
    · exact hfree.lapsePlan _
  · split
    · exact hfree.failRamp _
    · exact hfree

theorem buildCompletionStep {s : State} (h : s.Sound) : (buildCompletionStep s).Sound := by
  rw [Machine.buildCompletionStep]
  split
  · next b hb =>
    split
    · exact h.completeBuild hb
    · exact h
  · exact h

theorem rampTimeoutStep {s : State} (h : s.Sound) (l : LaneNo) : (rampTimeoutStep l s).Sound := by
  rw [Machine.rampTimeoutStep]
  split
  · next b hb =>
    split
    · exact h.completeBuild (Option.eq_some_of_filter_eq_some hb)
    · exact h
  · exact h

end State.Sound

end Sys2Proof.Machine
end

section
/-! PROOF. Safety under a full reset, the boot read and the entry to READY (10.2). -/

namespace Sys2Proof.Machine

theorem backoff_reset_ok {n : Nat} (h : n ≤ 10) : ({ first := n, last := n } : Backoff).ok n = true := by
  simp [Backoff.ok, h]

/-- R174: the clamps keep the minimum starts within 10. -/
theorem bootParams_minima (image : List Byte) :
    (bootParams image).health.openMin ≤ 10 ∧ (bootParams image).health.joinMin ≤ 10 :=
  ⟨(clamp_bounds (Nat.zero_le 10) _).2, (clamp_bounds (Nat.zero_le 10) _).2⟩

theorem enterRamp_boot (l : LaneNo) (cause : LaneCause) (s : State) : (enterRamp l cause s).boot = s.boot := by
  rw [enterRamp, rampChannels, rampMaintenance, modLane_boot, announceState, offerLane_boot, queueStatus_boot, modHealth_boot]

theorem carrierChange_boot (l : LaneNo) (c : Carrier) (s : State) : (carrierChange l c s).boot = s.boot := by
  simp only [carrierChange]
  split
  · split
    · rw [enterRamp_boot, modHealth_boot]
    · rw [modHealth_boot]
  · rw [(goDark_spec l _ _).2.2.1, modHealth_boot]
  · rw [(goDark_spec l _ _).2.2.1, modHealth_boot]
  · rw [modHealth_boot]

theorem handCarrier_boot (s : State) (l : LaneNo) : (handCarrier s l).boot = s.boot := by
  rw [handCarrier]
  split
  · exact carrierChange_boot l _ s
  · rfl

namespace State.Sound

/-- A change of the Boot Loader and of lanes alone. -/
theorem of_boot {s t : State} (h : s.Sound) (hchip : t.ChipSound) (hpeer : t.boot.peerId = s.boot.peerId) (htable : t.table = s.table)
    (htag : t.tagMap = s.tagMap) (hindex : t.stationIndex = s.stationIndex) (hpool : t.pool = s.pool)
    (hchan : t.channels = s.channels) (hviews : t.views = s.views) (hrings : ∀ k, (t.lane k).rings = (s.lane k).rings) : t.Sound :=
  ⟨hchip, h.records.of_same htable htag hindex hpool hchan hviews, h.streams.of_available htable hrings fun e k => by
    simp only [State.available, State.allowanceOf, State.viewOf, hviews, hpeer]⟩

theorem fullResetStep (s : State) (straps : PeerNo) : (fullResetStep straps s).Sound := resetFor_sound straps s.nodeTime s.pending

/-- R174: a readable image. -/
theorem bootReadable {s : State} (h : s.Sound) (hload : s.boot.startup = .loading) (image : List Byte) :
    (bootReadable image s).Sound := by
  obtain ⟨hboot, hlane, hframe⟩ := bootReadable_spec image s
  generalize Machine.bootReadable image s = t at hboot hlane hframe ⊢
  have hbus : t.bus = s.bus := by rw [hframe]
  have hfitted (l : LaneNo) : t.fitted l = (bootParams image).fitted[l.val] := by rw [State.fitted, State.params, hboot]
  obtain ⟨hopen, hjoin⟩ := bootParams_minima image
  refine h.of_boot ⟨?status, ?bus, fun l => ?lane, fun b hb => ?build⟩ (by rw [hboot]) (by rw [hframe]) (by rw [hframe]) (by rw [hframe])
    (by rw [hframe]) (by rw [hframe]) (by rw [hframe]) fun k => ?rings
  case status => rw [hframe]; exact h.chip.status
  case bus => rw [hbus]; exact h.chip.bus
  case build =>
    rw [hframe] at hb
    exact absurd hload (h.chip.build b hb).2
  case lane =>
    rw [hlane]
    have hl := h.chip.lane l
    have hlistening : t.boot.startup ≠ .loading := by simp [hboot]
    split
    · refine ⟨hl.fifo, rfl, fun _ => ?_, fun ho => hbus ▸ hl.owed ho, hl.plan, fun hs => absurd hs hlistening, hl.corrections⟩
      rw [State.params, hboot]
      exact ⟨backoff_reset_ok hopen, backoff_reset_ok hjoin⟩
    · next hnone =>
      exact ⟨hl.fifo, hl.floor, fun hf => absurd (hfitted l ▸ hf) hnone, fun ho => hbus ▸ hl.owed ho, hl.plan,
        fun hs => absurd hs hlistening, hl.corrections⟩
  case rings =>
    rw [hlane]
    split <;> rfl

/-- R175: an unreadable image. -/
theorem bootHalted {s : State} (h : s.Sound) (hload : s.boot.startup = .loading) : (bootHalted s).Sound := by
  obtain ⟨hboot, hlane, hframe⟩ := bootHalted_spec s
  generalize Machine.bootHalted s = t at hboot hlane hframe ⊢
  have hbus : t.bus = s.bus := by rw [hframe]
  have hparams : t.params = s.params := by rw [State.params, State.params, hboot]
  refine h.of_boot ⟨?status, ?bus, fun l => ?lane, fun b hb => ?build⟩ (by rw [hboot]) (by rw [hframe]) (by rw [hframe]) (by rw [hframe])
    (by rw [hframe]) (by rw [hframe]) (by rw [hframe]) fun k => (by rw [hlane])
  case status => rw [hframe]; exact h.chip.status
  case bus => rw [hbus]; exact h.chip.bus
  case build =>
    rw [hframe] at hb
    exact absurd hload (h.chip.build b hb).2
  case lane =>
    rw [hlane]
    have hl := h.chip.lane l
    refine ⟨hl.fifo, hl.floor, fun hf => ?_, fun ho => hbus ▸ hl.owed ho, hl.plan, fun hs => ?_, hl.corrections⟩
    · rw [State.fitted, hparams] at hf
      rw [hparams]
      exact hl.pairs hf
    · simp [hboot] at hs

theorem bootReadStep {s : State} (h : s.Sound) (image : Option (List Byte)) : (bootReadStep image s).Sound := by
  rw [Machine.bootReadStep]
  split
  · next hload =>
    split
    · exact h.bootReadable hload _
    · exact h.bootHalted hload
  · exact h

theorem handCarrier {s : State} (h : s.Sound) (hready : s.boot.startup ≠ .loading) (l : LaneNo) : (handCarrier s l).Sound := by
  rw [Machine.handCarrier]
  split
  · exact h.carrierChange hready l _
  · exact h

/-- READY: the chip is past the boot read. -/
theorem modReady {s : State} (h : s.Sound) :
    (Machine.modBoot (fun b => { b with startup := .ready }) s).Sound := by
  refine h.of_boot ⟨h.chip.status, h.chip.bus, fun l => ?_, fun b hb => ⟨(h.chip.build b hb).1, ?_⟩⟩ rfl rfl rfl rfl rfl rfl rfl fun _ => rfl
  · exact { h.chip.lane l with pairs := (h.chip.lane l).pairs, loading := fun hs => by cases hs }
  · intro hs
    cases hs

/-- R177: the entry to READY. -/
theorem readyStep {s : State} (h : s.Sound) : (readyStep s).Sound := by
  by_cases hdue : s.readyDue = true
  · rw [readyStep_due hdue]
    have hentered : (readyEntered s).Sound := by
      cases hclash : s.bus.clash with
      | true => rw [readyEntered_muted hclash]; exact h.modReady.enterMute _
      | false => rw [readyEntered_active hclash]; exact h.modReady.enterActive
    have hready : (readyEntered s).boot.startup ≠ .loading := by rw [readyEntered_frame]; simp
    have hfold (ls : List LaneNo) : ∀ {u : State}, u.Sound → u.boot.startup ≠ .loading → (ls.foldl Machine.handCarrier u).Sound := by
      induction ls with
      | nil => exact fun hu _ => hu
      | cons l ls ih => exact fun hu hb => ih (hu.handCarrier hb l) (by rwa [handCarrier_boot])
    exact hfold _ hentered hready
  · rw [Machine.readyStep, if_neg hdue]
    exact h

end State.Sound

end Sys2Proof.Machine
end

section
/-! PROOF. Safety under the orders that add no record (10.3). -/

namespace Sys2Proof.Machine

/-! ### Amended records (R34) -/

theorem amend_kin (p : Params) (self : PeerNo) (a : Amendment) {e : Stream} (hserved : e.served = true) : e.Kin (e.amend p self a) := by
  rw [amend_eq p self a hserved]
  exact .of_same rfl rfl rfl rfl rfl rfl

theorem dataEntries_unstale (e : Stream) :
    ((e.turns.map fun t => ({ t with stale := false } : Turn)).filter fun t => t.kind == .data || t.kind == .poll).length =
      e.dataEntries := by
  rw [List.filter_map, List.length_map]
  rfl

theorem amend_inRange (p : Params) (self : PeerNo) (a : Amendment) {e : Stream} (hserved : e.served = true) (h : e.InRange) :
    (e.amend p self a).InRange := by
  rw [amend_eq p self a hserved]
  refine ⟨?demand, ?turns, ?data, ?deficit⟩
  case demand =>
    show (if a.changesMode e = true then 0 else e.demand) ≤ _
    split
    · exact Nat.zero_le _
    · exact h.demand
  case turns =>
    show (if a.changesMode e = true then e.turns.map fun x => { x with stale := false } else e.turns).length ≤ _
    split
    · rw [List.length_map]; exact h.turns
    · exact h.turns
  case data =>
    show ((if a.changesMode e = true then e.turns.map fun x => { x with stale := false } else e.turns).filter _).length ≤ _
    split
    · rw [dataEntries_unstale]; exact h.data
    · exact h.data
  case deficit =>
    show (if a.changesMode e = true then 0 else min e.deficit ((a.quantum.map (4 * ·)).getD e.deficit)) ≤ 4 * a.quantum.getD e.quantum
    split
    · exact Nat.zero_le _
    · cases a.quantum with
      | none => exact (min_le_left _ _).trans h.deficit
      | some q => exact min_le_right _ _

namespace State.Sound

/-- R179: an order taken in READY alone. -/
theorem whenReady {s : State} (h : s.Sound) (seq : Byte) {k : State → State} (hk : s.boot.startup = .ready → (k s).Sound) :
    (whenReady seq k s).Sound := by
  rw [Machine.whenReady]
  split
  · next hready => exact hk hready
  · exact h.refuse seq _

theorem not_loading_of_ready {s : State} (hready : s.boot.startup = .ready) : s.boot.startup ≠ .loading := by simp [hready]

/-! ### The port (R178, R180 to R188) -/

theorem answerData {s : State} (h : s.Sound) (seq : Byte) (data : List Byte) : (answerData seq data s).Sound := h.putReply seq _ _ _

theorem reportEntry {s : State} (h : s.Sound) (seq : Byte) (n : Nat) : (reportEntry seq n s).Sound := by
  rw [Machine.reportEntry]
  exact (h.answerData seq _).modPort h.chip.status

theorem readStreamStep {s : State} (h : s.Sound) (seq selector : Byte) (value : BitVec 16) :
    (readStreamStep seq selector value s).Sound := by
  rw [Machine.readStreamStep]
  split
  · exact h.refuse seq _
  · refine h.whenReady seq fun _ => ?_
    split
    · split
      · exact h.reportEntry seq _
      · exact h.refuse seq _
    · split
      · exact h.reportEntry seq _
      · exact h.refuse seq _

theorem readNextStep {s : State} (h : s.Sound) (seq : Byte) : (readNextStep seq s).Sound :=
  h.whenReady seq fun _ => by
    split
    · exact h.reportEntry seq _
    · exact (h.putReply seq _ _ _).modPort h.chip.status

theorem readCadenceStep {s : State} (h : s.Sound) (seq : Byte) (channel : BitVec 16) : (readCadenceStep seq channel s).Sound :=
  h.whenReady seq fun _ => by
    split
    · exact h.refuse seq _
    · exact h.answerData seq _

theorem readLaneStep {s : State} (h : s.Sound) (seq lane : Byte) (clearSet : BitVec 16) : (readLaneStep seq lane clearSet s).Sound :=
  h.whenReady seq fun _ => by
    split
    · exact (h.answerData seq _).modHealth_same rfl rfl rfl rfl
    · exact h.refuse seq _

theorem readPeersStep {s : State} (h : s.Sound) (seq : Byte) : (readPeersStep seq s).Sound := h.whenReady seq fun _ => h.answerData seq _

theorem fetchStatusStep {s : State} (h : s.Sound) (seq : Byte) : (fetchStatusStep seq s).Sound :=
  h.whenReady seq fun _ => by
    split
    · next m rest hqueue =>
      have hstatus := h.chip.status
      rw [hqueue, List.length_cons] at hstatus
      exact (h.modPort (f := fun p => { p with statusQueue := rest }) (Nat.le_of_succ_le hstatus)).answerData seq _
    · exact h.putReply seq _ _ _

theorem statusStep {s : State} (h : s.Sound) (seq mark : Byte) : (statusStep seq mark s).Sound :=
  (h.answerData seq _).modPort h.chip.status

theorem orderBadFormatStep {s : State} (h : s.Sound) (frame : List Byte) : (orderBadFormatStep frame s).Sound := by
  rw [Machine.orderBadFormatStep]
  split
  · exact h.refuse _ _
  · exact h

theorem replyTransactionStep {s : State} (h : s.Sound) (n : Nat) : (replyTransactionStep n s).Sound := h.modPort h.chip.status

/-! ### Lanes, retirement and the closing of channels (R35, R100, R159, R160) -/

theorem laneUpStep {s : State} (h : s.Sound) (seq lane weight : Byte) : (laneUpStep seq lane weight s).Sound :=
  h.whenReady seq fun hready => by
    split
    · exact (h.laneUp (not_loading_of_ready hready) _ _).answerDone seq _
    · exact h.refuse seq _

theorem laneDownStep {s : State} (h : s.Sound) (seq lane : Byte) : (laneDownStep seq lane s).Sound :=
  h.whenReady seq fun _ => by
    split
    · exact (h.laneDown _).answerDone seq _
    · exact h.refuse seq _

theorem retireStep {s : State} (h : s.Sound) (seq : Byte) (tag : BitVec 16) : (retireStep seq tag s).Sound :=
  h.whenReady seq fun _ => by
    split
    · split
      · exact h.refuse seq _
      · exact h.answerDone seq _
      · exact (h.retireWithChildren _ _).answerDone seq _
    · exact h.refuse seq _

theorem cadenceCloseStep {s : State} (h : s.Sound) (seq : Byte) (channel : BitVec 16) : (cadenceCloseStep seq channel s).Sound :=
  h.whenReady seq fun _ => by
    split
    · exact h.refuse seq _
    · split
      · next c hc => exact (h.endChannel (List.mem_of_find?_eq_some hc) rfl rfl rfl rfl _).answerDone seq _
      · exact h.answerDone seq _

/-! ### AMEND and the upgrade of a station (R33, R34) -/

theorem applyAmendment {s : State} (h : s.Sound) {n : Nat} (hserved : ∀ e ∈ s.table, e.entry = n → e.served = true) (a : Amendment) :
    (applyAmendment n a s).Sound :=
  h.updateEntry (fun e he hen => amend_kin _ _ a (hserved e he hen)) fun e he hen =>
    amend_inRange _ _ a (hserved e he hen) (h.streams.range e he)

/-- The stream of a tag is the only one of its entry. -/
theorem served_of_byTag {s : State} (h : s.Sound) {tag : Nat} {e : Stream} (he : s.byTag tag = some e) (hserved : e.served = true) :
    ∀ d ∈ s.table, d.entry = e.entry → d.served = true := fun d hd hde => by
  rwa [h.records.eq_of_entry hd (mem_of_entry? (byTag_entry he)) hde]

theorem amendStep {s : State} (h : s.Sound) (seq : Byte) (f : AmendFields) : (amendStep seq f s).Sound :=
  h.whenReady seq fun _ => by
    split
    · next e he =>
      obtain ⟨hfound, hstate⟩ := Option.filter_eq_some_iff.1 he
      have hserved : e.served = true := by
        rw [beq_iff_eq] at hstate
        simp [Stream.served, hstate]
      split
      · exact h.refuse seq _
      · exact (h.applyAmendment (h.served_of_byTag hfound hserved) _).answerDone seq _
    · exact h.refuse seq _

theorem upgradeStation {s : State} (h : s.Sound) {f : AdmitFields} {e : Stream} (he : s.upgraded f = some e) :
    (upgradeStation e f s).Sound := by
  obtain ⟨hfound, hp⟩ := Option.filter_eq_some_iff.1 he
  simp only [Bool.and_eq_true, beq_iff_eq] at hp
  obtain ⟨⟨hbasic, hstation⟩, -⟩ := hp
  have hemem := mem_of_entry? (byTag_entry hfound)
  have hone : ∀ d ∈ s.table, d.entry = e.entry → d = e := fun d hd hde => h.records.eq_of_entry hd hemem hde
  have haddress := (h.records.family e hemem).address ▸ hstation
  have hserved : e.served = true := by simp [Stream.served, hbasic]
  have hadmitted := h.modEntry (n := e.entry) (f := fun e => { e with state := .admitted, admitCountdown := none })
    (fun d hd hde => by
      rw [hone d hd hde]
      exact ⟨rfl, rfl, rfl, rfl, rfl, .inr ⟨haddress, by simp [hbasic], rfl, .inl hserved⟩⟩)
    fun d hd hde => by
      rw [hone d hd hde]
      exact .of_same (h.streams.range e hemem) hserved.symm rfl rfl rfl rfl (h.streams.range e hemem).turns
        (h.streams.range e hemem).data
  refine hadmitted.applyAmendment (fun d hd hde => ?_) _
  obtain ⟨c, -, rfl⟩ := List.mem_map.1 hd
  split at hde
  · next hc => rw [if_pos hc]; rfl
  · next hc => exact absurd (by simpa using hde) hc

end State.Sound

end Sys2Proof.Machine
end

section
/-! PROOF. Safety under ADMIT and CADENCE OPEN (2.3, 6.2). -/

namespace Sys2Proof.Machine

/-! ### CADENCE OPEN (R98, R99) -/

theorem Channel.bound_symm {a b : Channel} (h : a.bound b.tag b.lane = true) : b.bound a.tag a.lane = true := by
  simp only [Channel.bound, Bool.and_eq_true, beq_iff_eq] at h ⊢
  exact ⟨h.1.symm, h.2.symm⟩

/-- A number with no program enters as a new channel, RUNNING or STANDBY as R99 says. -/
theorem State.ChannelsSound.opened {s t : State} (h : s.ChannelsSound) {c : Channel} (htable : t.table = s.table)
    (hchan : t.channels = insertBy Channel.number c s.channels) (hnew : s.channel? c.number = none)
    (hstate : c.state = if s.pairBusy c.tag c.lane then .standby else .running) (hcarried : c.carried = [])
    (hbound : ∃ e ∈ s.table, e.tag = c.tag ∧ e.served = true) : t.ChannelsSound := by
  have hmem {d : Channel} : d ∈ t.channels ↔ d = c ∨ d ∈ s.channels := by rw [hchan]; exact mem_insertBy
  have hbusy (tag : Nat) (l : LaneNo) (hb : s.pairBusy tag l = true) : t.pairBusy tag l = true := by
    obtain ⟨d, hd, hlive⟩ := pairBusy_iff.1 hb
    exact pairBusy_iff.2 ⟨d, hmem.2 (.inr hd), hlive⟩
  refine ⟨?numbers, ?single, fun d hd hs => ?standby, fun d hd => ?carried, fun d hd => ?bound⟩
  case numbers =>
    rw [hchan]
    refine pairwise_insertBy h.numbers fun x hx hxc => ?_
    have := List.find?_eq_none.1 hnew x hx
    simp [hxc] at this
  case single =>
    have hsymm : ∀ {a b : Channel}, ¬(a.live = true ∧ b.live = true ∧ b.bound a.tag a.lane = true) →
        ¬(b.live = true ∧ a.live = true ∧ a.bound b.tag b.lane = true) := fun hab ⟨hb, ha, hba⟩ =>
      hab ⟨ha, hb, Channel.bound_symm hba⟩
    rw [hchan, (insertBy_perm Channel.number c s.channels).pairwise_iff hsymm, List.pairwise_cons]
    refine ⟨fun d hd ⟨hlive, hdlive, hdbound⟩ => ?_, h.single⟩
    rw [if_pos (pairBusy_iff.2 ⟨d, hd, hdlive, hdbound⟩)] at hstate
    simp [Channel.live, hstate] at hlive
  case standby =>
    obtain rfl | hd := hmem.1 hd
    · cases hb : s.pairBusy d.tag d.lane with
      | true => exact hbusy _ _ hb
      | false => simp [hstate, hb] at hs
    · exact hbusy _ _ (h.standby d hd hs)
  case carried =>
    obtain rfl | hd := hmem.1 hd
    · rw [hcarried]; exact Nat.zero_le _
    · exact h.carried d hd
  case bound =>
    rw [htable]
    obtain rfl | hd := hmem.1 hd
    · exact hbound
    · exact h.bound d hd

/-- What a CADENCE OPEN that fails no check meets. -/
theorem openRefusal_none {f : CadenceOpenFields} {l : LaneNo} {s : State} (h : s.openRefusal f = none) (hl : s.fittedByte f.lane = some l) :
    s.cadenceBindable f.tag.toNat l = true ∧ s.channel? f.channel.toNat = none := by
  simp only [State.openRefusal, hl] at h
  split at h
  · cases h
  split at h
  · cases h
  next hbind =>
  split at h
  · cases h
  next hfree =>
  exact ⟨by simpa using hbind, by simpa using hfree⟩

theorem State.Sound.cadenceOpenStep {s : State} (h : s.Sound) (seq : Byte) (f : CadenceOpenFields) : (cadenceOpenStep seq f s).Sound :=
  h.whenReady seq fun _ => by
    split
    · exact h.refuse seq _
    · next hnone =>
      split
      · next l hl =>
        obtain ⟨hbind, hfree⟩ := openRefusal_none hnone hl
        have hbound : ∃ e ∈ s.table, e.tag = f.tag.toNat ∧ e.served = true := by
          rw [State.cadenceBindable] at hbind
          split at hbind
          · next e he =>
            rw [Bool.and_eq_true] at hbind
            obtain ⟨hmem, htag⟩ := (byTag_eq_some_iff h.records.found h.records.mapped).1 he
            exact ⟨e, hmem, htag, hbind.1⟩
          · cases hbind
        exact (h.of_channels (h.records.toChannelsSound.opened (t := addChannel (s.openedChannel f l) s) rfl rfl hfree rfl rfl hbound)
          h.chip.status rfl rfl rfl rfl rfl rfl rfl rfl rfl).answerDone seq _
      · exact h

end Sys2Proof.Machine
end

section
/-! PROOF. Safety under ADMIT (R32, R33). -/

namespace Sys2Proof.Machine

/-- What an ADMIT of a new service stream that fails no check meets. -/
theorem admitRefusal_none_new {f : AdmitFields} {s : State} (h : s.admitRefusal f = none) (hnew : s.upgraded f = none) :
    s.admitTagOk f.tag.toNat = true ∧ s.lookupTag f.tag.toNat = none ∧ (admitSpread f = true → s.lowestView.isSome = true) := by
  simp only [State.admitRefusal, hnew] at h
  split at h
  · cases h
  next htag =>
  split at h
  · cases h
  next hfree =>
  split at h
  · cases h
  split at h
  · cases h
  split at h
  · cases h
  split at h
  · cases h
  split at h
  · cases h
  next hview =>
  refine ⟨by simpa using htag, by simpa using hfree, fun hspread => ?_⟩
  cases hv : s.lowestView with
  | none => simp [hspread, hv] at hview
  | some i => rfl

/-- The view of a new spread stream is empty. -/
theorem View.new_sound (i : Nat) (self : PeerNo) {e : Stream} (h : e.spreadSet.Nodup) : (View.new i self e).Sound :=
  ⟨h, .nil, List.forall_mem_nil _, Nat.zero_le _, List.forall_mem_nil _, Nat.zero_le _⟩

/-- R145: a new view allows nothing. -/
theorem allowance_new (self : PeerNo) (i : Nat) (e : Stream) (l : LaneNo) : allowance self (View.new i self e) l = 0 := by
  rw [allowance]
  split
  · next hshare => cases hshare
  · rfl

theorem spreadOf_nodup (f : AdmitFields) : (spreadOf f).Nodup := (List.nodup_finRange 32).filter _

/-- No view stands under a tag that is not mapped. -/
theorem State.Sound.viewOf_unmapped {s : State} (h : s.Sound) {tag : Nat} (hnew : s.lookupTag tag = none) : s.viewOf tag = none := by
  refine List.find?_eq_none.2 fun v hv hvt => ?_
  obtain ⟨e, he, -, het, -⟩ := h.records.owner v hv
  have hl := h.records.lookupTag he
  rw [het, show v.tag = tag by simpa using hvt, hnew] at hl
  cases hl

/-- The views with that of a new spread stream, which enters under an index not in use. -/
theorem Entered.viewsAdded {e : Stream} {s t : State} (h : Entered e s t) (hs : s.Sound) {i : Nat} {set : List NodeLane}
    (hplace : e.place = .spread set i) (hset : set.Nodup) (hserved : e.served = true) (hfree : s.view? i = none)
    (hviews : t.views = insertBy View.index (View.new i s.boot.peerId e) s.views) : t.ViewsSound := by
  have hmem {v : View} : v ∈ t.views ↔ v = View.new i s.boot.peerId e ∨ v ∈ s.views := by rw [hviews]; exact mem_insertBy
  have hspreadSet : e.spreadSet = set := by simp [Stream.spreadSet, hplace]
  obtain ⟨hself, hothers⟩ := viewOf_insertBy (hs.viewOf_unmapped h.unmapped) hviews
  refine ⟨?indexes, fun v hv => ?view, fun v hv => ?owner, fun d hd hsp hds => ?viewed⟩
  case indexes =>
    rw [hviews]
    refine pairwise_insertBy hs.records.indexes fun v hv hvi => ?_
    have := List.find?_eq_none.1 hfree v hv
    simp [hvi, View.new] at this
  case view =>
    obtain rfl | hv := hmem.1 hv
    · exact (View.ok_iff _).2 (View.new_sound i _ (hspreadSet ▸ hset))
    · exact hs.records.view v hv
  case owner =>
    obtain rfl | hv := hmem.1 hv
    · exact ⟨e, h.mem.2 (.inl rfl), rfl, rfl, by rw [hplace, View.new, hspreadSet], hserved⟩
    · obtain ⟨d, hd, hrest⟩ := hs.records.owner v hv
      exact ⟨d, h.mem.2 (.inr hd), hrest⟩
  case viewed =>
    obtain rfl | hd := h.mem.1 hd
    · exact hself ▸ rfl
    · rw [hothers _ (h.tag_ne hs.records.toNamesSound hd)]
      exact hs.records.viewed d hd hsp hds

/-- A new service stream under a served station. -/
structure ServiceOf (s : State) (e : Stream) : Prop where
  free : s.entry? e.entry = none
  unmapped : s.lookupTag e.tag = none
  tag : e.tag ≤ Config.lastServiceTag
  state : e.state = .admitted
  address : e.address = none
  parent : ∃ p ∈ s.table, p.entry = e.parent ∧ p.isStation = true ∧ p.served = true
  demand : e.demand = 0
  deficit : e.deficit = 0
  turns : e.turns = []

namespace ServiceOf

theorem isStation {s : State} {e : Stream} (h : ServiceOf s e) : e.isStation = false := by
  obtain ⟨p, hp, hpe, -⟩ := h.parent
  have := List.find?_eq_none.1 h.free p hp
  rw [beq_iff_eq, hpe] at this
  simpa [Stream.isStation] using this

theorem inRange {s : State} {e : Stream} (h : ServiceOf s e) : e.InRange :=
  ⟨by rw [h.demand]; exact Nat.zero_le _, by rw [h.turns]; exact Nat.zero_le _, by rw [Stream.dataEntries, h.turns]; exact Nat.zero_le _,
    by rw [h.deficit]; exact Nat.zero_le _⟩

/-- The names of the streams with a new service stream among them. -/
theorem names {s t : State} {e : Stream} (h : ServiceOf s e) (hs : s.Sound) (hentered : Entered e s t)
    (hindex : t.stationIndex = s.stationIndex) (hpool : t.pool = s.pool) : t.NamesSound [] := by
  have hlookup (a : BitVec 48) : t.lookupAddress a = s.lookupAddress a := by rw [State.lookupAddress, State.lookupAddress, hindex]
  refine hentered.names hs.records.toNamesSound ⟨by rw [h.isStation, h.address]; rfl, fun _ => ⟨.inl h.state, ?_⟩⟩
    (hindex ▸ hs.records.addresses) (fun x hx => .inl (hindex ▸ hx)) (fun a ha => by rw [h.address] at ha; cases ha)
    (fun d _ a _ hd => by rwa [hlookup]) (fun tag ht => ?_) fun hst => by rw [h.isStation] at hst; cases hst
  · obtain ⟨p, hp, hpe, hst, hserved⟩ := h.parent
    exact ⟨p, hentered.mem.2 (.inr hp), hpe, hst, .inl hserved⟩
  · rw [hpool] at ht
    have hlast := (hs.records.pool tag ht).1
    exact ⟨ht, fun heq => absurd h.tag (Nat.not_le.2 (heq ▸ hlast))⟩

/-- R33: a non-spread service stream enters. -/
theorem enters_home {s : State} {e : Stream} (h : ServiceOf s e) (hs : s.Sound) {l : LaneNo} (hplace : e.place = .home l) :
    (addEntry e s).Sound := by
  have hentered : Entered e s (addEntry e s) := ⟨h.free, h.unmapped, rfl, rfl⟩
  refine ⟨hs.chip.of_same rfl rfl rfl hs.chip.status rfl, ⟨h.names hs hentered rfl rfl, hentered.channels hs.records.toChannelsSound rfl,
    hentered.views hs.records.toViewsSound rfl (.inl ?_)⟩,
    hentered.streams hs.streams (fun _ => rfl) rfl (fun _ _ => rfl) h.inRange h.deficit fun k c => ?_⟩
  · simp [Stream.isSpread, Stream.homeLane, hplace]
  · simp [State.meetsRing, State.available, hplace, h.demand]

/-- R33, R144: a spread service stream enters with its view. -/
theorem enters_spread {s : State} {e : Stream} (h : ServiceOf s e) (hs : s.Sound) {i : Nat} {set : List NodeLane}
    (hplace : e.place = .spread set i) (hset : set.Nodup) (hfree : s.view? i = none) :
    (addView (View.new i s.boot.peerId e) (addEntry e s)).Sound := by
  set t := addView (View.new i s.boot.peerId e) (addEntry e s) with ht
  have hentered : Entered e s t := ⟨h.free, h.unmapped, rfl, rfl⟩
  have hviews : t.views = insertBy View.index (View.new i s.boot.peerId e) s.views := rfl
  obtain ⟨hself, hothers⟩ := viewOf_insertBy (hs.viewOf_unmapped h.unmapped) hviews
  have hserved : e.served = true := by simp [Stream.served, h.state]
  refine ⟨hs.chip.of_same rfl rfl rfl hs.chip.status rfl, ⟨h.names hs hentered rfl rfl, hentered.channels hs.records.toChannelsSound rfl,
    hentered.viewsAdded hs hplace hset hserved hfree hviews⟩,
    hentered.streams hs.streams (fun _ => rfl) rfl (fun d hd => hothers _ (hentered.tag_ne hs.records.toNamesSound hd)) h.inRange h.deficit
      fun k c => ?_⟩
  have hnothing : t.allowanceOf e k = 0 := by
    rw [State.allowanceOf, show e.tag = (View.new i s.boot.peerId e).tag from rfl, hself]
    exact allowance_new ..
  simp [State.meetsRing, State.available, hplace, hnothing]

end ServiceOf

namespace State.Sound

/-- R33: an accepted ADMIT of a service stream. -/
theorem admitService {s : State} (h : s.Sound) {f : AdmitFields} {n : Nat} {parent : Stream} (hok : s.admitRefusal f = none)
    (hnew : s.upgraded f = none) (hparent : s.parentOf f = some parent) (hfree : s.lowestFree = some n) :
    (admitService f n parent.entry s).Sound := by
  obtain ⟨htag, hunmapped, hview⟩ := admitRefusal_none_new hok hnew
  obtain ⟨hfound, hp⟩ := Option.filter_eq_some_iff.1 hparent
  rw [Bool.and_eq_true] at hp
  have hservice : ServiceOf s (s.newService f n parent.entry) := by
    rw [newService_eq]
    refine ⟨(lowestFree_spec hfree).1, hunmapped, ?_, rfl, rfl, ⟨parent, mem_of_entry? (byTag_entry hfound), rfl, hp.2, hp.1⟩, rfl, rfl, rfl⟩
    simpa [State.admitTagOk, hunmapped] using htag
  have hplace : (s.newService f n parent.entry).place = s.admitPlace f := by rw [newService_eq]
  rw [Machine.admitService]
  generalize s.newService f n parent.entry = e at hservice hplace ⊢
  split
  · next set i hspread =>
    rw [hplace, State.admitPlace] at hspread
    split at hspread
    · next hs =>
      obtain ⟨j, hj⟩ := Option.isSome_iff_exists.1 (hview hs)
      rw [hj] at hspread
      obtain ⟨rfl, rfl⟩ := Place.spread.inj hspread
      refine hservice.enters_spread h (hplace.trans ?_) (spreadOf_nodup f) (Option.isNone_iff_eq_none.1 (firstUnder_spec hj).1)
      rw [State.admitPlace, if_pos hs, hj]
    · cases hspread
  · next l hhome => exact hservice.enters_home h hhome

theorem admitAccepted {s : State} (h : s.Sound) (seq : Byte) {f : AdmitFields} (hok : s.admitRefusal f = none) :
    (admitAccepted seq f s).Sound := by
  rw [Machine.admitAccepted]
  split
  · next e he => exact (h.upgradeStation he).answerDone seq _
  · next hnew =>
    split
    · next parent n hparent hfree => exact (h.admitService hok hnew hparent hfree).answerDone seq _
    · exact h

theorem admitStep {s : State} (h : s.Sound) (seq : Byte) (f : AdmitFields) : (admitStep seq f s).Sound := by
  rw [Machine.admitStep]
  split
  · exact h.refuse seq _
  · refine h.whenReady seq fun _ => ?_
    split
    · exact h.refuse seq _
    · next hok => exact h.admitAccepted seq hok

end State.Sound

end Sys2Proof.Machine
end

section
/-! PROOF. Safety under the passing of node time (1.1), and of every step (O59). -/

namespace Sys2Proof.Machine

namespace State.Sound

/-! ### What is due (log 5, log 6) -/

theorem whenDue {s t : State} {due : Bool} {step : State → State} (hstep : (step s).Sound) (ht : whenDue due step s = some t) :
    t.Sound := by
  rw [Machine.whenDue] at ht
  split at ht
  · exact Option.some.inj ht ▸ hstep
  · cases ht

theorem laneDue {s t : State} {due : State → LaneNo → Bool} {step : LaneNo → State → State} (hstep : ∀ l, (step l s).Sound)
    (ht : laneDue due step s = some t) : t.Sound := by
  obtain ⟨l, -, rfl⟩ := Option.map_eq_some_iff.1 ht
  exact hstep l

theorem fillOf {s : State} (h : s.Sound) (k : Nat) : (fillOf k s).Sound := by
  unfold Machine.fillOf
  split
  · exact h.cadenceRequestStep
  · exact h.probePlacementStep
  · exact h.joinRegionStep
  · exact h.minimumOpenStep
  · exact h.pollStep
  · exact h.drrVisitStep
  · exact h.leftoverStep

theorem builderNext {s : State} (h : s.Sound) : (builderNext s).Sound := by
  rw [Machine.builderNext]
  split
  · exact h.fillOf _
  · exact h.buildCompletionStep

/-- A due step keeps the chip safe, whichever it is. -/
theorem dueStep {s t : State} (h : s.Sound) (ht : dueStep s = some t) : t.Sound := by
  obtain ⟨f, hf, ht⟩ := List.exists_of_findSome?_eq_some ht
  simp only [dueSteps, List.mem_cons, List.not_mem_nil, or_false] at hf
  obtain rfl | rfl | rfl | rfl | rfl | rfl | rfl | rfl | rfl | rfl | rfl | rfl | rfl := hf
  · exact whenDue h.readyStep ht
  · obtain ⟨e, -, rfl⟩ := Option.map_eq_some_iff.1 ht
    exact h.admitExpiryStep _
  · obtain ⟨d, -, rfl⟩ := Option.map_eq_some_iff.1 ht
    exact h.releaseWaitStep _ _
  · obtain ⟨p, -, rfl⟩ := Option.map_eq_some_iff.1 ht
    exact h.outcomeWaitStep _ _ _
  · obtain ⟨e, -, rfl⟩ := Option.map_eq_some_iff.1 ht
    exact h.probeDeadlineStep _
  · exact laneDue h.marginPointStep ht
  · exact laneDue h.buildPointStep ht
  · exact whenDue h.builderNext ht
  · exact whenDue h.buildStartStep ht
  · exact laneDue h.cutDeadlineStep ht
  · obtain ⟨p, -, rfl⟩ := Option.map_eq_some_iff.1 ht
    exact h.peerSilenceStep p
  · exact whenDue h.muteRecoveryStep ht
  · exact whenDue h.refreshStep ht

theorem settle {fuel : Nat} : ∀ {s : State}, s.Sound → (settle fuel s).Sound := by
  induction fuel with
  | zero => exact id
  | succ fuel ih =>
    intro s h
    rw [Machine.settle]
    split
    · next hdue => exact ih (h.dueStep hdue)
    · exact h

/-! ### Ticks (R1, R2) -/

theorem tickLane {s : State} (h : s.Sound) (l : LaneNo) : (tickLane s l).Sound := by
  have hlane (L : Lane) : L.tick = { L with slice := L.tick.slice, sub := L.tick.sub } := by
    rw [Lane.tick]
    split <;> rfl
  rw [Machine.tickLane]
  split
  · exact h.modLane (by rw [hlane]; exact { h.chip.lane l with }) (by rw [hlane])
  · exact h

/-- The node time is no part of safety. -/
theorem setTime {s : State} (h : s.Sound) (now : Tick) : ({ s with nodeTime := now } : State).Sound :=
  h.of_same rfl rfl rfl rfl rfl rfl rfl rfl rfl rfl rfl

theorem tickOnce {s : State} (h : s.Sound) : (tickOnce s).Sound :=
  State.Sound.foldl (fun _ l hs => hs.tickLane l) _ (h.setTime _)

theorem advance {d : Nat} : ∀ {s : State}, s.Sound → (advance d s).Sound := by
  induction d with
  | zero => exact id
  | succ d ih => exact fun h => ih h.settle.tickOnce

theorem nodeTimeStep {s : State} (h : s.Sound) (value : Tick) : (nodeTimeStep value s).Sound := by
  rw [Machine.nodeTimeStep]
  split
  · exact h.advance
  · exact h.setTime value

/-! ### Every command -/

/-- Every command is defined on a safe state and leaves a safe one. -/
theorem exec {s : State} (h : s.Sound) (i : Instr) : ∃ t, exec i s = .next t ∧ t.Sound := by
  cases i with
  | fullReset p => exact ⟨_, rfl, fullResetStep s p⟩
  | bootReadComplete image => exact ⟨_, rfl, h.bootReadStep image⟩
  | ready => exact ⟨_, rfl, h.readyStep⟩
  | nodeTimeChange value => exact ⟨_, rfl, h.nodeTimeStep value⟩
  | buildPoint l => exact ⟨_, rfl, h.buildPointStep l⟩
  | cutDeadline l => exact ⟨_, rfl, h.cutDeadlineStep l⟩
  | buildStart => exact ⟨_, rfl, h.buildStartStep⟩
  | cadenceRequest => exact ⟨_, rfl, h.cadenceRequestStep⟩
  | probePlacement => exact ⟨_, rfl, h.probePlacementStep⟩
  | joinRegion => exact ⟨_, rfl, h.joinRegionStep⟩
  | minimumOpenRegion => exact ⟨_, rfl, h.minimumOpenStep⟩
  | poll => exact ⟨_, rfl, h.pollStep⟩
  | drrVisit => exact ⟨_, rfl, h.drrVisitStep⟩
  | leftoverOpenRegion => exact ⟨_, rfl, h.leftoverStep⟩
  | buildCompletion => exact ⟨_, rfl, h.buildCompletionStep⟩
  | admitCountdownExpiry n => exact ⟨_, rfl, h.admitExpiryStep n⟩
  | rampTimeout l => exact ⟨_, rfl, h.rampTimeoutStep l⟩
  | releaseWait v l => exact ⟨_, rfl, h.releaseWaitStep v l⟩
  | take => exact ⟨_, rfl, h.takeStep⟩
  | marginPoint l => exact ⟨_, rfl, h.marginPointStep l⟩
  | recordArrival l w => exact ⟨_, rfl, h.recordArrivalStep l w⟩
  | carrierRecord l w => exact ⟨_, rfl, h.carrierRecordStep l w⟩
  | demandReport l => exact ⟨_, rfl, h.demandReportStep l⟩
  | burstOutcome l => exact ⟨_, rfl, h.burstOutcomeStep l⟩
  | unknownRecordType l => exact ⟨_, rfl, h.unknownTypeStep l⟩
  | joinArrival l => exact ⟨_, rfl, h.joinArrivalStep l⟩
  | outcomeWaitExpiry n l start => exact ⟨_, rfl, h.outcomeWaitStep n l start⟩
  | probeDeadline n => exact ⟨_, rfl, h.probeDeadlineStep n⟩
  | frameTransmitStart before rivals => exact ⟨_, rfl, h.transmitStartStep before rivals⟩
  | frameDelivery bits => exact ⟨_, rfl, h.frameDeliveryStep bits⟩
  | frameVoided bits => exact ⟨_, rfl, h.frameVoidedStep bits⟩
  | peerSilence p => exact ⟨_, rfl, h.peerSilenceStep p⟩
  | muteRecovery => exact ⟨_, rfl, h.muteRecoveryStep⟩
  | refresh => exact ⟨_, rfl, h.refreshStep⟩
  | admitOrder seq f => exact ⟨_, rfl, h.admitStep seq f⟩
  | amend seq f => exact ⟨_, rfl, h.amendStep seq f⟩
  | retire seq tag => exact ⟨_, rfl, h.retireStep seq tag⟩
  | cadenceOpen seq f => exact ⟨_, rfl, h.cadenceOpenStep seq f⟩
  | cadenceClose seq channel => exact ⟨_, rfl, h.cadenceCloseStep seq channel⟩
  | laneUp seq lane weight => exact ⟨_, rfl, h.laneUpStep seq lane weight⟩
  | laneDown seq lane => exact ⟨_, rfl, h.laneDownStep seq lane⟩
  | readStream seq selector value => exact ⟨_, rfl, h.readStreamStep seq selector value⟩
  | readNext seq => exact ⟨_, rfl, h.readNextStep seq⟩
  | readCadence seq channel => exact ⟨_, rfl, h.readCadenceStep seq channel⟩
  | readLane seq lane clearSet => exact ⟨_, rfl, h.readLaneStep seq lane clearSet⟩
  | readPeers seq => exact ⟨_, rfl, h.readPeersStep seq⟩
  | fetchStatus seq => exact ⟨_, rfl, h.fetchStatusStep seq⟩
  | status seq mark => exact ⟨_, rfl, h.statusStep seq mark⟩
  | orderBadFormat frame => exact ⟨_, rfl, h.orderBadFormatStep frame⟩
  | replyTransaction n => exact ⟨_, rfl, h.replyTransactionStep n⟩

/-- The commands that wait are no part of safety. -/
theorem setPending {s : State} (h : s.Sound) (waiting : List Instr) : ({ s with pending := waiting } : State).Sound :=
  h.of_same rfl rfl rfl rfl rfl rfl rfl rfl rfl rfl rfl

theorem step {s t : State} (h : s.Sound) (ht : step s = .next t) : t.Sound := by
  rw [Machine.step] at ht
  split at ht
  · next c rest _ =>
    obtain ⟨u, hu, hsound⟩ := (h.setPending rest).exec c
    rw [hu] at ht
    exact Host.Outcome.next.inj ht ▸ hsound
  · exact Host.Outcome.next.inj ht ▸ h

end State.Sound

/-- Settles O59: the Boolean says the three parts of `State.Sound`, and each command keeps them by the lemma that bears its name. -/
theorem everyStepKeepsSafety : Obligations.EveryStepKeepsSafety := fun s _ hsafe hstep =>
  (safe_iff_sound _).2 (((safe_iff_sound s).1 hsafe).step hstep)

end Sys2Proof.Machine
end
